-- ==== Sys2Proof/Word.lean ====
section
/-!
DEFINITION. The word types of the block (spec/00_scope.md R10): bytes and 32-bit host operands.
-/

namespace Sys2Proof

/-- A byte (R10). -/
abbrev Byte := BitVec 8

/-- A host operand, address, length, count, timeout or tick: `W = 32` bits, unsigned (R10). -/
abbrev Word := BitVec 32

end Sys2Proof
end

