-- ==== Sys2Proof/Config.lean ====
section
/-!
DEFINITION. The parameters of the block (spec/00_scope.md R7 to R9), and the free values: constants with no body, of which
nothing can be proved, that stand for what the spec leaves open (R6, R14, R74, R220, R261).
-/

namespace Sys2Proof

/-- `ADDR_MODE_OVERRIDE` (R8, R24). -/
inductive AddrMode where
  | auto
  | force3
  | force4
deriving DecidableEq, Repr

/-- `FAST_CFG` (R8, R27). -/
inductive FastCfg where
  | disabled
  | enabled
  | fixed (b : Bool)
deriving DecidableEq, Repr

/-- The parameters of R8: resolved at construction, never changed afterwards. `W` is the type `Word`. -/
structure Params where
  vendorMarker : Byte
  capBase      : Byte
  capTable     : List (BitVec 16)
  addrMode     : AddrMode
  fastCfg      : FastCfg
  dummy        : Byte
  uidLen       : Nat
  tickW        : Nat
  depthMax     : Nat
deriving DecidableEq, Repr

/-- The defaults of R8. -/
def Params.default : Params where
  vendorMarker := 0xEF#8
  capBase      := 0x11#8
  capTable     := [2#16, 4#16, 8#16, 16#16, 32#16, 64#16, 128#16, 256#16, 512#16, 1024#16]
  addrMode     := .auto
  fastCfg      := .enabled
  dummy        := 0x00#8
  uidLen       := 8
  tickW        := 32
  depthMax     := 2147483647

/-- The constraints of R9 (that an entry is at most 65535 is its type), with the ranges the widths of R8 give the
other parameters: a tick of at most 32 bits, a depth that a 32-bit signed counter holds, a length a word holds. -/
abbrev Params.wf (p : Params) : Prop :=
  p.vendorMarker = 0xEF#8 ∧ p.capBase.toNat ≤ 0x18 ∧ p.capTable[0x18 - p.capBase.toNat]? = some 256#16 ∧
    (∀ b ∈ p.capTable, b ≠ 0#16) ∧ 1 ≤ p.uidLen ∧ p.uidLen < 4294967296 ∧ 1 ≤ p.tickW ∧ p.tickW ≤ 32 ∧
    1 ≤ p.depthMax ∧ p.depthMax ≤ 2147483647

/-- One answer of the environment to a transfer (R71, R72). For an `Xfer`, `ok` is success with the first of `bytes`
received; for `BulkTx`, `ok` is `done = n`; for `BulkRx n`, `ok` is `done = n` with `bytes` (cut or filled with zeros to
`n`). `fail` is an unsuccessful transfer; for a bulk transfer `min done (n - 1)` bytes were moved, so every `done < n` and
no other can be told. -/
inductive Answer where
  | ok (bytes : List Byte)
  | fail (done : Nat) (bytes : List Byte)
deriving DecidableEq, Repr, Inhabited

/-- FREE VALUE: the environment's answer to the `n`-th transfer, where the state fixes none (R6, R71, R72). -/
opaque Config.freeAnswer : Nat → Answer

/-- FREE VALUE: the tick source's answer number `n`, where the state fixes none (R6, R74). -/
opaque Config.freeTick : Nat → Word

/-- FREE VALUE: byte `i` that the reference device answers in transfer `n` where R82 to R86 give it no answer (R14). -/
opaque Config.freeByte : Nat → Nat → Byte

/-- FREE VALUE: what `RESULT` holds after an operation that a fault stopped in the middle (R261). -/
opaque Config.freeResult : Nat → Word

/-- FREE VALUE: what `RDATA` holds after a read that returned 0 or that a fault stopped (R220). -/
opaque Config.freeRdata : Nat → List Byte

end Sys2Proof
end

