-- ==== Sys2Proof/Syntax.lean ====
section
/-!
DEFINITION. The two instruction-like sets of the block (spec/00_scope.md R2): the SPI frames (spec/30_encoding.md R94, R100
to R111) and the host operations (R120, R121), one constructor for each row of spec/opcode_table.json; and the two forms
in which an instruction is written down, a frame's bytes and a host request.
-/

namespace Sys2Proof

/-- An instruction: one SPI frame (first 21) or one host operation (last 22). -/
inductive Instr where
  /-- WRSR1, `0x01`, `F_OP_TX1` (R109). -/
  | wrsr1 (value : Byte)
  /-- PP3, `0x02`, `F_A_TX`, 3 address bytes (R102). -/
  | pp3 (addr : BitVec 24) (data : List Byte)
  /-- READ3, `0x03`, `F_A_RX`, 3 address bytes, `n` data bytes (R100). -/
  | read3 (addr : BitVec 24) (n : Nat)
  /-- WRDI, `0x04`, `F_OP` (R107). -/
  | wrdi
  /-- RDSR1, `0x05`, `F_OP_RX1` (R108). -/
  | rdsr1
  /-- WREN, `0x06`, `F_OP` (R106). -/
  | wren
  /-- FR3, `0x0B`, `F_A_D_RX`, 3 address bytes (R101). -/
  | fr3 (addr : BitVec 24) (n : Nat)
  /-- FR4, `0x0C`, `F_A_D_RX`, 4 address bytes (R101). -/
  | fr4 (addr : Word) (n : Nat)
  /-- WRSR3, `0x11`, `F_OP_TX1` (R109). -/
  | wrsr3 (value : Byte)
  /-- PP4, `0x12`, `F_A_TX`, 4 address bytes (R102). -/
  | pp4 (addr : Word) (data : List Byte)
  /-- READ4, `0x13`, `F_A_RX`, 4 address bytes (R100). -/
  | read4 (addr : Word) (n : Nat)
  /-- RDSR3, `0x15`, `F_OP_RX1` (R108). -/
  | rdsr3
  /-- SE3, `0x20`, `F_A`, 3 address bytes (R103). -/
  | se3 (addr : BitVec 24)
  /-- SE4, `0x21`, `F_A`, 4 address bytes (R103). -/
  | se4 (addr : Word)
  /-- WRSR2, `0x31`, `F_OP_TX1` (R109). -/
  | wrsr2 (value : Byte)
  /-- RDSR2, `0x35`, `F_OP_RX1` (R108). -/
  | rdsr2
  /-- RDUID, `0x4B`, `F_D4_RX` (R111). -/
  | rduid
  /-- RDID, `0x9F`, `F_OP_RX3` (R110). -/
  | rdid
  /-- CE, `0xC7`, `F_OP` (R105). -/
  | ce
  /-- BE3, `0xD8`, `F_A`, 3 address bytes (R104). -/
  | be3 (addr : BitVec 24)
  /-- BE4, `0xDC`, `F_A`, 4 address bytes (R104). -/
  | be4 (addr : Word)
  /-- INIT, code `0x01` (R140). -/
  | init
  /-- CAPACITY, code `0x02` (R142). -/
  | capacity
  /-- BLOCKMAX, code `0x03` (R143). -/
  | blockmax
  /-- SECTORMAX, code `0x04` (R144). -/
  | sectormax
  /-- PAGEMAX, code `0x05` (R145). -/
  | pagemax
  /-- SELECT, code `0x10` (R162). -/
  | select
  /-- DESELECT, code `0x11` (R163). -/
  | deselect
  /-- WAITBUSY, code `0x18` (R174). -/
  | waitbusy (tmo : Word)
  /-- READ, code `0x20` (R221): linear address, length. -/
  | read (a len : Word)
  /-- READPAGE, code `0x21` (R222): page index, offset, length. -/
  | readpage (a b len : Word)
  /-- READSECTOR, code `0x22` (R223): sector index, offset, length. -/
  | readsector (a b len : Word)
  /-- READBLOCK, code `0x23` (R224): block index, offset, length. -/
  | readblock (a b len : Word)
  /-- READSTATUS, code `0x28` (R175): register number. -/
  | readstatus (a : Word)
  /-- READUID, code `0x29` (R225). -/
  | readuid
  /-- WRITEPAGE, code `0x30` (R191): page index, offset, length, data. -/
  | writepage (a b len : Word) (data : List Byte)
  /-- WRITE, code `0x31` (R192): linear address, length, data. -/
  | write (a len : Word) (data : List Byte)
  /-- WRITEUNTIL, code `0x32` (R193): linear address, length, timeout, data. -/
  | writeuntil (a len tmo : Word) (data : List Byte)
  /-- WRITESTATUS, code `0x38` (R176): register number, value in `B[7:0]`. -/
  | writestatus (a b : Word)
  /-- ERASESECTOR, code `0x40` (R211): sector index. -/
  | erasesector (a : Word)
  /-- ERASEBLOCK, code `0x41` (R212): block index. -/
  | eraseblock (a : Word)
  /-- ERASECHIP, code `0x42` (R213). -/
  | erasechip
  /-- SETFAST, code `0x50` (R240): 0 = standard, nonzero = fast. -/
  | setfast (a : Word)
deriving DecidableEq, Repr

/-- What the host puts on its port for one operation: the operand latches of R31. -/
structure Request where
  op    : Byte
  a     : Word
  b     : Word
  len   : Word
  tmo   : Word
  wdata : List Byte
deriving DecidableEq, Repr

/-- A request with every operand zero. -/
def Request.ofOp (op : Byte) : Request := ⟨op, 0#32, 0#32, 0#32, 0#32, []⟩

/-- An instruction written down: the bytes the block sends in one chip-select session (R90), or a host request (R31). -/
inductive Code where
  | frame (bytes : List Byte)
  | host (r : Request)
deriving DecidableEq, Repr

/-- Whether an instruction is an SPI frame (R2 (b)); the others are host operations (R2 (a)). -/
def Instr.isFrame : Instr → Bool
  | .wrsr1 _ | .pp3 _ _ | .read3 _ _ | .wrdi | .rdsr1 | .wren | .fr3 _ _ | .fr4 _ _ | .wrsr3 _ | .pp4 _ _ | .read4 _ _
  | .rdsr3 | .se3 _ | .se4 _ | .wrsr2 _ | .rdsr2 | .rduid | .rdid | .ce | .be3 _ | .be4 _ => true
  | .init | .capacity | .blockmax | .sectormax | .pagemax | .select | .deselect | .waitbusy _ | .read _ _
  | .readpage _ _ _ | .readsector _ _ _ | .readblock _ _ _ | .readstatus _ | .readuid | .writepage _ _ _ _
  | .write _ _ _ | .writeuntil _ _ _ _ | .writestatus _ _ | .erasesector _ | .eraseblock _ | .erasechip
  | .setfast _ => false

end Sys2Proof
end

