-- ==== Sys2Proof/WellFormed.lean ====
section
/-!
DEFINITION. Which instructions are well formed: the limits the spec puts on operands beside their widths
(spec/30_encoding.md R100 to R104, R121).
-/

namespace Sys2Proof

/-- A page program frame holds 1 to `256 - addr mod 256` bytes (R102). -/
def programFits (addr n : Nat) : Bool := decide (1 ≤ n) && decide (n ≤ 256 - addr % 256)

/-- Well-formedness: what the block itself emits; a frame by itself that is not well formed but has a data part is still sent (log 24).
Frames: at least one data byte (R72, R100, R101), a program inside its page (R102), an erase address
that is a unit's first (R103, R104). Host operations: exactly `LEN` bytes of write data (R121). -/
def Instr.wellFormed : Instr → Bool
  | .pp3 addr data => programFits addr.toNat data.length
  | .pp4 addr data => programFits addr.toNat data.length
  | .read3 _ n => decide (1 ≤ n)
  | .read4 _ n => decide (1 ≤ n)
  | .fr3 _ n => decide (1 ≤ n)
  | .fr4 _ n => decide (1 ≤ n)
  | .se3 addr => decide (addr.toNat % 4096 = 0)
  | .se4 addr => decide (addr.toNat % 4096 = 0)
  | .be3 addr => decide (addr.toNat % 65536 = 0)
  | .be4 addr => decide (addr.toNat % 65536 = 0)
  | .writepage _ _ len data => decide (data.length = len.toNat)
  | .write _ len data => decide (data.length = len.toNat)
  | .writeuntil _ len _ data => decide (data.length = len.toNat)
  | .wrsr1 _ | .wrdi | .rdsr1 | .wren | .wrsr3 _ | .rdsr3 | .wrsr2 _ | .rdsr2 | .rduid | .rdid | .ce => true
  | .init | .capacity | .blockmax | .sectormax | .pagemax | .select | .deselect | .waitbusy _ | .read _ _
  | .readpage _ _ _ | .readsector _ _ _ | .readblock _ _ _ | .readstatus _ | .readuid | .writestatus _ _
  | .erasesector _ | .eraseblock _ | .erasechip | .setfast _ => true

end Sys2Proof
end

