-- ==== Sys2Proof/Decode.lean ====
section
/-!
DEFINITION. Decoding, total on any bytes and any request and rejecting by name, and after it the encoder, both written from
spec/30_encoding.md: the frames of R91, R94, R96, R98 and the host codes and operands of R120, R121.
-/

namespace Sys2Proof

/-- Why a code is no instruction. -/
inductive DecodeError where
  /-- A session without a byte. -/
  | emptySession
  /-- Byte 0 of a session is not an opcode of R94 (R99). -/
  | notAnOpcode (b : Byte)
  /-- The session ends inside the address (R91). -/
  | shortAddress
  /-- The session ends before the dummy byte or bytes (R91). -/
  | missingDummy
  /-- The session ends before the one byte or the data its format asks (R91). -/
  | missingData
  /-- The session goes on after the last byte of its format (R90, R91). -/
  | trailingBytes
  /-- `OP` is not a code of R120 (R122). -/
  | illegalOp (code : Byte)
deriving DecidableEq, Repr

/-- Three bytes, most significant first, as an address (R96). -/
def addrOfBytes3 (b2 b1 b0 : Byte) : BitVec 24 := b2 ++ b1 ++ b0

/-- Four bytes, most significant first, as an address (R96). -/
def addrOfBytes4 (b3 b2 b1 b0 : Byte) : Word := b3 ++ b2 ++ b1 ++ b0

/-- The three address bytes of the 3-byte mode (R96). -/
def bytesOfAddr3 (addr : BitVec 24) : List Byte :=
  [addr.extractLsb' 16 8, addr.extractLsb' 8 8, addr.extractLsb' 0 8]

/-- The four address bytes of the 4-byte mode (R96). -/
def bytesOfAddr4 (addr : Word) : List Byte :=
  [addr.extractLsb' 24 8, addr.extractLsb' 16 8, addr.extractLsb' 8 8, addr.extractLsb' 0 8]

/-- Read a 3-byte address and hand over the rest. -/
def withAddr3 (k : BitVec 24 → List Byte → Except DecodeError Instr) : List Byte → Except DecodeError Instr
  | b2 :: b1 :: b0 :: rest => k (addrOfBytes3 b2 b1 b0) rest
  | _ => .error .shortAddress

/-- Read a 4-byte address and hand over the rest. -/
def withAddr4 (k : Word → List Byte → Except DecodeError Instr) : List Byte → Except DecodeError Instr
  | b3 :: b2 :: b1 :: b0 :: rest => k (addrOfBytes4 b3 b2 b1 b0) rest
  | _ => .error .shortAddress

/-- The frame must end here. -/
def endOfFrame (i : Instr) : List Byte → Except DecodeError Instr
  | [] => .ok i
  | _ :: _ => .error .trailingBytes

/-- One more byte, the value of `F_OP_TX1`. -/
def withValue (mk : Byte → Instr) : List Byte → Except DecodeError Instr
  | [] => .error .missingData
  | [v] => .ok (mk v)
  | _ :: _ :: _ => .error .trailingBytes

/-- `n` more bytes, sent only to receive (`F_OP_RX1`, `F_OP_RX3`, `F_D4_RX`). -/
def withReceived (n : Nat) (i : Instr) (rest : List Byte) : Except DecodeError Instr :=
  if rest.length < n then .error .missingData else if rest.length = n then .ok i else .error .trailingBytes

/-- A data part to the end of the session, at least one byte (R98). -/
def withData (mk : List Byte → Instr) : List Byte → Except DecodeError Instr
  | [] => .error .missingData
  | b :: bs => .ok (mk (b :: bs))

/-- One dummy byte, whatever it is, then the rest (`F_A_D_RX`). -/
def withDummy (k : List Byte → Except DecodeError Instr) : List Byte → Except DecodeError Instr
  | [] => .error .missingDummy
  | _ :: rest => k rest

/-- The frame that opcode `op` begins, read from the bytes after it (R94). `uidLen` is `UID_LEN`. -/
def decodeAfterOpcode (uidLen : Nat) (op : Byte) (rest : List Byte) : Except DecodeError Instr :=
  if op = 0x01#8 then withValue .wrsr1 rest
  else if op = 0x02#8 then withAddr3 (fun a => withData (.pp3 a)) rest
  else if op = 0x03#8 then withAddr3 (fun a => withData (fun d => .read3 a d.length)) rest
  else if op = 0x04#8 then endOfFrame .wrdi rest
  else if op = 0x05#8 then withReceived 1 .rdsr1 rest
  else if op = 0x06#8 then endOfFrame .wren rest
  else if op = 0x0B#8 then withAddr3 (fun a => withDummy (withData (fun d => .fr3 a d.length))) rest
  else if op = 0x0C#8 then withAddr4 (fun a => withDummy (withData (fun d => .fr4 a d.length))) rest
  else if op = 0x11#8 then withValue .wrsr3 rest
  else if op = 0x12#8 then withAddr4 (fun a => withData (.pp4 a)) rest
  else if op = 0x13#8 then withAddr4 (fun a => withData (fun d => .read4 a d.length)) rest
  else if op = 0x15#8 then withReceived 1 .rdsr3 rest
  else if op = 0x20#8 then withAddr3 (fun a => endOfFrame (.se3 a)) rest
  else if op = 0x21#8 then withAddr4 (fun a => endOfFrame (.se4 a)) rest
  else if op = 0x31#8 then withValue .wrsr2 rest
  else if op = 0x35#8 then withReceived 1 .rdsr2 rest
  else if op = 0x4B#8 then withReceived (4 + uidLen) .rduid rest
  else if op = 0x9F#8 then withReceived 3 .rdid rest
  else if op = 0xC7#8 then endOfFrame .ce rest
  else if op = 0xD8#8 then withAddr3 (fun a => endOfFrame (.be3 a)) rest
  else if op = 0xDC#8 then withAddr4 (fun a => endOfFrame (.be4 a)) rest
  else .error (.notAnOpcode op)

/-- The instruction a session's sent bytes are: byte 0 is the opcode, its format gives the rest (R90, R98). -/
def decodeFrame (uidLen : Nat) : List Byte → Except DecodeError Instr
  | [] => .error .emptySession
  | op :: rest => decodeAfterOpcode uidLen op rest

/-- The host operation a request is: the code table of R120, the operands of R121. -/
def decodeRequest (r : Request) : Except DecodeError Instr :=
  if r.op = 0x01#8 then .ok .init
  else if r.op = 0x02#8 then .ok .capacity
  else if r.op = 0x03#8 then .ok .blockmax
  else if r.op = 0x04#8 then .ok .sectormax
  else if r.op = 0x05#8 then .ok .pagemax
  else if r.op = 0x10#8 then .ok .select
  else if r.op = 0x11#8 then .ok .deselect
  else if r.op = 0x18#8 then .ok (.waitbusy r.tmo)
  else if r.op = 0x20#8 then .ok (.read r.a r.len)
  else if r.op = 0x21#8 then .ok (.readpage r.a r.b r.len)
  else if r.op = 0x22#8 then .ok (.readsector r.a r.b r.len)
  else if r.op = 0x23#8 then .ok (.readblock r.a r.b r.len)
  else if r.op = 0x28#8 then .ok (.readstatus r.a)
  else if r.op = 0x29#8 then .ok .readuid
  else if r.op = 0x30#8 then .ok (.writepage r.a r.b r.len r.wdata)
  else if r.op = 0x31#8 then .ok (.write r.a r.len r.wdata)
  else if r.op = 0x32#8 then .ok (.writeuntil r.a r.len r.tmo r.wdata)
  else if r.op = 0x38#8 then .ok (.writestatus r.a r.b)
  else if r.op = 0x40#8 then .ok (.erasesector r.a)
  else if r.op = 0x41#8 then .ok (.eraseblock r.a)
  else if r.op = 0x42#8 then .ok .erasechip
  else if r.op = 0x50#8 then .ok (.setfast r.a)
  else .error (.illegalOp r.op)

/-- Decoding of either form. -/
def decode (uidLen : Nat) : Code → Except DecodeError Instr
  | .frame bytes => decodeFrame uidLen bytes
  | .host r => decodeRequest r

/-- The code of an instruction: a frame's bytes as the block sends them, `DUMMY_BYTE` where it only receives (R91, R71,
R100 to R111), or a host request with the operands not named zero (R120, R121). -/
def encode (p : Params) : Instr → Code
  | .wrsr1 v => .frame [0x01#8, v]
  | .pp3 addr data => .frame (0x02#8 :: (bytesOfAddr3 addr ++ data))
  | .read3 addr n => .frame (0x03#8 :: (bytesOfAddr3 addr ++ List.replicate n p.dummy))
  | .wrdi => .frame [0x04#8]
  | .rdsr1 => .frame [0x05#8, p.dummy]
  | .wren => .frame [0x06#8]
  | .fr3 addr n => .frame (0x0B#8 :: (bytesOfAddr3 addr ++ p.dummy :: List.replicate n p.dummy))
  | .fr4 addr n => .frame (0x0C#8 :: (bytesOfAddr4 addr ++ p.dummy :: List.replicate n p.dummy))
  | .wrsr3 v => .frame [0x11#8, v]
  | .pp4 addr data => .frame (0x12#8 :: (bytesOfAddr4 addr ++ data))
  | .read4 addr n => .frame (0x13#8 :: (bytesOfAddr4 addr ++ List.replicate n p.dummy))
  | .rdsr3 => .frame [0x15#8, p.dummy]
  | .se3 addr => .frame (0x20#8 :: bytesOfAddr3 addr)
  | .se4 addr => .frame (0x21#8 :: bytesOfAddr4 addr)
  | .wrsr2 v => .frame [0x31#8, v]
  | .rdsr2 => .frame [0x35#8, p.dummy]
  | .rduid => .frame (0x4B#8 :: List.replicate (4 + p.uidLen) p.dummy)
  | .rdid => .frame (0x9F#8 :: List.replicate 3 p.dummy)
  | .ce => .frame [0xC7#8]
  | .be3 addr => .frame (0xD8#8 :: bytesOfAddr3 addr)
  | .be4 addr => .frame (0xDC#8 :: bytesOfAddr4 addr)
  | .init => .host (.ofOp 0x01#8)
  | .capacity => .host (.ofOp 0x02#8)
  | .blockmax => .host (.ofOp 0x03#8)
  | .sectormax => .host (.ofOp 0x04#8)
  | .pagemax => .host (.ofOp 0x05#8)
  | .select => .host (.ofOp 0x10#8)
  | .deselect => .host (.ofOp 0x11#8)
  | .waitbusy tmo => .host ⟨0x18#8, 0#32, 0#32, 0#32, tmo, []⟩
  | .read a len => .host ⟨0x20#8, a, 0#32, len, 0#32, []⟩
  | .readpage a b len => .host ⟨0x21#8, a, b, len, 0#32, []⟩
  | .readsector a b len => .host ⟨0x22#8, a, b, len, 0#32, []⟩
  | .readblock a b len => .host ⟨0x23#8, a, b, len, 0#32, []⟩
  | .readstatus a => .host ⟨0x28#8, a, 0#32, 0#32, 0#32, []⟩
  | .readuid => .host (.ofOp 0x29#8)
  | .writepage a b len data => .host ⟨0x30#8, a, b, len, 0#32, data⟩
  | .write a len data => .host ⟨0x31#8, a, 0#32, len, 0#32, data⟩
  | .writeuntil a len tmo data => .host ⟨0x32#8, a, 0#32, len, tmo, data⟩
  | .writestatus a b => .host ⟨0x38#8, a, b, 0#32, 0#32, []⟩
  | .erasesector a => .host ⟨0x40#8, a, 0#32, 0#32, 0#32, []⟩
  | .eraseblock a => .host ⟨0x41#8, a, 0#32, 0#32, 0#32, []⟩
  | .erasechip => .host (.ofOp 0x42#8)
  | .setfast a => .host ⟨0x50#8, a, 0#32, 0#32, 0#32, []⟩

/-- How many bytes follow an opcode in the shortest frame it can begin, or none for no opcode of R94 (R91). -/
def shortestTail (uidLen : Nat) (op : Byte) : Option Nat :=
  if op = 0x04#8 ∨ op = 0x06#8 ∨ op = 0xC7#8 then some 0
  else if op = 0x01#8 ∨ op = 0x31#8 ∨ op = 0x11#8 ∨ op = 0x05#8 ∨ op = 0x35#8 ∨ op = 0x15#8 then some 1
  else if op = 0x9F#8 ∨ op = 0x20#8 ∨ op = 0xD8#8 then some 3
  else if op = 0x02#8 ∨ op = 0x03#8 ∨ op = 0x21#8 ∨ op = 0xDC#8 then some 4
  else if op = 0x0B#8 ∨ op = 0x12#8 ∨ op = 0x13#8 then some 5
  else if op = 0x0C#8 then some 6
  else if op = 0x4B#8 then some (4 + uidLen)
  else none

/-- The code that a table row's bits `w` stand for, every operand bit and byte not given being zero. A code byte that both
sets hold is read as the host operation (log 5); one of R94 alone is the opcode of the shortest frame; any other is a
host request of an unassigned code. Bits above the table's 8 are operand bits: `A` of a request, or the bytes of a frame,
least significant first. -/
def tableCode (uidLen : Nat) (nbits w : Nat) : Code :=
  let v := w % 2 ^ nbits
  let op := BitVec.ofNat 8 v
  let r : Request := { Request.ofOp op with a := BitVec.ofNat 32 (v / 256) }
  match decodeRequest r, shortestTail uidLen op with
  | .error _, some k => .frame (op :: (List.range k).map (fun j => BitVec.ofNat 8 (v / 256 ^ (j + 1))))
  | _, _ => .host r

/-- The instruction the decoder reads from a table row's bits. -/
def decodeTableWord (nbits w : Nat) : Option Instr :=
  match decode Params.default.uidLen (tableCode Params.default.uidLen nbits w) with
  | .ok i => some i
  | .error _ => none

end Sys2Proof
end

