-- ==== Sys2Proof/Machine/State.lean ====
section
/-!
DEFINITION. Everything the spec gives the machine, as plain data: the block's state (spec/10_state.md R20), its parameters
(spec/00_scope.md R8), the trace of its port events (R14), the environment that answers it (R5, R6; spec/20_memory.md R80
to R82), and the host that presents operations (R75). The state right after reset (R40).
-/

namespace Sys2Proof.Machine

/-- The tri-state of `FAST` (R27). -/
inductive FastFlag where
  | unset
  | standard
  | fast
deriving DecidableEq, Repr

/-- The error kinds of `LASTERR` (R250); `none` is the spec's `None`. -/
inductive ErrKind where
  | none
  | deviceAbsent
  | unsupportedDevice
  | outOfRange
  | busyTimeout
  | transferFailure
  | partialWrite
  | partialRead
  | refused
deriving DecidableEq, Repr

/-- The values of `FAULTCAUSE` (R260); `none` is 0, no fault. -/
inductive FaultCause where
  | none
  | selectUnderflow
  | selectOverflow
  | illegalOp
  | reentry
deriving DecidableEq, Repr

/-- The sequencer phases of `SEQ` (R33). -/
inductive Seq where
  | idle
  | check
  | wren
  | cmd
  | dummy
  | data
  | wait
  | wrdi
  | retry
  | ident
  | status
deriving DecidableEq, Repr

/-- A port event (R14). A received byte of a failed exchange, and what a bulk receive lists beyond `done`, are not used
by any rule (R71, R72) and are not held. -/
inductive Event where
  | cs0
  | cs1
  | xfer (tx rx : Byte)
  | xferFail (tx : Byte)
  | bulkTx (bytes : List Byte) (done : Nat)
  | bulkRx (n done : Nat) (bytes : List Byte)
  | tick (t : Word)
deriving DecidableEq, Repr

/-- The reference device `RefFlash` (R80 to R82): its parameters, its cells, its write latch and busy count, and the
session in progress. -/
structure Flash where
  refId    : List Byte
  refBlocks : Nat
  refBusy  : Nat
  refSr2   : Byte
  refSr3   : Byte
  refUid   : List Byte
  /-- The cells that do not hold the erased value: see Machine/Memory.lean. -/
  mem      : List Host.Cell
  /-- `WEL`, the write latch (R35, R81). -/
  wel      : Bool
  /-- How many more read-status-1 answers show busy (R80, R81). -/
  busyLeft : Nat
  /-- The line is low: bytes are collected (R82). -/
  selected : Bool
  /-- The bytes of the session in progress, in order (R81). -/
  session  : List Byte
deriving DecidableEq, Repr

/-- One thing the host does (R75, R290). -/
inductive HostAct where
  /-- Present an operation, once the block is idle. -/
  | op (r : Request)
  /-- Present an operation at once, whatever the block does (R260 `Reentry`). -/
  | barge (r : Request)
  /-- Let the block go on for one step. -/
  | idle
  /-- Assert reset (R290). -/
  | reset
  /-- The model's own: have one SPI frame sent by itself, once the block is idle (log 4). -/
  | probe (bytes : List Byte)
deriving DecidableEq, Repr

/-- The whole machine. -/
structure State where
  /-- The parameters of R8; no operation writes them. -/
  cfg        : Params
  /-- `BLOCKCOUNT` (R21). -/
  blockcount : BitVec 16
  /-- `VENDOR` (R22). -/
  vendor     : Byte
  /-- `CAPCODE` (R22). -/
  capcode    : Byte
  /-- `DEPTH` (R25): a count, never negative; its range 0 .. `DEPTH_MAX` is an invariant (log 20). -/
  depth      : Nat
  /-- `CS` (R26): `true` is 1, the line high, the device not selected. -/
  cs         : Bool
  /-- `FAST` (R27). -/
  fast       : FastFlag
  /-- `SR1` (R28). -/
  sr1        : Byte
  /-- `SR2` (R28). -/
  sr2        : Byte
  /-- `SR3` (R28). -/
  sr3        : Byte
  /-- `LASTERR` (R29). -/
  lasterr    : ErrKind
  /-- `FAULT` (R30). -/
  fault      : Bool
  /-- `FAULTCAUSE` (R30). -/
  faultcause : FaultCause
  /-- `OP` (R31). -/
  op         : Byte
  /-- `A` (R31). -/
  a          : Word
  /-- `B` (R31). -/
  b          : Word
  /-- `LEN` (R31). -/
  len        : Word
  /-- `TMO` (R31). -/
  tmo        : Word
  /-- `WDATA` (R31). -/
  wdata      : List Byte
  /-- `RESULT` (R31). -/
  result     : Word
  /-- `RDATA` (R31). -/
  rdata      : List Byte
  /-- `SEQ` (R33). -/
  seq        : Seq
  /-- `START` (R32). -/
  start      : Word
  /-- `CUR` (R32). -/
  cur        : Word
  /-- `REM` (R32). -/
  rem        : Word
  /-- `TOTAL` (R32). -/
  total      : Word
  /-- `PAGE` (R32). -/
  page       : Word
  /-- `OFF` (R32). -/
  off        : Word
  /-- The event trace (R14), in order. -/
  trace      : List Event
  /-- Answers fixed for the coming transfers (R6): `some` an explicit answer, `none` the answer of whoever answers
  otherwise. -/
  script     : List (Option Answer)
  /-- Answers fixed for the coming `Now()` (R6). -/
  ticks      : List Word
  /-- Who answers where `script` does not: the reference device (`true`) or the free oracle (`false`). -/
  refDevice  : Bool
  /-- The reference device (R80). It sees every byte that is exchanged, whoever answers. -/
  dev        : Flash
  /-- The model's own count: numbers the free values. -/
  count      : Nat
  /-- What the host does next (R75), log 3. -/
  hostQ      : List HostAct
  /-- The model's own: whether the last frame run by itself succeeded (log 4). -/
  frameOk    : Bool
  /-- The model's own: the bytes it received (log 4). -/
  frameRx    : List Byte
deriving DecidableEq, Repr

/-- Why the machine stops with a fault. The faults of R260 are no such stop: they are next states with `FAULT = 1`. -/
inductive Fault where
  /-- Raised by `step` alone, when an operation would have to be continued in a phase that no step boundary has (log 13). Safe:
  no run from reset reaches such a state, and nothing is proved of what the hardware does there. -/
  | offBoundary
deriving DecidableEq, Repr

/-- Why something is refused. -/
inductive Refusal where
  /-- An instruction that has no meaning yet; raised by `exec` alone. Safe. -/
  | notModelled (mnemonic : String)
  /-- WRITEPAGE, WRITE or WRITEUNTIL with `WDATA` of another length than `LEN`; raised by their meanings. Safe: "a model
  refuses any other" (R121). -/
  | wdataLength
  /-- A frame with an empty data part; raised by the meanings of the frames that read or program. Safe: "The block never calls
  a bulk primitive with `n = 0`" (R72). -/
  | emptyBulk
  /-- A frame request whose bytes are no frame of R94; raised by `step`. Safe: the block never emits it (R99). -/
  | notAFrame
deriving DecidableEq, Repr

/-- The reference device as R80 and R81 give it at first: default parameters, every cell erased, latch clear, idle. -/
def Flash.initial : Flash where
  refId     := [0xEF#8, 0x40#8, 0x18#8]
  refBlocks := 256
  refBusy   := 2
  refSr2    := 0x00#8
  refSr3    := 0x00#8
  refUid    := [0xD1#8, 0xD2#8, 0xD3#8, 0xD4#8, 0xD5#8, 0xD6#8, 0xD7#8, 0xD8#8]
  mem       := []
  wel       := false
  busyLeft  := 0
  selected  := false
  session   := []

/-- The machine right after reset (R40, R290), with the default parameters (R8). The registers R40 leaves unspecified are
zero or empty: DESIGN CHOICE, log 6. The environment is the free oracle: log 9. -/
def State.reset : State where
  cfg        := Params.default
  blockcount := 0#16
  vendor     := 0#8
  capcode    := 0#8
  depth      := 0
  cs         := true
  fast       := .unset
  sr1        := 0#8
  sr2        := 0#8
  sr3        := 0#8
  lasterr    := .none
  fault      := false
  faultcause := .none
  op         := 0#8
  a          := 0#32
  b          := 0#32
  len        := 0#32
  tmo        := 0#32
  wdata      := []
  result     := 0#32
  rdata      := []
  seq        := .idle
  start      := 0#32
  cur        := 0#32
  rem        := 0#32
  total      := 0#32
  page       := 0#32
  off        := 0#32
  trace      := []
  script     := []
  ticks      := []
  refDevice  := false
  dev        := Flash.initial
  count      := 0
  hostQ      := []
  frameOk    := false
  frameRx    := []

end Sys2Proof.Machine
end

