-- ==== Sys2Proof/Machine/Operands.lean ====
section
/-!
DEFINITION. The derived functions of the block's operands: geometry and address mode (spec/10_state.md R23, R24, R27), the
AddressTranslator (spec/20_memory.md R53 to R57), the capacity table (spec/40_identify.md R146), and the opcode and address
bytes of the CommandEncoder (spec/30_encoding.md R92, R96). Values are unbounded naturals where the rules say that
nothing wraps (R58).
-/

namespace Sys2Proof.Machine

/-- A granularity (R17). -/
inductive Gran where
  | page
  | sector
  | block
deriving DecidableEq, Repr

/-- `size(g)` (R7, R17). -/
def unitSize : Gran → Nat
  | .page => 256
  | .sector => 4096
  | .block => 65536

/-- `Capacity()` in bytes (R23). -/
def capacityOf (bc : BitVec 16) : Nat := bc.toNat * 65536

/-- `BlockMax()` (R23). -/
def blockMaxOf (bc : BitVec 16) : Nat := bc.toNat

/-- `SectorMax()` (R23). -/
def sectorMaxOf (bc : BitVec 16) : Nat := bc.toNat * 16

/-- `PageMax()` (R23). -/
def pageMaxOf (bc : BitVec 16) : Nat := bc.toNat * 256

/-- `UnitMax(g)` (R23). -/
def unitMax (bc : BitVec 16) : Gran → Nat
  | .page => pageMaxOf bc
  | .sector => sectorMaxOf bc
  | .block => blockMaxOf bc

/-- `Xlate(g, idx, off, len)` (R53): `none` is `(false, 0, 0)`, `some (linear, n)` is `(true, linear, n)`. -/
def xlate (bc : BitVec 16) (g : Gran) (idx off len : Nat) : Option (Nat × Nat) :=
  if unitMax bc g ≤ idx ∨ unitSize g ≤ off then none
  else some (idx * unitSize g + off, min len (unitSize g - off))

/-- `Decomp(addr)` (R56). -/
def decomp (addr : Nat) : Nat × Nat := (addr / 256, addr % 256)

/-- `ClampLinear(addr, len)` (R57): `none` is `(false, 0)`, `some n` is `(true, n)`. -/
def clampLinear (bc : BitVec 16) (addr len : Nat) : Option Nat :=
  if capacityOf bc ≤ addr then none else some (min len (capacityOf bc - addr))

/-- `A4()` (R24). -/
def a4 (p : Params) (bc : BitVec 16) : Bool :=
  match p.addrMode with
  | .force4 => true
  | .force3 => false
  | .auto => decide (256 < bc.toNat)

/-- `FastEffective()` (R27). -/
def fastEffective (p : Params) (f : FastFlag) : Bool :=
  match p.fastCfg with
  | .disabled => false
  | .fixed b => b
  | .enabled => decide (f = .fast)

/-- `Lookup(code)` (R146): `none` is `(false, 0)`, `some blocks` is `(true, blocks)`. -/
def lookup (p : Params) (code : Byte) : Option (BitVec 16) :=
  if code.toNat < p.capBase.toNat then none else p.capTable[code.toNat - p.capBase.toNat]?

/-- The logical operations of the CommandEncoder (R92). -/
inductive LogOp where
  | read
  | fastRead
  | program
  | eraseSec
  | eraseBlk
deriving DecidableEq, Repr

/-- `Opc(lop)` under `A4()` (R92): a table of pairs. -/
def opc : LogOp → Bool → Byte
  | .read, false => 0x03#8
  | .read, true => 0x13#8
  | .fastRead, false => 0x0B#8
  | .fastRead, true => 0x0C#8
  | .program, false => 0x02#8
  | .program, true => 0x12#8
  | .eraseSec, false => 0x20#8
  | .eraseSec, true => 0x21#8
  | .eraseBlk, false => 0xD8#8
  | .eraseBlk, true => 0xDC#8

/-- `AddrBytes(addr)` under `A4()` (R96); in 3-byte mode bits 31:24 are not sent. -/
def addrBytes (four : Bool) (addr : Word) : List Byte :=
  if four then bytesOfAddr4 addr else bytesOfAddr3 (addr.extractLsb' 0 24)

/-- The status registers (R28). -/
inductive StatusReg where
  | sr1
  | sr2
  | sr3
deriving DecidableEq, Repr

/-- A register number operand: 1, 2 or 3 (R175, R176). -/
def statusReg (a : Word) : Option StatusReg :=
  if a = 1#32 then some .sr1 else if a = 2#32 then some .sr2 else if a = 3#32 then some .sr3 else none

/-- `RdsrOpc(n)` (R172). -/
def rdsrOpc : StatusReg → Byte
  | .sr1 => 0x05#8
  | .sr2 => 0x35#8
  | .sr3 => 0x15#8

/-- `WrsrOpc(n)` (R176). -/
def wrsrOpc : StatusReg → Byte
  | .sr1 => 0x01#8
  | .sr2 => 0x31#8
  | .sr3 => 0x11#8

end Sys2Proof.Machine
end

