-- ==== Sys2Proof/Machine/Flags.lean ====
section
/-!
DEFINITION. The block has no arithmetic flags (spec/10_state.md R34); what stands in their place: the codes of the error kinds and
fault causes (spec/60_exceptions.md R250, R260), the busy bit (R28, R173), the elapsed time and the two timeout
comparisons (spec/20_memory.md R74; R263), and the kind a clamped length reports (R55).
-/

namespace Sys2Proof.Machine

/-- The 4-bit code of an error kind in `LASTERR` (R250). -/
def ErrKind.code : ErrKind → BitVec 4
  | .none => 0#4
  | .deviceAbsent => 1#4
  | .unsupportedDevice => 2#4
  | .outOfRange => 3#4
  | .busyTimeout => 4#4
  | .transferFailure => 5#4
  | .partialWrite => 6#4
  | .partialRead => 7#4
  | .refused => 8#4

/-- The 3-bit code of a cause in `FAULTCAUSE` (R260). -/
def FaultCause.code : FaultCause → BitVec 3
  | .none => 0#3
  | .selectUnderflow => 1#3
  | .selectOverflow => 2#3
  | .illegalOp => 3#3
  | .reentry => 4#3

/-- Bit 0 of a status byte is clear: the device is idle (R28, R173). -/
def idleStatus (s : Byte) : Bool := !s.getLsbD 0

/-- A poll that saw the device idle: a successful read of a status with bit 0 clear (R173). -/
def sawIdle : Option Byte → Bool
  | some s => idleStatus s
  | none => false

/-- A tick answer is `TICK_W` bits wide (R12, R74). -/
def tickValue (p : Params) (t : Word) : Word := BitVec.ofNat 32 (t.toNat % 2 ^ p.tickW)

/-- `Elapsed(start, t) = (t - start) mod 2^TICK_W` (R74). -/
def elapsed (p : Params) (start t : Word) : Nat := (t - start).toNat % 2 ^ p.tickW

/-- WAITBUSY gives up at `Elapsed >= TMO` (R174, R263). -/
def waitExpired (p : Params) (start t tmo : Word) : Bool := decide (tmo.toNat ≤ elapsed p start t)

/-- WRITEUNTIL gives up at `Elapsed > TMO` (R193, R263). -/
def retryExpired (p : Params) (start t tmo : Word) : Bool := decide (tmo.toNat < elapsed p start t)

/-- What a write of `n` out of `len` bytes reports when nothing failed (R55, R190). -/
def writeKind (n len : Nat) : ErrKind := if n < len then .partialWrite else .none

/-- What a read of `n` out of `len` bytes reports when nothing failed (R55, R221). -/
def readKind (n len : Nat) : ErrKind := if n < len then .partialRead else .none

end Sys2Proof.Machine
end

