-- ==== Sys2Proof/Machine/Memory.lean ====
section
/-!
DEFINITION. The cells of the flash device (spec/20_memory.md R50, R51, R81): a list of (address, byte) pairs in one canonical
form, addresses strictly rising and no byte equal to the erased value, which is what an unlisted address reads as.
-/

namespace Sys2Proof.Machine

/-- The erased value, all ones: what an address that nothing has programmed reads as (R16, R81). -/
def erasedByte : Byte := 0xFF#8

/-- The byte at an address. -/
def memRead : List Host.Cell → Nat → Byte
  | [], _ => erasedByte
  | c :: m, a => if c.1 = a then c.2 else memRead m a

/-- A cell in front, unless it holds the erased value. -/
def memCons (a : Nat) (v : Byte) (m : List Host.Cell) : List Host.Cell :=
  if v = erasedByte then m else (a, v) :: m

/-- Set the byte at an address; the erased value removes the entry. -/
def memWrite : List Host.Cell → Nat → Byte → List Host.Cell
  | [], a, v => memCons a v []
  | c :: m, a, v =>
    if a < c.1 then memCons a v (c :: m)
    else if a = c.1 then memCons a v m
    else c :: memWrite m a v

/-- Set `n` bytes from `lo` to the erased value (R85). -/
def memErase (m : List Host.Cell) (lo n : Nat) : List Host.Cell :=
  m.filter (fun c => decide (c.1 < lo) || decide (lo + n ≤ c.1))

/-- `n` bytes from `lo` in ascending order (R59). -/
def memReadRange (m : List Host.Cell) (lo n : Nat) : List Byte :=
  (List.range n).map (fun i => memRead m (lo + i))

/-- The canonical form. -/
abbrev MemWf (m : List Host.Cell) : Prop :=
  m.Pairwise (fun x y => x.1 < y.1) ∧ ∀ c ∈ m, c.2 ≠ erasedByte

end Sys2Proof.Machine
end

