-- ==== Sys2Proof/Machine/RefFlash.lean ====
section
/-!
DEFINITION. The reference device `RefFlash` (spec/20_memory.md R80 to R86), the part of the environment that the spec describes:
what it answers byte by byte, and what a collected command does when the line goes high.
-/

namespace Sys2Proof.Machine

/-- `size(mem)` in bytes (R81). -/
def Flash.size (d : Flash) : Nat := d.refBlocks * 65536

/-- Bytes as a number, most significant first (R96). -/
def natOfBytes (bs : List Byte) : Nat := bs.foldl (fun acc b => acc * 256 + b.toNat) 0

/-- The status byte 1: bit 0 busy, bit 1 the write latch, the others 0 (R82). -/
def Flash.status1 (d : Flash) : Byte :=
  (if d.busyLeft = 0 then 0x00#8 else 0x01#8) ||| (if d.wel then 0x02#8 else 0x00#8)

/-- The linear address in the first `w` bytes after the opcode, inside the device (log 10). -/
def Flash.addrIn (d : Flash) (w : Nat) (rest : List Byte) : Nat := natOfBytes (rest.take w) % d.size

/-- Data byte `i` of a read command at address `a` (R83). -/
def Flash.dataByte (d : Flash) (a i : Nat) : Byte := memRead d.mem ((a + i) % d.size)

/-- The answer of a read command with `w` address bytes and `y` dummy bytes to the exchange after `rest` (R83). -/
def Flash.readAnswer (d : Flash) (w y : Nat) (rest : List Byte) : Option Byte :=
  if rest.length < w + y then none
  else some (d.dataByte (natOfBytes (rest.take w)) (rest.length - (w + y)))

/-- The answer to the next exchange of the session, `none` where R82 and R83 give none: to the opcode, address and dummy
bytes, and to a command that the busy device ignores. R82 gives a read-status command one status byte; that every further exchange of
its session is answered with the status byte again is PRESUMED (log 10). -/
def Flash.answer (d : Flash) : Option Byte :=
  match d.session with
  | [] => none
  | op :: rest =>
    if op = 0x05#8 then some d.status1
    else if op = 0x35#8 then some d.refSr2
    else if op = 0x15#8 then some d.refSr3
    else if d.busyLeft ≠ 0 then none
    else if op = 0x9F#8 then d.refId[rest.length]?
    else if op = 0x4B#8 then (if rest.length < 4 then none else d.refUid[rest.length - 4]?)
    else if op = 0x03#8 then d.readAnswer 3 0 rest
    else if op = 0x13#8 then d.readAnswer 4 0 rest
    else if op = 0x0B#8 then d.readAnswer 3 1 rest
    else if op = 0x0C#8 then d.readAnswer 4 1 rest
    else none

/-- Whether the next exchange is answered with a status byte 1, after which the busy count goes down (R82). That it goes down at a
further status byte of the same session too is PRESUMED (log 10). -/
def Flash.answersStatus1 (d : Flash) : Bool := d.session.head? == some 0x05#8

/-- One successful exchange: the answer, and the byte collected (R82). With the line high the device takes no part; a status byte
beyond the first of a session is answered and counted like the first (both PRESUMED, log 10). -/
def Flash.exchange (d : Flash) (tx : Byte) : Option Byte × Flash :=
  if d.selected then
    (d.answer, { d with session := d.session ++ [tx], busyLeft := if d.answersStatus1 then d.busyLeft - 1 else d.busyLeft })
  else (none, d)

/-- Several successful exchanges in order. -/
def Flash.exchangeAll (d : Flash) : List Byte → List (Option Byte) × Flash
  | [] => ([], d)
  | b :: bs =>
    let r := d.exchange b
    let rs := r.2.exchangeAll bs
    (r.1 :: rs.1, rs.2)

/-- The line goes low: a session begins (R82). -/
def Flash.csLow (d : Flash) : Flash := { d with selected := true, session := [] }

/-- Program byte `i` of `data` at `a`, inside the page, by AND with what is there (R84). -/
def programCells (m : List Host.Cell) (a : Nat) : Nat → List Byte → List Host.Cell
  | _, [] => m
  | i, b :: bs =>
    let t := (a - a % 256) + (a + i) % 256
    programCells (memWrite m t (memRead m t &&& b)) a (i + 1) bs

/-- After a write-type command has taken effect the latch is clear and the device busy (R84 to R86). -/
def Flash.startCycle (d : Flash) : Flash := { d with wel := false, busyLeft := d.refBusy }

/-- Page program with `w` address bytes (R84). -/
def Flash.program (d : Flash) (w : Nat) (rest : List Byte) : Flash :=
  if d.wel ∧ w < rest.length then
    { d with mem := programCells d.mem (d.addrIn w rest) 0 (rest.drop w) }.startCycle
  else d

/-- Erase of the unit of `n` bytes that holds the address, `w` address bytes (R85). -/
def Flash.erase (d : Flash) (w n : Nat) (rest : List Byte) : Flash :=
  if d.wel ∧ w ≤ rest.length then
    { d with mem := memErase d.mem (d.addrIn w rest - d.addrIn w rest % n) n }.startCycle
  else d

/-- Erase of the whole device (R85). -/
def Flash.eraseAll (d : Flash) : Flash :=
  if d.wel then { d with mem := [] }.startCycle else d

/-- Write status register `n` (R86); register 1 holds no byte of its own. -/
def Flash.writeStatus (d : Flash) (n : Nat) (rest : List Byte) : Flash :=
  if d.wel then
    match rest with
    | [] => d
    | v :: _ =>
      { d with refSr2 := if n = 2 then v else d.refSr2, refSr3 := if n = 3 then v else d.refSr3 }.startCycle
  else d

/-- The effect of the collected command (R82, R84 to R86). -/
def Flash.effect (d : Flash) : Flash :=
  match d.session with
  | [] => d
  | op :: rest =>
    if d.busyLeft ≠ 0 then d
    else if op = 0x06#8 then { d with wel := true }
    else if op = 0x04#8 then { d with wel := false }
    else if op = 0x02#8 then d.program 3 rest
    else if op = 0x12#8 then d.program 4 rest
    else if op = 0x20#8 then d.erase 3 4096 rest
    else if op = 0x21#8 then d.erase 4 4096 rest
    else if op = 0xD8#8 then d.erase 3 65536 rest
    else if op = 0xDC#8 then d.erase 4 65536 rest
    else if op = 0xC7#8 then d.eraseAll
    else if op = 0x01#8 then d.writeStatus 1 rest
    else if op = 0x31#8 then d.writeStatus 2 rest
    else if op = 0x11#8 then d.writeStatus 3 rest
    else d

/-- The line goes high: the collected command takes effect and the session ends (R82). -/
def Flash.csHigh (d : Flash) : Flash :=
  if d.selected then { d.effect with selected := false, session := [] } else d

end Sys2Proof.Machine
end

