-- ==== Sys2Proof/Machine/Ops.lean ====
section
/-!
DEFINITION. The named operations every meaning is built from: the outcome of a procedure inside an operation, the port
primitives (spec/00_scope.md R12, R14; spec/20_memory.md R70 to R74), the ChipSelectGuard (spec/41_chip_select.md R160, R161), one
chip-select session, errors and faults (spec/60_exceptions.md R256, R260, R261), acceptance of an operation, and reset
(spec/70_reset_and_hazards.md R290).
-/

namespace Sys2Proof.Machine

/-- How a procedure (R15) ends within one step: it is done with a value; or it waits at the end of an iteration of a loop that
goes on (R173, R174, R192, R193), to be continued by a later step (log 2); or a fault stopped it where it is (R261). -/
inductive Run (α : Type) where
  | done (a : α) (s : State)
  | wait (s : State)
  | halt (s : State)

/-- Go on with a procedure that is done. -/
def Run.bind {α β : Type} (r : Run α) (f : α → State → Run β) : Run β :=
  match r with
  | .done a s => f a s
  | .wait s => .wait s
  | .halt s => .halt s

/-- The state at the end of a step. -/
def Run.settle (r : Run Unit) (halted : State → State) : State :=
  match r with
  | .done _ s => s
  | .wait s => s
  | .halt s => halted s

/-- `SEQ <- phase` (R13, R33). -/
def setSeq (q : Seq) (s : State) : State := { s with seq := q }

/-- `CUR <- addr` (R32). -/
def setCur (addr : Nat) (s : State) : State := { s with cur := BitVec.ofNat 32 addr }

/-- Append an event to the trace (R14). -/
def emit (e : Event) (s : State) : State := { s with trace := s.trace ++ [e] }

/-- `SRn <- v` (R28, R172). -/
def setStatus (n : StatusReg) (v : Byte) (s : State) : State :=
  match n with
  | .sr1 => { s with sr1 := v }
  | .sr2 => { s with sr2 := v }
  | .sr3 => { s with sr3 := v }

/-- Fault entry (R260): `FAULT` and `FAULTCAUSE`, nothing else. -/
def raiseFault (c : FaultCause) (s : State) : State := { s with fault := true, faultcause := c }

/-- `CsDrive(level)` (R12, R26, R73): the line, its event, and the device that sees it. -/
def csDrive (level : Bool) (s : State) : State :=
  emit (if level then .cs1 else .cs0)
    { s with cs := level, dev := if level then s.dev.csHigh else s.dev.csLow }

/-- `Select()` (R160). -/
def select (s : State) : Run Unit :=
  if s.cfg.depthMax ≤ s.depth then .halt (raiseFault .selectOverflow s)
  else
    let s1 := { s with depth := s.depth + 1 }
    .done () (if s1.depth = 1 then csDrive false s1 else s1)

/-- `Deselect()` (R161). -/
def deselect (s : State) : Run Unit :=
  if s.depth = 0 then .halt (raiseFault .selectUnderflow s)
  else
    let s1 := { s with depth := s.depth - 1 }
    .done () (if s1.depth = 0 then csDrive true s1 else s1)

/-- Whose answer the coming transfer gets: an explicit one (the script's, or the free oracle's), or the reference device's
(`none`); log 1. -/
def nextAnswer (s : State) : Option Answer :=
  match s.script with
  | some a :: _ => some a
  | none :: _ => if s.refDevice then none else some (Config.freeAnswer s.count)
  | [] => if s.refDevice then none else some (Config.freeAnswer s.count)

/-- The answer is used up. -/
def useAnswer (s : State) : State := { s with script := s.script.tail, count := s.count + 1 }

/-- The device collects successfully exchanged bytes (R82). -/
def deviceSees (bytes : List Byte) (s : State) : State := { s with dev := (s.dev.exchangeAll bytes).2 }

/-- `Xfer(tx) -> (ok, rx)` (R12, R71): the byte received, or `none` for `ok` false. -/
def xfer (tx : Byte) (s : State) : Option Byte × State :=
  match nextAnswer s with
  | some (.ok bytes) =>
    (some (bytes.headD 0#8), emit (.xfer tx (bytes.headD 0#8)) (useAnswer (deviceSees [tx] s)))
  | some (.fail _ _) => (none, emit (.xferFail tx) (useAnswer s))
  | none =>
    let rx := (s.dev.exchange tx).1.getD (Config.freeByte s.count 0)
    (some rx, emit (.xfer tx rx) (useAnswer (deviceSees [tx] s)))

/-- How many bytes an unsuccessful bulk transfer of `n` moved: fewer than `n` (R72). -/
def shortDone (done n : Nat) : Nat := min done (n - 1)

/-- `n` received bytes from an explicit answer: the list cut, or filled with zeros, to `n` (log 1). -/
def fillTo (n : Nat) (bytes : List Byte) : List Byte := bytes.take n ++ List.replicate (n - bytes.length) 0#8

/-- `BulkTx(bytes) -> done` (R12, R72): whether `done` is all of them. -/
def bulkTx (bytes : List Byte) (s : State) : Bool × State :=
  match nextAnswer s with
  | some (.fail done _) =>
    let k := shortDone done bytes.length
    (false, emit (.bulkTx bytes k) (useAnswer (deviceSees (bytes.take k) s)))
  | some (.ok _) => (true, emit (.bulkTx bytes bytes.length) (useAnswer (deviceSees bytes s)))
  | none => (true, emit (.bulkTx bytes bytes.length) (useAnswer (deviceSees bytes s)))

/-- What the reference device's answers to a bulk receive are, free where it gives none (R14, R83). -/
def deviceBytes (n : Nat) (s : State) : List Byte :=
  (s.dev.exchangeAll (List.replicate n s.cfg.dummy)).1.mapIdx (fun i r => r.getD (Config.freeByte s.count i))

/-- `BulkRx(n) -> (done, bytes)` (R12, R72), `DUMMY_BYTE` sent all the while: the bytes, or `none` for `done < n`. -/
def bulkRx (n : Nat) (s : State) : Option (List Byte) × State :=
  match nextAnswer s with
  | some (.fail done bytes) =>
    let k := shortDone done n
    (none, emit (.bulkRx n k ((fillTo n bytes).take k)) (useAnswer (deviceSees (List.replicate k s.cfg.dummy) s)))
  | some (.ok bytes) =>
    (some (fillTo n bytes),
      emit (.bulkRx n n (fillTo n bytes)) (useAnswer (deviceSees (List.replicate n s.cfg.dummy) s)))
  | none =>
    (some (deviceBytes n s),
      emit (.bulkRx n n (deviceBytes n s)) (useAnswer (deviceSees (List.replicate n s.cfg.dummy) s)))

/-- `Now() -> t` (R12, R74). -/
def now (s : State) : Word × State :=
  match s.ticks with
  | t :: ts => (tickValue s.cfg t, emit (.tick (tickValue s.cfg t)) { s with ticks := ts })
  | [] =>
    let t := tickValue s.cfg (Config.freeTick s.count)
    (t, emit (.tick t) { s with count := s.count + 1 })

/-- Send bytes one by one, stopping at the first failed exchange (R97, R70). -/
def sendAll : List Byte → State → Bool × State
  | [], s => (true, s)
  | b :: bs, s =>
    match xfer b s with
    | (some _, s') => sendAll bs s'
    | (none, s') => (false, s')

/-- Receive bytes one by one, stopping at the first failed exchange (R70, R71). -/
def recvAll : Nat → State → Option (List Byte) × State
  | 0, s => (some [], s)
  | n + 1, s =>
    match xfer s.cfg.dummy s with
    | (none, s') => (none, s')
    | (some b, s') =>
      match recvAll n s' with
      | (some bs, s'') => (some (b :: bs), s'')
      | (none, s'') => (none, s'')

/-- One chip-select session (R14, R90, R165): one `Select()`, the frame, one `Deselect()` on every path. -/
def session {α : Type} (frame : State → α × State) (s : State) : Run α :=
  (select s).bind fun _ s1 =>
    (deselect (frame s1).2).bind fun _ s2 => .done (frame s1).1 s2

/-- The frame formats that only send: `F_OP`, `F_OP_TX1`, `F_A` (R91). -/
def sendFrame (bytes : List Byte) (s : State) : Bool × State := sendAll bytes s

/-- The formats that send and then receive by single exchanges: `F_OP_RX1`, `F_OP_RX3` (R91). -/
def recvFrame (bytes : List Byte) (n : Nat) (s : State) : Option (List Byte) × State :=
  match sendAll bytes s with
  | (true, s') => recvAll n s'
  | (false, s') => (none, s')

/-- The formats that send, send dummy bytes, and receive in bulk: `F_A_RX`, `F_A_D_RX`, `F_D4_RX` (R91). -/
def readFrame (bytes dummies : List Byte) (n : Nat) (s : State) : Option (List Byte) × State :=
  match sendAll bytes s with
  | (false, s') => (none, s')
  | (true, s1) =>
    match sendAll dummies (if dummies = [] then s1 else setSeq .dummy s1) with
    | (false, s') => (none, s')
    | (true, s2) => bulkRx n (setSeq .data s2)

/-- The format that sends and then sends data in bulk: `F_A_TX` (R91). -/
def programFrame (bytes data : List Byte) (s : State) : Bool × State :=
  match sendAll bytes s with
  | (false, s') => (false, s')
  | (true, s1) => bulkTx data (setSeq .data s1)

/-- The bytes of `EmitCmdAddr(lop, addr)`: the opcode and the address (R92, R93, R96, R97). -/
def cmdAddr (lop : LogOp) (addr : Nat) (s : State) : List Byte :=
  opc lop (a4 s.cfg s.blockcount) :: addrBytes (a4 s.cfg s.blockcount) (BitVec.ofNat 32 addr)

/-- `note K` (R13): `LASTERR <- K`. -/
def noteErr (k : ErrKind) (s : State) : State := { s with lasterr := k }

/-- Completion of an operation (R33, R75): `RESULT <- r`, `SEQ <- IDLE`. -/
def complete (r : Word) (s : State) : State := { s with result := r, seq := .idle }

/-- `raise K`, error entry (R13, R256): `LASTERR <- K`, `RESULT <- 0`, `SEQ <- IDLE`. Every session is closed already. -/
def raiseErr (k : ErrKind) (s : State) : State := { s with lasterr := k, result := 0#32, seq := .idle }

/-- `RESULT` of an operation that a fault stopped in the middle is unspecified (R261): a free value, log 8. -/
def freeResult (s : State) : State := { s with result := Config.freeResult s.count, count := s.count + 1 }

/-- `RDATA` is unspecified after a read that returns 0 (R220) or that a fault stopped: a free value, log 8. -/
def freeRdata (s : State) : State := { s with rdata := Config.freeRdata s.count, count := s.count + 1 }

/-- Acceptance of an operation (R29, R31): its code is in `OP`, `LASTERR <- None`. -/
def accept (code : Byte) (s : State) : State := { s with op := code, lasterr := .none }

/-- An outcome of the machine. -/
abbrev Result := Host.Outcome State Fault Refusal

/-- What comes before every operation (R255 (1), R260): while `FAULT = 1` it is ignored; presented while `SEQ` is not `IDLE` it
is the fault `Reentry`. -/
def guarded (s : State) (run : State → Result) : Result :=
  if s.fault then .next s
  else if s.seq = .idle then run s
  else .next (raiseFault .reentry s)

/-- The host writes the operand latches of an accepted operation (R31). -/
def latch (r : Request) (s : State) : State :=
  { s with op := r.op, a := r.a, b := r.b, len := r.len, tmo := r.tmo, wdata := r.wdata }

/-- The operand latches as a request. -/
def latched (s : State) : Request := ⟨s.op, s.a, s.b, s.len, s.tmo, s.wdata⟩

/-- Reset (R290, R40): every register at its reset value, the line driven high (an event if it was low), no frame. The
parameters, the environment, the trace and the host's own plans are not the block's to reset. -/
def applyReset (s : State) : State :=
  let s1 := if s.cs then s else csDrive true s
  { State.reset with
    cfg := s1.cfg, trace := s1.trace, script := s1.script, ticks := s1.ticks, refDevice := s1.refDevice, dev := s1.dev,
    count := s1.count, hostQ := s1.hostQ }

end Sys2Proof.Machine
end

