-- ==== Sys2Proof/Machine/ChipSelect.lean ====
section
/-!
DEFINITION. ChipSelectGuard operations (spec/41_chip_select.md): SELECT and DESELECT.
-/

namespace Sys2Proof.Machine

/-- SELECT (R162): `RESULT` unchanged; fault `SelectOverflow` at `DEPTH_MAX`. -/
def execSelect (s : State) : Result :=
  guarded s fun s => .next ((select (accept 0x10#8 s)).settle id)

/-- DESELECT (R163): `RESULT` unchanged; fault `SelectUnderflow` at depth 0. -/
def execDeselect (s : State) : Result :=
  guarded s fun s => .next ((deselect (accept 0x11#8 s)).settle id)

end Sys2Proof.Machine
end

