-- ==== Sys2Proof/Machine/Frames.lean ====
section
/-!
DEFINITION. The micro-operations that emit exactly one frame (spec/00_scope.md R15): `uWREN`, `uWRDI`, `uRDSR`, `uRDID`
(spec/42_busy_poll_status.md R170 to R172, spec/40_identify.md R141); and the meanings of the twenty-one SPI frames of
spec/30_encoding.md R94, each one frame in a chip-select session of its own (R90, R100 to R111).
-/

namespace Sys2Proof.Machine

/-- `uWREN() -> ok` (R170). -/
def uWREN (s : State) : Run Bool := session (sendFrame [0x06#8]) s

/-- `uWRDI() -> ok` (R171). -/
def uWRDI (s : State) : Run Bool := session (sendFrame [0x04#8]) s

/-- The cache is refreshed by a status byte that arrived (R28, R172). -/
def cacheStatus (n : StatusReg) (r : Option (List Byte)) (s : State) : State :=
  match r with
  | some (b :: _) => setStatus n b s
  | some [] => s
  | none => s

/-- `uRDSR(n) -> (ok, s)` (R172): the status byte, or `none` for `ok` false. -/
def uRDSR (n : StatusReg) (s : State) : Run (Option Byte) :=
  (session (recvFrame [rdsrOpc n] 1) s).bind fun r s1 => .done (r.bind List.head?) (cacheStatus n r s1)

/-- `uRDID() -> (ok, id0, id1, id2)` (R141): the three bytes, or `none` for `ok` false. -/
def uRDID (s : State) : Run (Option (List Byte)) := session (recvFrame [0x9F#8] 3) s

/-- The result of a frame that only sends, in the form of one that receives nothing. -/
def sentOnly (r : Run Bool) : Run (Option (List Byte)) :=
  r.bind fun ok s => .done (if ok then some [] else none) s

/-- One frame run by itself (log 4): phase `q` at its start, by the table of R33 (log 18), then its completion in `frameOk` and
`frameRx`. -/
def runFrame (q : Seq) (frame : State → Run (Option (List Byte))) (s : State) : State :=
  match frame (setSeq q s) with
  | .done r s1 => { s1 with seq := .idle, frameOk := r.isSome, frameRx := r.getD [] }
  | .wait s1 => s1
  | .halt s1 => s1

/-- WRITE STATUS REGISTER `n`, `F_OP_TX1` (R109). -/
def frameWrsr (n : StatusReg) (value : Byte) (s : State) : Result :=
  guarded s fun s => .next (runFrame .status (fun s => sentOnly (session (sendFrame [wrsrOpc n, value]) s)) s)

/-- READ STATUS REGISTER `n`, `F_OP_RX1` (R108); the cache is refreshed as by `uRDSR` (R28). -/
def frameRdsr (n : StatusReg) (s : State) : Result :=
  guarded s fun s => .next (runFrame .status (fun s => (uRDSR n s).bind fun r s1 => .done (r.map fun b => [b]) s1) s)

/-- A frame of format `F_OP` (R91), with its phase (R33). -/
def frameOp (q : Seq) (op : Byte) (s : State) : Result :=
  guarded s fun s => .next (runFrame q (fun s => sentOnly (session (sendFrame [op]) s)) s)

/-- A frame of format `F_A` (R91). An erase address that is not a unit's first, which R103 and R104 never give it, is sent as it is
(DESIGN CHOICE, log 24). -/
def frameAddr (op : Byte) (addr : List Byte) (s : State) : Result :=
  guarded s fun s => .next (runFrame .cmd (fun s => sentOnly (session (sendFrame (op :: addr)) s)) s)

/-- A frame of format `F_A_RX` or `F_A_D_RX` (R91); at least one data byte (R72). By itself it is sent as the standard or
the fast read that it is, whatever `FastEffective()` (R27, R241) and `A4()` (R24) say (DESIGN CHOICE, log 24). -/
def frameRead (op : Byte) (addr dummies : List Byte) (n : Nat) (s : State) : Result :=
  guarded s fun s =>
    if n = 0 then .refused .emptyBulk
    else .next (runFrame .cmd (session (readFrame (op :: addr) dummies n)) s)

/-- A frame of format `F_A_TX` (R91); at least one data byte (R72). Data past the page end, which R102 never gives it, is sent as it is
(DESIGN CHOICE, log 24). -/
def frameProgram (op : Byte) (addr data : List Byte) (s : State) : Result :=
  guarded s fun s =>
    if data = [] then .refused .emptyBulk
    else .next (runFrame .cmd (fun s => sentOnly (session (programFrame (op :: addr) data) s)) s)

/-- WRSR1 (R109). -/
def execWrsr1 (value : Byte) (s : State) : Result := frameWrsr .sr1 value s

/-- PP3 (R102). -/
def execPp3 (addr : BitVec 24) (data : List Byte) (s : State) : Result :=
  frameProgram 0x02#8 (bytesOfAddr3 addr) data s

/-- READ3 (R100). -/
def execRead3 (addr : BitVec 24) (n : Nat) (s : State) : Result := frameRead 0x03#8 (bytesOfAddr3 addr) [] n s

/-- WRDI (R107). -/
def execWrdi (s : State) : Result := frameOp .wrdi 0x04#8 s

/-- RDSR1 (R108). -/
def execRdsr1 (s : State) : Result := frameRdsr .sr1 s

/-- WREN (R106). -/
def execWren (s : State) : Result := frameOp .wren 0x06#8 s

/-- FR3 (R101). -/
def execFr3 (addr : BitVec 24) (n : Nat) (s : State) : Result :=
  frameRead 0x0B#8 (bytesOfAddr3 addr) [s.cfg.dummy] n s

/-- FR4 (R101). -/
def execFr4 (addr : Word) (n : Nat) (s : State) : Result :=
  frameRead 0x0C#8 (bytesOfAddr4 addr) [s.cfg.dummy] n s

/-- WRSR3 (R109). -/
def execWrsr3 (value : Byte) (s : State) : Result := frameWrsr .sr3 value s

/-- PP4 (R102). -/
def execPp4 (addr : Word) (data : List Byte) (s : State) : Result := frameProgram 0x12#8 (bytesOfAddr4 addr) data s

/-- READ4 (R100). -/
def execRead4 (addr : Word) (n : Nat) (s : State) : Result := frameRead 0x13#8 (bytesOfAddr4 addr) [] n s

/-- RDSR3 (R108). -/
def execRdsr3 (s : State) : Result := frameRdsr .sr3 s

/-- SE3 (R103). -/
def execSe3 (addr : BitVec 24) (s : State) : Result := frameAddr 0x20#8 (bytesOfAddr3 addr) s

/-- SE4 (R103). -/
def execSe4 (addr : Word) (s : State) : Result := frameAddr 0x21#8 (bytesOfAddr4 addr) s

/-- WRSR2 (R109). -/
def execWrsr2 (value : Byte) (s : State) : Result := frameWrsr .sr2 value s

/-- RDSR2 (R108). -/
def execRdsr2 (s : State) : Result := frameRdsr .sr2 s

/-- RDUID (R111): four dummy bytes, then `UID_LEN` bytes in bulk. -/
def execRduid (s : State) : Result := frameRead 0x4B#8 [] (List.replicate 4 s.cfg.dummy) s.cfg.uidLen s

/-- RDID (R110). -/
def execRdid (s : State) : Result := guarded s fun s => .next (runFrame .ident uRDID s)

/-- CE (R105). -/
def execCe (s : State) : Result := frameOp .cmd 0xC7#8 s

/-- BE3 (R104). -/
def execBe3 (addr : BitVec 24) (s : State) : Result := frameAddr 0xD8#8 (bytesOfAddr3 addr) s

/-- BE4 (R104). -/
def execBe4 (addr : Word) (s : State) : Result := frameAddr 0xDC#8 (bytesOfAddr4 addr) s

end Sys2Proof.Machine
end

