-- ==== Sys2Proof/Machine/BusyPoll.lean ====
section
/-!
DEFINITION. BusyPoll and the status operations (spec/42_busy_poll_status.md): the two busy waits, WAITBUSY, READSTATUS and
WRITESTATUS. One iteration of a wait is at most one step (log 2): a wait whose poll did not see the device idle goes on in the
next step, for ever if need be (R173, R303).
-/

namespace Sys2Proof.Machine

/-- One iteration of `WaitBusyForever()` (R173). -/
def waitForever (s : State) : Run Unit :=
  (uRDSR .sr1 (setSeq .wait s)).bind fun r s1 => if sawIdle r then .done () s1 else .wait s1

/-- The end of every program, erase and status-write sequence: the wait, then the write-disable frame, whose result is
ignored (R176, R190, R210). -/
def waitThenDisable (s : State) : Run Unit :=
  (waitForever s).bind fun _ s1 => (uWRDI (setSeq .wrdi s1)).bind fun _ s2 => .done () s2

/-- One iteration of WAITBUSY's loop (R174): the poll, then the tick. -/
def pollUntil (s : State) : Run Unit :=
  (uRDSR .sr1 (setSeq .wait s)).bind fun r s1 =>
    if sawIdle r then .done () (complete 1#32 s1)
    else if waitExpired s1.cfg s1.start (now s1).1 s1.tmo then .done () (raiseErr .busyTimeout (now s1).2)
    else .wait (now s1).2

/-- `START <- Now()` (R32, R174, R193). -/
def startClock (s : State) : State := { (now s).2 with start := (now s).1 }

/-- WAITBUSY (R174), up to the end of its first iteration. -/
def execWaitbusy (tmo : Word) (s : State) : Result :=
  guarded s fun s =>
    .next ((pollUntil (startClock { accept 0x18#8 s with tmo := tmo })).settle freeResult)

/-- WAITBUSY, one more iteration. -/
def resumeWaitbusy (s : State) : State := (pollUntil s).settle freeResult

/-- The body of READSTATUS (R175). -/
def runReadstatus (a : Word) (s : State) : Run Unit :=
  match statusReg a with
  | none => .done () (raiseErr .outOfRange s)
  | some n =>
    (uRDSR n (setSeq .status s)).bind fun r s1 =>
      match r with
      | some b => .done () (complete (b.setWidth 32) s1)
      | none => .done () (raiseErr .transferFailure s1)

/-- READSTATUS (R175). -/
def execReadstatus (a : Word) (s : State) : Result :=
  guarded s fun s => .next ((runReadstatus a { accept 0x28#8 s with a := a }).settle freeResult)

/-- The end of WRITESTATUS (R176). -/
def finishWritestatus (s : State) : Run Unit :=
  (waitThenDisable s).bind fun _ s1 => .done () (complete 1#32 s1)

/-- The body of WRITESTATUS (R176): the value is `B[7:0]`, the status-write frame's result is not examined. R176 names no phase; a
status register frame outside a busy wait has STATUS in the table of R33 (log 18). -/
def runWritestatus (a b : Word) (s : State) : Run Unit :=
  match statusReg a with
  | none => .done () (raiseErr .outOfRange s)
  | some n =>
    (uWREN (setSeq .wren s)).bind fun ok s1 =>
      if ok then
        (session (sendFrame [wrsrOpc n, b.setWidth 8]) (setSeq .status s1)).bind fun _ s2 => finishWritestatus s2
      else .done () (raiseErr .transferFailure s1)

/-- WRITESTATUS (R176), up to its first poll. -/
def execWritestatus (a b : Word) (s : State) : Result :=
  guarded s fun s => .next ((runWritestatus a b { accept 0x38#8 s with a := a, b := b }).settle freeResult)

/-- WRITESTATUS, from one more poll. -/
def resumeWritestatus (s : State) : State := (finishWritestatus s).settle freeResult

end Sys2Proof.Machine
end

