-- ==== Sys2Proof/Machine/Erase.lean ====
section
/-!
DEFINITION. EraseEngine operations (spec/44_erase.md): the erase sequencer `DoErase`, ERASESECTOR, ERASEBLOCK and ERASECHIP.
-/

namespace Sys2Proof.Machine

/-- The argument of `DoErase` (R210), with the linear address. -/
inductive EraseCmd where
  | sector (addr : Nat)
  | block (addr : Nat)
  | chip
deriving DecidableEq, Repr

/-- The bytes of the erase frame (R103 to R105, R210). -/
def eraseBytes (cmd : EraseCmd) (s : State) : List Byte :=
  match cmd with
  | .sector addr => cmdAddr .eraseSec addr s
  | .block addr => cmdAddr .eraseBlk addr s
  | .chip => [0xC7#8]

/-- The address of the erase frame is the current address (R32). -/
def eraseCur (cmd : EraseCmd) (s : State) : State :=
  match cmd with
  | .sector addr => setCur addr s
  | .block addr => setCur addr s
  | .chip => s

/-- What an erase operation leaves: `LASTERR` and `RESULT` (R211 to R213). -/
def finishErase (ok : Bool) (s : State) : State :=
  complete (if ok then 1#32 else 0#32) (noteErr (if ok then .none else .transferFailure) s)

/-- The end of the erase sequence (R210, R214). -/
def eraseTail (s : State) : Run Unit :=
  (waitThenDisable s).bind fun _ s1 => .done () (finishErase true s1)

/-- `DoErase(cmd)` and what the operation makes of it (R210, R214): the erase frame's result is not examined. -/
def doErase (cmd : EraseCmd) (s : State) : Run Unit :=
  (uWREN (setSeq .wren s)).bind fun ok s1 =>
    if ok then
      (session (sendFrame (eraseBytes cmd s1)) (eraseCur cmd (setSeq .cmd s1))).bind fun _ s2 => eraseTail s2
    else .done () (finishErase false s1)

/-- An erase by unit index: in CHECK the index bound, then the sequence at `idx * size(g)` (R211, R212, R214). -/
def eraseUnit (g : Gran) (mk : Nat → EraseCmd) (idx : Nat) (s : State) : Run Unit :=
  if unitMax s.blockcount g ≤ idx then .done () (raiseErr .outOfRange (setSeq .check s))
  else doErase (mk (idx * unitSize g)) (setSeq .check s)

/-- ERASESECTOR (R211), up to its first poll. -/
def execErasesector (a : Word) (s : State) : Result :=
  guarded s fun s => .next ((eraseUnit .sector .sector a.toNat { accept 0x40#8 s with a := a }).settle freeResult)

/-- ERASEBLOCK (R212), up to its first poll. -/
def execEraseblock (a : Word) (s : State) : Result :=
  guarded s fun s => .next ((eraseUnit .block .block a.toNat { accept 0x41#8 s with a := a }).settle freeResult)

/-- ERASECHIP (R213, R214), up to its first poll: no bound, so no test of identification. -/
def execErasechip (s : State) : Result :=
  guarded s fun s => .next ((doErase .chip (setSeq .check (accept 0x42#8 s))).settle freeResult)

/-- An erase operation, from one more poll. -/
def resumeErase (s : State) : State := (eraseTail s).settle freeResult

end Sys2Proof.Machine
end

