-- ==== Sys2Proof/Machine/FastMode.lean ====
section
/-!
DEFINITION. The FastModeSelector operation SETFAST (spec/46_fast_mode.md).
-/

namespace Sys2Proof.Machine

/-- The body of SETFAST (R240): identification first, configuration second (R255). -/
def runSetfast (a : Word) (s : State) : State :=
  if s.blockcount = 0#16 then raiseErr .refused s
  else if s.cfg.fastCfg = .enabled then
    complete 1#32 { s with fast := if a = 0#32 then .standard else .fast }
  else raiseErr .refused s

/-- SETFAST (R240). -/
def execSetfast (a : Word) (s : State) : Result :=
  guarded s fun s => .next (runSetfast a { accept 0x50#8 s with a := a })

end Sys2Proof.Machine
end

