-- ==== Sys2Proof/Machine/Identify.lean ====
section
/-!
DEFINITION. DeviceIdentifier operations (spec/40_identify.md): INIT, CAPACITY, BLOCKMAX, SECTORMAX, PAGEMAX.
-/

namespace Sys2Proof.Machine

/-- INIT starts by forgetting the identity and the fast flag (R140, R21, R22, R27). -/
def clearIdentity (s : State) : State :=
  { s with blockcount := 0#16, vendor := 0#8, capcode := 0#8, fast := .unset }

/-- The identity of a device found (R140, R21, R22). -/
def setIdentity (blocks : BitVec 16) (id0 id2 : Byte) (s : State) : State :=
  { s with blockcount := blocks, vendor := id0, capcode := id2 }

/-- The three status reads of a successful INIT; their results are ignored (R140, R252). -/
def readAllStatus (s : State) : Run Unit :=
  (uRDSR .sr1 (setSeq .status s)).bind fun _ s1 =>
    (uRDSR .sr2 s1).bind fun _ s2 =>
      (uRDSR .sr3 s2).bind fun _ s3 => .done () s3

/-- INIT after the ID bytes have arrived: vendor, capacity code, then the identity and the status reads (R140). -/
def identify (id : List Byte) (s : State) : Run Unit :=
  match id with
  | [id0, _, id2] =>
    if id0 = s.cfg.vendorMarker then
      match lookup s.cfg id2 with
      | some blocks =>
        (readAllStatus (setIdentity blocks id0 id2 s)).bind fun _ s1 => .done () (complete 1#32 s1)
      | none => .done () (raiseErr .unsupportedDevice s)
    else .done () (raiseErr .unsupportedDevice s)
  | _ => .done () (raiseErr .deviceAbsent s)

/-- The body of INIT (R140): its phases are WRDI, IDENT and STATUS (R33). -/
def runInit (s : State) : Run Unit :=
  (uWRDI (setSeq .wrdi (clearIdentity s))).bind fun ok s1 =>
    if ok then
      (uRDID (setSeq .ident s1)).bind fun r s2 =>
        match r with
        | some id => identify id s2
        | none => .done () (raiseErr .deviceAbsent s2)
    else .done () (raiseErr .deviceAbsent s1)

/-- INIT (R140). -/
def execInit (s : State) : Result :=
  guarded s fun s => .next ((runInit (accept 0x01#8 s)).settle freeResult)

/-- A geometry query: a pure function of `BLOCKCOUNT` in `RESULT` (R23, R142 to R145). -/
def query (code : Byte) (value : BitVec 16 → Nat) (s : State) : Result :=
  guarded s fun s => .next (complete (BitVec.ofNat 32 (value s.blockcount)) (accept code s))

/-- CAPACITY (R142). -/
def execCapacity (s : State) : Result := query 0x02#8 capacityOf s

/-- BLOCKMAX (R143). -/
def execBlockmax (s : State) : Result := query 0x03#8 blockMaxOf s

/-- SECTORMAX (R144). -/
def execSectormax (s : State) : Result := query 0x04#8 sectorMaxOf s

/-- PAGEMAX (R145). -/
def execPagemax (s : State) : Result := query 0x05#8 pageMaxOf s

end Sys2Proof.Machine
end

