-- ==== Sys2Proof/Machine/Read.lean ====
section
/-!
DEFINITION. The read path (spec/45_read.md): `DoRead`, READ, READPAGE, READSECTOR, READBLOCK and READUID.
-/

namespace Sys2Proof.Machine

/-- `DoRead(addr, n) -> (ok, bytes)` (R220): the bytes, or `none` for `ok` false. -/
def doRead (addr n : Nat) (s : State) : Run (Option (List Byte)) :=
  if fastEffective s.cfg s.fast then
    session (readFrame (cmdAddr .fastRead addr s) [s.cfg.dummy] n) (setCur addr (setSeq .cmd s))
  else session (readFrame (cmdAddr .read addr s) [] n) (setCur addr (setSeq .cmd s))

/-- A read that returns 0 with an error: `RDATA` is left unspecified (R220, log 8). -/
def failRead (k : ErrKind) (s : State) : State := raiseErr k (freeRdata s)

/-- A read that a fault stopped (R261). -/
def haltRead (s : State) : State := freeResult (freeRdata s)

/-- A read operation after its frame: `n` bytes of `len` asked (R221). -/
def finishRead (n len : Nat) (r : Option (List Byte)) (s : State) : State :=
  match r with
  | some bytes => complete (BitVec.ofNat 32 n) (noteErr (readKind n len) { s with rdata := bytes })
  | none => failRead .transferFailure s

/-- A read operation after its bounds (R221, R222): nothing asked, or one frame. -/
def readRange (addr n len : Nat) (s : State) : Run Unit :=
  if n = 0 then .done () (complete 0#32 (freeRdata s))
  else (doRead addr n s).bind fun r s1 => .done () (finishRead n len r s1)

/-- The body of READ (R221); the clamping is in CHECK (R33). -/
def runRead (a len : Word) (s : State) : Run Unit :=
  match clampLinear s.blockcount a.toNat len.toNat with
  | none => .done () (failRead .outOfRange (setSeq .check s))
  | some n => readRange a.toNat n len.toNat (setSeq .check s)

/-- READ (R221). -/
def execRead (a len : Word) (s : State) : Result :=
  guarded s fun s => .next ((runRead a len { accept 0x20#8 s with a := a, len := len }).settle haltRead)

/-- The body of READPAGE, READSECTOR and READBLOCK (R222 to R224); the bounds check is in CHECK (R33). -/
def readUnit (g : Gran) (a b len : Word) (s : State) : Run Unit :=
  match xlate s.blockcount g a.toNat b.toNat len.toNat with
  | none => .done () (failRead .outOfRange (setSeq .check s))
  | some (linear, n) => readRange linear n len.toNat (setSeq .check s)

/-- READPAGE (R222). -/
def execReadpage (a b len : Word) (s : State) : Result :=
  guarded s fun s =>
    .next ((readUnit .page a b len { accept 0x21#8 s with a := a, b := b, len := len }).settle haltRead)

/-- READSECTOR (R223). -/
def execReadsector (a b len : Word) (s : State) : Result :=
  guarded s fun s =>
    .next ((readUnit .sector a b len { accept 0x22#8 s with a := a, b := b, len := len }).settle haltRead)

/-- READBLOCK (R224). -/
def execReadblock (a b len : Word) (s : State) : Result :=
  guarded s fun s =>
    .next ((readUnit .block a b len { accept 0x23#8 s with a := a, b := b, len := len }).settle haltRead)

/-- The body of READUID (R225). -/
def runReaduid (s : State) : Run Unit :=
  (session (readFrame [0x4B#8] (List.replicate 4 s.cfg.dummy) s.cfg.uidLen) (setSeq .cmd s)).bind fun r s1 =>
    match r with
    | some bytes => .done () (complete (BitVec.ofNat 32 s1.cfg.uidLen) { s1 with rdata := bytes })
    | none => .done () (failRead .transferFailure s1)

/-- READUID (R225). -/
def execReaduid (s : State) : Result :=
  guarded s fun s => .next ((runReaduid (accept 0x29#8 s)).settle haltRead)

end Sys2Proof.Machine
end

