-- ==== Sys2Proof/Machine/Write.lean ====
section
/-!
DEFINITION. WriteEngine operations (spec/43_write.md): the program sequencer `DoWritePage`, WRITEPAGE, WRITE and WRITEUNTIL.
The page loop of WRITE and WRITEUNTIL does at most one iteration in a step, and so does the busy wait (log 2); the loop's locals are the
working registers (spec/10_state.md R32, log 16).
-/

namespace Sys2Proof.Machine

/-- How a sub-write ends: the bytes programmed and the kind to report (R190). -/
abbrev SubWrite := Nat × ErrKind

/-- The end of the program sequence: wait, write-disable, the count and its kind (R190, R194). -/
def programTail (n len : Nat) (s : State) : Run SubWrite :=
  (waitThenDisable s).bind fun _ s1 => .done (n, writeKind n len) s1

/-- `DoWritePage` past its checks: write enable, program session, wait, write disable (R190, R194). -/
def programPage (linear n len : Nat) (data : List Byte) (s : State) : Run SubWrite :=
  (uWREN (setSeq .wren s)).bind fun ok s1 =>
    if ok then
      (session (programFrame (cmdAddr .program linear s1) (data.take n)) (setCur linear (setSeq .cmd s1))).bind
        fun ok s2 => if ok then programTail n len s2 else .done (0, .transferFailure) s2
    else .done (0, .transferFailure) s1

/-- `DoWritePage(page, off, data, len) -> (n, kind)`: the checks in CHECK, then the sequence (R190, R194). -/
def doWritePage (page off : Nat) (data : List Byte) (len : Nat) (s : State) : Run SubWrite :=
  match xlate s.blockcount .page page off len with
  | none => .done (0, .outOfRange) (setSeq .check s)
  | some (linear, n) =>
    if n = 0 then .done (0, .none) (setSeq .check s) else programPage linear n len data (setSeq .check s)

/-- `DoWritePage` from one more poll of its wait: the count is that of its check (R190). -/
def resumeWritePage (page off len : Nat) (s : State) : Run SubWrite :=
  match xlate s.blockcount .page page off len with
  | none => .done (0, .outOfRange) s
  | some (_, n) => programTail n len s

/-- What WRITEPAGE leaves: `LASTERR <- kind`, `RESULT <- n` (R191). -/
def finishWritepage (w : SubWrite) (s : State) : Run Unit :=
  .done () (complete (BitVec.ofNat 32 w.1) (noteErr w.2 s))

/-- WRITEPAGE with its data (R191), up to its first poll. -/
def runWritepage (a b len : Word) (data : List Byte) (s : State) : State :=
  ((doWritePage a.toNat b.toNat data len.toNat s).bind finishWritepage).settle freeResult

/-- WRITEPAGE (R191); `WDATA` of another length than `LEN` is refused (R121). -/
def execWritepage (a b len : Word) (data : List Byte) (s : State) : Result :=
  guarded s fun s =>
    if data.length = len.toNat then
      .next (runWritepage a b len data { accept 0x30#8 s with a := a, b := b, len := len, wdata := data })
    else .refused .wdataLength

/-- WRITEPAGE, from one more poll. -/
def resumeWritepage (s : State) : State :=
  ((resumeWritePage s.a.toNat s.b.toNat s.len.toNat s).bind finishWritepage).settle freeResult

/-- The end of the page loop: `LASTERR <- final`, `RESULT <- total` (R192, R193). -/
def finishWrite (final : ErrKind) (s : State) : State := complete s.total (noteErr final s)

/-- `final` as set before the loop: the clamped length is `TOTAL + REM` throughout (R192). -/
def loopFinal (s : State) : ErrKind := writeKind (s.total.toNat + s.rem.toNat) s.len.toNat

/-- After a sub-write of `n > 0` bytes: `total`, `rem`, `page`, `off` (R192, R193). -/
def advance (n : Nat) (s : State) : State :=
  { s with total := s.total + BitVec.ofNat 32 n, rem := s.rem - BitVec.ofNat 32 n, page := s.page + 1#32, off := 0#32 }

/-- The head of the page loop after progress: end, or `SEQ <- CHECK` for the next page (R33, R192). -/
def nextPage (s : State) : Run Unit :=
  if s.rem = 0#32 then .done () (finishWrite (loopFinal s) s) else .wait (setSeq .check s)

/-- WRITE after a sub-write: stop at the first failure, else go on (R192). -/
def afterWrite (w : SubWrite) (s : State) : Run Unit :=
  if w.1 = 0 then .done () (finishWrite w.2 s) else nextPage (advance w.1 s)

/-- WRITEUNTIL after a sub-write that moved nothing: the tick, then give up or retry the same page (R193). -/
def retryWrite (kind : ErrKind) (s : State) : Run Unit :=
  if retryExpired s.cfg s.start (now s).1 s.tmo then .done () (finishWrite kind (now s).2)
  else .wait (setSeq .check (now s).2)

/-- WRITEUNTIL after a sub-write (R193). -/
def afterWriteuntil (w : SubWrite) (s : State) : Run Unit :=
  if w.1 = 0 then retryWrite w.2 (setSeq .retry s) else nextPage (advance w.1 s)

/-- The sub-write of one iteration of the page loop (R192). -/
def loopWrite (s : State) : Run SubWrite :=
  doWritePage s.page.toNat s.off.toNat (s.wdata.drop s.total.toNat) s.rem.toNat s

/-- The same sub-write from one more poll. -/
def resumeLoopWrite (s : State) : Run SubWrite := resumeWritePage s.page.toNat s.off.toNat s.rem.toNat s

/-- The locals of the page loop before it: `(page, off) <- Decomp(A)`, `rem`, `total <- 0` (R192). -/
def enterLoop (addr rem : Nat) (s : State) : State :=
  { s with
    page := BitVec.ofNat 32 (decomp addr).1, off := BitVec.ofNat 32 (decomp addr).2,
    rem := BitVec.ofNat 32 rem, total := 0#32 }

/-- WRITE's loop from its head, up to the end of one iteration (R192). -/
def writeLoop (s : State) : Run Unit :=
  if s.rem = 0#32 then .done () (finishWrite (loopFinal s) s) else (loopWrite s).bind afterWrite

/-- WRITEUNTIL's loop from its head, up to the end of one iteration (R193). -/
def writeuntilLoop (s : State) : Run Unit :=
  if s.rem = 0#32 then .done () (finishWrite (loopFinal s) s) else (loopWrite s).bind afterWriteuntil

/-- The body of WRITE (R192), up to the end of the first iteration; the clamping is in CHECK (R33). -/
def runWrite (a len : Word) (s : State) : Run Unit :=
  match clampLinear s.blockcount a.toNat len.toNat with
  | none => .done () (raiseErr .outOfRange (setSeq .check s))
  | some rem => writeLoop (enterLoop a.toNat rem (setSeq .check s))

/-- WRITE (R192); `WDATA` of another length than `LEN` is refused (R121). -/
def execWrite (a len : Word) (data : List Byte) (s : State) : Result :=
  guarded s fun s =>
    if data.length = len.toNat then
      .next ((runWrite a len { accept 0x31#8 s with a := a, len := len, wdata := data }).settle freeResult)
    else .refused .wdataLength

/-- WRITE, the next page. -/
def resumeWrite (s : State) : State := (writeLoop s).settle freeResult

/-- WRITE, from one more poll of the sub-write in progress. -/
def resumeWritePoll (s : State) : State := ((resumeLoopWrite s).bind afterWrite).settle freeResult

/-- The body of WRITEUNTIL (R193), up to the end of the first iteration: the clock starts after the bounds check (R193), which is in CHECK
(R33). R33 gives the start tick no phase: it is read in CHECK (DESIGN CHOICE, log 25). -/
def runWriteuntil (a len : Word) (s : State) : Run Unit :=
  match clampLinear s.blockcount a.toNat len.toNat with
  | none => .done () (raiseErr .outOfRange (setSeq .check s))
  | some rem => writeuntilLoop (startClock (enterLoop a.toNat rem (setSeq .check s)))

/-- WRITEUNTIL (R193); `WDATA` of another length than `LEN` is refused (R121). -/
def execWriteuntil (a len tmo : Word) (data : List Byte) (s : State) : Result :=
  guarded s fun s =>
    if data.length = len.toNat then
      .next ((runWriteuntil a len
        { accept 0x32#8 s with a := a, len := len, tmo := tmo, wdata := data }).settle freeResult)
    else .refused .wdataLength

/-- WRITEUNTIL, the next page or the same one again. -/
def resumeWriteuntil (s : State) : State := (writeuntilLoop s).settle freeResult

/-- WRITEUNTIL, from one more poll of the sub-write in progress. -/
def resumeWriteuntilPoll (s : State) : State := ((resumeLoopWrite s).bind afterWriteuntil).settle freeResult

end Sys2Proof.Machine
end

