-- ==== Sys2Proof/Machine/Dispatch.lean ====
section
/-!
DEFINITION. The dispatch from an instruction to its meaning, one arm per constructor.
-/

namespace Sys2Proof.Machine

def exec (i : Instr) (s : State) : Host.Outcome State Fault Refusal :=
  match i with
  | .wrsr1 value => Sys2Proof.Machine.execWrsr1 value s
  | .pp3 addr data => Sys2Proof.Machine.execPp3 addr data s
  | .read3 addr n => Sys2Proof.Machine.execRead3 addr n s
  | .wrdi => Sys2Proof.Machine.execWrdi s
  | .rdsr1 => Sys2Proof.Machine.execRdsr1 s
  | .wren => Sys2Proof.Machine.execWren s
  | .fr3 addr n => Sys2Proof.Machine.execFr3 addr n s
  | .fr4 addr n => Sys2Proof.Machine.execFr4 addr n s
  | .wrsr3 value => Sys2Proof.Machine.execWrsr3 value s
  | .pp4 addr data => Sys2Proof.Machine.execPp4 addr data s
  | .read4 addr n => Sys2Proof.Machine.execRead4 addr n s
  | .rdsr3 => Sys2Proof.Machine.execRdsr3 s
  | .se3 addr => Sys2Proof.Machine.execSe3 addr s
  | .se4 addr => Sys2Proof.Machine.execSe4 addr s
  | .wrsr2 value => Sys2Proof.Machine.execWrsr2 value s
  | .rdsr2 => Sys2Proof.Machine.execRdsr2 s
  | .rduid => Sys2Proof.Machine.execRduid s
  | .rdid => Sys2Proof.Machine.execRdid s
  | .ce => Sys2Proof.Machine.execCe s
  | .be3 addr => Sys2Proof.Machine.execBe3 addr s
  | .be4 addr => Sys2Proof.Machine.execBe4 addr s
  | .init => Sys2Proof.Machine.execInit s
  | .capacity => Sys2Proof.Machine.execCapacity s
  | .blockmax => Sys2Proof.Machine.execBlockmax s
  | .sectormax => Sys2Proof.Machine.execSectormax s
  | .pagemax => Sys2Proof.Machine.execPagemax s
  | .select => Sys2Proof.Machine.execSelect s
  | .deselect => Sys2Proof.Machine.execDeselect s
  | .waitbusy tmo => Sys2Proof.Machine.execWaitbusy tmo s
  | .read a len => Sys2Proof.Machine.execRead a len s
  | .readpage a b len => Sys2Proof.Machine.execReadpage a b len s
  | .readsector a b len => Sys2Proof.Machine.execReadsector a b len s
  | .readblock a b len => Sys2Proof.Machine.execReadblock a b len s
  | .readstatus a => Sys2Proof.Machine.execReadstatus a s
  | .readuid => Sys2Proof.Machine.execReaduid s
  | .writepage a b len data => Sys2Proof.Machine.execWritepage a b len data s
  | .write a len data => Sys2Proof.Machine.execWrite a len data s
  | .writeuntil a len tmo data => Sys2Proof.Machine.execWriteuntil a len tmo data s
  | .writestatus a b => Sys2Proof.Machine.execWritestatus a b s
  | .erasesector a => Sys2Proof.Machine.execErasesector a s
  | .eraseblock a => Sys2Proof.Machine.execEraseblock a s
  | .erasechip => Sys2Proof.Machine.execErasechip s
  | .setfast a => Sys2Proof.Machine.execSetfast a s

end Sys2Proof.Machine
end

