-- ==== Sys2Proof/Machine/HostPort.lean ====
section
/-!
DEFINITION. The host port (spec/20_memory.md R75, spec/30_encoding.md R120 to R122, spec/60_exceptions.md R260): presenting an
operation, continuing the one in progress, and the host's next act.
-/

namespace Sys2Proof.Machine

/-- Present an operation (R75): ignored while `FAULT = 1`; `Reentry` while one is in progress; `IllegalOp` for a code outside
R120; else the host has written the latches (R31) and the operation runs (R255, R260). The latches are written only for an operation
that is accepted (log 12). -/
def present (r : Request) (s : State) : Result :=
  guarded s fun s =>
    match decodeRequest r with
    | .ok i => exec i (latch r s)
    | .error _ => .next (raiseFault .illegalOp s)

/-- Run one SPI frame by itself (log 4). -/
def presentFrame (bytes : List Byte) (s : State) : Result :=
  guarded s fun s =>
    match decodeFrame s.cfg.uidLen bytes with
    | .ok i => exec i s
    | .error _ => .refused .notAFrame

/-- Continue the operation in `OP` from one more poll of its wait (R33 `WAIT`). -/
def resumeWait (s : State) : Result :=
  match decodeRequest (latched s) with
  | .ok (.waitbusy _) => .next (resumeWaitbusy s)
  | .ok (.writestatus _ _) => .next (resumeWritestatus s)
  | .ok (.writepage _ _ _ _) => .next (resumeWritepage s)
  | .ok (.write _ _ _) => .next (resumeWritePoll s)
  | .ok (.writeuntil _ _ _ _) => .next (resumeWriteuntilPoll s)
  | .ok (.erasesector _) => .next (resumeErase s)
  | .ok (.eraseblock _) => .next (resumeErase s)
  | .ok .erasechip => .next (resumeErase s)
  | _ => .fault .offBoundary

/-- Continue the operation in `OP` at the head of its page loop (R33 `CHECK`). -/
def resumeCheck (s : State) : Result :=
  match decodeRequest (latched s) with
  | .ok (.write _ _ _) => .next (resumeWrite s)
  | .ok (.writeuntil _ _ _ _) => .next (resumeWriteuntil s)
  | _ => .fault .offBoundary

/-- The block for one step with nothing presented: stopped by a fault (R260), idle, or going on with its operation. Other phases
than `WAIT` and `CHECK` are no step boundary (log 13). -/
def proceed (s : State) : Result :=
  if s.fault then .next s
  else
    match s.seq with
    | .idle => .next s
    | .wait => resumeWait s
    | .check => resumeCheck s
    | .wren | .cmd | .dummy | .data | .wrdi | .retry | .ident | .status => .fault .offBoundary

/-- Whether an operation the host waits to present can be presented: the block is idle, or a fault has stopped it. -/
def accepting (s : State) : Bool := s.fault || decide (s.seq = .idle)

/-- The host's next act is over. -/
def popHost (s : State) : State := { s with hostQ := s.hostQ.tail }

/-- One step of host and block together (log 3): the host's next act if it can happen now, else the block goes on. -/
def hostStep (s : State) : Result :=
  match s.hostQ with
  | [] => proceed s
  | .idle :: _ => proceed (popHost s)
  | .reset :: _ => .next (applyReset (popHost s))
  | .barge r :: _ => present r (popHost s)
  | .op r :: _ => if accepting s then present r (popHost s) else proceed s
  | .probe bytes :: _ => if accepting s then presentFrame bytes (popHost s) else proceed s

/-- The act by which the host has an instruction run. -/
def actOf : Code → HostAct
  | .frame bytes => .probe bytes
  | .host r => .op r

/-- The state in which the host's next act is `act` and the block is idle to take it. -/
def queueNext (act : HostAct) (s : State) : State := { s with hostQ := act :: s.hostQ, seq := .idle }

end Sys2Proof.Machine
end

