-- ==== Sys2Proof/Machine/Step.lean ====
section
/-!
DEFINITION. One step of the machine, and the placing of an instruction where the next step takes it.
-/

namespace Sys2Proof.Machine

/-- One step: what the host does next, or the block going on with the operation in progress (log 2, log 3). -/
def step (s : State) : Host.Outcome State Fault Refusal := hostStep s

/-- `s` with the instruction of a table row's bits presented next to an idle block. -/
def State.withFetchWord (s : State) (nbits w : Nat) : State :=
  queueNext (actOf (tableCode s.cfg.uidLen nbits w)) s

end Sys2Proof.Machine
end

