-- ==== Sys2Proof/Safety.lean ====
section
/-!
DEFINITION. What counts as a legal state of the machine: the invariants the spec states of the block between events
(spec/10_state.md R22, R25 to R27, R36), the canonical form of the device's cells, and the phases a step boundary can have.
-/

namespace Sys2Proof.Machine

/-- `CS = 0` exactly when `DEPTH >= 1`, and the depth in its range (R25, R26, R36 (b)). -/
abbrev GuardOk (s : State) : Prop :=
  s.depth ≤ s.cfg.depthMax ∧ (s.cs = false ↔ 1 ≤ s.depth)

/-- `BLOCKCOUNT` is 0 or an entry of `CAP_TABLE`; 0 implies a cleared identity (R36 (c), (d)). -/
abbrev IdentityOk (s : State) : Prop :=
  (s.blockcount = 0#16 ∨ s.blockcount ∈ s.cfg.capTable) ∧
    (s.blockcount = 0#16 → s.vendor = 0#8 ∧ s.capcode = 0#8 ∧ s.fast = .unset)

/-- The device sees the line the block drives (R26, R73, R82), and its cells are in canonical form. -/
abbrev DeviceOk (s : State) : Prop :=
  (s.dev.selected = true ↔ s.cs = false) ∧ MemWf s.dev.mem

/-- `FAULTCAUSE` is 0 exactly while `FAULT` is 0 (R260). -/
abbrev FaultOk (s : State) : Prop := s.fault = false ↔ s.faultcause = .none

/-- Between steps a block that no fault has stopped is idle, at a poll of a wait, or at the head of the page loop (log 2). -/
abbrev BoundaryOk (s : State) : Prop :=
  s.fault = false → s.seq = .idle ∨ s.seq = .wait ∨ s.seq = .check

/-- The legal states: legal parameters (R9) and the invariants above. -/
abbrev Legal (s : State) : Prop :=
  s.cfg.wf ∧ GuardOk s ∧ IdentityOk s ∧ DeviceOk s ∧ FaultOk s ∧ BoundaryOk s

/-- The address in the device that an addressed frame for linear address `addr` reaches: the bytes the frame sends (R96), read as the
device reads them (R83 to R85). -/
def deviceAddr (s : State) (addr : Nat) : Nat :=
  natOfBytes (addrBytes (a4 s.cfg s.blockcount) (BitVec.ofNat 32 addr)) % s.dev.size

/-- The opcode bytes of R94: the only bytes that are ever byte 0 of a session (R99). -/
def opcodes : List Byte :=
  [0x01#8, 0x02#8, 0x03#8, 0x04#8, 0x05#8, 0x06#8, 0x0B#8, 0x0C#8, 0x11#8, 0x12#8, 0x13#8, 0x15#8, 0x20#8, 0x21#8, 0x31#8,
    0x35#8, 0x4B#8, 0x9F#8, 0xC7#8, 0xD8#8, 0xDC#8]

/-- Whether the session in progress still has no byte after an event, if `fresh` says so of the time before it. -/
def freshEvent (fresh : Bool) : Event → Bool
  | .cs0 => true
  | .cs1 => false
  | .tick _ => fresh
  | .xfer _ _ | .xferFail _ | .bulkTx _ _ | .bulkRx _ _ _ => false

/-- Whether an event may come: byte 0 of a session goes by a single exchange and is an opcode (R90, R94). -/
def eventOpens (fresh : Bool) : Event → Bool
  | .xfer tx _ | .xferFail tx => !fresh || opcodes.contains tx
  | .bulkTx _ _ | .bulkRx _ _ _ => !fresh
  | .cs0 | .cs1 | .tick _ => true

/-- `freshEvent` over a list of events. -/
def freshAfter : Bool → List Event → Bool
  | fresh, [] => fresh
  | fresh, e :: es => freshAfter (freshEvent fresh e) es

/-- `eventOpens` over a list of events. -/
def opensRight : Bool → List Event → Bool
  | _, [] => true
  | fresh, e :: es => eventOpens fresh e && opensRight (freshEvent fresh e) es

/-- Every session of the trace begins with an opcode of R94 (R90, R99). -/
abbrev OpcodesOnly (s : State) : Prop := opensRight false s.trace = true

/-- An operation can start: no fault, nothing in progress (R33, R260), and room for one more acquisition (R160). -/
abbrev Ready (s : State) : Prop := s.fault = false ∧ s.seq = .idle ∧ s.depth < s.cfg.depthMax

/-- Explicit answers to single exchanges, all successful, with the bytes received (R71). -/
def oks (rx : List Byte) : List (Option Answer) := rx.map fun b => some (.ok [b])

/-- The events of successful single exchanges (R14). -/
def exchanged (tx rx : List Byte) : List Event := List.zipWith Event.xfer tx rx

/-- The events of one chip-select session from `s`: the line moves only if nothing holds it (R160, R161). -/
def inSession (s : State) (es : List Event) : List Event :=
  if s.depth = 0 then .cs0 :: (es ++ [.cs1]) else es

/-- The events of one successful read of status register 1 (R108, R172). -/
def pollEvents (s : State) (rx status : Byte) : List Event :=
  inSession s (exchanged [0x05#8, s.cfg.dummy] [rx, status])

/-! What one frame from `s` does on the ports, as a relation of the answers of the environment that it uses (log 1) and the events that
it makes. -/

/-- A session that sends the bytes `tx` by single exchanges, all successful (R14, R71). -/
abbrev FrameSent (s : State) (tx : List Byte) (as : List (Option Answer)) (es : List Event) : Prop :=
  ∃ rx, rx.length = tx.length ∧ as = oks rx ∧ es = inSession s (exchanged tx rx)

/-- A session that is to send the bytes `tx`, cut short by the failure of one exchange, any of them (R71, R97). -/
abbrev FrameCut (s : State) (tx : List Byte) (as : List (Option Answer)) (es : List Event) : Prop :=
  ∃ pre c post rx done bytes, tx = pre ++ c :: post ∧ rx.length = pre.length ∧
    as = oks rx ++ [some (.fail done bytes)] ∧ es = inSession s (exchanged pre rx ++ [.xferFail c])

/-- Either of the two: a frame whose result is not examined (R252). -/
abbrev FrameRuns (s : State) (tx : List Byte) (as : List (Option Answer)) (es : List Event) : Prop :=
  FrameSent s tx as es ∨ FrameCut s tx as es

/-- A poll that shows the device idle, with status `q` (R173). -/
abbrev PollIdle (s : State) (q : Byte) (as : List (Option Answer)) (es : List Event) : Prop :=
  ∃ p, q.getLsbD 0 = false ∧ as = oks [p, q] ∧ es = pollEvents s p q

/-- A poll that counts as busy: the busy bit set, or either exchange failed (R173). -/
abbrev PollBusy (s : State) (as : List (Option Answer)) (es : List Event) : Prop :=
  (∃ p q, q.getLsbD 0 = true ∧ as = oks [p, q] ∧ es = pollEvents s p q) ∨ FrameCut s [0x05#8, s.cfg.dummy] as es

/-- A program session of `data` at `linear`, complete (R102, R190). -/
abbrev ProgramSent (s : State) (linear : Nat) (data : List Byte) (as : List (Option Answer)) (es : List Event) : Prop :=
  ∃ rx bytes, rx.length = (cmdAddr .program linear s).length ∧ as = oks rx ++ [some (.ok bytes)] ∧
    es = inSession s (exchanged (cmdAddr .program linear s) rx ++ [.bulkTx data data.length])

/-- A program session that the transport stops, at an exchange of the command or in the bulk transfer (R190). -/
abbrev ProgramCut (s : State) (linear : Nat) (data : List Byte) (as : List (Option Answer)) (es : List Event) : Prop :=
  FrameCut s (cmdAddr .program linear s) as es ∨
    ∃ rx done bytes, done < data.length ∧ rx.length = (cmdAddr .program linear s).length ∧
      as = oks rx ++ [some (.fail done bytes)] ∧
      es = inSession s (exchanged (cmdAddr .program linear s) rx ++ [.bulkTx data done])

/-- The two ways a sub-write fails: in its write enable, or in its program session (R190). -/
abbrev ProgramStops (s : State) (linear : Nat) (data : List Byte) (as : List (Option Answer)) (es : List Event) : Prop :=
  FrameCut s [0x06#8] as es ∨
    ∃ wa we ca ce, FrameSent s [0x06#8] wa we ∧ ProgramCut s linear data ca ce ∧ as = wa ++ ca ∧ es = we ++ ce

/-- A read frame that sends `tx` and is to receive `n` bytes, which the transport stops (R220, R225). -/
abbrev ReadCut (s : State) (tx : List Byte) (n : Nat) (as : List (Option Answer)) (es : List Event) : Prop :=
  FrameCut s tx as es ∨
    ∃ rx done bytes, done < n ∧ bytes.length = done ∧ rx.length = tx.length ∧ as = oks rx ++ [some (.fail done bytes)] ∧
      es = inSession s (exchanged tx rx ++ [.bulkRx n done bytes])

/-- The time from `START` to a tick answer, in numbers: the modular difference of R74. -/
def sinceStart (s : State) (start now : Word) : Nat :=
  ((tickValue s.cfg now).toNat + 4294967296 - start.toNat) % 2 ^ s.cfg.tickW

/-- An outcome that is a next state with a property. -/
abbrev NextWith (r : Host.Outcome State Fault Refusal) (p : State → Prop) : Prop := ∃ t, r = .next t ∧ p t

/-- The value of a cached status register. -/
def getStatus (n : StatusReg) (s : State) : Byte :=
  match n with
  | .sr1 => s.sr1
  | .sr2 => s.sr2
  | .sr3 => s.sr3

/-- The registers of R20, R31, R32, and the model's own two (log 4). -/
inductive Reg where
  | blockcount | vendor | capcode | depth | cs | fast | sr1 | sr2 | sr3 | lasterr | fault | faultcause
  | op | a | b | len | tmo | wdata | result | rdata | seq | start | cur | rem | total | page | off | frameOk | frameRx
deriving DecidableEq, Repr

/-- A register is unchanged. -/
def kept (r : Reg) (s t : State) : Prop :=
  match r with
  | .blockcount => t.blockcount = s.blockcount
  | .vendor => t.vendor = s.vendor
  | .capcode => t.capcode = s.capcode
  | .depth => t.depth = s.depth
  | .cs => t.cs = s.cs
  | .fast => t.fast = s.fast
  | .sr1 => t.sr1 = s.sr1
  | .sr2 => t.sr2 = s.sr2
  | .sr3 => t.sr3 = s.sr3
  | .lasterr => t.lasterr = s.lasterr
  | .fault => t.fault = s.fault
  | .faultcause => t.faultcause = s.faultcause
  | .op => t.op = s.op
  | .a => t.a = s.a
  | .b => t.b = s.b
  | .len => t.len = s.len
  | .tmo => t.tmo = s.tmo
  | .wdata => t.wdata = s.wdata
  | .result => t.result = s.result
  | .rdata => t.rdata = s.rdata
  | .seq => t.seq = s.seq
  | .start => t.start = s.start
  | .cur => t.cur = s.cur
  | .rem => t.rem = s.rem
  | .total => t.total = s.total
  | .page => t.page = s.page
  | .off => t.off = s.off
  | .frameOk => t.frameOk = s.frameOk
  | .frameRx => t.frameRx = s.frameRx

/-- The registers an instruction may write: the lists of "state written" in the rules of the operations, its operand latches
(R31, R121), `SEQ` (R33), the working registers it uses (R32), and the fault registers where it opens a session (R261). -/
def mayWrite : Instr → List Reg
  | .wrsr1 _ | .wrsr2 _ | .wrsr3 _ | .pp3 _ _ | .pp4 _ _ | .read3 _ _ | .read4 _ _ | .fr3 _ _ | .fr4 _ _ | .wrdi | .wren
  | .se3 _ | .se4 _ | .be3 _ | .be4 _ | .ce | .rdid | .rduid => [.seq, .fault, .faultcause, .frameOk, .frameRx]
  | .rdsr1 => [.seq, .fault, .faultcause, .frameOk, .frameRx, .sr1]
  | .rdsr2 => [.seq, .fault, .faultcause, .frameOk, .frameRx, .sr2]
  | .rdsr3 => [.seq, .fault, .faultcause, .frameOk, .frameRx, .sr3]
  | .init => [.op, .seq, .fault, .faultcause, .lasterr, .result, .blockcount, .vendor, .capcode, .fast, .sr1, .sr2, .sr3]
  | .capacity | .blockmax | .sectormax | .pagemax => [.op, .seq, .lasterr, .result]
  | .select | .deselect => [.op, .lasterr, .depth, .cs, .fault, .faultcause]
  | .waitbusy _ => [.op, .tmo, .seq, .fault, .faultcause, .lasterr, .result, .start, .sr1]
  | .read _ _ => [.op, .a, .len, .seq, .fault, .faultcause, .lasterr, .result, .rdata, .cur]
  | .readpage _ _ _ | .readsector _ _ _ | .readblock _ _ _ =>
    [.op, .a, .b, .len, .seq, .fault, .faultcause, .lasterr, .result, .rdata, .cur]
  | .readstatus a =>
    [.op, .a, .seq, .fault, .faultcause, .lasterr, .result, if a = 1#32 then .sr1 else if a = 2#32 then .sr2 else .sr3]
  | .readuid => [.op, .seq, .fault, .faultcause, .lasterr, .result, .rdata]
  | .writepage _ _ _ _ => [.op, .a, .b, .len, .wdata, .seq, .fault, .faultcause, .lasterr, .result, .sr1, .cur]
  | .write _ _ _ =>
    [.op, .a, .len, .wdata, .seq, .fault, .faultcause, .lasterr, .result, .sr1, .cur, .rem, .total, .page, .off]
  | .writeuntil _ _ _ _ =>
    [.op, .a, .len, .tmo, .wdata, .seq, .fault, .faultcause, .lasterr, .result, .sr1, .start, .cur, .rem, .total, .page, .off]
  | .writestatus _ _ => [.op, .a, .b, .seq, .fault, .faultcause, .lasterr, .result, .sr1]
  | .erasesector _ | .eraseblock _ => [.op, .a, .seq, .fault, .faultcause, .lasterr, .result, .sr1, .cur]
  | .erasechip => [.op, .seq, .fault, .faultcause, .lasterr, .result, .sr1]
  | .setfast _ => [.op, .a, .seq, .lasterr, .result, .fast]

/-- The cells of `n` data bytes from device address `d`. -/
def dataCells (d n x : Nat) : Prop := d ≤ x ∧ x < d + n

/-- The cells of the unit of `n` bytes that holds device address `d` (R85). -/
def unitCells (d n x : Nat) : Prop := d - d % n ≤ x ∧ x < d - d % n + n

/-- The cells a sub-write may store to, in the device's addresses (R84, R190). -/
def pageCells (s : State) (page off len x : Nat) : Prop :=
  dataCells (deviceAddr s (page * 256 + off)) (min len (256 - off)) x

/-- The cells an erase command may store to, in the device's addresses (R85). -/
def eraseCells (s : State) (cmd : EraseCmd) (x : Nat) : Prop :=
  match cmd with
  | .sector addr => unitCells (deviceAddr s addr) 4096 x
  | .block addr => unitCells (deviceAddr s addr) 65536 x
  | .chip => True

/-- The cells an instruction may store to in the step that starts it (R84, R85, R102 to R105, R191 to R193, R211 to R213). A linear
write stores to its first page there. -/
def storesTo (i : Instr) (s : State) (x : Nat) : Prop :=
  match i with
  | .pp3 addr data => dataCells (addr.toNat % s.dev.size) data.length x
  | .pp4 addr data => dataCells (addr.toNat % s.dev.size) data.length x
  | .se3 addr => unitCells (addr.toNat % s.dev.size) 4096 x
  | .se4 addr => unitCells (addr.toNat % s.dev.size) 4096 x
  | .be3 addr => unitCells (addr.toNat % s.dev.size) 65536 x
  | .be4 addr => unitCells (addr.toNat % s.dev.size) 65536 x
  | .ce => True
  | .writepage a b len _ => pageCells s a.toNat b.toNat len.toNat x
  | .write a len _ =>
    pageCells s (decomp a.toNat).1 (decomp a.toNat).2 (min len.toNat (capacityOf s.blockcount - a.toNat)) x
  | .writeuntil a len _ _ =>
    pageCells s (decomp a.toNat).1 (decomp a.toNat).2 (min len.toNat (capacityOf s.blockcount - a.toNat)) x
  | .erasesector a => eraseCells s (.sector (a.toNat * 4096)) x
  | .eraseblock a => eraseCells s (.block (a.toNat * 65536)) x
  | .erasechip => eraseCells s .chip x
  | .wrsr1 _ | .wrsr2 _ | .wrsr3 _ | .read3 _ _ | .read4 _ _ | .fr3 _ _ | .fr4 _ _ | .wrdi | .wren | .rdsr1 | .rdsr2
  | .rdsr3 | .rdid | .rduid | .init | .capacity | .blockmax | .sectormax | .pagemax | .select | .deselect | .waitbusy _
  | .read _ _ | .readpage _ _ _ | .readsector _ _ _ | .readblock _ _ _ | .readstatus _ | .readuid | .writestatus _ _
  | .setfast _ => False

/-- The registers that a later step of the operation in progress may write: the status its polls read, its completion (R173, R176: a
WRITESTATUS in its wait writes no error kind), `SEQ`, the fault registers (R261), and the locals of a page loop (R192, R193). -/
def laterWrites (s : State) : List Reg :=
  [.seq, .fault, .faultcause, .result, .sr1] ++ (if s.op = 0x38#8 then [] else [.lasterr]) ++
    (if s.op = 0x31#8 ∨ s.op = 0x32#8 then [.rem, .total, .page, .off] ++ (if s.seq = .check then [.cur] else []) else [])

/-- The cells a later step of the operation in progress may store to: those of the page that a page loop comes to (R192, R193); a
poll and the write disable after it store to none. -/
def laterStores (s : State) (x : Nat) : Prop :=
  (s.op = 0x31#8 ∨ s.op = 0x32#8) ∧ s.seq = .check ∧ pageCells s s.page.toNat s.off.toNat s.rem.toNat x

/-- The codes of R120. -/
def hostCodes : List Byte :=
  [0x01#8, 0x02#8, 0x03#8, 0x04#8, 0x05#8, 0x10#8, 0x11#8, 0x18#8, 0x20#8, 0x21#8, 0x22#8, 0x23#8, 0x28#8, 0x29#8, 0x30#8,
    0x31#8, 0x32#8, 0x38#8, 0x40#8, 0x41#8, 0x42#8, 0x50#8]

/-- Instructions one after the other, as long as each has a next state. -/
def execAll : List Instr → State → Option State
  | [], s => some s
  | i :: is, s =>
    match exec i s with
    | .next t => execAll is t
    | .fault _ => none
    | .refused _ => none

/-- The bytes that a read frame sends before its data, and the dummy bytes after them (R220, R241). -/
def readHead (s : State) (addr : Nat) : List Byte :=
  cmdAddr (if fastEffective s.cfg s.fast then .fastRead else .read) addr s

/-- The dummy bytes of a read frame (R220). -/
def readDummies (s : State) : List Byte := if fastEffective s.cfg s.fast then [s.cfg.dummy] else []

/-- A read inside the device: `n` of `len` bytes from `linear` (R221 to R224). -/
abbrev ReadOf (s : State) (i : Instr) (linear n len : Nat) : Prop :=
  (∃ a l : Word, i = .read a l ∧ len = l.toNat ∧ linear = a.toNat ∧ a.toNat < s.blockcount.toNat * 65536 ∧
      n = min len (s.blockcount.toNat * 65536 - a.toNat)) ∨
    (∃ a b l : Word, i = .readpage a b l ∧ len = l.toNat ∧ a.toNat < s.blockcount.toNat * 256 ∧ b.toNat < 256 ∧
      linear = a.toNat * 256 + b.toNat ∧ n = min len (256 - b.toNat)) ∨
    (∃ a b l : Word, i = .readsector a b l ∧ len = l.toNat ∧ a.toNat < s.blockcount.toNat * 16 ∧ b.toNat < 4096 ∧
      linear = a.toNat * 4096 + b.toNat ∧ n = min len (4096 - b.toNat)) ∨
    (∃ a b l : Word, i = .readblock a b l ∧ len = l.toNat ∧ a.toNat < s.blockcount.toNat ∧ b.toNat < 65536 ∧
      linear = a.toNat * 65536 + b.toNat ∧ n = min len (65536 - b.toNat))

/-- An erase inside the device, with its code and the bytes of its erase frame (R210 to R213). -/
abbrev EraseOf (s : State) (i : Instr) (op : Byte) (tx : List Byte) : Prop :=
  (∃ a : Word, i = .erasesector a ∧ op = 0x40#8 ∧ a.toNat < s.blockcount.toNat * 16 ∧
      tx = cmdAddr .eraseSec (a.toNat * 4096) s) ∨
    (∃ a : Word, i = .eraseblock a ∧ op = 0x41#8 ∧ a.toNat < s.blockcount.toNat ∧
      tx = cmdAddr .eraseBlk (a.toNat * 65536) s) ∨
    i = .erasechip ∧ op = 0x42#8 ∧ tx = [0xC7#8]

/-- A linear write (R192, R193), with its code and the tick that WRITEUNTIL reads at its start. -/
abbrev WriteOf (s : State) (i : Instr) (a len : Word) (data : List Byte) (op : Byte) (te : List Event) : Prop :=
  i = .write a len data ∧ op = 0x31#8 ∧ te = [] ∨
    ∃ tmo t0 ts, i = .writeuntil a len tmo data ∧ op = 0x32#8 ∧ s.ticks = t0 :: ts ∧ te = [.tick (tickValue s.cfg t0)]

end Sys2Proof.Machine
end

