-- ==== Sys2Proof/Certificates/Slice0/Obligations.lean ====
section
/-!
DEFINITION. The statements for the provers, from the spec's numbered rules. `Ready`, `oks`, `exchanged`, `inSession`, `pollEvents`,
`NextWith`, `Legal`, `mayWrite`, `laterWrites`, `kept`, `storesTo`, `laterStores`, and the relations of a frame to its answers and its
events (`FrameSent`, `FrameCut`, `PollIdle`, `PollBusy`, `ProgramSent`, …) are Safety.lean's. A statement "an exchange succeeds" fixes
the environment's coming answers in the state (log 1) and leaves every byte received open. That an operation which waits or
loops stands in a next state at `SEQ = WAIT` or `CHECK`, to go on in a later step, is the model's choice (log 2).
-/

section

open Sys2Proof Sys2Proof.Machine

/-! Encoding. -/

/-- Decoding the encoding of any well-formed instruction gives it back, with every operand at every value and whatever the parameters
(R90, R91, R94, R96, R98, R120, R121). -/
def Obligations.DecodeEncodeAgree : Prop :=
  ∀ (p : Params) (i : Instr), i.wellFormed = true → decode p.uidLen (encode p i) = .ok i

/-- Words written out from the spec (vectors V-ENC-31 to V-ENC-38, programs P2, P4 and P6) decode to the instructions they stand
for. -/
def Obligations.SampleWords : Prop :=
  decodeFrame 8 [0x02#8, 0x00#8, 0x00#8, 0xFF#8, 0x5A#8] = .ok (.pp3 0x0000FF#24 [0x5A#8]) ∧
  decodeFrame 8 [0x20#8, 0x00#8, 0x10#8, 0x00#8] = .ok (.se3 0x001000#24) ∧
  decodeFrame 8 [0xDC#8, 0x01#8, 0x00#8, 0x00#8, 0x00#8] = .ok (.be4 0x01000000#32) ∧
  decodeFrame 8 [0x0B#8, 0x00#8, 0x02#8, 0xFE#8, 0x00#8, 0x00#8, 0x00#8] = .ok (.fr3 0x0002FE#24 2) ∧
  decodeFrame 8 [0x31#8, 0x02#8] = .ok (.wrsr2 0x02#8) ∧
  decodeFrame 8 [0x9F#8, 0x00#8, 0x00#8, 0x00#8] = .ok .rdid ∧
  decodeRequest ⟨0x32#8, 0x000001FE#32, 0#32, 4#32, 10#32, [0xA1#8, 0xA2#8, 0xA3#8, 0xA4#8]⟩ =
    .ok (.writeuntil 0x000001FE#32 4#32 10#32 [0xA1#8, 0xA2#8, 0xA3#8, 0xA4#8]) ∧
  decodeRequest ⟨0x41#8, 256#32, 0#32, 0#32, 0#32, []⟩ = .ok (.eraseblock 256#32) ∧
  decodeRequest ⟨0x23#8, 256#32, 0x80#32, 3#32, 0#32, []⟩ = .ok (.readblock 256#32 0x80#32 3#32)

/-- R122: the codes of R120 are operations; presenting any other code to an idle block is the fault `IllegalOp` and changes
nothing but `FAULT` and `FAULTCAUSE`. -/
def Obligations.UnassignedCodes : Prop :=
  ∀ r : Request,
    (r.op ∈ hostCodes → ∃ i, decodeRequest r = .ok i ∧ i.isFrame = false) ∧
    (r.op ∉ hostCodes → ∀ s : State, s.fault = false → s.seq = .idle →
      present r s = .next { s with fault := true, faultcause := .illegalOp })

/-- The opcode table of R92, a table of pairs; the other opcodes, which their frames begin with in either address mode, from every
state that is ready for an instruction and has legal parameters; and R241: the read opcode and the dummy byte under the three
configurations (R27). That such a frame can be run by itself and answers a next state is the model's choice (log 4). -/
def Obligations.OpcodeSelection : Prop :=
  (opc .read false = 0x03#8 ∧ opc .read true = 0x13#8 ∧ opc .fastRead false = 0x0B#8 ∧ opc .fastRead true = 0x0C#8 ∧
    opc .program false = 0x02#8 ∧ opc .program true = 0x12#8 ∧ opc .eraseSec false = 0x20#8 ∧ opc .eraseSec true = 0x21#8 ∧
    opc .eraseBlk false = 0xD8#8 ∧ opc .eraseBlk true = 0xDC#8) ∧
  (∀ (s : State) (i : Instr) (op : Byte), Ready s → s.cfg.wf →
    (i = .wren ∧ op = 0x06#8 ∨ i = .wrdi ∧ op = 0x04#8 ∨ i = .rdsr1 ∧ op = 0x05#8 ∨ i = .rdsr2 ∧ op = 0x35#8 ∨
      i = .rdsr3 ∧ op = 0x15#8 ∨ (∃ v, i = .wrsr1 v) ∧ op = 0x01#8 ∨ (∃ v, i = .wrsr2 v) ∧ op = 0x31#8 ∨
      (∃ v, i = .wrsr3 v) ∧ op = 0x11#8 ∨ i = .rdid ∧ op = 0x9F#8 ∨ i = .rduid ∧ op = 0x4B#8 ∨ i = .ce ∧ op = 0xC7#8) →
    NextWith (exec i s) fun t => ∃ e es,
      t.trace = s.trace ++ (if s.depth = 0 then [.cs0] else []) ++ e :: es ∧ ((∃ rx, e = .xfer op rx) ∨ e = .xferFail op)) ∧
  ∀ (s : State) (addr : Nat),
    (s.cfg.fastCfg = .disabled ∨ s.cfg.fastCfg = .fixed false ∨ s.cfg.fastCfg = .enabled ∧ s.fast ≠ .fast →
      (readHead s addr).head? = some (if a4 s.cfg s.blockcount then 0x13#8 else 0x03#8) ∧ readDummies s = []) ∧
    (s.cfg.fastCfg = .fixed true ∨ s.cfg.fastCfg = .enabled ∧ s.fast = .fast →
      (readHead s addr).head? = some (if a4 s.cfg s.blockcount then 0x0C#8 else 0x0B#8) ∧ readDummies s = [s.cfg.dummy])

/-- R96: the address bytes, most significant first, four or three of them; with the automatic mode the bits that the 3-byte mode does not
send are zero for every address inside the device; the worked example. -/
def Obligations.AddressBytes : Prop :=
  (∀ addr : Word,
    (addrBytes true addr).map BitVec.toNat =
      [addr.toNat / 16777216, addr.toNat / 65536 % 256, addr.toNat / 256 % 256, addr.toNat % 256] ∧
    (addrBytes false addr).map BitVec.toNat =
      [addr.toNat / 65536 % 256, addr.toNat / 256 % 256, addr.toNat % 256]) ∧
  (∀ (p : Params) (bc : BitVec 16) (addr : Word), p.addrMode = .auto → a4 p bc = false → addr.toNat < capacityOf bc →
    addr.toNat / 16777216 = 0) ∧
  addrBytes false 0x012345#32 = [0x01#8, 0x23#8, 0x45#8] ∧
  addrBytes true 0x012345#32 = [0x00#8, 0x01#8, 0x23#8, 0x45#8]

/-! The address translator, the capacity table, the address mode. -/

/-- R53: the bounds check, the linear address and the clamped length; the bytes lie in one unit and in the device; the worked
example. -/
def Obligations.Translate : Prop :=
  (∀ (bc : BitVec 16) (g : Gran) (idx off len : Nat),
    (unitMax bc g ≤ idx ∨ unitSize g ≤ off → xlate bc g idx off len = none) ∧
    (idx < unitMax bc g → off < unitSize g → ∃ linear n, xlate bc g idx off len = some (linear, n) ∧
      linear = idx * unitSize g + off ∧ n = min len (unitSize g - off) ∧
      (1 ≤ n → (linear + n - 1) / unitSize g = idx) ∧ linear + n ≤ capacityOf bc)) ∧
  xlate 256#16 .page 1 0 299 = some (256, 256)

/-- R56: decomposition of an address into page and offset, its inverse, and that translating the pair gives the address back. -/
def Obligations.Decompose : Prop :=
  ∀ addr : Word,
    decomp addr.toNat = ((addr.extractLsb' 8 24).toNat, (addr.extractLsb' 0 8).toNat) ∧
    (decomp addr.toNat).1 * 256 + (decomp addr.toNat).2 = addr.toNat ∧
    ∀ (bc : BitVec 16) (len : Nat), addr.toNat < capacityOf bc →
      xlate bc .page (decomp addr.toNat).1 (decomp addr.toNat).2 len = some (addr.toNat, min len (256 - addr.toNat % 256))

/-- R57: clamping of a linear range to the capacity; the bytes lie in the device. -/
def Obligations.ClampToCapacity : Prop :=
  ∀ (bc : BitVec 16) (addr len : Nat),
    (capacityOf bc ≤ addr → clampLinear bc addr len = none) ∧
    (addr < capacityOf bc → ∃ n, clampLinear bc addr len = some n ∧ n = min len (capacityOf bc - addr) ∧
      addr + n ≤ capacityOf bc)

/-- R58: nothing the translator computes leaves 32 bits, whatever the operands, so naturals and words agree. -/
def Obligations.NothingWraps : Prop :=
  ∀ bc : BitVec 16,
    (BitVec.ofNat 32 (capacityOf bc)).toNat = capacityOf bc ∧ (BitVec.ofNat 32 (pageMaxOf bc)).toNat = pageMaxOf bc ∧
    (∀ (g : Gran) (idx off len : Word) (linear n : Nat), xlate bc g idx.toNat off.toNat len.toNat = some (linear, n) →
      (BitVec.ofNat 32 linear).toNat = linear ∧ (BitVec.ofNat 32 n).toNat = n ∧
      idx * BitVec.ofNat 32 (unitSize g) + off = BitVec.ofNat 32 linear) ∧
    (∀ (addr len : Word) (n : Nat), clampLinear bc addr.toNat len.toNat = some n → (BitVec.ofNat 32 n).toNat = n)

/-- R146: the capacity table; the one entry the source fixes; the defaults. -/
def Obligations.CapacityTable : Prop :=
  (∀ (p : Params) (code : Byte),
    (code.toNat < p.capBase.toNat → lookup p code = none) ∧
    (∀ k, code.toNat = p.capBase.toNat + k → p.capTable.length ≤ k → lookup p code = none) ∧
    (∀ k (h : k < p.capTable.length), code.toNat = p.capBase.toNat + k → lookup p code = some p.capTable[k])) ∧
  (∀ p : Params, p.wf → lookup p 0x18#8 = some 256#16) ∧
  (∀ k : Nat, k < 10 → lookup Params.default (BitVec.ofNat 8 (0x11 + k)) = some (BitVec.ofNat 16 (2 ^ (k + 1)))) ∧
  (∀ code : Byte, code.toNat < 0x11 ∨ 0x1A < code.toNat → lookup Params.default code = none)

/-- R24: the address mode, a function of the parameters and the block count; what it determines; exactly 256 blocks use three
address bytes, which reach every address. -/
def Obligations.AddressMode : Prop :=
  (∀ (p : Params) (bc : BitVec 16),
    (p.addrMode = .force4 → a4 p bc = true) ∧ (p.addrMode = .force3 → a4 p bc = false) ∧
    (p.addrMode = .auto → (a4 p bc = true ↔ 256 < bc.toNat) ∧ (a4 p bc = true ↔ 16777216 < capacityOf bc) ∧
      a4 p 256#16 = false)) ∧
  (∀ (s : State) (lop : LogOp) (addr : Nat),
    (cmdAddr lop addr s).head? = some (opc lop (a4 s.cfg s.blockcount)) ∧
    (cmdAddr lop addr s).length = 1 + (if a4 s.cfg s.blockcount then 4 else 3)) ∧
  capacityOf 256#16 = 0xFFFFFF + 1

/-! The chip-select guard. -/

/-- R160, R162: SELECT of an idle block. -/
def Obligations.SelectAcquires : Prop :=
  ∀ s : State, s.fault = false → s.seq = .idle →
    (s.depth < s.cfg.depthMax → 1 ≤ s.depth →
      exec .select s = .next { s with op := 0x10#8, lasterr := .none, depth := s.depth + 1 }) ∧
    (s.depth < s.cfg.depthMax → s.depth = 0 →
      exec .select s = .next { s with
        op := 0x10#8, lasterr := .none, depth := 1, cs := false, dev := s.dev.csLow, trace := s.trace ++ [.cs0] }) ∧
    (s.depth = s.cfg.depthMax →
      NextWith (exec .select s) fun t =>
        t.fault = true ∧ t.faultcause = .selectOverflow ∧ t.depth = s.depth ∧ t.cs = s.cs ∧ t.trace = s.trace ∧ t.result = s.result ∧
        t.dev = s.dev)

/-- R161, R163: DESELECT of an idle block. -/
def Obligations.DeselectReleases : Prop :=
  ∀ s : State, s.fault = false → s.seq = .idle →
    (2 ≤ s.depth → exec .deselect s = .next { s with op := 0x11#8, lasterr := .none, depth := s.depth - 1 }) ∧
    (s.depth = 1 →
      exec .deselect s = .next { s with
        op := 0x11#8, lasterr := .none, depth := 0, cs := true, dev := s.dev.csHigh, trace := s.trace ++ [.cs1] }) ∧
    (s.depth = 0 →
      NextWith (exec .deselect s) fun t =>
        t.fault = true ∧ t.faultcause = .selectUnderflow ∧ t.depth = s.depth ∧ t.cs = s.cs ∧ t.trace = s.trace ∧
        t.result = s.result ∧ t.dev = s.dev)

/-- R164: from depth 0, `n` SELECTs and then `n` DESELECTs move the line down once, at the first, and up once, at the last; and
after any SELECTs and DESELECTs that raise no fault the line is low exactly while the depth is at least 1. -/
def Obligations.NestingLaw : Prop :=
  (∀ (s : State) (n : Nat), s.fault = false → s.seq = .idle → s.depth = 0 → 1 ≤ n → n ≤ s.cfg.depthMax →
    ∃ t, execAll (List.replicate n .select ++ List.replicate n .deselect) s = some t ∧ t.depth = 0 ∧ t.fault = false ∧
      t.trace = s.trace ++ [.cs0, .cs1]) ∧
  (∀ (s : State) (n : Nat), s.fault = false → s.seq = .idle → s.depth = 0 → 1 ≤ n → n ≤ s.cfg.depthMax →
    ∃ t, execAll (List.replicate n .select) s = some t ∧ t.depth = n ∧ t.fault = false ∧ t.trace = s.trace ++ [.cs0]) ∧
  (∀ (is : List Instr) (s t : State), (∀ i ∈ is, i = .select ∨ i = .deselect) → s.seq = .idle → GuardOk s →
    execAll is s = some t → t.fault = false → (t.cs = false ↔ 1 ≤ t.depth))

/-- R165: no instruction but SELECT and DESELECT, and no later step of an operation, changes the depth or the level of the line it
leaves, on any path, failures and faults included. -/
def Obligations.EveryOperationReleases : Prop :=
  (∀ (i : Instr) (s t : State), i ≠ .select → i ≠ .deselect → Legal s → exec i s = .next t →
    t.depth = s.depth ∧ t.cs = s.cs) ∧
  (∀ s t : State, Legal s → proceed s = .next t → t.depth = s.depth ∧ t.cs = s.cs)

/-! Faults. -/

/-- R260: while `FAULT = 1` every operation presented is ignored, and the block does nothing by itself. -/
def Obligations.FaultIgnores : Prop :=
  ∀ s : State, s.fault = true →
    (∀ i, exec i s = .next s) ∧ (∀ r, present r s = .next s) ∧ proceed s = .next s

/-- R255, R260: an operation presented while another is in progress is the fault `Reentry`, which changes nothing but `FAULT` and
`FAULTCAUSE`. That this is so whatever the code presented, an unassigned one included, is the model's reading (log 12, DEDUCED): R255 lists
`Reentry` and `IllegalOp` together, before everything else, and gives them no order. -/
def Obligations.ReentryFaults : Prop :=
  ∀ (s : State) (r : Request), s.fault = false → s.seq ≠ .idle →
    present r s = .next { s with fault := true, faultcause := .reentry }

/-- R260, R290: once a fault is raised every step leaves the whole machine as it is, but for the host's list of acts, until
reset. -/
def Obligations.FaultUntilReset : Prop :=
  ∀ s t : State, s.fault = true → (∀ q, s.hostQ ≠ .reset :: q) → step s = .next t → t = { s with hostQ := t.hostQ }

/-- R261: the only fault an instruction that has begun can raise in its middle is `SelectOverflow`, and only where the host holds
every acquisition; `SelectUnderflow` is DESELECT's alone. -/
def Obligations.OnlyOverflowInside : Prop :=
  ∀ (i : Instr) (s t : State), s.fault = false → s.seq = .idle → i ≠ .deselect → exec i s = .next t → t.fault = true →
    t.faultcause = .selectOverflow ∧ s.cfg.depthMax ≤ s.depth

/-! Identification. -/

/-- R140: INIT of a device it knows: the identity, the three status registers, `RESULT = 1`, and its five frames; and that the three
status reads may fail, whereupon the cache keeps its values. -/
def Obligations.InitIdentifies : Prop :=
  (∀ (s : State) (r0 r1 id0 id1 id2 x1 b1 x2 b2 x3 b3 : Byte) (blocks : BitVec 16) (rest : List (Option Answer)), Ready s →
    s.script = oks [r0, r1, id0, id1, id2, x1, b1, x2, b2, x3, b3] ++ rest → id0 = s.cfg.vendorMarker →
    lookup s.cfg id2 = some blocks →
    NextWith (exec .init s) fun t =>
      t.blockcount = blocks ∧ t.vendor = id0 ∧ t.capcode = id2 ∧ t.fast = .unset ∧ t.sr1 = b1 ∧ t.sr2 = b2 ∧ t.sr3 = b3 ∧
      t.result = 1#32 ∧ t.lasterr = .none ∧ t.seq = .idle ∧ t.fault = false ∧ t.script = rest ∧
      t.trace = s.trace ++ inSession s (exchanged [0x04#8] [r0]) ++
        inSession s (exchanged [0x9F#8, s.cfg.dummy, s.cfg.dummy, s.cfg.dummy] [r1, id0, id1, id2]) ++
        inSession s (exchanged [0x05#8, s.cfg.dummy] [x1, b1]) ++ inSession s (exchanged [0x35#8, s.cfg.dummy] [x2, b2]) ++
        inSession s (exchanged [0x15#8, s.cfg.dummy] [x3, b3])) ∧
  (∀ (s : State) (r0 r1 id0 id1 id2 : Byte) (n1 n2 n3 : Nat) (l1 l2 l3 : List Byte) (blocks : BitVec 16)
    (rest : List (Option Answer)), Ready s →
    s.script = oks [r0, r1, id0, id1, id2] ++ some (.fail n1 l1) :: some (.fail n2 l2) :: some (.fail n3 l3) :: rest →
    id0 = s.cfg.vendorMarker → lookup s.cfg id2 = some blocks →
    NextWith (exec .init s) fun t =>
      t.blockcount = blocks ∧ t.sr1 = s.sr1 ∧ t.sr2 = s.sr2 ∧ t.sr3 = s.sr3 ∧ t.result = 1#32 ∧ t.lasterr = .none ∧
      t.seq = .idle)

/-- R140: INIT of another vendor's device or of an unknown capacity: `UnsupportedDevice`, the identity cleared, no status read. -/
def Obligations.InitRejects : Prop :=
  ∀ (s : State) (r0 r1 id0 id1 id2 : Byte) (rest : List (Option Answer)), Ready s →
    s.script = oks [r0, r1, id0, id1, id2] ++ rest → id0 ≠ s.cfg.vendorMarker ∨ lookup s.cfg id2 = none →
    NextWith (exec .init s) fun t =>
      t.blockcount = 0#16 ∧ t.vendor = 0#8 ∧ t.capcode = 0#8 ∧ t.fast = .unset ∧ t.result = 0#32 ∧
      t.lasterr = .unsupportedDevice ∧ t.seq = .idle ∧ t.fault = false ∧
      t.trace = s.trace ++ inSession s (exchanged [0x04#8] [r0]) ++
        inSession s (exchanged [0x9F#8, s.cfg.dummy, s.cfg.dummy, s.cfg.dummy] [r1, id0, id1, id2])

/-- R140, R141: INIT whose write-disable frame or whose ID frame fails, at any exchange: `DeviceAbsent`, the identity cleared,
nothing sent after the failed exchange. -/
def Obligations.InitAbsent : Prop :=
  (∀ (s : State) (n : Nat) (l : List Byte) (rest : List (Option Answer)), Ready s → s.script = some (.fail n l) :: rest →
    NextWith (exec .init s) fun t =>
      t.blockcount = 0#16 ∧ t.vendor = 0#8 ∧ t.capcode = 0#8 ∧ t.fast = .unset ∧ t.result = 0#32 ∧
      t.lasterr = .deviceAbsent ∧ t.seq = .idle ∧ t.trace = s.trace ++ inSession s [.xferFail 0x04#8]) ∧
  (∀ (s : State) (r0 : Byte) (rs : List Byte) (n : Nat) (l : List Byte) (rest : List (Option Answer)), Ready s →
    s.script = oks (r0 :: rs) ++ some (.fail n l) :: rest → rs.length < 4 →
    NextWith (exec .init s) fun t =>
      t.blockcount = 0#16 ∧ t.vendor = 0#8 ∧ t.capcode = 0#8 ∧ t.fast = .unset ∧ t.result = 0#32 ∧
      t.lasterr = .deviceAbsent ∧ t.seq = .idle ∧
      t.trace = s.trace ++ inSession s (exchanged [0x04#8] [r0]) ++
        inSession s (exchanged [0x9F#8, s.cfg.dummy, s.cfg.dummy, s.cfg.dummy] rs ++
          [.xferFail (if rs = [] then 0x9F#8 else s.cfg.dummy)]))

/-- R21, R22, R27: the identity is written by INIT alone, and `FAST` by INIT and SETFAST alone; no later step of an operation writes
either. -/
def Obligations.IdentityOnlyByInit : Prop :=
  (∀ (i : Instr) (s t : State), i ≠ .init → exec i s = .next t →
    t.blockcount = s.blockcount ∧ t.vendor = s.vendor ∧ t.capcode = s.capcode ∧
    ((∀ a, i ≠ .setfast a) → t.fast = s.fast)) ∧
  (∀ s t : State, proceed s = .next t →
    t.blockcount = s.blockcount ∧ t.vendor = s.vendor ∧ t.capcode = s.capcode ∧ t.fast = s.fast)

/-- R142 to R145: the geometry queries, which write `RESULT` and `LASTERR` and nothing else but the operation code. -/
def Obligations.GeometryQueries : Prop :=
  ∀ s : State, s.fault = false → s.seq = .idle →
    (∃ r : Word, r.toNat = s.blockcount.toNat * 65536 ∧
      exec .capacity s = .next { s with op := 0x02#8, lasterr := .none, result := r }) ∧
    (∃ r : Word, r.toNat = s.blockcount.toNat ∧
      exec .blockmax s = .next { s with op := 0x03#8, lasterr := .none, result := r }) ∧
    (∃ r : Word, r.toNat = s.blockcount.toNat * 16 ∧
      exec .sectormax s = .next { s with op := 0x04#8, lasterr := .none, result := r }) ∧
    (∃ r : Word, r.toNat = s.blockcount.toNat * 256 ∧
      exec .pagemax s = .next { s with op := 0x05#8, lasterr := .none, result := r })

/-! Status registers and busy waits. -/

/-- R175: READSTATUS: the byte received, in `RESULT` and in the cache of that register alone; a failed exchange; a register number out
of range, with no port event. -/
def Obligations.ReadstatusReturns : Prop :=
  ∀ (s : State) (a : Word) (n : StatusReg) (opcode : Byte), Ready s →
    (a = 1#32 ∧ n = .sr1 ∧ opcode = 0x05#8 ∨ a = 2#32 ∧ n = .sr2 ∧ opcode = 0x35#8 ∨ a = 3#32 ∧ n = .sr3 ∧ opcode = 0x15#8 →
      (∀ (r b : Byte) (rest : List (Option Answer)), s.script = oks [r, b] ++ rest →
        NextWith (exec (.readstatus a) s) fun t =>
          t.result.toNat = b.toNat ∧ getStatus n t = b ∧ (∀ m, m ≠ n → getStatus m t = getStatus m s) ∧ t.lasterr = .none ∧
          t.seq = .idle ∧ t.trace = s.trace ++ inSession s (exchanged [opcode, s.cfg.dummy] [r, b])) ∧
      (∀ (k : Nat) (l : List Byte) (rest : List (Option Answer)), s.script = some (.fail k l) :: rest →
        NextWith (exec (.readstatus a) s) fun t =>
          t.result = 0#32 ∧ (∀ m, getStatus m t = getStatus m s) ∧ t.lasterr = .transferFailure ∧ t.seq = .idle ∧
          t.trace = s.trace ++ inSession s [.xferFail opcode]) ∧
      (∀ (r : Byte) (k : Nat) (l : List Byte) (rest : List (Option Answer)), s.script = oks [r] ++ some (.fail k l) :: rest →
        NextWith (exec (.readstatus a) s) fun t =>
          t.result = 0#32 ∧ (∀ m, getStatus m t = getStatus m s) ∧ t.lasterr = .transferFailure ∧ t.seq = .idle ∧
          t.trace = s.trace ++ inSession s [.xfer opcode r, .xferFail s.cfg.dummy])) ∧
    (a.toNat < 1 ∨ 3 < a.toNat →
      exec (.readstatus a) s = .next { s with op := 0x28#8, a := a, lasterr := .outOfRange, result := 0#32 })

/-- R176, R252: WRITESTATUS: write enable, the status-write frame, the first poll. Idle: the write disable, and true. Not idle: it waits
(log 2). Neither the status-write frame's own result nor the write disable's is examined. Once the write enable is sent, whatever
the environment answers next, it ends with true or it waits. A failed write enable is false, with nothing sent afterwards; so is a
register number out of range, with no port event. -/
def Obligations.WritestatusCompletes : Prop :=
  ∀ (s : State) (a b : Word) (opcode : Byte) (rest : List (Option Answer)), Ready s →
    (a = 1#32 ∧ opcode = 0x01#8 ∨ a = 2#32 ∧ opcode = 0x31#8 ∨ a = 3#32 ∧ opcode = 0x11#8 →
      (∀ (wa fa pa : List (Option Answer)) (we fe pe : List Event), FrameSent s [0x06#8] wa we →
        FrameRuns s [opcode, BitVec.ofNat 8 b.toNat] fa fe →
        (∀ (q : Byte) (da : List (Option Answer)) (de : List Event), PollIdle s q pa pe → FrameRuns s [0x04#8] da de →
          s.script = wa ++ fa ++ pa ++ da ++ rest →
          NextWith (exec (.writestatus a b) s) fun t =>
            t.result = 1#32 ∧ t.lasterr = .none ∧ t.seq = .idle ∧ t.sr1 = q ∧ t.script = rest ∧
            t.trace = s.trace ++ we ++ fe ++ pe ++ de) ∧
        (PollBusy s pa pe → s.script = wa ++ fa ++ pa ++ rest →
          NextWith (exec (.writestatus a b) s) fun t =>
            t.seq = .wait ∧ t.fault = false ∧ t.op = 0x38#8 ∧ t.lasterr = .none ∧ t.result = s.result ∧ t.script = rest ∧
            t.trace = s.trace ++ we ++ fe ++ pe)) ∧
      (∀ (wa : List (Option Answer)) (we : List Event), FrameSent s [0x06#8] wa we → s.script = wa ++ rest →
        NextWith (exec (.writestatus a b) s) fun t =>
          t.fault = false ∧ t.lasterr = .none ∧ (t.seq = .idle ∧ t.result = 1#32 ∨ t.seq = .wait)) ∧
      (∀ (wa : List (Option Answer)) (we : List Event), FrameCut s [0x06#8] wa we → s.script = wa ++ rest →
        NextWith (exec (.writestatus a b) s) fun t =>
          t.result = 0#32 ∧ t.lasterr = .transferFailure ∧ t.seq = .idle ∧ t.trace = s.trace ++ we)) ∧
    (a.toNat < 1 ∨ 3 < a.toNat →
      exec (.writestatus a b) s = .next { s with op := 0x38#8, a := a, b := b, lasterr := .outOfRange, result := 0#32 })

/-- R174: WAITBUSY of a device that the first poll sees idle: true whatever the timeout, after one tick and one frame. -/
def Obligations.WaitbusySeesIdle : Prop :=
  ∀ (s : State) (tmo t0 : Word) (ts : List Word) (r b : Byte) (rest : List (Option Answer)), Ready s → s.ticks = t0 :: ts →
    s.script = oks [r, b] ++ rest → b.getLsbD 0 = false →
    NextWith (exec (.waitbusy tmo) s) fun t =>
      t.result = 1#32 ∧ t.lasterr = .none ∧ t.seq = .idle ∧ t.sr1 = b ∧ t.start = tickValue s.cfg t0 ∧ t.ticks = ts ∧
      t.trace = s.trace ++ [.tick (tickValue s.cfg t0)] ++ pollEvents s r b

/-- R174: one more poll of a WAITBUSY in progress (one poll a step, log 2), and the first poll of one that starts. Idle ends it with true. A
busy status or an exchange that failed, the first or the second, is followed by the tick, and ends it with `BusyTimeout` exactly when
the elapsed time has reached the timeout, never earlier; otherwise it goes on. -/
def Obligations.WaitbusyPolls : Prop :=
  (∀ (s : State) (pa : List (Option Answer)) (pe : List Event) (rest : List (Option Answer)), s.hostQ = [] → s.fault = false →
    s.seq = .wait → s.op = 0x18#8 → s.depth < s.cfg.depthMax → s.cfg.tickW ≤ 32 → s.script = pa ++ rest →
    (∀ q : Byte, PollIdle s q pa pe →
      NextWith (step s) fun t =>
        t.result = 1#32 ∧ t.lasterr = s.lasterr ∧ t.seq = .idle ∧ t.sr1 = q ∧ t.ticks = s.ticks ∧ t.script = rest ∧
        t.trace = s.trace ++ pe) ∧
    (∀ (now : Word) (ts : List Word), PollBusy s pa pe → s.ticks = now :: ts →
      NextWith (step s) fun t =>
        t.ticks = ts ∧ t.script = rest ∧ t.trace = s.trace ++ pe ++ [.tick (tickValue s.cfg now)] ∧
        (s.tmo.toNat ≤ sinceStart s s.start now → t.result = 0#32 ∧ t.lasterr = .busyTimeout ∧ t.seq = .idle) ∧
        (sinceStart s s.start now < s.tmo.toNat →
          t.result = s.result ∧ t.lasterr = s.lasterr ∧ t.seq = .wait ∧ t.op = s.op ∧ t.tmo = s.tmo ∧ t.start = s.start ∧
          t.fault = false))) ∧
  (∀ (s : State) (tmo t0 now : Word) (ts : List Word) (pa : List (Option Answer)) (pe : List Event) (rest : List (Option Answer)),
    Ready s → s.cfg.tickW ≤ 32 → s.ticks = t0 :: now :: ts → PollBusy s pa pe → s.script = pa ++ rest →
    NextWith (exec (.waitbusy tmo) s) fun t =>
      t.ticks = ts ∧ t.script = rest ∧ t.start = tickValue s.cfg t0 ∧
      t.trace = s.trace ++ [.tick (tickValue s.cfg t0)] ++ pe ++ [.tick (tickValue s.cfg now)] ∧
      (tmo.toNat ≤ sinceStart s (tickValue s.cfg t0) now → t.result = 0#32 ∧ t.lasterr = .busyTimeout ∧ t.seq = .idle) ∧
      (sinceStart s (tickValue s.cfg t0) now < tmo.toNat →
        t.result = s.result ∧ t.lasterr = .none ∧ t.seq = .wait ∧ t.op = 0x18#8 ∧ t.tmo = tmo ∧ t.fault = false))

/-- R173, R303: a wait without a time bound goes on for as long as the polls count as busy (the busy bit set, or an exchange failed),
however many: the infinite run exists. One poll is one step (log 2). -/
def Obligations.UnboundedWaitGoesOn : Prop :=
  ∀ (polls : List (List (Option Answer) × List Event)) (s : State) (rest : List (Option Answer)), s.hostQ = [] →
    s.fault = false → s.seq = .wait → s.depth < s.cfg.depthMax →
    (s.op ∈ [0x38#8, 0x40#8, 0x41#8, 0x42#8] ∨
      s.op = 0x30#8 ∧ s.a.toNat < pageMaxOf s.blockcount ∧ s.b.toNat < 256 ∨
      s.op ∈ [0x31#8, 0x32#8] ∧ s.page.toNat < pageMaxOf s.blockcount ∧ s.off.toNat < 256) →
    (∀ p ∈ polls, PollBusy s p.1 p.2) → s.script = polls.flatMap Prod.fst ++ rest →
    NextWith (core.run polls.length s) fun t =>
      t.seq = .wait ∧ t.fault = false ∧ t.op = s.op ∧ t.result = s.result ∧ t.lasterr = s.lasterr ∧ t.script = rest ∧
      t.trace = s.trace ++ polls.flatMap Prod.snd

/-- R173, R176, R190 to R193, R210 to R213, R252: how a wait in progress ends (log 2): a poll that sees the device idle, then the write
disable, whose result is not examined. WRITESTATUS and the erases are then true; WRITEPAGE gives its count; WRITE and
WRITEUNTIL have committed the page: they end when nothing is left, and stand at the next page otherwise. -/
def Obligations.WaitsEnd : Prop :=
  ∀ (s : State) (q : Byte) (pa da : List (Option Answer)) (pe de : List Event) (rest : List (Option Answer)), s.hostQ = [] →
    s.fault = false → s.seq = .wait → s.depth < s.cfg.depthMax →
    (s.op ∈ [0x38#8, 0x40#8, 0x41#8, 0x42#8] ∨
      s.op = 0x30#8 ∧ s.a.toNat < s.blockcount.toNat * 256 ∧ s.b.toNat < 256 ∨
      s.op ∈ [0x31#8, 0x32#8] ∧ s.page.toNat < s.blockcount.toNat * 256 ∧ s.off.toNat < 256 ∧ 1 ≤ s.rem.toNat ∧
        s.total.toNat + s.rem.toNat ≤ s.len.toNat) →
    PollIdle s q pa pe → FrameRuns s [0x04#8] da de → s.script = pa ++ da ++ rest →
    NextWith (step s) fun t =>
      t.fault = false ∧ t.sr1 = q ∧ t.script = rest ∧ t.ticks = s.ticks ∧ t.trace = s.trace ++ pe ++ de ∧
      (s.op = 0x38#8 → t.seq = .idle ∧ t.result = 1#32 ∧ t.lasterr = s.lasterr) ∧
      (s.op ∈ [0x40#8, 0x41#8, 0x42#8] → t.seq = .idle ∧ t.result = 1#32 ∧ t.lasterr = .none) ∧
      (s.op = 0x30#8 → t.seq = .idle ∧ t.result.toNat = min s.len.toNat (256 - s.b.toNat) ∧
        t.lasterr = (if 256 - s.b.toNat < s.len.toNat then .partialWrite else .none)) ∧
      (s.op ∈ [0x31#8, 0x32#8] → ∀ m, m = min s.rem.toNat (256 - s.off.toNat) →
        t.total.toNat = s.total.toNat + m ∧ t.rem.toNat = s.rem.toNat - m ∧
        (m = s.rem.toNat → t.seq = .idle ∧ t.result = t.total ∧
          t.lasterr = (if s.total.toNat + s.rem.toNat < s.len.toNat then .partialWrite else .none)) ∧
        (m < s.rem.toNat → t.seq = .check ∧ t.op = s.op ∧ t.page = s.page + 1#32 ∧ t.off = 0#32 ∧ t.result = s.result))

/-! Writing. -/

/-- R190, R191, R252: WRITEPAGE: write enable, one program frame with the clamped data, the first poll. Idle: the write disable, whose
result is not examined, the count, and `PartialWrite` exactly when it was clamped. Not idle: it waits (log 2). -/
def Obligations.WritepageCompletes : Prop :=
  ∀ (s : State) (a b len : Word) (data : List Byte) (n : Nat) (wa fa pa : List (Option Answer)) (we fe pe : List Event)
    (rest : List (Option Answer)), Ready s → data.length = len.toNat → a.toNat < s.blockcount.toNat * 256 → b.toNat < 256 →
    1 ≤ len.toNat → n = min len.toNat (256 - b.toNat) → FrameSent s [0x06#8] wa we →
    ProgramSent s (a.toNat * 256 + b.toNat) (data.take n) fa fe →
    (∀ (q : Byte) (da : List (Option Answer)) (de : List Event), PollIdle s q pa pe → FrameRuns s [0x04#8] da de →
      s.script = wa ++ fa ++ pa ++ da ++ rest →
      NextWith (exec (.writepage a b len data) s) fun t =>
        t.result.toNat = n ∧ t.lasterr = (if n < len.toNat then .partialWrite else .none) ∧ t.seq = .idle ∧ t.sr1 = q ∧
        t.script = rest ∧ t.trace = s.trace ++ we ++ fe ++ pe ++ de) ∧
    (PollBusy s pa pe → s.script = wa ++ fa ++ pa ++ rest →
      NextWith (exec (.writepage a b len data) s) fun t =>
        t.seq = .wait ∧ t.fault = false ∧ t.op = 0x30#8 ∧ t.a = a ∧ t.b = b ∧ t.len = len ∧ t.wdata = data ∧ t.lasterr = .none ∧
        t.result = s.result ∧ t.script = rest ∧ t.trace = s.trace ++ we ++ fe ++ pe)

/-- R190, R191: WRITEPAGE that a transport failure stops: in the write-enable frame, at any exchange of the command, or in the bulk
transfer; nothing is sent afterwards; and WRITEPAGE of no bytes. -/
def Obligations.WritepageStops : Prop :=
  ∀ (s : State) (a b len : Word) (data : List Byte) (rest : List (Option Answer)), Ready s → data.length = len.toNat →
    a.toNat < s.blockcount.toNat * 256 → b.toNat < 256 →
    (len.toNat = 0 →
      exec (.writepage a b len data) s = .next { s with
        op := 0x30#8, a := a, b := b, len := len, wdata := data, lasterr := .none, result := 0#32 }) ∧
    (∀ (k : Nat) (l : List Byte), 1 ≤ len.toNat → s.script = some (.fail k l) :: rest →
      NextWith (exec (.writepage a b len data) s) fun t =>
        t.result = 0#32 ∧ t.lasterr = .transferFailure ∧ t.seq = .idle ∧ t.trace = s.trace ++ inSession s [.xferFail 0x06#8]) ∧
    (∀ (w c : Byte) (ra pre post l : List Byte) (k : Nat), 1 ≤ len.toNat →
      cmdAddr .program (a.toNat * 256 + b.toNat) s = pre ++ c :: post → ra.length = pre.length →
      s.script = oks (w :: ra) ++ some (.fail k l) :: rest →
      NextWith (exec (.writepage a b len data) s) fun t =>
        t.result = 0#32 ∧ t.lasterr = .transferFailure ∧ t.seq = .idle ∧
        t.trace = s.trace ++ inSession s (exchanged [0x06#8] [w]) ++ inSession s (exchanged pre ra ++ [.xferFail c])) ∧
    (∀ (w : Byte) (ra l : List Byte) (k : Nat), 1 ≤ len.toNat → ra.length = 1 + (if a4 s.cfg s.blockcount then 4 else 3) →
      s.script = oks (w :: ra) ++ some (.fail k l) :: rest →
      NextWith (exec (.writepage a b len data) s) fun t =>
        t.result = 0#32 ∧ t.lasterr = .transferFailure ∧ t.seq = .idle ∧
        ∃ done, done < min len.toNat (256 - b.toNat) ∧
          t.trace = s.trace ++ inSession s (exchanged [0x06#8] [w]) ++
            inSession s (exchanged (cmdAddr .program (a.toNat * 256 + b.toNat) s) ra ++
              [.bulkTx (data.take (min len.toNat (256 - b.toNat))) done]))

/-- R192, R252: WRITE up to its first sub-write: wholly inside one page and seen idle by the first poll, it ends; not idle, it waits
(log 2), with the loop's locals at the first page; a failed first sub-write ends it with 0; WRITE of no bytes emits nothing. -/
def Obligations.WriteCompletesInPage : Prop :=
  ∀ (s : State) (a len : Word) (data : List Byte) (n m : Nat) (rest : List (Option Answer)), Ready s → data.length = len.toNat →
    a.toNat < s.blockcount.toNat * 65536 → n = min len.toNat (s.blockcount.toNat * 65536 - a.toNat) →
    m = min n (256 - a.toNat % 256) →
    (1 ≤ len.toNat → ∀ (wa fa pa : List (Option Answer)) (we fe pe : List Event), FrameSent s [0x06#8] wa we →
      ProgramSent s a.toNat (data.take m) fa fe →
      (∀ (q : Byte) (da : List (Option Answer)) (de : List Event), PollIdle s q pa pe → FrameRuns s [0x04#8] da de →
        s.script = wa ++ fa ++ pa ++ da ++ rest → m = n →
        NextWith (exec (.write a len data) s) fun t =>
          t.result.toNat = n ∧ t.lasterr = (if n < len.toNat then .partialWrite else .none) ∧ t.seq = .idle ∧ t.sr1 = q ∧
          t.script = rest ∧ t.trace = s.trace ++ we ++ fe ++ pe ++ de) ∧
      (PollBusy s pa pe → s.script = wa ++ fa ++ pa ++ rest →
        NextWith (exec (.write a len data) s) fun t =>
          t.seq = .wait ∧ t.fault = false ∧ t.op = 0x31#8 ∧ t.page.toNat = a.toNat / 256 ∧ t.off.toNat = a.toNat % 256 ∧
          t.rem.toNat = n ∧ t.total = 0#32 ∧ t.len = len ∧ t.wdata = data ∧ t.lasterr = .none ∧ t.result = s.result ∧
          t.script = rest ∧ t.trace = s.trace ++ we ++ fe ++ pe)) ∧
    (1 ≤ len.toNat → ∀ (fa : List (Option Answer)) (fe : List Event), ProgramStops s a.toNat (data.take m) fa fe →
      s.script = fa ++ rest →
      NextWith (exec (.write a len data) s) fun t =>
        t.result = 0#32 ∧ t.lasterr = .transferFailure ∧ t.seq = .idle ∧ t.script = rest ∧ t.trace = s.trace ++ fe) ∧
    (len.toNat = 0 → NextWith (exec (.write a len data) s) fun t =>
      t.result = 0#32 ∧ t.lasterr = .none ∧ t.seq = .idle ∧ t.trace = s.trace)

/-- R192, R193, R195: WRITE or WRITEUNTIL that reaches beyond its first page: after the first sub-write the loop stands at the next page,
offset 0, with what is left, which is where a write of the rest would begin. That it stands there in a next state at `SEQ = CHECK` is
log 2. -/
def Obligations.WriteGoesOn : Prop :=
  ∀ (s : State) (i : Instr) (a len : Word) (data : List Byte) (op q : Byte) (n m : Nat) (wa fa pa da : List (Option Answer))
    (te we fe pe de : List Event) (rest : List (Option Answer)), Ready s → WriteOf s i a len data op te →
    data.length = len.toNat → a.toNat < s.blockcount.toNat * 65536 →
    n = min len.toNat (s.blockcount.toNat * 65536 - a.toNat) → m = 256 - a.toNat % 256 → m < n →
    FrameSent s [0x06#8] wa we → ProgramSent s a.toNat (data.take m) fa fe → PollIdle s q pa pe → FrameRuns s [0x04#8] da de →
    s.script = wa ++ fa ++ pa ++ da ++ rest →
    NextWith (exec i s) fun t =>
      t.seq = .check ∧ t.fault = false ∧ t.op = op ∧ t.total.toNat = m ∧ t.rem.toNat = n - m ∧ t.off = 0#32 ∧
      t.page.toNat * 256 = a.toNat + m ∧ t.wdata = data ∧ t.len = len ∧ t.result = s.result ∧ t.script = rest ∧
      t.trace = s.trace ++ te ++ we ++ fe ++ pe ++ de

/-- R192, R193, R252: one more iteration of the page loop of WRITE or WRITEUNTIL (one page a step, log 2), at any page and offset inside the
device: the sub-write sends the data from `TOTAL` on. Seen idle by the first poll, it ends the operation when nothing is left, and goes
on to the next page otherwise; not idle, the operation waits. A failed sub-write (write enable, any exchange of the command, or the bulk
transfer) ends WRITE with the bytes committed so far; after it WRITEUNTIL reads the tick, gives up with the bytes committed so far exactly
when the elapsed time exceeds the timeout, and otherwise stands ready to send the same page again. -/
def Obligations.WriteLoopIterates : Prop :=
  ∀ (s : State) (linear m : Nat) (rest : List (Option Answer)), s.hostQ = [] → s.fault = false → s.seq = .check →
    s.op ∈ [0x31#8, 0x32#8] → s.depth < s.cfg.depthMax → s.cfg.tickW ≤ 32 → s.page.toNat < s.blockcount.toNat * 256 →
    s.off.toNat < 256 → 1 ≤ s.rem.toNat → s.total.toNat + s.rem.toNat ≤ s.len.toNat → s.wdata.length = s.len.toNat →
    linear = s.page.toNat * 256 + s.off.toNat → m = min s.rem.toNat (256 - s.off.toNat) →
    (∀ (wa fa pa : List (Option Answer)) (we fe pe : List Event), FrameSent s [0x06#8] wa we →
      ProgramSent s linear ((s.wdata.drop s.total.toNat).take m) fa fe →
      (∀ (q : Byte) (da : List (Option Answer)) (de : List Event), PollIdle s q pa pe → FrameRuns s [0x04#8] da de →
        s.script = wa ++ fa ++ pa ++ da ++ rest →
        NextWith (step s) fun t =>
          t.trace = s.trace ++ we ++ fe ++ pe ++ de ∧ t.script = rest ∧ t.ticks = s.ticks ∧
          t.total.toNat = s.total.toNat + m ∧ t.rem.toNat = s.rem.toNat - m ∧
          (m = s.rem.toNat → t.seq = .idle ∧ t.result = t.total ∧
            t.lasterr = (if s.total.toNat + s.rem.toNat < s.len.toNat then .partialWrite else .none)) ∧
          (m < s.rem.toNat → t.seq = .check ∧ t.op = s.op ∧ t.page = s.page + 1#32 ∧ t.off = 0#32 ∧ t.result = s.result)) ∧
      (PollBusy s pa pe → s.script = wa ++ fa ++ pa ++ rest →
        NextWith (step s) fun t =>
          t.seq = .wait ∧ t.fault = false ∧ t.op = s.op ∧ t.page = s.page ∧ t.off = s.off ∧ t.rem = s.rem ∧ t.total = s.total ∧
          t.result = s.result ∧ t.script = rest ∧ t.trace = s.trace ++ we ++ fe ++ pe)) ∧
    (∀ (fa : List (Option Answer)) (fe : List Event), ProgramStops s linear ((s.wdata.drop s.total.toNat).take m) fa fe →
      s.script = fa ++ rest →
      (s.op = 0x31#8 → NextWith (step s) fun t =>
        t.result = s.total ∧ t.lasterr = .transferFailure ∧ t.seq = .idle ∧ t.script = rest ∧ t.trace = s.trace ++ fe) ∧
      (s.op = 0x32#8 → ∀ (now : Word) (ts : List Word), s.ticks = now :: ts → NextWith (step s) fun t =>
        t.ticks = ts ∧ t.script = rest ∧ t.trace = s.trace ++ fe ++ [.tick (tickValue s.cfg now)] ∧
        (s.tmo.toNat < sinceStart s s.start now → t.seq = .idle ∧ t.result = s.total ∧ t.lasterr = .transferFailure) ∧
        (sinceStart s s.start now ≤ s.tmo.toNat → t.seq = .check ∧ t.op = s.op ∧ t.page = s.page ∧ t.off = s.off ∧
          t.rem = s.rem ∧ t.total = s.total ∧ t.start = s.start ∧ t.result = s.result)))

/-- R193, R252: WRITEUNTIL up to its first sub-write: one tick at the start, then as WRITE: wholly inside one page and seen idle by the
first poll, it ends; not idle, it waits (log 2). WRITEUNTIL of no bytes reads the tick once and emits no frame. -/
def Obligations.WriteuntilCompletesInPage : Prop :=
  ∀ (s : State) (a len tmo t0 : Word) (ts : List Word) (data : List Byte) (n m : Nat) (rest : List (Option Answer)), Ready s →
    data.length = len.toNat → a.toNat < s.blockcount.toNat * 65536 → s.ticks = t0 :: ts →
    n = min len.toNat (s.blockcount.toNat * 65536 - a.toNat) → m = min n (256 - a.toNat % 256) →
    (1 ≤ len.toNat → ∀ (wa fa pa : List (Option Answer)) (we fe pe : List Event), FrameSent s [0x06#8] wa we →
      ProgramSent s a.toNat (data.take m) fa fe →
      (∀ (q : Byte) (da : List (Option Answer)) (de : List Event), PollIdle s q pa pe → FrameRuns s [0x04#8] da de →
        s.script = wa ++ fa ++ pa ++ da ++ rest → m = n →
        NextWith (exec (.writeuntil a len tmo data) s) fun t =>
          t.result.toNat = n ∧ t.lasterr = (if n < len.toNat then .partialWrite else .none) ∧ t.seq = .idle ∧ t.sr1 = q ∧
          t.ticks = ts ∧ t.script = rest ∧ t.trace = s.trace ++ [.tick (tickValue s.cfg t0)] ++ we ++ fe ++ pe ++ de) ∧
      (PollBusy s pa pe → s.script = wa ++ fa ++ pa ++ rest →
        NextWith (exec (.writeuntil a len tmo data) s) fun t =>
          t.seq = .wait ∧ t.fault = false ∧ t.op = 0x32#8 ∧ t.page.toNat = a.toNat / 256 ∧ t.off.toNat = a.toNat % 256 ∧
          t.rem.toNat = n ∧ t.total = 0#32 ∧ t.len = len ∧ t.wdata = data ∧ t.tmo = tmo ∧ t.start = tickValue s.cfg t0 ∧
          t.lasterr = .none ∧ t.result = s.result ∧ t.ticks = ts ∧ t.script = rest ∧
          t.trace = s.trace ++ [.tick (tickValue s.cfg t0)] ++ we ++ fe ++ pe)) ∧
    (len.toNat = 0 → NextWith (exec (.writeuntil a len tmo data) s) fun t =>
      t.result = 0#32 ∧ t.lasterr = .none ∧ t.seq = .idle ∧ t.ticks = ts ∧
      t.trace = s.trace ++ [.tick (tickValue s.cfg t0)])

/-- R193, R263: WRITEUNTIL whose first sub-write fails (write enable, any exchange of the command, or the bulk transfer) reads the tick: it
gives up with 0 and `TransferFailure` exactly when the elapsed time exceeds the timeout, and otherwise stands ready to send the same page
again, in a next state at `SEQ = CHECK` (log 2). -/
def Obligations.WriteuntilRetries : Prop :=
  ∀ (s : State) (a len tmo t0 now : Word) (ts : List Word) (data : List Byte) (n : Nat) (fa : List (Option Answer))
    (fe : List Event) (rest : List (Option Answer)), Ready s → data.length = len.toNat → 1 ≤ len.toNat →
    a.toNat < s.blockcount.toNat * 65536 → s.cfg.tickW ≤ 32 → s.ticks = t0 :: now :: ts →
    n = min len.toNat (s.blockcount.toNat * 65536 - a.toNat) →
    ProgramStops s a.toNat (data.take (min n (256 - a.toNat % 256))) fa fe → s.script = fa ++ rest →
    NextWith (exec (.writeuntil a len tmo data) s) fun t =>
      t.trace = s.trace ++ [.tick (tickValue s.cfg t0)] ++ fe ++ [.tick (tickValue s.cfg now)] ∧ t.start = tickValue s.cfg t0 ∧
      t.ticks = ts ∧ t.script = rest ∧
      (tmo.toNat < sinceStart s (tickValue s.cfg t0) now → t.seq = .idle ∧ t.result = 0#32 ∧ t.lasterr = .transferFailure) ∧
      (sinceStart s (tickValue s.cfg t0) now ≤ tmo.toNat → t.seq = .check ∧ t.op = 0x32#8 ∧ t.page.toNat = a.toNat / 256 ∧
        t.off.toNat = a.toNat % 256 ∧ t.total = 0#32 ∧ t.rem.toNat = n ∧ t.tmo = tmo ∧ t.result = s.result)

/-- The three stops by name. A write operation whose data is not exactly `LEN` bytes: R121 says that a model refuses it. A frame whose
data part is empty, and bytes given to be sent as a frame that are none: that these are refused is the model's (log 17, DEDUCED; R72
and R99 say that the block never makes such a transfer or frame). -/
def Obligations.StopsByName : Prop :=
  (∀ (s : State) (a b len tmo : Word) (data : List Byte), s.fault = false → s.seq = .idle → data.length ≠ len.toNat →
    exec (.writepage a b len data) s = .refused .wdataLength ∧ exec (.write a len data) s = .refused .wdataLength ∧
    exec (.writeuntil a len tmo data) s = .refused .wdataLength) ∧
  (∀ (s : State) (a3 : BitVec 24) (a4 : Word), s.fault = false → s.seq = .idle →
    exec (.read3 a3 0) s = .refused .emptyBulk ∧ exec (.fr3 a3 0) s = .refused .emptyBulk ∧
    exec (.read4 a4 0) s = .refused .emptyBulk ∧ exec (.fr4 a4 0) s = .refused .emptyBulk ∧
    exec (.pp3 a3 []) s = .refused .emptyBulk ∧ exec (.pp4 a4 []) s = .refused .emptyBulk) ∧
  (∀ (s : State) (bytes : List Byte) (q : List HostAct), s.fault = false → s.seq = .idle → s.hostQ = .probe bytes :: q →
    (∀ i, decodeFrame s.cfg.uidLen bytes ≠ .ok i) → step s = .refused .notAFrame)

/-! Erasing. -/

/-- R210 to R213, R252: an erase: write enable, the erase frame with the unit's first address, the first poll. Idle: the write disable,
whose result is not examined, and true. Not idle: it waits (log 2). ERASECHIP needs no identification. -/
def Obligations.EraseCompletes : Prop :=
  ∀ (s : State) (i : Instr) (op : Byte) (tx : List Byte) (wa fa pa : List (Option Answer)) (we fe pe : List Event)
    (rest : List (Option Answer)), Ready s → EraseOf s i op tx → FrameSent s [0x06#8] wa we → FrameSent s tx fa fe →
    (∀ (q : Byte) (da : List (Option Answer)) (de : List Event), PollIdle s q pa pe → FrameRuns s [0x04#8] da de →
      s.script = wa ++ fa ++ pa ++ da ++ rest →
      NextWith (exec i s) fun t =>
        t.result = 1#32 ∧ t.lasterr = .none ∧ t.seq = .idle ∧ t.sr1 = q ∧ t.script = rest ∧
        t.trace = s.trace ++ we ++ fe ++ pe ++ de) ∧
    (PollBusy s pa pe → s.script = wa ++ fa ++ pa ++ rest →
      NextWith (exec i s) fun t =>
        t.seq = .wait ∧ t.fault = false ∧ t.op = op ∧ t.lasterr = .none ∧ t.result = s.result ∧ t.script = rest ∧
        t.trace = s.trace ++ we ++ fe ++ pe)

/-- R210, R252: of an erase inside the device the write-enable frame alone is examined. The erase frame cut short at any exchange: the
operation goes on to the wait. Once the write enable is sent, whatever the environment answers next, the erase ends with true or it
waits (log 2), and so does every later step of it. A failed write enable makes it false, with nothing sent afterwards. -/
def Obligations.EraseExaminesWriteEnableOnly : Prop :=
  (∀ (s : State) (i : Instr) (op : Byte) (tx : List Byte) (wa : List (Option Answer)) (we : List Event)
    (rest : List (Option Answer)), Ready s → EraseOf s i op tx →
    (FrameSent s [0x06#8] wa we →
      (∀ (fa pa : List (Option Answer)) (fe pe : List Event), FrameCut s tx fa fe →
        (∀ (q : Byte) (da : List (Option Answer)) (de : List Event), PollIdle s q pa pe → FrameRuns s [0x04#8] da de →
          s.script = wa ++ fa ++ pa ++ da ++ rest →
          NextWith (exec i s) fun t =>
            t.result = 1#32 ∧ t.lasterr = .none ∧ t.seq = .idle ∧ t.script = rest ∧
            t.trace = s.trace ++ we ++ fe ++ pe ++ de) ∧
        (PollBusy s pa pe → s.script = wa ++ fa ++ pa ++ rest →
          NextWith (exec i s) fun t =>
            t.seq = .wait ∧ t.fault = false ∧ t.op = op ∧ t.script = rest ∧ t.trace = s.trace ++ we ++ fe ++ pe)) ∧
      (s.script = wa ++ rest →
        NextWith (exec i s) fun t =>
          t.fault = false ∧ t.lasterr = .none ∧ t.op = op ∧ (t.seq = .idle ∧ t.result = 1#32 ∨ t.seq = .wait))) ∧
    (FrameCut s [0x06#8] wa we → s.script = wa ++ rest →
      NextWith (exec i s) fun t =>
        t.result = 0#32 ∧ t.lasterr = .transferFailure ∧ t.seq = .idle ∧ t.script = rest ∧ t.trace = s.trace ++ we)) ∧
  (∀ s : State, s.fault = false → s.seq = .wait → s.op ∈ [0x40#8, 0x41#8, 0x42#8] → s.depth < s.cfg.depthMax →
    NextWith (proceed s) fun t =>
      t.fault = false ∧ t.op = s.op ∧
      (t.seq = .idle ∧ t.result = 1#32 ∧ t.lasterr = .none ∨ t.seq = .wait ∧ t.lasterr = s.lasterr))

/-! Bounds. -/

/-- R54, R57: every operation that takes an address refuses one out of bounds, with `OutOfRange`, result 0 and no port event. -/
def Obligations.OutOfRangeRefused : Prop :=
  ∀ (s : State) (i : Instr), s.fault = false → s.seq = .idle → i.wellFormed = true →
    ((∃ a len : Word, i = .read a len ∧ s.blockcount.toNat * 65536 ≤ a.toNat) ∨
      (∃ a b len : Word, i = .readpage a b len ∧ (s.blockcount.toNat * 256 ≤ a.toNat ∨ 256 ≤ b.toNat)) ∨
      (∃ a b len : Word, i = .readsector a b len ∧ (s.blockcount.toNat * 16 ≤ a.toNat ∨ 4096 ≤ b.toNat)) ∨
      (∃ a b len : Word, i = .readblock a b len ∧ (s.blockcount.toNat ≤ a.toNat ∨ 65536 ≤ b.toNat)) ∨
      (∃ (a b len : Word) (data : List Byte), i = .writepage a b len data ∧
        (s.blockcount.toNat * 256 ≤ a.toNat ∨ 256 ≤ b.toNat)) ∨
      (∃ (a len : Word) (data : List Byte), i = .write a len data ∧ s.blockcount.toNat * 65536 ≤ a.toNat) ∨
      (∃ (a len tmo : Word) (data : List Byte), i = .writeuntil a len tmo data ∧ s.blockcount.toNat * 65536 ≤ a.toNat) ∨
      (∃ a : Word, i = .erasesector a ∧ s.blockcount.toNat * 16 ≤ a.toNat) ∨
      (∃ a : Word, i = .eraseblock a ∧ s.blockcount.toNat ≤ a.toNat)) →
    NextWith (exec i s) fun t =>
      t.result = 0#32 ∧ t.lasterr = .outOfRange ∧ t.seq = .idle ∧ t.fault = false ∧ t.trace = s.trace ∧ t.dev = s.dev ∧
      t.depth = s.depth ∧ t.cs = s.cs

/-- R51, R291: before INIT has succeeded every addressed operation returns 0 with `OutOfRange` and SETFAST with `Refused`, with no
port event, and the geometry queries return 0. -/
def Obligations.UnidentifiedGate : Prop :=
  ∀ (s : State) (i : Instr), s.fault = false → s.seq = .idle → s.blockcount = 0#16 → i.wellFormed = true →
    ((∃ a len : Word, i = .read a len) ∨ (∃ a b len : Word, i = .readpage a b len) ∨
      (∃ a b len : Word, i = .readsector a b len) ∨ (∃ a b len : Word, i = .readblock a b len) ∨
      (∃ (a b len : Word) (data : List Byte), i = .writepage a b len data) ∨
      (∃ (a len : Word) (data : List Byte), i = .write a len data) ∨
      (∃ (a len tmo : Word) (data : List Byte), i = .writeuntil a len tmo data) ∨
      (∃ a : Word, i = .erasesector a) ∨ (∃ a : Word, i = .eraseblock a) →
      NextWith (exec i s) fun t => t.result = 0#32 ∧ t.lasterr = .outOfRange ∧ t.trace = s.trace ∧ t.seq = .idle) ∧
    ((∃ a : Word, i = .setfast a) →
      NextWith (exec i s) fun t =>
        t.result = 0#32 ∧ t.lasterr = .refused ∧ t.fast = s.fast ∧ t.trace = s.trace ∧ t.seq = .idle) ∧
    (i = .capacity ∨ i = .blockmax ∨ i = .sectormax ∨ i = .pagemax →
      NextWith (exec i s) fun t => t.result = 0#32 ∧ t.lasterr = .none ∧ t.trace = s.trace)

/-! Reading. -/

/-- R220 to R224: a read inside the device: one frame, standard or fast, from the linear address; the bytes received in `RDATA`, their
count in `RESULT`, and `PartialRead` exactly when the length was clamped. -/
def Obligations.ReadCompletes : Prop :=
  ∀ (s : State) (i : Instr) (linear n len : Nat) (ra rd bytes : List Byte) (rest : List (Option Answer)), Ready s →
    ReadOf s i linear n len → 1 ≤ n → ra.length = (readHead s linear).length → rd.length = (readDummies s).length →
    bytes.length = n → s.script = oks (ra ++ rd) ++ some (.ok bytes) :: rest →
    NextWith (exec i s) fun t =>
      t.rdata = bytes ∧ t.result.toNat = n ∧ t.lasterr = (if n < len then .partialRead else .none) ∧ t.seq = .idle ∧
      t.trace = s.trace ++
        inSession s (exchanged (readHead s linear ++ readDummies s) (ra ++ rd) ++ [.bulkRx n n bytes])

/-- R220 to R224, R255: a read inside the device, any of the four, that a transport failure stops, at any exchange of the opcode, the
address or the dummy byte, or in the bulk transfer: 0, `TransferFailure`; and a read of no bytes, which emits nothing. -/
def Obligations.ReadStops : Prop :=
  ∀ (s : State) (i : Instr) (linear n len : Nat), Ready s → ReadOf s i linear n len →
    (len = 0 → NextWith (exec i s) fun t => t.result = 0#32 ∧ t.lasterr = .none ∧ t.seq = .idle ∧ t.trace = s.trace) ∧
    (∀ (fa : List (Option Answer)) (fe : List Event) (rest : List (Option Answer)), 1 ≤ len →
      ReadCut s (readHead s linear ++ readDummies s) n fa fe → s.script = fa ++ rest →
      NextWith (exec i s) fun t =>
        t.result = 0#32 ∧ t.lasterr = .transferFailure ∧ t.seq = .idle ∧ t.script = rest ∧ t.trace = s.trace ++ fe)

/-- R225: READUID: one frame with four dummy bytes, `UID_LEN` bytes in `RDATA`; and its failure, at any exchange or in the bulk
transfer. -/
def Obligations.ReaduidReturns : Prop :=
  ∀ (s : State) (tx : List Byte), Ready s → s.cfg.wf → tx = [0x4B#8, s.cfg.dummy, s.cfg.dummy, s.cfg.dummy, s.cfg.dummy] →
    (∀ (rx bytes : List Byte) (rest : List (Option Answer)), rx.length = tx.length → bytes.length = s.cfg.uidLen →
      s.script = oks rx ++ some (.ok bytes) :: rest →
      NextWith (exec .readuid s) fun t =>
        t.rdata = bytes ∧ t.result.toNat = s.cfg.uidLen ∧ t.lasterr = .none ∧ t.seq = .idle ∧
        t.trace = s.trace ++ inSession s (exchanged tx rx ++ [.bulkRx s.cfg.uidLen s.cfg.uidLen bytes])) ∧
    (∀ (fa : List (Option Answer)) (fe : List Event) (rest : List (Option Answer)), ReadCut s tx s.cfg.uidLen fa fe →
      s.script = fa ++ rest →
      NextWith (exec .readuid s) fun t =>
        t.result = 0#32 ∧ t.lasterr = .transferFailure ∧ t.seq = .idle ∧ t.script = rest ∧ t.trace = s.trace ++ fe)

/-! Fast reads. -/

/-- R240: SETFAST of an idle block: refused while unidentified or not configurable, with `FAST` unchanged; else the flag, with no port
event, which the next read follows; INIT clears it, and nothing else returns it to unset. -/
def Obligations.SetfastSets : Prop :=
  ∀ (s : State) (a : Word), s.fault = false → s.seq = .idle →
    (s.blockcount = 0#16 ∨ s.cfg.fastCfg ≠ .enabled →
      exec (.setfast a) s = .next { s with op := 0x50#8, a := a, lasterr := .refused, result := 0#32 }) ∧
    (s.blockcount ≠ 0#16 → s.cfg.fastCfg = .enabled → a ≠ 0#32 →
      exec (.setfast a) s = .next { s with op := 0x50#8, a := a, lasterr := .none, fast := .fast, result := 1#32 }) ∧
    (s.blockcount ≠ 0#16 → s.cfg.fastCfg = .enabled → a = 0#32 →
      exec (.setfast a) s = .next { s with op := 0x50#8, a := a, lasterr := .none, fast := .standard, result := 1#32 }) ∧
    (∀ t, s.blockcount ≠ 0#16 → s.cfg.fastCfg = .enabled → exec (.setfast a) s = .next t →
      (fastEffective t.cfg t.fast = true ↔ a ≠ 0#32)) ∧
    (∀ t, exec .init s = .next t → t.fast = .unset) ∧
    (∀ i t, i ≠ .init → s.fast ≠ .unset → exec i s = .next t → t.fast ≠ .unset)

/-! The SPI frames by themselves (log 4). -/

/-- R91, R103 to R107, R109: the frames that only send: exactly their bytes, one exchange each, in one session. For an erase address that is
not a unit's first this is the model's choice (log 24). -/
def Obligations.SendFramesComplete : Prop :=
  ∀ (s : State) (i : Instr) (tx rx : List Byte) (rest : List (Option Answer)), Ready s →
    (i = .wren ∧ tx = [0x06#8] ∨ i = .wrdi ∧ tx = [0x04#8] ∨ i = .ce ∧ tx = [0xC7#8] ∨
      (∃ v, i = .wrsr1 v ∧ tx = [0x01#8, v] ∨ i = .wrsr2 v ∧ tx = [0x31#8, v] ∨ i = .wrsr3 v ∧ tx = [0x11#8, v]) ∨
      (∃ b2 b1 b0 : Byte, i = .se3 (b2 ++ b1 ++ b0) ∧ tx = [0x20#8, b2, b1, b0] ∨
        i = .be3 (b2 ++ b1 ++ b0) ∧ tx = [0xD8#8, b2, b1, b0]) ∨
      (∃ b3 b2 b1 b0 : Byte, i = .se4 (b3 ++ b2 ++ b1 ++ b0) ∧ tx = [0x21#8, b3, b2, b1, b0] ∨
        i = .be4 (b3 ++ b2 ++ b1 ++ b0) ∧ tx = [0xDC#8, b3, b2, b1, b0])) →
    rx.length = tx.length → s.script = oks rx ++ rest →
    NextWith (exec i s) fun t =>
      t.trace = s.trace ++ inSession s (exchanged tx rx) ∧ t.frameOk = true ∧ t.frameRx = [] ∧ t.seq = .idle ∧ t.fault = false ∧
      t.script = rest

/-- R91, R97: a frame that only sends is cut short at its first failed exchange; of an erase address that is not a unit's first, log 24. -/
def Obligations.SendFramesStop : Prop :=
  ∀ (s : State) (i : Instr) (tx pre post rx l : List Byte) (c : Byte) (k : Nat) (rest : List (Option Answer)), Ready s →
    (i = .wren ∧ tx = [0x06#8] ∨ i = .wrdi ∧ tx = [0x04#8] ∨ i = .ce ∧ tx = [0xC7#8] ∨
      (∃ v, i = .wrsr1 v ∧ tx = [0x01#8, v] ∨ i = .wrsr2 v ∧ tx = [0x31#8, v] ∨ i = .wrsr3 v ∧ tx = [0x11#8, v]) ∨
      (∃ b2 b1 b0 : Byte, i = .se3 (b2 ++ b1 ++ b0) ∧ tx = [0x20#8, b2, b1, b0] ∨
        i = .be3 (b2 ++ b1 ++ b0) ∧ tx = [0xD8#8, b2, b1, b0]) ∨
      (∃ b3 b2 b1 b0 : Byte, i = .se4 (b3 ++ b2 ++ b1 ++ b0) ∧ tx = [0x21#8, b3, b2, b1, b0] ∨
        i = .be4 (b3 ++ b2 ++ b1 ++ b0) ∧ tx = [0xDC#8, b3, b2, b1, b0])) →
    tx = pre ++ c :: post → rx.length = pre.length → s.script = oks rx ++ some (.fail k l) :: rest →
    NextWith (exec i s) fun t =>
      t.trace = s.trace ++ inSession s (exchanged pre rx ++ [.xferFail c]) ∧ t.frameOk = false ∧ t.seq = .idle ∧ t.fault = false

/-- R108, R110: the status and ID frames: opcode, then the bytes received while the dummy byte is sent; a status byte refreshes its cache
register and no other. -/
def Obligations.ReceiveFramesComplete : Prop :=
  ∀ (s : State) (rest : List (Option Answer)), Ready s →
    (∀ (i : Instr) (n : StatusReg) (opcode r b : Byte),
      (i = .rdsr1 ∧ n = .sr1 ∧ opcode = 0x05#8 ∨ i = .rdsr2 ∧ n = .sr2 ∧ opcode = 0x35#8 ∨
        i = .rdsr3 ∧ n = .sr3 ∧ opcode = 0x15#8) → s.script = oks [r, b] ++ rest →
      NextWith (exec i s) fun t =>
        t.trace = s.trace ++ inSession s (exchanged [opcode, s.cfg.dummy] [r, b]) ∧ t.frameOk = true ∧ t.frameRx = [b] ∧
        getStatus n t = b ∧ (∀ m, m ≠ n → getStatus m t = getStatus m s) ∧ t.seq = .idle) ∧
    (∀ r id0 id1 id2 : Byte, s.script = oks [r, id0, id1, id2] ++ rest →
      NextWith (exec .rdid s) fun t =>
        t.trace = s.trace ++ inSession s (exchanged [0x9F#8, s.cfg.dummy, s.cfg.dummy, s.cfg.dummy] [r, id0, id1, id2]) ∧
        t.frameOk = true ∧ t.frameRx = [id0, id1, id2] ∧ t.seq = .idle)

/-- R100 to R102, R111: the frames with a data part: opcode, address most significant byte first, dummy bytes, then one bulk
transfer. For program data past the page end, and for a read frame of the kind that
R241 does not select, this is the model's choice (log 24). -/
def Obligations.DataFramesComplete : Prop :=
  ∀ (s : State) (rx : List Byte) (rest : List (Option Answer)), Ready s → s.cfg.wf →
    (∀ (i : Instr) (tx bytes : List Byte) (n : Nat),
      ((∃ b2 b1 b0 : Byte, i = .read3 (b2 ++ b1 ++ b0) n ∧ tx = [0x03#8, b2, b1, b0] ∨
          i = .fr3 (b2 ++ b1 ++ b0) n ∧ tx = [0x0B#8, b2, b1, b0, s.cfg.dummy]) ∨
        (∃ b3 b2 b1 b0 : Byte, i = .read4 (b3 ++ b2 ++ b1 ++ b0) n ∧ tx = [0x13#8, b3, b2, b1, b0] ∨
          i = .fr4 (b3 ++ b2 ++ b1 ++ b0) n ∧ tx = [0x0C#8, b3, b2, b1, b0, s.cfg.dummy]) ∨
        i = .rduid ∧ n = s.cfg.uidLen ∧ tx = [0x4B#8, s.cfg.dummy, s.cfg.dummy, s.cfg.dummy, s.cfg.dummy]) →
      1 ≤ n → bytes.length = n → rx.length = tx.length → s.script = oks rx ++ some (.ok bytes) :: rest →
      NextWith (exec i s) fun t =>
        t.trace = s.trace ++ inSession s (exchanged tx rx ++ [.bulkRx n n bytes]) ∧ t.frameOk = true ∧ t.frameRx = bytes ∧
        t.seq = .idle) ∧
    (∀ (i : Instr) (tx data bs : List Byte),
      ((∃ b2 b1 b0 : Byte, i = .pp3 (b2 ++ b1 ++ b0) data ∧ tx = [0x02#8, b2, b1, b0]) ∨
        (∃ b3 b2 b1 b0 : Byte, i = .pp4 (b3 ++ b2 ++ b1 ++ b0) data ∧ tx = [0x12#8, b3, b2, b1, b0])) →
      data ≠ [] → rx.length = tx.length → s.script = oks rx ++ some (.ok bs) :: rest →
      NextWith (exec i s) fun t =>
        t.trace = s.trace ++ inSession s (exchanged tx rx ++ [.bulkTx data data.length]) ∧ t.frameOk = true ∧ t.frameRx = [] ∧
        t.seq = .idle)

/-! Steps, reset, invariants. -/

/-- A step runs the decoded instruction: the request or the frame that the host presents next to an idle block that no fault has
stopped, with the latches written and the host's act used up (R31, R75; logs 3, 4); an operation the host presents at once is presented
whatever the block does; with nothing presented, or nothing that can be taken yet, the block goes on. -/
def Obligations.StepRunsTheInstruction : Prop :=
  (∀ (s : State) (r : Request) (q : List HostAct) (i : Instr), s.hostQ = .op r :: q → s.fault = false → s.seq = .idle →
    decodeRequest r = .ok i →
    step s = exec i { s with hostQ := q, op := r.op, a := r.a, b := r.b, len := r.len, tmo := r.tmo, wdata := r.wdata }) ∧
  (∀ (s : State) (bytes : List Byte) (q : List HostAct) (i : Instr), s.hostQ = .probe bytes :: q → s.fault = false →
    s.seq = .idle → decodeFrame s.cfg.uidLen bytes = .ok i → step s = exec i { s with hostQ := q }) ∧
  (∀ (s : State) (a : HostAct) (q : List HostAct), s.hostQ = a :: q → s.fault = false → s.seq ≠ .idle →
    (∃ r, a = .op r) ∨ (∃ bytes, a = .probe bytes) → step s = proceed s) ∧
  (∀ (s : State) (r : Request) (q : List HostAct), s.hostQ = .barge r :: q → step s = present r { s with hostQ := q }) ∧
  (∀ (s : State) (q : List HostAct), s.hostQ = .idle :: q → step s = proceed { s with hostQ := q }) ∧
  (∀ s : State, s.hostQ = [] → step s = proceed s)

/-- R290: what reset does, in any state, a faulted one or one in the middle of an operation included. -/
def Obligations.ResetStep : Prop :=
  ∀ (s : State) (q : List HostAct), s.hostQ = .reset :: q →
    NextWith (step s) fun t =>
      t.blockcount = 0#16 ∧ t.vendor = 0#8 ∧ t.capcode = 0#8 ∧ t.depth = 0 ∧ t.cs = true ∧ t.fast = .unset ∧ t.lasterr = .none ∧
      t.fault = false ∧ t.faultcause = .none ∧ t.seq = .idle ∧ t.cfg = s.cfg ∧
      t.trace = s.trace ++ (if s.cs then [] else [.cs1]) ∧ (s.cs = true → t.dev = s.dev) ∧ t.script = s.script

/-- The machine right after reset is legal, and holds the values of R40. -/
def Obligations.ResetLegal : Prop :=
  Legal State.reset ∧ State.reset.blockcount = 0#16 ∧ State.reset.vendor = 0#8 ∧ State.reset.capcode = 0#8 ∧
    State.reset.depth = 0 ∧ State.reset.cs = true ∧ State.reset.fast = .unset ∧ State.reset.lasterr = .none ∧
    State.reset.fault = false ∧ State.reset.faultcause = .none ∧ State.reset.seq = .idle ∧ State.reset.cfg = Params.default

/-- R9, R22, R25, R26, R27, R36: every step keeps the legal states: the line low exactly while the depth is positive and the depth in
its range; the identity an entry of the table or wholly cleared; the device in step with the line and its cells in canonical form; the
fault registers in step; a step boundary idle, in a wait or at the page loop. -/
def Obligations.StepKeepsLegal : Prop := ∀ s t : State, Legal s → step s = .next t → Legal t

/-- R8: no step changes the parameters. -/
def Obligations.ParametersFixed : Prop := ∀ s t : State, step s = .next t → t.cfg = s.cfg

/-- R90, R99: every session begins with an opcode of R94, sent by a single exchange, whatever the host presents and whatever the
environment answers. -/
def Obligations.OpcodesOnlyKept : Prop := ∀ s t : State, Legal s → OpcodesOnly s → step s = .next t → OpcodesOnly t

/-! Frames. -/

/-- What every instruction leaves unchanged in the step that starts it, and what every later step of the operation in progress leaves
unchanged (polls, write disables, further pages: log 2): each register that its rule does not name as written (the tables `mayWrite` and
`laterWrites`), the parameters, and the host's list of acts. -/
def Obligations.RegistersKept : Prop :=
  (∀ (i : Instr) (s t : State), Legal s → s.fault = false → s.seq = .idle → exec i s = .next t →
    (∀ r : Reg, r ∉ mayWrite i → kept r s t) ∧ t.cfg = s.cfg ∧ t.hostQ = s.hostQ) ∧
  (∀ s t : State, Legal s → proceed s = .next t →
    (∀ r : Reg, r ∉ laterWrites s → kept r s t) ∧ t.cfg = s.cfg ∧ t.hostQ = s.hostQ)

/-- Every cell of the device that an instruction does not store to reads as before: all of them for an instruction that stores
nothing; outside the data bytes of a program and outside the unit of an erase, at the address the frame sends; and in a later step of
the operation in progress (log 2) all of them but the data bytes of the page that a page loop comes to. DESELECT has a statement of its
own. The device is the reference device (log 1), and an address is taken modulo its size, which for programs and erases is the model's
presumption (log 10). -/
def Obligations.CellsKept : Prop :=
  (∀ (i : Instr) (s t : State), Legal s → i.wellFormed = true → i ≠ .deselect → exec i s = .next t →
    ∀ x, ¬storesTo i s x → memRead t.dev.mem x = memRead s.dev.mem x) ∧
  (∀ s t : State, Legal s → proceed s = .next t → ∀ x, ¬laterStores s x → memRead t.dev.mem x = memRead s.dev.mem x)

/-! The reference device. -/

/-- R82, R84, R85: what a collected program or erase command does to the cells of the reference device, in both address widths. With the
latch set and the device idle: the AND of each byte with its data, wrapping inside the page; the erased value in the sector, in the block
or everywhere; every other cell unchanged; then the latch is clear and the device busy. With the latch clear, or the device busy:
nothing. -/
def Obligations.RefFlashStores : Prop :=
  (∀ (d : Flash) (sent : List Byte) (a w : Nat), MemWf d.mem → d.wel = true → d.busyLeft = 0 → a < d.size →
    ((∃ b2 b1 b0 : Byte, w = 3 ∧ sent = [b2, b1, b0] ∧ a = b2.toNat * 65536 + b1.toNat * 256 + b0.toNat) ∨
      (∃ b3 b2 b1 b0 : Byte, w = 4 ∧ sent = [b3, b2, b1, b0] ∧
        a = b3.toNat * 16777216 + b2.toNat * 65536 + b1.toNat * 256 + b0.toNat)) →
    (∀ data : List Byte, data ≠ [] → data.length ≤ 256 →
      d.session = (if w = 3 then 0x02#8 else 0x12#8) :: (sent ++ data) →
      d.effect.wel = false ∧ d.effect.busyLeft = d.refBusy ∧
      ∀ x, memRead d.effect.mem x =
        if x / 256 = a / 256 ∧ (x + 256 - a % 256) % 256 < data.length then
          memRead d.mem x &&& data.getD ((x + 256 - a % 256) % 256) 0#8
        else memRead d.mem x) ∧
    (d.session = (if w = 3 then 0x20#8 else 0x21#8) :: sent →
      d.effect.wel = false ∧ d.effect.busyLeft = d.refBusy ∧
      ∀ x, memRead d.effect.mem x = if x / 4096 = a / 4096 then 0xFF#8 else memRead d.mem x) ∧
    (d.session = (if w = 3 then 0xD8#8 else 0xDC#8) :: sent →
      d.effect.wel = false ∧ d.effect.busyLeft = d.refBusy ∧
      ∀ x, memRead d.effect.mem x = if x / 65536 = a / 65536 then 0xFF#8 else memRead d.mem x)) ∧
  (∀ d : Flash, d.wel = true → d.busyLeft = 0 → d.session = [0xC7#8] →
    d.effect.wel = false ∧ d.effect.busyLeft = d.refBusy ∧ ∀ x, memRead d.effect.mem x = 0xFF#8) ∧
  (∀ (d : Flash) (op : Byte) (more : List Byte), d.session = op :: more →
    op ∈ [0x02#8, 0x12#8, 0x20#8, 0x21#8, 0xD8#8, 0xDC#8, 0xC7#8] → d.wel = false ∨ d.busyLeft ≠ 0 → d.effect = d)

/-- R65, R309: the round trip: on the reference device (R80 to R86, the environment that answers here: log 1), idle, no longer busy after a
program, as large as the identified device, a WRITEPAGE of erased cells completes, and the READ of the same range then returns the data
bit for bit. -/
def Obligations.ReadBack : Prop :=
  ∀ (s : State) (a b len addr : Word) (data : List Byte), Legal s → Ready s → s.depth = 0 → s.script = [] → s.refDevice = true →
    s.cfg.addrMode = .auto → s.dev.busyLeft = 0 → s.dev.refBusy = 0 → s.dev.refBlocks = s.blockcount.toNat →
    data.length = len.toNat → 1 ≤ len.toNat → a.toNat < s.blockcount.toNat * 256 → b.toNat + len.toNat ≤ 256 →
    addr.toNat = a.toNat * 256 + b.toNat → (∀ k, k < len.toNat → memRead s.dev.mem (addr.toNat + k) = 0xFF#8) →
    NextWith (exec (.writepage a b len data) s) fun t =>
      t.seq = .idle ∧ t.result = len ∧ t.lasterr = .none ∧
      NextWith (exec (.read addr len) t) fun u => u.rdata = data ∧ u.result = len ∧ u.lasterr = .none

end
end

