-- ==== Sys2Proof/Laws/Memory.lean ====
section
/-!
SUPPORT. The cells: every operation keeps the canonical form, a read after a write gives the byte written, and a write, a program
and an erase leave every other address alone.
-/

namespace Sys2Proof.Machine

/-- An address below every listed one reads as erased. -/
theorem memRead_of_lt {m : List Host.Cell} {a : Nat} (h : ∀ c ∈ m, a < c.1) : memRead m a = erasedByte := by
  induction m with
  | nil => rfl
  | cons c m ih =>
    have hc := h c (by simp)
    simp only [memRead]
    rw [if_neg (by omega)]
    exact ih (fun x hx => h x (by simp [hx]))

theorem MemWf.tail {c : Host.Cell} {m : List Host.Cell} (h : MemWf (c :: m)) : MemWf m :=
  ⟨(List.pairwise_cons.mp h.1).2, fun x hx => h.2 x (by simp [hx])⟩

theorem MemWf.head_lt {c : Host.Cell} {m : List Host.Cell} (h : MemWf (c :: m)) : ∀ x ∈ m, c.1 < x.1 :=
  (List.pairwise_cons.mp h.1).1

theorem memWf_nil : MemWf [] := ⟨List.Pairwise.nil, by simp⟩

theorem memCons_wf {a : Nat} {v : Byte} {m : List Host.Cell} (hm : MemWf m) (h : ∀ c ∈ m, a < c.1) :
    MemWf (memCons a v m) := by
  unfold memCons
  split
  · exact hm
  · rename_i hv
    refine ⟨List.pairwise_cons.mpr ⟨h, hm.1⟩, ?_⟩
    intro c hc
    rcases List.mem_cons.mp hc with rfl | hc
    · exact hv
    · exact hm.2 c hc

theorem memRead_memCons {a x : Nat} {v : Byte} {m : List Host.Cell} (h : ∀ c ∈ m, a < c.1) :
    memRead (memCons a v m) x = if x = a then v else memRead m x := by
  unfold memCons
  split
  · rename_i hv
    split
    · rename_i hx
      subst hx
      rw [hv, memRead_of_lt h]
    · rfl
  · simp only [memRead]
    by_cases hx : x = a
    · simp [hx]
    · rw [if_neg (fun h => hx h.symm), if_neg hx]

/-- Where the addresses of a written memory come from. -/
theorem mem_memWrite {m : List Host.Cell} {a : Nat} {v : Byte} {c : Host.Cell} (h : c ∈ memWrite m a v) :
    c.1 = a ∨ c ∈ m := by
  induction m with
  | nil =>
    simp only [memWrite, memCons] at h
    split at h <;> simp_all
  | cons d m ih =>
    simp only [memWrite] at h
    split at h
    · simp only [memCons] at h
      split at h
      · exact .inr h
      · rcases List.mem_cons.mp h with rfl | h
        · exact .inl rfl
        · exact .inr h
    · split at h
      · simp only [memCons] at h
        split at h
        · exact .inr (by simp [h])
        · rcases List.mem_cons.mp h with rfl | h
          · exact .inl rfl
          · exact .inr (by simp [h])
      · rcases List.mem_cons.mp h with rfl | h
        · exact .inr (by simp)
        · rcases ih h with h | h
          · exact .inl h
          · exact .inr (by simp [h])

/-- A write keeps the canonical form. -/
theorem memWrite_wf {m : List Host.Cell} (hm : MemWf m) (a : Nat) (v : Byte) : MemWf (memWrite m a v) := by
  induction m with
  | nil => exact memCons_wf hm (by simp)
  | cons d m ih =>
    simp only [memWrite]
    split
    · rename_i hlt
      refine memCons_wf hm ?_
      intro c hc
      rcases List.mem_cons.mp hc with rfl | hc
      · exact hlt
      · have := hm.head_lt c hc; omega
    · split
      · rename_i _ heq
        exact memCons_wf hm.tail (fun c hc => by have := hm.head_lt c hc; omega)
      · have ht := ih hm.tail
        refine ⟨List.pairwise_cons.mpr ⟨?_, ht.1⟩, ?_⟩
        · intro c hc
          rcases mem_memWrite hc with h | h
          · omega
          · exact hm.head_lt c h
        · intro c hc
          rcases List.mem_cons.mp hc with rfl | hc
          · exact hm.2 _ (by simp)
          · exact ht.2 c hc

/-- Read after write, at the address written and at every other. -/
theorem memRead_memWrite {m : List Host.Cell} (hm : MemWf m) (a x : Nat) (v : Byte) :
    memRead (memWrite m a v) x = if x = a then v else memRead m x := by
  induction m with
  | nil => exact memRead_memCons (by simp)
  | cons d m ih =>
    simp only [memWrite]
    split
    · rename_i hlt
      refine memRead_memCons ?_
      intro c hc
      rcases List.mem_cons.mp hc with rfl | hc
      · exact hlt
      · have := hm.head_lt c hc; omega
    · split
      · rename_i _ heq
        rw [memRead_memCons (fun c hc => by have := hm.head_lt c hc; omega)]
        split
        · rfl
        · simp only [memRead]
          rw [if_neg (by omega)]
      · simp only [memRead]
        rw [ih hm.tail]
        by_cases h1 : d.1 = x
        · rw [if_pos h1, if_pos h1, if_neg (by omega)]
        · rw [if_neg h1, if_neg h1]

/-- An erase keeps the canonical form. -/
theorem memErase_wf {m : List Host.Cell} (hm : MemWf m) (lo n : Nat) : MemWf (memErase m lo n) :=
  ⟨hm.1.filter _, fun c hc => hm.2 c (List.mem_of_mem_filter hc)⟩

/-- Read after erase: all ones inside, unchanged outside. -/
theorem memRead_memErase {m : List Host.Cell} (lo n x : Nat) :
    memRead (memErase m lo n) x = if lo ≤ x ∧ x < lo + n then erasedByte else memRead m x := by
  induction m with
  | nil => simp [memErase, memRead]
  | cons d m ih =>
    unfold memErase at ih ⊢
    rw [List.filter_cons]
    by_cases hd : d.1 < lo ∨ lo + n ≤ d.1
    · rw [if_pos (by simpa using hd)]
      simp only [memRead, ih]
      by_cases h1 : d.1 = x
      · rw [if_pos h1, if_pos h1, if_neg (by omega)]
      · rw [if_neg h1, if_neg h1]
    · rw [if_neg (by simpa using hd), ih]
      simp only [memRead]
      by_cases h1 : d.1 = x
      · rw [if_pos (by omega), if_pos (by omega)]
      · rw [if_neg h1]

/-- Programming keeps the canonical form. -/
theorem programCells_wf {m : List Host.Cell} (hm : MemWf m) (a i : Nat) (bs : List Byte) :
    MemWf (programCells m a i bs) := by
  induction bs generalizing m i with
  | nil => exact hm
  | cons b bs ih => exact ih (memWrite_wf hm _ _) _

/-- Programming that stays inside its page: each byte is the AND of what was there and its data byte, every other address is
unchanged. -/
theorem memRead_programCells {m : List Host.Cell} (hm : MemWf m) (a i : Nat) (bs : List Byte)
    (hfit : a % 256 + i + bs.length ≤ 256) (x : Nat) :
    memRead (programCells m a i bs) x =
      if a + i ≤ x ∧ x < a + i + bs.length then memRead m x &&& bs.getD (x - (a + i)) 0#8 else memRead m x := by
  induction bs generalizing m i with
  | nil => simp [programCells]
  | cons b bs ih =>
    simp only [List.length_cons] at hfit
    simp only [programCells]
    have ht : a - a % 256 + (a + i) % 256 = a + i := by omega
    rw [ht, ih (memWrite_wf hm _ _) (i + 1) (by omega), memRead_memWrite hm]
    simp only [List.length_cons]
    by_cases h0 : x = a + i
    · subst h0
      rw [if_neg (by omega), if_pos rfl, if_pos (by omega)]
      simp
    · by_cases h1 : a + (i + 1) ≤ x ∧ x < a + (i + 1) + bs.length
      · rw [if_pos h1, if_neg h0, if_pos (by omega)]
        have : x - (a + i) = (x - (a + (i + 1))) + 1 := by omega
        rw [this]
        simp
      · rw [if_neg h1, if_neg h0, if_neg (by omega)]

end Sys2Proof.Machine
end

