-- ==== Sys2Proof/Laws/RefFlash.lean ====
section
/-!
SUPPORT. The reference device: what an exchange, the falling and the rising line can do to it (spec/20_memory.md R82 to R86).
-/

namespace Sys2Proof.Machine

/-- What an exchange never touches: parameters, cells, latch, the line. -/
structure Flash.SameStore (d e : Flash) : Prop where
  refId : e.refId = d.refId
  refBlocks : e.refBlocks = d.refBlocks
  refBusy : e.refBusy = d.refBusy
  refSr2 : e.refSr2 = d.refSr2
  refSr3 : e.refSr3 = d.refSr3
  refUid : e.refUid = d.refUid
  mem : e.mem = d.mem
  wel : e.wel = d.wel
  selected : e.selected = d.selected

theorem Flash.SameStore.refl (d : Flash) : d.SameStore d := ⟨rfl, rfl, rfl, rfl, rfl, rfl, rfl, rfl, rfl⟩

theorem Flash.SameStore.trans {d e f : Flash} (h : d.SameStore e) (k : e.SameStore f) : d.SameStore f :=
  ⟨k.1.trans h.1, k.2.trans h.2, k.3.trans h.3, k.4.trans h.4, k.5.trans h.5, k.6.trans h.6, k.7.trans h.7,
    k.8.trans h.8, k.9.trans h.9⟩

theorem Flash.exchange_same (d : Flash) (tx : Byte) : d.SameStore (d.exchange tx).2 := by
  unfold Flash.exchange
  split <;> exact ⟨rfl, rfl, rfl, rfl, rfl, rfl, rfl, rfl, rfl⟩

theorem Flash.exchangeAll_same (d : Flash) (bs : List Byte) : d.SameStore (d.exchangeAll bs).2 := by
  induction bs generalizing d with
  | nil => exact .refl d
  | cons b bs ih => exact (d.exchange_same b).trans (ih _)

@[simp] theorem Flash.exchangeAll_mem (d : Flash) (bs : List Byte) : (d.exchangeAll bs).2.mem = d.mem :=
  (d.exchangeAll_same bs).mem

@[simp] theorem Flash.exchangeAll_selected (d : Flash) (bs : List Byte) :
    (d.exchangeAll bs).2.selected = d.selected := (d.exchangeAll_same bs).selected

@[simp] theorem Flash.exchangeAll_refBlocks (d : Flash) (bs : List Byte) :
    (d.exchangeAll bs).2.refBlocks = d.refBlocks := (d.exchangeAll_same bs).refBlocks

/-- A selected device collects what is exchanged, in order. -/
theorem Flash.exchangeAll_session (d : Flash) (bs : List Byte) (h : d.selected = true) :
    (d.exchangeAll bs).2.session = d.session ++ bs := by
  induction bs generalizing d with
  | nil => simp [Flash.exchangeAll]
  | cons b bs ih =>
    simp only [Flash.exchangeAll]
    rw [ih _ (by rw [(d.exchange_same b).selected, h])]
    simp [Flash.exchange, h]

/-- Exchanges compose. -/
theorem Flash.exchangeAll_append (d : Flash) (as bs : List Byte) :
    (d.exchangeAll (as ++ bs)).2 = ((d.exchangeAll as).2.exchangeAll bs).2 := by
  induction as generalizing d with
  | nil => rfl
  | cons b as ih => exact ih _

@[simp] theorem Flash.csLow_mem (d : Flash) : d.csLow.mem = d.mem := rfl
@[simp] theorem Flash.csLow_selected (d : Flash) : d.csLow.selected = true := rfl
@[simp] theorem Flash.csLow_session (d : Flash) : d.csLow.session = [] := rfl
@[simp] theorem Flash.csLow_refBlocks (d : Flash) : d.csLow.refBlocks = d.refBlocks := rfl

@[simp] theorem Flash.csHigh_selected (d : Flash) : d.csHigh.selected = false := by
  unfold Flash.csHigh
  split <;> simp_all

theorem Flash.csHigh_mem (d : Flash) : d.csHigh.mem = if d.selected then d.effect.mem else d.mem := by
  unfold Flash.csHigh
  split <;> rfl

/-- The opcodes whose command can change a cell (R84, R85). -/
def storing (op : Byte) : Bool :=
  op == 0x02#8 || op == 0x12#8 || op == 0x20#8 || op == 0x21#8 || op == 0xD8#8 || op == 0xDC#8 || op == 0xC7#8

/-- Everything a collected command can do (R82, R84 to R86): nothing, set or clear the latch, program, erase a unit or all, or
write a status register. -/
theorem Flash.effect_cases (d : Flash) (P : Flash → Prop) (h0 : P d) (hw : ∀ b, P { d with wel := b })
    (hp : ∀ op rest w, d.session = op :: rest → (op = 0x02#8 ∧ w = 3 ∨ op = 0x12#8 ∧ w = 4) → P (d.program w rest))
    (he : ∀ op rest w n, d.session = op :: rest →
      (op = 0x20#8 ∧ w = 3 ∧ n = 4096 ∨ op = 0x21#8 ∧ w = 4 ∧ n = 4096 ∨ op = 0xD8#8 ∧ w = 3 ∧ n = 65536 ∨
        op = 0xDC#8 ∧ w = 4 ∧ n = 65536) → P (d.erase w n rest))
    (hc : ∀ rest, d.session = 0xC7#8 :: rest → P d.eraseAll)
    (hs : ∀ n rest, P (d.writeStatus n rest)) : P d.effect := by
  unfold Flash.effect
  cases hd : d.session with
  | nil => exact h0
  | cons op rest =>
    simp only
    by_cases hb : d.busyLeft ≠ 0
    · rw [if_pos hb]; exact h0
    rw [if_neg hb]
    by_cases h : op = 0x06#8
    · rw [if_pos h]; exact hd ▸ hw true
    rw [if_neg h]
    by_cases h : op = 0x04#8
    · rw [if_pos h]; exact hd ▸ hw false
    rw [if_neg h]
    by_cases h : op = 0x02#8
    · rw [if_pos h]; exact hp op _ _ hd (by simp [h])
    rw [if_neg h]
    by_cases h : op = 0x12#8
    · rw [if_pos h]; exact hp op _ _ hd (by simp [h])
    rw [if_neg h]
    by_cases h : op = 0x20#8
    · rw [if_pos h]; exact he op _ _ _ hd (by simp [h])
    rw [if_neg h]
    by_cases h : op = 0x21#8
    · rw [if_pos h]; exact he op _ _ _ hd (by simp [h])
    rw [if_neg h]
    by_cases h : op = 0xD8#8
    · rw [if_pos h]; exact he op _ _ _ hd (by simp [h])
    rw [if_neg h]
    by_cases h : op = 0xDC#8
    · rw [if_pos h]; exact he op _ _ _ hd (by simp [h])
    rw [if_neg h]
    by_cases h : op = 0xC7#8
    · rw [if_pos h]; exact hc rest (by rw [hd, h])
    rw [if_neg h]
    by_cases h : op = 0x01#8
    · rw [if_pos h]; exact hs _ _
    rw [if_neg h]
    by_cases h : op = 0x31#8
    · rw [if_pos h]; exact hs _ _
    rw [if_neg h]
    by_cases h : op = 0x11#8
    · rw [if_pos h]; exact hs _ _
    rw [if_neg h]; exact h0

@[simp] theorem Flash.writeStatus_mem (d : Flash) (n : Nat) (rest : List Byte) : (d.writeStatus n rest).mem = d.mem := by
  unfold Flash.writeStatus
  split
  · cases rest <;> rfl
  · rfl

@[simp] theorem Flash.writeStatus_refBlocks (d : Flash) (n : Nat) (rest : List Byte) :
    (d.writeStatus n rest).refBlocks = d.refBlocks := by
  unfold Flash.writeStatus
  split
  · cases rest <;> rfl
  · rfl

@[simp] theorem Flash.program_refBlocks (d : Flash) (w : Nat) (rest : List Byte) :
    (d.program w rest).refBlocks = d.refBlocks := by
  unfold Flash.program
  split <;> rfl

@[simp] theorem Flash.erase_refBlocks (d : Flash) (w n : Nat) (rest : List Byte) :
    (d.erase w n rest).refBlocks = d.refBlocks := by
  unfold Flash.erase
  split <;> rfl

@[simp] theorem Flash.eraseAll_refBlocks (d : Flash) : d.eraseAll.refBlocks = d.refBlocks := by
  unfold Flash.eraseAll
  split <;> rfl

theorem Flash.program_memWf {d : Flash} (h : MemWf d.mem) (w : Nat) (rest : List Byte) : MemWf (d.program w rest).mem := by
  unfold Flash.program
  split
  · exact programCells_wf h _ _ _
  · exact h

theorem Flash.erase_memWf {d : Flash} (h : MemWf d.mem) (w n : Nat) (rest : List Byte) :
    MemWf (d.erase w n rest).mem := by
  unfold Flash.erase
  split
  · exact memErase_wf h _ _
  · exact h

theorem Flash.eraseAll_memWf {d : Flash} (h : MemWf d.mem) : MemWf d.eraseAll.mem := by
  unfold Flash.eraseAll
  split
  · exact memWf_nil
  · exact h

/-- A command that is not a program or an erase leaves the cells. -/
theorem Flash.effect_mem_of_not_storing {d : Flash} (h : ∀ op ∈ d.session.head?, storing op = false) :
    d.effect.mem = d.mem := by
  refine d.effect_cases (fun e => e.mem = d.mem) rfl (fun _ => rfl) ?_ ?_ ?_ (fun _ _ => by simp)
  · intro op rest w hs ho
    have := h op (by simp [hs])
    rcases ho with ⟨rfl, _⟩ | ⟨rfl, _⟩ <;> exact absurd this (by decide)
  · intro op rest w n hs ho
    have := h op (by simp [hs])
    rcases ho with ⟨rfl, _⟩ | ⟨rfl, _⟩ | ⟨rfl, _⟩ | ⟨rfl, _⟩ <;> exact absurd this (by decide)
  · intro rest hs
    have := h 0xC7#8 (by simp [hs])
    exact absurd this (by decide)

/-- Every command keeps the canonical form of the cells. -/
theorem Flash.effect_memWf {d : Flash} (h : MemWf d.mem) : MemWf d.effect.mem :=
  d.effect_cases (fun e => MemWf e.mem) h (fun _ => h) (fun _ _ _ _ _ => Flash.program_memWf h _ _)
    (fun _ _ _ _ _ _ => Flash.erase_memWf h _ _ _) (fun _ _ => Flash.eraseAll_memWf h) (fun _ _ => by simpa using h)

theorem Flash.csHigh_memWf {d : Flash} (h : MemWf d.mem) : MemWf d.csHigh.mem := by
  rw [Flash.csHigh_mem]
  split
  · exact Flash.effect_memWf h
  · exact h

/-- No command changes the size of the device. -/
@[simp] theorem Flash.effect_refBlocks (d : Flash) : d.effect.refBlocks = d.refBlocks :=
  d.effect_cases (fun e => e.refBlocks = d.refBlocks) rfl (fun _ => rfl) (fun _ _ _ _ _ => by simp)
    (fun _ _ _ _ _ _ => by simp) (fun _ _ => by simp) (fun _ _ => by simp)

@[simp] theorem Flash.csHigh_refBlocks (d : Flash) : d.csHigh.refBlocks = d.refBlocks := by
  unfold Flash.csHigh
  split
  · exact d.effect_refBlocks
  · rfl

/-- What the session's command leaves of a page program: only the bytes from its address on, as many as there are data bytes
(R84), if the frame stays inside its page. -/
theorem Flash.program_mem_outside {d : Flash} (hw : MemWf d.mem) (w : Nat) (rest : List Byte) (x : Nat)
    (hfit : d.addrIn w rest % 256 + (rest.drop w).length ≤ 256)
    (hx : x < d.addrIn w rest ∨ d.addrIn w rest + (rest.drop w).length ≤ x) :
    memRead (d.program w rest).mem x = memRead d.mem x := by
  unfold Flash.program
  split
  · show memRead (programCells d.mem _ 0 _) x = _
    rw [memRead_programCells hw _ _ _ (by omega), if_neg (by omega)]
  · rfl

/-- What an erase command leaves: only the unit that holds its address (R85). -/
theorem Flash.erase_mem_outside {d : Flash} (w n : Nat) (rest : List Byte) (x : Nat)
    (hx : x < d.addrIn w rest - d.addrIn w rest % n ∨ d.addrIn w rest - d.addrIn w rest % n + n ≤ x) :
    memRead (d.erase w n rest).mem x = memRead d.mem x := by
  unfold Flash.erase
  split
  · show memRead (memErase d.mem _ n) x = _
    rw [memRead_memErase, if_neg (by omega)]
  · rfl

end Sys2Proof.Machine
end

