-- ==== Sys2Proof/Laws/State.lean ====
section
/-!
SUPPORT. One lemma per field per update: what each named update of the state does to each field, so that no later proof unfolds a
record update.
-/

namespace Sys2Proof.Machine

@[simp] theorem setSeq_cfg (q : Seq) (s : State) : (setSeq q s).cfg = s.cfg := rfl
@[simp] theorem setSeq_blockcount (q : Seq) (s : State) : (setSeq q s).blockcount = s.blockcount := rfl
@[simp] theorem setSeq_vendor (q : Seq) (s : State) : (setSeq q s).vendor = s.vendor := rfl
@[simp] theorem setSeq_capcode (q : Seq) (s : State) : (setSeq q s).capcode = s.capcode := rfl
@[simp] theorem setSeq_depth (q : Seq) (s : State) : (setSeq q s).depth = s.depth := rfl
@[simp] theorem setSeq_cs (q : Seq) (s : State) : (setSeq q s).cs = s.cs := rfl
@[simp] theorem setSeq_fast (q : Seq) (s : State) : (setSeq q s).fast = s.fast := rfl
@[simp] theorem setSeq_sr1 (q : Seq) (s : State) : (setSeq q s).sr1 = s.sr1 := rfl
@[simp] theorem setSeq_sr2 (q : Seq) (s : State) : (setSeq q s).sr2 = s.sr2 := rfl
@[simp] theorem setSeq_sr3 (q : Seq) (s : State) : (setSeq q s).sr3 = s.sr3 := rfl
@[simp] theorem setSeq_lasterr (q : Seq) (s : State) : (setSeq q s).lasterr = s.lasterr := rfl
@[simp] theorem setSeq_fault (q : Seq) (s : State) : (setSeq q s).fault = s.fault := rfl
@[simp] theorem setSeq_faultcause (q : Seq) (s : State) : (setSeq q s).faultcause = s.faultcause := rfl
@[simp] theorem setSeq_op (q : Seq) (s : State) : (setSeq q s).op = s.op := rfl
@[simp] theorem setSeq_a (q : Seq) (s : State) : (setSeq q s).a = s.a := rfl
@[simp] theorem setSeq_b (q : Seq) (s : State) : (setSeq q s).b = s.b := rfl
@[simp] theorem setSeq_len (q : Seq) (s : State) : (setSeq q s).len = s.len := rfl
@[simp] theorem setSeq_tmo (q : Seq) (s : State) : (setSeq q s).tmo = s.tmo := rfl
@[simp] theorem setSeq_wdata (q : Seq) (s : State) : (setSeq q s).wdata = s.wdata := rfl
@[simp] theorem setSeq_result (q : Seq) (s : State) : (setSeq q s).result = s.result := rfl
@[simp] theorem setSeq_rdata (q : Seq) (s : State) : (setSeq q s).rdata = s.rdata := rfl
@[simp] theorem setSeq_seq (q : Seq) (s : State) : (setSeq q s).seq = q := rfl
@[simp] theorem setSeq_start (q : Seq) (s : State) : (setSeq q s).start = s.start := rfl
@[simp] theorem setSeq_cur (q : Seq) (s : State) : (setSeq q s).cur = s.cur := rfl
@[simp] theorem setSeq_rem (q : Seq) (s : State) : (setSeq q s).rem = s.rem := rfl
@[simp] theorem setSeq_total (q : Seq) (s : State) : (setSeq q s).total = s.total := rfl
@[simp] theorem setSeq_page (q : Seq) (s : State) : (setSeq q s).page = s.page := rfl
@[simp] theorem setSeq_off (q : Seq) (s : State) : (setSeq q s).off = s.off := rfl
@[simp] theorem setSeq_trace (q : Seq) (s : State) : (setSeq q s).trace = s.trace := rfl
@[simp] theorem setSeq_script (q : Seq) (s : State) : (setSeq q s).script = s.script := rfl
@[simp] theorem setSeq_ticks (q : Seq) (s : State) : (setSeq q s).ticks = s.ticks := rfl
@[simp] theorem setSeq_refDevice (q : Seq) (s : State) : (setSeq q s).refDevice = s.refDevice := rfl
@[simp] theorem setSeq_dev (q : Seq) (s : State) : (setSeq q s).dev = s.dev := rfl
@[simp] theorem setSeq_count (q : Seq) (s : State) : (setSeq q s).count = s.count := rfl
@[simp] theorem setSeq_hostQ (q : Seq) (s : State) : (setSeq q s).hostQ = s.hostQ := rfl
@[simp] theorem setSeq_frameOk (q : Seq) (s : State) : (setSeq q s).frameOk = s.frameOk := rfl
@[simp] theorem setSeq_frameRx (q : Seq) (s : State) : (setSeq q s).frameRx = s.frameRx := rfl

@[simp] theorem setCur_cfg (addr : Nat) (s : State) : (setCur addr s).cfg = s.cfg := rfl
@[simp] theorem setCur_blockcount (addr : Nat) (s : State) : (setCur addr s).blockcount = s.blockcount := rfl
@[simp] theorem setCur_vendor (addr : Nat) (s : State) : (setCur addr s).vendor = s.vendor := rfl
@[simp] theorem setCur_capcode (addr : Nat) (s : State) : (setCur addr s).capcode = s.capcode := rfl
@[simp] theorem setCur_depth (addr : Nat) (s : State) : (setCur addr s).depth = s.depth := rfl
@[simp] theorem setCur_cs (addr : Nat) (s : State) : (setCur addr s).cs = s.cs := rfl
@[simp] theorem setCur_fast (addr : Nat) (s : State) : (setCur addr s).fast = s.fast := rfl
@[simp] theorem setCur_sr1 (addr : Nat) (s : State) : (setCur addr s).sr1 = s.sr1 := rfl
@[simp] theorem setCur_sr2 (addr : Nat) (s : State) : (setCur addr s).sr2 = s.sr2 := rfl
@[simp] theorem setCur_sr3 (addr : Nat) (s : State) : (setCur addr s).sr3 = s.sr3 := rfl
@[simp] theorem setCur_lasterr (addr : Nat) (s : State) : (setCur addr s).lasterr = s.lasterr := rfl
@[simp] theorem setCur_fault (addr : Nat) (s : State) : (setCur addr s).fault = s.fault := rfl
@[simp] theorem setCur_faultcause (addr : Nat) (s : State) : (setCur addr s).faultcause = s.faultcause := rfl
@[simp] theorem setCur_op (addr : Nat) (s : State) : (setCur addr s).op = s.op := rfl
@[simp] theorem setCur_a (addr : Nat) (s : State) : (setCur addr s).a = s.a := rfl
@[simp] theorem setCur_b (addr : Nat) (s : State) : (setCur addr s).b = s.b := rfl
@[simp] theorem setCur_len (addr : Nat) (s : State) : (setCur addr s).len = s.len := rfl
@[simp] theorem setCur_tmo (addr : Nat) (s : State) : (setCur addr s).tmo = s.tmo := rfl
@[simp] theorem setCur_wdata (addr : Nat) (s : State) : (setCur addr s).wdata = s.wdata := rfl
@[simp] theorem setCur_result (addr : Nat) (s : State) : (setCur addr s).result = s.result := rfl
@[simp] theorem setCur_rdata (addr : Nat) (s : State) : (setCur addr s).rdata = s.rdata := rfl
@[simp] theorem setCur_seq (addr : Nat) (s : State) : (setCur addr s).seq = s.seq := rfl
@[simp] theorem setCur_start (addr : Nat) (s : State) : (setCur addr s).start = s.start := rfl
@[simp] theorem setCur_cur (addr : Nat) (s : State) : (setCur addr s).cur = BitVec.ofNat 32 addr := rfl
@[simp] theorem setCur_rem (addr : Nat) (s : State) : (setCur addr s).rem = s.rem := rfl
@[simp] theorem setCur_total (addr : Nat) (s : State) : (setCur addr s).total = s.total := rfl
@[simp] theorem setCur_page (addr : Nat) (s : State) : (setCur addr s).page = s.page := rfl
@[simp] theorem setCur_off (addr : Nat) (s : State) : (setCur addr s).off = s.off := rfl
@[simp] theorem setCur_trace (addr : Nat) (s : State) : (setCur addr s).trace = s.trace := rfl
@[simp] theorem setCur_script (addr : Nat) (s : State) : (setCur addr s).script = s.script := rfl
@[simp] theorem setCur_ticks (addr : Nat) (s : State) : (setCur addr s).ticks = s.ticks := rfl
@[simp] theorem setCur_refDevice (addr : Nat) (s : State) : (setCur addr s).refDevice = s.refDevice := rfl
@[simp] theorem setCur_dev (addr : Nat) (s : State) : (setCur addr s).dev = s.dev := rfl
@[simp] theorem setCur_count (addr : Nat) (s : State) : (setCur addr s).count = s.count := rfl
@[simp] theorem setCur_hostQ (addr : Nat) (s : State) : (setCur addr s).hostQ = s.hostQ := rfl
@[simp] theorem setCur_frameOk (addr : Nat) (s : State) : (setCur addr s).frameOk = s.frameOk := rfl
@[simp] theorem setCur_frameRx (addr : Nat) (s : State) : (setCur addr s).frameRx = s.frameRx := rfl

@[simp] theorem emit_cfg (e : Event) (s : State) : (emit e s).cfg = s.cfg := rfl
@[simp] theorem emit_blockcount (e : Event) (s : State) : (emit e s).blockcount = s.blockcount := rfl
@[simp] theorem emit_vendor (e : Event) (s : State) : (emit e s).vendor = s.vendor := rfl
@[simp] theorem emit_capcode (e : Event) (s : State) : (emit e s).capcode = s.capcode := rfl
@[simp] theorem emit_depth (e : Event) (s : State) : (emit e s).depth = s.depth := rfl
@[simp] theorem emit_cs (e : Event) (s : State) : (emit e s).cs = s.cs := rfl
@[simp] theorem emit_fast (e : Event) (s : State) : (emit e s).fast = s.fast := rfl
@[simp] theorem emit_sr1 (e : Event) (s : State) : (emit e s).sr1 = s.sr1 := rfl
@[simp] theorem emit_sr2 (e : Event) (s : State) : (emit e s).sr2 = s.sr2 := rfl
@[simp] theorem emit_sr3 (e : Event) (s : State) : (emit e s).sr3 = s.sr3 := rfl
@[simp] theorem emit_lasterr (e : Event) (s : State) : (emit e s).lasterr = s.lasterr := rfl
@[simp] theorem emit_fault (e : Event) (s : State) : (emit e s).fault = s.fault := rfl
@[simp] theorem emit_faultcause (e : Event) (s : State) : (emit e s).faultcause = s.faultcause := rfl
@[simp] theorem emit_op (e : Event) (s : State) : (emit e s).op = s.op := rfl
@[simp] theorem emit_a (e : Event) (s : State) : (emit e s).a = s.a := rfl
@[simp] theorem emit_b (e : Event) (s : State) : (emit e s).b = s.b := rfl
@[simp] theorem emit_len (e : Event) (s : State) : (emit e s).len = s.len := rfl
@[simp] theorem emit_tmo (e : Event) (s : State) : (emit e s).tmo = s.tmo := rfl
@[simp] theorem emit_wdata (e : Event) (s : State) : (emit e s).wdata = s.wdata := rfl
@[simp] theorem emit_result (e : Event) (s : State) : (emit e s).result = s.result := rfl
@[simp] theorem emit_rdata (e : Event) (s : State) : (emit e s).rdata = s.rdata := rfl
@[simp] theorem emit_seq (e : Event) (s : State) : (emit e s).seq = s.seq := rfl
@[simp] theorem emit_start (e : Event) (s : State) : (emit e s).start = s.start := rfl
@[simp] theorem emit_cur (e : Event) (s : State) : (emit e s).cur = s.cur := rfl
@[simp] theorem emit_rem (e : Event) (s : State) : (emit e s).rem = s.rem := rfl
@[simp] theorem emit_total (e : Event) (s : State) : (emit e s).total = s.total := rfl
@[simp] theorem emit_page (e : Event) (s : State) : (emit e s).page = s.page := rfl
@[simp] theorem emit_off (e : Event) (s : State) : (emit e s).off = s.off := rfl
@[simp] theorem emit_trace (e : Event) (s : State) : (emit e s).trace = s.trace ++ [e] := rfl
@[simp] theorem emit_script (e : Event) (s : State) : (emit e s).script = s.script := rfl
@[simp] theorem emit_ticks (e : Event) (s : State) : (emit e s).ticks = s.ticks := rfl
@[simp] theorem emit_refDevice (e : Event) (s : State) : (emit e s).refDevice = s.refDevice := rfl
@[simp] theorem emit_dev (e : Event) (s : State) : (emit e s).dev = s.dev := rfl
@[simp] theorem emit_count (e : Event) (s : State) : (emit e s).count = s.count := rfl
@[simp] theorem emit_hostQ (e : Event) (s : State) : (emit e s).hostQ = s.hostQ := rfl
@[simp] theorem emit_frameOk (e : Event) (s : State) : (emit e s).frameOk = s.frameOk := rfl
@[simp] theorem emit_frameRx (e : Event) (s : State) : (emit e s).frameRx = s.frameRx := rfl

@[simp] theorem raiseFault_cfg (c : FaultCause) (s : State) : (raiseFault c s).cfg = s.cfg := rfl
@[simp] theorem raiseFault_blockcount (c : FaultCause) (s : State) : (raiseFault c s).blockcount = s.blockcount := rfl
@[simp] theorem raiseFault_vendor (c : FaultCause) (s : State) : (raiseFault c s).vendor = s.vendor := rfl
@[simp] theorem raiseFault_capcode (c : FaultCause) (s : State) : (raiseFault c s).capcode = s.capcode := rfl
@[simp] theorem raiseFault_depth (c : FaultCause) (s : State) : (raiseFault c s).depth = s.depth := rfl
@[simp] theorem raiseFault_cs (c : FaultCause) (s : State) : (raiseFault c s).cs = s.cs := rfl
@[simp] theorem raiseFault_fast (c : FaultCause) (s : State) : (raiseFault c s).fast = s.fast := rfl
@[simp] theorem raiseFault_sr1 (c : FaultCause) (s : State) : (raiseFault c s).sr1 = s.sr1 := rfl
@[simp] theorem raiseFault_sr2 (c : FaultCause) (s : State) : (raiseFault c s).sr2 = s.sr2 := rfl
@[simp] theorem raiseFault_sr3 (c : FaultCause) (s : State) : (raiseFault c s).sr3 = s.sr3 := rfl
@[simp] theorem raiseFault_lasterr (c : FaultCause) (s : State) : (raiseFault c s).lasterr = s.lasterr := rfl
@[simp] theorem raiseFault_fault (c : FaultCause) (s : State) : (raiseFault c s).fault = true := rfl
@[simp] theorem raiseFault_faultcause (c : FaultCause) (s : State) : (raiseFault c s).faultcause = c := rfl
@[simp] theorem raiseFault_op (c : FaultCause) (s : State) : (raiseFault c s).op = s.op := rfl
@[simp] theorem raiseFault_a (c : FaultCause) (s : State) : (raiseFault c s).a = s.a := rfl
@[simp] theorem raiseFault_b (c : FaultCause) (s : State) : (raiseFault c s).b = s.b := rfl
@[simp] theorem raiseFault_len (c : FaultCause) (s : State) : (raiseFault c s).len = s.len := rfl
@[simp] theorem raiseFault_tmo (c : FaultCause) (s : State) : (raiseFault c s).tmo = s.tmo := rfl
@[simp] theorem raiseFault_wdata (c : FaultCause) (s : State) : (raiseFault c s).wdata = s.wdata := rfl
@[simp] theorem raiseFault_result (c : FaultCause) (s : State) : (raiseFault c s).result = s.result := rfl
@[simp] theorem raiseFault_rdata (c : FaultCause) (s : State) : (raiseFault c s).rdata = s.rdata := rfl
@[simp] theorem raiseFault_seq (c : FaultCause) (s : State) : (raiseFault c s).seq = s.seq := rfl
@[simp] theorem raiseFault_start (c : FaultCause) (s : State) : (raiseFault c s).start = s.start := rfl
@[simp] theorem raiseFault_cur (c : FaultCause) (s : State) : (raiseFault c s).cur = s.cur := rfl
@[simp] theorem raiseFault_rem (c : FaultCause) (s : State) : (raiseFault c s).rem = s.rem := rfl
@[simp] theorem raiseFault_total (c : FaultCause) (s : State) : (raiseFault c s).total = s.total := rfl
@[simp] theorem raiseFault_page (c : FaultCause) (s : State) : (raiseFault c s).page = s.page := rfl
@[simp] theorem raiseFault_off (c : FaultCause) (s : State) : (raiseFault c s).off = s.off := rfl
@[simp] theorem raiseFault_trace (c : FaultCause) (s : State) : (raiseFault c s).trace = s.trace := rfl
@[simp] theorem raiseFault_script (c : FaultCause) (s : State) : (raiseFault c s).script = s.script := rfl
@[simp] theorem raiseFault_ticks (c : FaultCause) (s : State) : (raiseFault c s).ticks = s.ticks := rfl
@[simp] theorem raiseFault_refDevice (c : FaultCause) (s : State) : (raiseFault c s).refDevice = s.refDevice := rfl
@[simp] theorem raiseFault_dev (c : FaultCause) (s : State) : (raiseFault c s).dev = s.dev := rfl
@[simp] theorem raiseFault_count (c : FaultCause) (s : State) : (raiseFault c s).count = s.count := rfl
@[simp] theorem raiseFault_hostQ (c : FaultCause) (s : State) : (raiseFault c s).hostQ = s.hostQ := rfl
@[simp] theorem raiseFault_frameOk (c : FaultCause) (s : State) : (raiseFault c s).frameOk = s.frameOk := rfl
@[simp] theorem raiseFault_frameRx (c : FaultCause) (s : State) : (raiseFault c s).frameRx = s.frameRx := rfl

@[simp] theorem csDrive_cfg (level : Bool) (s : State) : (csDrive level s).cfg = s.cfg := rfl
@[simp] theorem csDrive_blockcount (level : Bool) (s : State) : (csDrive level s).blockcount = s.blockcount := rfl
@[simp] theorem csDrive_vendor (level : Bool) (s : State) : (csDrive level s).vendor = s.vendor := rfl
@[simp] theorem csDrive_capcode (level : Bool) (s : State) : (csDrive level s).capcode = s.capcode := rfl
@[simp] theorem csDrive_depth (level : Bool) (s : State) : (csDrive level s).depth = s.depth := rfl
@[simp] theorem csDrive_cs (level : Bool) (s : State) : (csDrive level s).cs = level := rfl
@[simp] theorem csDrive_fast (level : Bool) (s : State) : (csDrive level s).fast = s.fast := rfl
@[simp] theorem csDrive_sr1 (level : Bool) (s : State) : (csDrive level s).sr1 = s.sr1 := rfl
@[simp] theorem csDrive_sr2 (level : Bool) (s : State) : (csDrive level s).sr2 = s.sr2 := rfl
@[simp] theorem csDrive_sr3 (level : Bool) (s : State) : (csDrive level s).sr3 = s.sr3 := rfl
@[simp] theorem csDrive_lasterr (level : Bool) (s : State) : (csDrive level s).lasterr = s.lasterr := rfl
@[simp] theorem csDrive_fault (level : Bool) (s : State) : (csDrive level s).fault = s.fault := rfl
@[simp] theorem csDrive_faultcause (level : Bool) (s : State) : (csDrive level s).faultcause = s.faultcause := rfl
@[simp] theorem csDrive_op (level : Bool) (s : State) : (csDrive level s).op = s.op := rfl
@[simp] theorem csDrive_a (level : Bool) (s : State) : (csDrive level s).a = s.a := rfl
@[simp] theorem csDrive_b (level : Bool) (s : State) : (csDrive level s).b = s.b := rfl
@[simp] theorem csDrive_len (level : Bool) (s : State) : (csDrive level s).len = s.len := rfl
@[simp] theorem csDrive_tmo (level : Bool) (s : State) : (csDrive level s).tmo = s.tmo := rfl
@[simp] theorem csDrive_wdata (level : Bool) (s : State) : (csDrive level s).wdata = s.wdata := rfl
@[simp] theorem csDrive_result (level : Bool) (s : State) : (csDrive level s).result = s.result := rfl
@[simp] theorem csDrive_rdata (level : Bool) (s : State) : (csDrive level s).rdata = s.rdata := rfl
@[simp] theorem csDrive_seq (level : Bool) (s : State) : (csDrive level s).seq = s.seq := rfl
@[simp] theorem csDrive_start (level : Bool) (s : State) : (csDrive level s).start = s.start := rfl
@[simp] theorem csDrive_cur (level : Bool) (s : State) : (csDrive level s).cur = s.cur := rfl
@[simp] theorem csDrive_rem (level : Bool) (s : State) : (csDrive level s).rem = s.rem := rfl
@[simp] theorem csDrive_total (level : Bool) (s : State) : (csDrive level s).total = s.total := rfl
@[simp] theorem csDrive_page (level : Bool) (s : State) : (csDrive level s).page = s.page := rfl
@[simp] theorem csDrive_off (level : Bool) (s : State) : (csDrive level s).off = s.off := rfl
@[simp] theorem csDrive_trace (level : Bool) (s : State) : (csDrive level s).trace = s.trace ++ [if level then .cs1 else .cs0] := rfl
@[simp] theorem csDrive_script (level : Bool) (s : State) : (csDrive level s).script = s.script := rfl
@[simp] theorem csDrive_ticks (level : Bool) (s : State) : (csDrive level s).ticks = s.ticks := rfl
@[simp] theorem csDrive_refDevice (level : Bool) (s : State) : (csDrive level s).refDevice = s.refDevice := rfl
@[simp] theorem csDrive_dev (level : Bool) (s : State) : (csDrive level s).dev = if level then s.dev.csHigh else s.dev.csLow := rfl
@[simp] theorem csDrive_count (level : Bool) (s : State) : (csDrive level s).count = s.count := rfl
@[simp] theorem csDrive_hostQ (level : Bool) (s : State) : (csDrive level s).hostQ = s.hostQ := rfl
@[simp] theorem csDrive_frameOk (level : Bool) (s : State) : (csDrive level s).frameOk = s.frameOk := rfl
@[simp] theorem csDrive_frameRx (level : Bool) (s : State) : (csDrive level s).frameRx = s.frameRx := rfl

@[simp] theorem useAnswer_cfg (s : State) : (useAnswer s).cfg = s.cfg := rfl
@[simp] theorem useAnswer_blockcount (s : State) : (useAnswer s).blockcount = s.blockcount := rfl
@[simp] theorem useAnswer_vendor (s : State) : (useAnswer s).vendor = s.vendor := rfl
@[simp] theorem useAnswer_capcode (s : State) : (useAnswer s).capcode = s.capcode := rfl
@[simp] theorem useAnswer_depth (s : State) : (useAnswer s).depth = s.depth := rfl
@[simp] theorem useAnswer_cs (s : State) : (useAnswer s).cs = s.cs := rfl
@[simp] theorem useAnswer_fast (s : State) : (useAnswer s).fast = s.fast := rfl
@[simp] theorem useAnswer_sr1 (s : State) : (useAnswer s).sr1 = s.sr1 := rfl
@[simp] theorem useAnswer_sr2 (s : State) : (useAnswer s).sr2 = s.sr2 := rfl
@[simp] theorem useAnswer_sr3 (s : State) : (useAnswer s).sr3 = s.sr3 := rfl
@[simp] theorem useAnswer_lasterr (s : State) : (useAnswer s).lasterr = s.lasterr := rfl
@[simp] theorem useAnswer_fault (s : State) : (useAnswer s).fault = s.fault := rfl
@[simp] theorem useAnswer_faultcause (s : State) : (useAnswer s).faultcause = s.faultcause := rfl
@[simp] theorem useAnswer_op (s : State) : (useAnswer s).op = s.op := rfl
@[simp] theorem useAnswer_a (s : State) : (useAnswer s).a = s.a := rfl
@[simp] theorem useAnswer_b (s : State) : (useAnswer s).b = s.b := rfl
@[simp] theorem useAnswer_len (s : State) : (useAnswer s).len = s.len := rfl
@[simp] theorem useAnswer_tmo (s : State) : (useAnswer s).tmo = s.tmo := rfl
@[simp] theorem useAnswer_wdata (s : State) : (useAnswer s).wdata = s.wdata := rfl
@[simp] theorem useAnswer_result (s : State) : (useAnswer s).result = s.result := rfl
@[simp] theorem useAnswer_rdata (s : State) : (useAnswer s).rdata = s.rdata := rfl
@[simp] theorem useAnswer_seq (s : State) : (useAnswer s).seq = s.seq := rfl
@[simp] theorem useAnswer_start (s : State) : (useAnswer s).start = s.start := rfl
@[simp] theorem useAnswer_cur (s : State) : (useAnswer s).cur = s.cur := rfl
@[simp] theorem useAnswer_rem (s : State) : (useAnswer s).rem = s.rem := rfl
@[simp] theorem useAnswer_total (s : State) : (useAnswer s).total = s.total := rfl
@[simp] theorem useAnswer_page (s : State) : (useAnswer s).page = s.page := rfl
@[simp] theorem useAnswer_off (s : State) : (useAnswer s).off = s.off := rfl
@[simp] theorem useAnswer_trace (s : State) : (useAnswer s).trace = s.trace := rfl
@[simp] theorem useAnswer_script (s : State) : (useAnswer s).script = s.script.tail := rfl
@[simp] theorem useAnswer_ticks (s : State) : (useAnswer s).ticks = s.ticks := rfl
@[simp] theorem useAnswer_refDevice (s : State) : (useAnswer s).refDevice = s.refDevice := rfl
@[simp] theorem useAnswer_dev (s : State) : (useAnswer s).dev = s.dev := rfl
@[simp] theorem useAnswer_count (s : State) : (useAnswer s).count = s.count + 1 := rfl
@[simp] theorem useAnswer_hostQ (s : State) : (useAnswer s).hostQ = s.hostQ := rfl
@[simp] theorem useAnswer_frameOk (s : State) : (useAnswer s).frameOk = s.frameOk := rfl
@[simp] theorem useAnswer_frameRx (s : State) : (useAnswer s).frameRx = s.frameRx := rfl

@[simp] theorem deviceSees_cfg (bytes : List Byte) (s : State) : (deviceSees bytes s).cfg = s.cfg := rfl
@[simp] theorem deviceSees_blockcount (bytes : List Byte) (s : State) : (deviceSees bytes s).blockcount = s.blockcount := rfl
@[simp] theorem deviceSees_vendor (bytes : List Byte) (s : State) : (deviceSees bytes s).vendor = s.vendor := rfl
@[simp] theorem deviceSees_capcode (bytes : List Byte) (s : State) : (deviceSees bytes s).capcode = s.capcode := rfl
@[simp] theorem deviceSees_depth (bytes : List Byte) (s : State) : (deviceSees bytes s).depth = s.depth := rfl
@[simp] theorem deviceSees_cs (bytes : List Byte) (s : State) : (deviceSees bytes s).cs = s.cs := rfl
@[simp] theorem deviceSees_fast (bytes : List Byte) (s : State) : (deviceSees bytes s).fast = s.fast := rfl
@[simp] theorem deviceSees_sr1 (bytes : List Byte) (s : State) : (deviceSees bytes s).sr1 = s.sr1 := rfl
@[simp] theorem deviceSees_sr2 (bytes : List Byte) (s : State) : (deviceSees bytes s).sr2 = s.sr2 := rfl
@[simp] theorem deviceSees_sr3 (bytes : List Byte) (s : State) : (deviceSees bytes s).sr3 = s.sr3 := rfl
@[simp] theorem deviceSees_lasterr (bytes : List Byte) (s : State) : (deviceSees bytes s).lasterr = s.lasterr := rfl
@[simp] theorem deviceSees_fault (bytes : List Byte) (s : State) : (deviceSees bytes s).fault = s.fault := rfl
@[simp] theorem deviceSees_faultcause (bytes : List Byte) (s : State) : (deviceSees bytes s).faultcause = s.faultcause := rfl
@[simp] theorem deviceSees_op (bytes : List Byte) (s : State) : (deviceSees bytes s).op = s.op := rfl
@[simp] theorem deviceSees_a (bytes : List Byte) (s : State) : (deviceSees bytes s).a = s.a := rfl
@[simp] theorem deviceSees_b (bytes : List Byte) (s : State) : (deviceSees bytes s).b = s.b := rfl
@[simp] theorem deviceSees_len (bytes : List Byte) (s : State) : (deviceSees bytes s).len = s.len := rfl
@[simp] theorem deviceSees_tmo (bytes : List Byte) (s : State) : (deviceSees bytes s).tmo = s.tmo := rfl
@[simp] theorem deviceSees_wdata (bytes : List Byte) (s : State) : (deviceSees bytes s).wdata = s.wdata := rfl
@[simp] theorem deviceSees_result (bytes : List Byte) (s : State) : (deviceSees bytes s).result = s.result := rfl
@[simp] theorem deviceSees_rdata (bytes : List Byte) (s : State) : (deviceSees bytes s).rdata = s.rdata := rfl
@[simp] theorem deviceSees_seq (bytes : List Byte) (s : State) : (deviceSees bytes s).seq = s.seq := rfl
@[simp] theorem deviceSees_start (bytes : List Byte) (s : State) : (deviceSees bytes s).start = s.start := rfl
@[simp] theorem deviceSees_cur (bytes : List Byte) (s : State) : (deviceSees bytes s).cur = s.cur := rfl
@[simp] theorem deviceSees_rem (bytes : List Byte) (s : State) : (deviceSees bytes s).rem = s.rem := rfl
@[simp] theorem deviceSees_total (bytes : List Byte) (s : State) : (deviceSees bytes s).total = s.total := rfl
@[simp] theorem deviceSees_page (bytes : List Byte) (s : State) : (deviceSees bytes s).page = s.page := rfl
@[simp] theorem deviceSees_off (bytes : List Byte) (s : State) : (deviceSees bytes s).off = s.off := rfl
@[simp] theorem deviceSees_trace (bytes : List Byte) (s : State) : (deviceSees bytes s).trace = s.trace := rfl
@[simp] theorem deviceSees_script (bytes : List Byte) (s : State) : (deviceSees bytes s).script = s.script := rfl
@[simp] theorem deviceSees_ticks (bytes : List Byte) (s : State) : (deviceSees bytes s).ticks = s.ticks := rfl
@[simp] theorem deviceSees_refDevice (bytes : List Byte) (s : State) : (deviceSees bytes s).refDevice = s.refDevice := rfl
@[simp] theorem deviceSees_dev (bytes : List Byte) (s : State) : (deviceSees bytes s).dev = (s.dev.exchangeAll bytes).2 := rfl
@[simp] theorem deviceSees_count (bytes : List Byte) (s : State) : (deviceSees bytes s).count = s.count := rfl
@[simp] theorem deviceSees_hostQ (bytes : List Byte) (s : State) : (deviceSees bytes s).hostQ = s.hostQ := rfl
@[simp] theorem deviceSees_frameOk (bytes : List Byte) (s : State) : (deviceSees bytes s).frameOk = s.frameOk := rfl
@[simp] theorem deviceSees_frameRx (bytes : List Byte) (s : State) : (deviceSees bytes s).frameRx = s.frameRx := rfl

@[simp] theorem noteErr_cfg (k : ErrKind) (s : State) : (noteErr k s).cfg = s.cfg := rfl
@[simp] theorem noteErr_blockcount (k : ErrKind) (s : State) : (noteErr k s).blockcount = s.blockcount := rfl
@[simp] theorem noteErr_vendor (k : ErrKind) (s : State) : (noteErr k s).vendor = s.vendor := rfl
@[simp] theorem noteErr_capcode (k : ErrKind) (s : State) : (noteErr k s).capcode = s.capcode := rfl
@[simp] theorem noteErr_depth (k : ErrKind) (s : State) : (noteErr k s).depth = s.depth := rfl
@[simp] theorem noteErr_cs (k : ErrKind) (s : State) : (noteErr k s).cs = s.cs := rfl
@[simp] theorem noteErr_fast (k : ErrKind) (s : State) : (noteErr k s).fast = s.fast := rfl
@[simp] theorem noteErr_sr1 (k : ErrKind) (s : State) : (noteErr k s).sr1 = s.sr1 := rfl
@[simp] theorem noteErr_sr2 (k : ErrKind) (s : State) : (noteErr k s).sr2 = s.sr2 := rfl
@[simp] theorem noteErr_sr3 (k : ErrKind) (s : State) : (noteErr k s).sr3 = s.sr3 := rfl
@[simp] theorem noteErr_lasterr (k : ErrKind) (s : State) : (noteErr k s).lasterr = k := rfl
@[simp] theorem noteErr_fault (k : ErrKind) (s : State) : (noteErr k s).fault = s.fault := rfl
@[simp] theorem noteErr_faultcause (k : ErrKind) (s : State) : (noteErr k s).faultcause = s.faultcause := rfl
@[simp] theorem noteErr_op (k : ErrKind) (s : State) : (noteErr k s).op = s.op := rfl
@[simp] theorem noteErr_a (k : ErrKind) (s : State) : (noteErr k s).a = s.a := rfl
@[simp] theorem noteErr_b (k : ErrKind) (s : State) : (noteErr k s).b = s.b := rfl
@[simp] theorem noteErr_len (k : ErrKind) (s : State) : (noteErr k s).len = s.len := rfl
@[simp] theorem noteErr_tmo (k : ErrKind) (s : State) : (noteErr k s).tmo = s.tmo := rfl
@[simp] theorem noteErr_wdata (k : ErrKind) (s : State) : (noteErr k s).wdata = s.wdata := rfl
@[simp] theorem noteErr_result (k : ErrKind) (s : State) : (noteErr k s).result = s.result := rfl
@[simp] theorem noteErr_rdata (k : ErrKind) (s : State) : (noteErr k s).rdata = s.rdata := rfl
@[simp] theorem noteErr_seq (k : ErrKind) (s : State) : (noteErr k s).seq = s.seq := rfl
@[simp] theorem noteErr_start (k : ErrKind) (s : State) : (noteErr k s).start = s.start := rfl
@[simp] theorem noteErr_cur (k : ErrKind) (s : State) : (noteErr k s).cur = s.cur := rfl
@[simp] theorem noteErr_rem (k : ErrKind) (s : State) : (noteErr k s).rem = s.rem := rfl
@[simp] theorem noteErr_total (k : ErrKind) (s : State) : (noteErr k s).total = s.total := rfl
@[simp] theorem noteErr_page (k : ErrKind) (s : State) : (noteErr k s).page = s.page := rfl
@[simp] theorem noteErr_off (k : ErrKind) (s : State) : (noteErr k s).off = s.off := rfl
@[simp] theorem noteErr_trace (k : ErrKind) (s : State) : (noteErr k s).trace = s.trace := rfl
@[simp] theorem noteErr_script (k : ErrKind) (s : State) : (noteErr k s).script = s.script := rfl
@[simp] theorem noteErr_ticks (k : ErrKind) (s : State) : (noteErr k s).ticks = s.ticks := rfl
@[simp] theorem noteErr_refDevice (k : ErrKind) (s : State) : (noteErr k s).refDevice = s.refDevice := rfl
@[simp] theorem noteErr_dev (k : ErrKind) (s : State) : (noteErr k s).dev = s.dev := rfl
@[simp] theorem noteErr_count (k : ErrKind) (s : State) : (noteErr k s).count = s.count := rfl
@[simp] theorem noteErr_hostQ (k : ErrKind) (s : State) : (noteErr k s).hostQ = s.hostQ := rfl
@[simp] theorem noteErr_frameOk (k : ErrKind) (s : State) : (noteErr k s).frameOk = s.frameOk := rfl
@[simp] theorem noteErr_frameRx (k : ErrKind) (s : State) : (noteErr k s).frameRx = s.frameRx := rfl

@[simp] theorem complete_cfg (r : Word) (s : State) : (complete r s).cfg = s.cfg := rfl
@[simp] theorem complete_blockcount (r : Word) (s : State) : (complete r s).blockcount = s.blockcount := rfl
@[simp] theorem complete_vendor (r : Word) (s : State) : (complete r s).vendor = s.vendor := rfl
@[simp] theorem complete_capcode (r : Word) (s : State) : (complete r s).capcode = s.capcode := rfl
@[simp] theorem complete_depth (r : Word) (s : State) : (complete r s).depth = s.depth := rfl
@[simp] theorem complete_cs (r : Word) (s : State) : (complete r s).cs = s.cs := rfl
@[simp] theorem complete_fast (r : Word) (s : State) : (complete r s).fast = s.fast := rfl
@[simp] theorem complete_sr1 (r : Word) (s : State) : (complete r s).sr1 = s.sr1 := rfl
@[simp] theorem complete_sr2 (r : Word) (s : State) : (complete r s).sr2 = s.sr2 := rfl
@[simp] theorem complete_sr3 (r : Word) (s : State) : (complete r s).sr3 = s.sr3 := rfl
@[simp] theorem complete_lasterr (r : Word) (s : State) : (complete r s).lasterr = s.lasterr := rfl
@[simp] theorem complete_fault (r : Word) (s : State) : (complete r s).fault = s.fault := rfl
@[simp] theorem complete_faultcause (r : Word) (s : State) : (complete r s).faultcause = s.faultcause := rfl
@[simp] theorem complete_op (r : Word) (s : State) : (complete r s).op = s.op := rfl
@[simp] theorem complete_a (r : Word) (s : State) : (complete r s).a = s.a := rfl
@[simp] theorem complete_b (r : Word) (s : State) : (complete r s).b = s.b := rfl
@[simp] theorem complete_len (r : Word) (s : State) : (complete r s).len = s.len := rfl
@[simp] theorem complete_tmo (r : Word) (s : State) : (complete r s).tmo = s.tmo := rfl
@[simp] theorem complete_wdata (r : Word) (s : State) : (complete r s).wdata = s.wdata := rfl
@[simp] theorem complete_result (r : Word) (s : State) : (complete r s).result = r := rfl
@[simp] theorem complete_rdata (r : Word) (s : State) : (complete r s).rdata = s.rdata := rfl
@[simp] theorem complete_seq (r : Word) (s : State) : (complete r s).seq = .idle := rfl
@[simp] theorem complete_start (r : Word) (s : State) : (complete r s).start = s.start := rfl
@[simp] theorem complete_cur (r : Word) (s : State) : (complete r s).cur = s.cur := rfl
@[simp] theorem complete_rem (r : Word) (s : State) : (complete r s).rem = s.rem := rfl
@[simp] theorem complete_total (r : Word) (s : State) : (complete r s).total = s.total := rfl
@[simp] theorem complete_page (r : Word) (s : State) : (complete r s).page = s.page := rfl
@[simp] theorem complete_off (r : Word) (s : State) : (complete r s).off = s.off := rfl
@[simp] theorem complete_trace (r : Word) (s : State) : (complete r s).trace = s.trace := rfl
@[simp] theorem complete_script (r : Word) (s : State) : (complete r s).script = s.script := rfl
@[simp] theorem complete_ticks (r : Word) (s : State) : (complete r s).ticks = s.ticks := rfl
@[simp] theorem complete_refDevice (r : Word) (s : State) : (complete r s).refDevice = s.refDevice := rfl
@[simp] theorem complete_dev (r : Word) (s : State) : (complete r s).dev = s.dev := rfl
@[simp] theorem complete_count (r : Word) (s : State) : (complete r s).count = s.count := rfl
@[simp] theorem complete_hostQ (r : Word) (s : State) : (complete r s).hostQ = s.hostQ := rfl
@[simp] theorem complete_frameOk (r : Word) (s : State) : (complete r s).frameOk = s.frameOk := rfl
@[simp] theorem complete_frameRx (r : Word) (s : State) : (complete r s).frameRx = s.frameRx := rfl

@[simp] theorem raiseErr_cfg (k : ErrKind) (s : State) : (raiseErr k s).cfg = s.cfg := rfl
@[simp] theorem raiseErr_blockcount (k : ErrKind) (s : State) : (raiseErr k s).blockcount = s.blockcount := rfl
@[simp] theorem raiseErr_vendor (k : ErrKind) (s : State) : (raiseErr k s).vendor = s.vendor := rfl
@[simp] theorem raiseErr_capcode (k : ErrKind) (s : State) : (raiseErr k s).capcode = s.capcode := rfl
@[simp] theorem raiseErr_depth (k : ErrKind) (s : State) : (raiseErr k s).depth = s.depth := rfl
@[simp] theorem raiseErr_cs (k : ErrKind) (s : State) : (raiseErr k s).cs = s.cs := rfl
@[simp] theorem raiseErr_fast (k : ErrKind) (s : State) : (raiseErr k s).fast = s.fast := rfl
@[simp] theorem raiseErr_sr1 (k : ErrKind) (s : State) : (raiseErr k s).sr1 = s.sr1 := rfl
@[simp] theorem raiseErr_sr2 (k : ErrKind) (s : State) : (raiseErr k s).sr2 = s.sr2 := rfl
@[simp] theorem raiseErr_sr3 (k : ErrKind) (s : State) : (raiseErr k s).sr3 = s.sr3 := rfl
@[simp] theorem raiseErr_lasterr (k : ErrKind) (s : State) : (raiseErr k s).lasterr = k := rfl
@[simp] theorem raiseErr_fault (k : ErrKind) (s : State) : (raiseErr k s).fault = s.fault := rfl
@[simp] theorem raiseErr_faultcause (k : ErrKind) (s : State) : (raiseErr k s).faultcause = s.faultcause := rfl
@[simp] theorem raiseErr_op (k : ErrKind) (s : State) : (raiseErr k s).op = s.op := rfl
@[simp] theorem raiseErr_a (k : ErrKind) (s : State) : (raiseErr k s).a = s.a := rfl
@[simp] theorem raiseErr_b (k : ErrKind) (s : State) : (raiseErr k s).b = s.b := rfl
@[simp] theorem raiseErr_len (k : ErrKind) (s : State) : (raiseErr k s).len = s.len := rfl
@[simp] theorem raiseErr_tmo (k : ErrKind) (s : State) : (raiseErr k s).tmo = s.tmo := rfl
@[simp] theorem raiseErr_wdata (k : ErrKind) (s : State) : (raiseErr k s).wdata = s.wdata := rfl
@[simp] theorem raiseErr_result (k : ErrKind) (s : State) : (raiseErr k s).result = 0#32 := rfl
@[simp] theorem raiseErr_rdata (k : ErrKind) (s : State) : (raiseErr k s).rdata = s.rdata := rfl
@[simp] theorem raiseErr_seq (k : ErrKind) (s : State) : (raiseErr k s).seq = .idle := rfl
@[simp] theorem raiseErr_start (k : ErrKind) (s : State) : (raiseErr k s).start = s.start := rfl
@[simp] theorem raiseErr_cur (k : ErrKind) (s : State) : (raiseErr k s).cur = s.cur := rfl
@[simp] theorem raiseErr_rem (k : ErrKind) (s : State) : (raiseErr k s).rem = s.rem := rfl
@[simp] theorem raiseErr_total (k : ErrKind) (s : State) : (raiseErr k s).total = s.total := rfl
@[simp] theorem raiseErr_page (k : ErrKind) (s : State) : (raiseErr k s).page = s.page := rfl
@[simp] theorem raiseErr_off (k : ErrKind) (s : State) : (raiseErr k s).off = s.off := rfl
@[simp] theorem raiseErr_trace (k : ErrKind) (s : State) : (raiseErr k s).trace = s.trace := rfl
@[simp] theorem raiseErr_script (k : ErrKind) (s : State) : (raiseErr k s).script = s.script := rfl
@[simp] theorem raiseErr_ticks (k : ErrKind) (s : State) : (raiseErr k s).ticks = s.ticks := rfl
@[simp] theorem raiseErr_refDevice (k : ErrKind) (s : State) : (raiseErr k s).refDevice = s.refDevice := rfl
@[simp] theorem raiseErr_dev (k : ErrKind) (s : State) : (raiseErr k s).dev = s.dev := rfl
@[simp] theorem raiseErr_count (k : ErrKind) (s : State) : (raiseErr k s).count = s.count := rfl
@[simp] theorem raiseErr_hostQ (k : ErrKind) (s : State) : (raiseErr k s).hostQ = s.hostQ := rfl
@[simp] theorem raiseErr_frameOk (k : ErrKind) (s : State) : (raiseErr k s).frameOk = s.frameOk := rfl
@[simp] theorem raiseErr_frameRx (k : ErrKind) (s : State) : (raiseErr k s).frameRx = s.frameRx := rfl

@[simp] theorem freeResult_cfg (s : State) : (freeResult s).cfg = s.cfg := rfl
@[simp] theorem freeResult_blockcount (s : State) : (freeResult s).blockcount = s.blockcount := rfl
@[simp] theorem freeResult_vendor (s : State) : (freeResult s).vendor = s.vendor := rfl
@[simp] theorem freeResult_capcode (s : State) : (freeResult s).capcode = s.capcode := rfl
@[simp] theorem freeResult_depth (s : State) : (freeResult s).depth = s.depth := rfl
@[simp] theorem freeResult_cs (s : State) : (freeResult s).cs = s.cs := rfl
@[simp] theorem freeResult_fast (s : State) : (freeResult s).fast = s.fast := rfl
@[simp] theorem freeResult_sr1 (s : State) : (freeResult s).sr1 = s.sr1 := rfl
@[simp] theorem freeResult_sr2 (s : State) : (freeResult s).sr2 = s.sr2 := rfl
@[simp] theorem freeResult_sr3 (s : State) : (freeResult s).sr3 = s.sr3 := rfl
@[simp] theorem freeResult_lasterr (s : State) : (freeResult s).lasterr = s.lasterr := rfl
@[simp] theorem freeResult_fault (s : State) : (freeResult s).fault = s.fault := rfl
@[simp] theorem freeResult_faultcause (s : State) : (freeResult s).faultcause = s.faultcause := rfl
@[simp] theorem freeResult_op (s : State) : (freeResult s).op = s.op := rfl
@[simp] theorem freeResult_a (s : State) : (freeResult s).a = s.a := rfl
@[simp] theorem freeResult_b (s : State) : (freeResult s).b = s.b := rfl
@[simp] theorem freeResult_len (s : State) : (freeResult s).len = s.len := rfl
@[simp] theorem freeResult_tmo (s : State) : (freeResult s).tmo = s.tmo := rfl
@[simp] theorem freeResult_wdata (s : State) : (freeResult s).wdata = s.wdata := rfl
@[simp] theorem freeResult_result (s : State) : (freeResult s).result = Config.freeResult s.count := rfl
@[simp] theorem freeResult_rdata (s : State) : (freeResult s).rdata = s.rdata := rfl
@[simp] theorem freeResult_seq (s : State) : (freeResult s).seq = s.seq := rfl
@[simp] theorem freeResult_start (s : State) : (freeResult s).start = s.start := rfl
@[simp] theorem freeResult_cur (s : State) : (freeResult s).cur = s.cur := rfl
@[simp] theorem freeResult_rem (s : State) : (freeResult s).rem = s.rem := rfl
@[simp] theorem freeResult_total (s : State) : (freeResult s).total = s.total := rfl
@[simp] theorem freeResult_page (s : State) : (freeResult s).page = s.page := rfl
@[simp] theorem freeResult_off (s : State) : (freeResult s).off = s.off := rfl
@[simp] theorem freeResult_trace (s : State) : (freeResult s).trace = s.trace := rfl
@[simp] theorem freeResult_script (s : State) : (freeResult s).script = s.script := rfl
@[simp] theorem freeResult_ticks (s : State) : (freeResult s).ticks = s.ticks := rfl
@[simp] theorem freeResult_refDevice (s : State) : (freeResult s).refDevice = s.refDevice := rfl
@[simp] theorem freeResult_dev (s : State) : (freeResult s).dev = s.dev := rfl
@[simp] theorem freeResult_count (s : State) : (freeResult s).count = s.count + 1 := rfl
@[simp] theorem freeResult_hostQ (s : State) : (freeResult s).hostQ = s.hostQ := rfl
@[simp] theorem freeResult_frameOk (s : State) : (freeResult s).frameOk = s.frameOk := rfl
@[simp] theorem freeResult_frameRx (s : State) : (freeResult s).frameRx = s.frameRx := rfl

@[simp] theorem freeRdata_cfg (s : State) : (freeRdata s).cfg = s.cfg := rfl
@[simp] theorem freeRdata_blockcount (s : State) : (freeRdata s).blockcount = s.blockcount := rfl
@[simp] theorem freeRdata_vendor (s : State) : (freeRdata s).vendor = s.vendor := rfl
@[simp] theorem freeRdata_capcode (s : State) : (freeRdata s).capcode = s.capcode := rfl
@[simp] theorem freeRdata_depth (s : State) : (freeRdata s).depth = s.depth := rfl
@[simp] theorem freeRdata_cs (s : State) : (freeRdata s).cs = s.cs := rfl
@[simp] theorem freeRdata_fast (s : State) : (freeRdata s).fast = s.fast := rfl
@[simp] theorem freeRdata_sr1 (s : State) : (freeRdata s).sr1 = s.sr1 := rfl
@[simp] theorem freeRdata_sr2 (s : State) : (freeRdata s).sr2 = s.sr2 := rfl
@[simp] theorem freeRdata_sr3 (s : State) : (freeRdata s).sr3 = s.sr3 := rfl
@[simp] theorem freeRdata_lasterr (s : State) : (freeRdata s).lasterr = s.lasterr := rfl
@[simp] theorem freeRdata_fault (s : State) : (freeRdata s).fault = s.fault := rfl
@[simp] theorem freeRdata_faultcause (s : State) : (freeRdata s).faultcause = s.faultcause := rfl
@[simp] theorem freeRdata_op (s : State) : (freeRdata s).op = s.op := rfl
@[simp] theorem freeRdata_a (s : State) : (freeRdata s).a = s.a := rfl
@[simp] theorem freeRdata_b (s : State) : (freeRdata s).b = s.b := rfl
@[simp] theorem freeRdata_len (s : State) : (freeRdata s).len = s.len := rfl
@[simp] theorem freeRdata_tmo (s : State) : (freeRdata s).tmo = s.tmo := rfl
@[simp] theorem freeRdata_wdata (s : State) : (freeRdata s).wdata = s.wdata := rfl
@[simp] theorem freeRdata_result (s : State) : (freeRdata s).result = s.result := rfl
@[simp] theorem freeRdata_rdata (s : State) : (freeRdata s).rdata = Config.freeRdata s.count := rfl
@[simp] theorem freeRdata_seq (s : State) : (freeRdata s).seq = s.seq := rfl
@[simp] theorem freeRdata_start (s : State) : (freeRdata s).start = s.start := rfl
@[simp] theorem freeRdata_cur (s : State) : (freeRdata s).cur = s.cur := rfl
@[simp] theorem freeRdata_rem (s : State) : (freeRdata s).rem = s.rem := rfl
@[simp] theorem freeRdata_total (s : State) : (freeRdata s).total = s.total := rfl
@[simp] theorem freeRdata_page (s : State) : (freeRdata s).page = s.page := rfl
@[simp] theorem freeRdata_off (s : State) : (freeRdata s).off = s.off := rfl
@[simp] theorem freeRdata_trace (s : State) : (freeRdata s).trace = s.trace := rfl
@[simp] theorem freeRdata_script (s : State) : (freeRdata s).script = s.script := rfl
@[simp] theorem freeRdata_ticks (s : State) : (freeRdata s).ticks = s.ticks := rfl
@[simp] theorem freeRdata_refDevice (s : State) : (freeRdata s).refDevice = s.refDevice := rfl
@[simp] theorem freeRdata_dev (s : State) : (freeRdata s).dev = s.dev := rfl
@[simp] theorem freeRdata_count (s : State) : (freeRdata s).count = s.count + 1 := rfl
@[simp] theorem freeRdata_hostQ (s : State) : (freeRdata s).hostQ = s.hostQ := rfl
@[simp] theorem freeRdata_frameOk (s : State) : (freeRdata s).frameOk = s.frameOk := rfl
@[simp] theorem freeRdata_frameRx (s : State) : (freeRdata s).frameRx = s.frameRx := rfl

@[simp] theorem accept_cfg (code : Byte) (s : State) : (accept code s).cfg = s.cfg := rfl
@[simp] theorem accept_blockcount (code : Byte) (s : State) : (accept code s).blockcount = s.blockcount := rfl
@[simp] theorem accept_vendor (code : Byte) (s : State) : (accept code s).vendor = s.vendor := rfl
@[simp] theorem accept_capcode (code : Byte) (s : State) : (accept code s).capcode = s.capcode := rfl
@[simp] theorem accept_depth (code : Byte) (s : State) : (accept code s).depth = s.depth := rfl
@[simp] theorem accept_cs (code : Byte) (s : State) : (accept code s).cs = s.cs := rfl
@[simp] theorem accept_fast (code : Byte) (s : State) : (accept code s).fast = s.fast := rfl
@[simp] theorem accept_sr1 (code : Byte) (s : State) : (accept code s).sr1 = s.sr1 := rfl
@[simp] theorem accept_sr2 (code : Byte) (s : State) : (accept code s).sr2 = s.sr2 := rfl
@[simp] theorem accept_sr3 (code : Byte) (s : State) : (accept code s).sr3 = s.sr3 := rfl
@[simp] theorem accept_lasterr (code : Byte) (s : State) : (accept code s).lasterr = .none := rfl
@[simp] theorem accept_fault (code : Byte) (s : State) : (accept code s).fault = s.fault := rfl
@[simp] theorem accept_faultcause (code : Byte) (s : State) : (accept code s).faultcause = s.faultcause := rfl
@[simp] theorem accept_op (code : Byte) (s : State) : (accept code s).op = code := rfl
@[simp] theorem accept_a (code : Byte) (s : State) : (accept code s).a = s.a := rfl
@[simp] theorem accept_b (code : Byte) (s : State) : (accept code s).b = s.b := rfl
@[simp] theorem accept_len (code : Byte) (s : State) : (accept code s).len = s.len := rfl
@[simp] theorem accept_tmo (code : Byte) (s : State) : (accept code s).tmo = s.tmo := rfl
@[simp] theorem accept_wdata (code : Byte) (s : State) : (accept code s).wdata = s.wdata := rfl
@[simp] theorem accept_result (code : Byte) (s : State) : (accept code s).result = s.result := rfl
@[simp] theorem accept_rdata (code : Byte) (s : State) : (accept code s).rdata = s.rdata := rfl
@[simp] theorem accept_seq (code : Byte) (s : State) : (accept code s).seq = s.seq := rfl
@[simp] theorem accept_start (code : Byte) (s : State) : (accept code s).start = s.start := rfl
@[simp] theorem accept_cur (code : Byte) (s : State) : (accept code s).cur = s.cur := rfl
@[simp] theorem accept_rem (code : Byte) (s : State) : (accept code s).rem = s.rem := rfl
@[simp] theorem accept_total (code : Byte) (s : State) : (accept code s).total = s.total := rfl
@[simp] theorem accept_page (code : Byte) (s : State) : (accept code s).page = s.page := rfl
@[simp] theorem accept_off (code : Byte) (s : State) : (accept code s).off = s.off := rfl
@[simp] theorem accept_trace (code : Byte) (s : State) : (accept code s).trace = s.trace := rfl
@[simp] theorem accept_script (code : Byte) (s : State) : (accept code s).script = s.script := rfl
@[simp] theorem accept_ticks (code : Byte) (s : State) : (accept code s).ticks = s.ticks := rfl
@[simp] theorem accept_refDevice (code : Byte) (s : State) : (accept code s).refDevice = s.refDevice := rfl
@[simp] theorem accept_dev (code : Byte) (s : State) : (accept code s).dev = s.dev := rfl
@[simp] theorem accept_count (code : Byte) (s : State) : (accept code s).count = s.count := rfl
@[simp] theorem accept_hostQ (code : Byte) (s : State) : (accept code s).hostQ = s.hostQ := rfl
@[simp] theorem accept_frameOk (code : Byte) (s : State) : (accept code s).frameOk = s.frameOk := rfl
@[simp] theorem accept_frameRx (code : Byte) (s : State) : (accept code s).frameRx = s.frameRx := rfl

@[simp] theorem latch_cfg (r : Request) (s : State) : (latch r s).cfg = s.cfg := rfl
@[simp] theorem latch_blockcount (r : Request) (s : State) : (latch r s).blockcount = s.blockcount := rfl
@[simp] theorem latch_vendor (r : Request) (s : State) : (latch r s).vendor = s.vendor := rfl
@[simp] theorem latch_capcode (r : Request) (s : State) : (latch r s).capcode = s.capcode := rfl
@[simp] theorem latch_depth (r : Request) (s : State) : (latch r s).depth = s.depth := rfl
@[simp] theorem latch_cs (r : Request) (s : State) : (latch r s).cs = s.cs := rfl
@[simp] theorem latch_fast (r : Request) (s : State) : (latch r s).fast = s.fast := rfl
@[simp] theorem latch_sr1 (r : Request) (s : State) : (latch r s).sr1 = s.sr1 := rfl
@[simp] theorem latch_sr2 (r : Request) (s : State) : (latch r s).sr2 = s.sr2 := rfl
@[simp] theorem latch_sr3 (r : Request) (s : State) : (latch r s).sr3 = s.sr3 := rfl
@[simp] theorem latch_lasterr (r : Request) (s : State) : (latch r s).lasterr = s.lasterr := rfl
@[simp] theorem latch_fault (r : Request) (s : State) : (latch r s).fault = s.fault := rfl
@[simp] theorem latch_faultcause (r : Request) (s : State) : (latch r s).faultcause = s.faultcause := rfl
@[simp] theorem latch_op (r : Request) (s : State) : (latch r s).op = r.op := rfl
@[simp] theorem latch_a (r : Request) (s : State) : (latch r s).a = r.a := rfl
@[simp] theorem latch_b (r : Request) (s : State) : (latch r s).b = r.b := rfl
@[simp] theorem latch_len (r : Request) (s : State) : (latch r s).len = r.len := rfl
@[simp] theorem latch_tmo (r : Request) (s : State) : (latch r s).tmo = r.tmo := rfl
@[simp] theorem latch_wdata (r : Request) (s : State) : (latch r s).wdata = r.wdata := rfl
@[simp] theorem latch_result (r : Request) (s : State) : (latch r s).result = s.result := rfl
@[simp] theorem latch_rdata (r : Request) (s : State) : (latch r s).rdata = s.rdata := rfl
@[simp] theorem latch_seq (r : Request) (s : State) : (latch r s).seq = s.seq := rfl
@[simp] theorem latch_start (r : Request) (s : State) : (latch r s).start = s.start := rfl
@[simp] theorem latch_cur (r : Request) (s : State) : (latch r s).cur = s.cur := rfl
@[simp] theorem latch_rem (r : Request) (s : State) : (latch r s).rem = s.rem := rfl
@[simp] theorem latch_total (r : Request) (s : State) : (latch r s).total = s.total := rfl
@[simp] theorem latch_page (r : Request) (s : State) : (latch r s).page = s.page := rfl
@[simp] theorem latch_off (r : Request) (s : State) : (latch r s).off = s.off := rfl
@[simp] theorem latch_trace (r : Request) (s : State) : (latch r s).trace = s.trace := rfl
@[simp] theorem latch_script (r : Request) (s : State) : (latch r s).script = s.script := rfl
@[simp] theorem latch_ticks (r : Request) (s : State) : (latch r s).ticks = s.ticks := rfl
@[simp] theorem latch_refDevice (r : Request) (s : State) : (latch r s).refDevice = s.refDevice := rfl
@[simp] theorem latch_dev (r : Request) (s : State) : (latch r s).dev = s.dev := rfl
@[simp] theorem latch_count (r : Request) (s : State) : (latch r s).count = s.count := rfl
@[simp] theorem latch_hostQ (r : Request) (s : State) : (latch r s).hostQ = s.hostQ := rfl
@[simp] theorem latch_frameOk (r : Request) (s : State) : (latch r s).frameOk = s.frameOk := rfl
@[simp] theorem latch_frameRx (r : Request) (s : State) : (latch r s).frameRx = s.frameRx := rfl

@[simp] theorem popHost_cfg (s : State) : (popHost s).cfg = s.cfg := rfl
@[simp] theorem popHost_blockcount (s : State) : (popHost s).blockcount = s.blockcount := rfl
@[simp] theorem popHost_vendor (s : State) : (popHost s).vendor = s.vendor := rfl
@[simp] theorem popHost_capcode (s : State) : (popHost s).capcode = s.capcode := rfl
@[simp] theorem popHost_depth (s : State) : (popHost s).depth = s.depth := rfl
@[simp] theorem popHost_cs (s : State) : (popHost s).cs = s.cs := rfl
@[simp] theorem popHost_fast (s : State) : (popHost s).fast = s.fast := rfl
@[simp] theorem popHost_sr1 (s : State) : (popHost s).sr1 = s.sr1 := rfl
@[simp] theorem popHost_sr2 (s : State) : (popHost s).sr2 = s.sr2 := rfl
@[simp] theorem popHost_sr3 (s : State) : (popHost s).sr3 = s.sr3 := rfl
@[simp] theorem popHost_lasterr (s : State) : (popHost s).lasterr = s.lasterr := rfl
@[simp] theorem popHost_fault (s : State) : (popHost s).fault = s.fault := rfl
@[simp] theorem popHost_faultcause (s : State) : (popHost s).faultcause = s.faultcause := rfl
@[simp] theorem popHost_op (s : State) : (popHost s).op = s.op := rfl
@[simp] theorem popHost_a (s : State) : (popHost s).a = s.a := rfl
@[simp] theorem popHost_b (s : State) : (popHost s).b = s.b := rfl
@[simp] theorem popHost_len (s : State) : (popHost s).len = s.len := rfl
@[simp] theorem popHost_tmo (s : State) : (popHost s).tmo = s.tmo := rfl
@[simp] theorem popHost_wdata (s : State) : (popHost s).wdata = s.wdata := rfl
@[simp] theorem popHost_result (s : State) : (popHost s).result = s.result := rfl
@[simp] theorem popHost_rdata (s : State) : (popHost s).rdata = s.rdata := rfl
@[simp] theorem popHost_seq (s : State) : (popHost s).seq = s.seq := rfl
@[simp] theorem popHost_start (s : State) : (popHost s).start = s.start := rfl
@[simp] theorem popHost_cur (s : State) : (popHost s).cur = s.cur := rfl
@[simp] theorem popHost_rem (s : State) : (popHost s).rem = s.rem := rfl
@[simp] theorem popHost_total (s : State) : (popHost s).total = s.total := rfl
@[simp] theorem popHost_page (s : State) : (popHost s).page = s.page := rfl
@[simp] theorem popHost_off (s : State) : (popHost s).off = s.off := rfl
@[simp] theorem popHost_trace (s : State) : (popHost s).trace = s.trace := rfl
@[simp] theorem popHost_script (s : State) : (popHost s).script = s.script := rfl
@[simp] theorem popHost_ticks (s : State) : (popHost s).ticks = s.ticks := rfl
@[simp] theorem popHost_refDevice (s : State) : (popHost s).refDevice = s.refDevice := rfl
@[simp] theorem popHost_dev (s : State) : (popHost s).dev = s.dev := rfl
@[simp] theorem popHost_count (s : State) : (popHost s).count = s.count := rfl
@[simp] theorem popHost_hostQ (s : State) : (popHost s).hostQ = s.hostQ.tail := rfl
@[simp] theorem popHost_frameOk (s : State) : (popHost s).frameOk = s.frameOk := rfl
@[simp] theorem popHost_frameRx (s : State) : (popHost s).frameRx = s.frameRx := rfl

@[simp] theorem clearIdentity_cfg (s : State) : (clearIdentity s).cfg = s.cfg := rfl
@[simp] theorem clearIdentity_blockcount (s : State) : (clearIdentity s).blockcount = 0#16 := rfl
@[simp] theorem clearIdentity_vendor (s : State) : (clearIdentity s).vendor = 0#8 := rfl
@[simp] theorem clearIdentity_capcode (s : State) : (clearIdentity s).capcode = 0#8 := rfl
@[simp] theorem clearIdentity_depth (s : State) : (clearIdentity s).depth = s.depth := rfl
@[simp] theorem clearIdentity_cs (s : State) : (clearIdentity s).cs = s.cs := rfl
@[simp] theorem clearIdentity_fast (s : State) : (clearIdentity s).fast = .unset := rfl
@[simp] theorem clearIdentity_sr1 (s : State) : (clearIdentity s).sr1 = s.sr1 := rfl
@[simp] theorem clearIdentity_sr2 (s : State) : (clearIdentity s).sr2 = s.sr2 := rfl
@[simp] theorem clearIdentity_sr3 (s : State) : (clearIdentity s).sr3 = s.sr3 := rfl
@[simp] theorem clearIdentity_lasterr (s : State) : (clearIdentity s).lasterr = s.lasterr := rfl
@[simp] theorem clearIdentity_fault (s : State) : (clearIdentity s).fault = s.fault := rfl
@[simp] theorem clearIdentity_faultcause (s : State) : (clearIdentity s).faultcause = s.faultcause := rfl
@[simp] theorem clearIdentity_op (s : State) : (clearIdentity s).op = s.op := rfl
@[simp] theorem clearIdentity_a (s : State) : (clearIdentity s).a = s.a := rfl
@[simp] theorem clearIdentity_b (s : State) : (clearIdentity s).b = s.b := rfl
@[simp] theorem clearIdentity_len (s : State) : (clearIdentity s).len = s.len := rfl
@[simp] theorem clearIdentity_tmo (s : State) : (clearIdentity s).tmo = s.tmo := rfl
@[simp] theorem clearIdentity_wdata (s : State) : (clearIdentity s).wdata = s.wdata := rfl
@[simp] theorem clearIdentity_result (s : State) : (clearIdentity s).result = s.result := rfl
@[simp] theorem clearIdentity_rdata (s : State) : (clearIdentity s).rdata = s.rdata := rfl
@[simp] theorem clearIdentity_seq (s : State) : (clearIdentity s).seq = s.seq := rfl
@[simp] theorem clearIdentity_start (s : State) : (clearIdentity s).start = s.start := rfl
@[simp] theorem clearIdentity_cur (s : State) : (clearIdentity s).cur = s.cur := rfl
@[simp] theorem clearIdentity_rem (s : State) : (clearIdentity s).rem = s.rem := rfl
@[simp] theorem clearIdentity_total (s : State) : (clearIdentity s).total = s.total := rfl
@[simp] theorem clearIdentity_page (s : State) : (clearIdentity s).page = s.page := rfl
@[simp] theorem clearIdentity_off (s : State) : (clearIdentity s).off = s.off := rfl
@[simp] theorem clearIdentity_trace (s : State) : (clearIdentity s).trace = s.trace := rfl
@[simp] theorem clearIdentity_script (s : State) : (clearIdentity s).script = s.script := rfl
@[simp] theorem clearIdentity_ticks (s : State) : (clearIdentity s).ticks = s.ticks := rfl
@[simp] theorem clearIdentity_refDevice (s : State) : (clearIdentity s).refDevice = s.refDevice := rfl
@[simp] theorem clearIdentity_dev (s : State) : (clearIdentity s).dev = s.dev := rfl
@[simp] theorem clearIdentity_count (s : State) : (clearIdentity s).count = s.count := rfl
@[simp] theorem clearIdentity_hostQ (s : State) : (clearIdentity s).hostQ = s.hostQ := rfl
@[simp] theorem clearIdentity_frameOk (s : State) : (clearIdentity s).frameOk = s.frameOk := rfl
@[simp] theorem clearIdentity_frameRx (s : State) : (clearIdentity s).frameRx = s.frameRx := rfl

@[simp] theorem setIdentity_cfg (blocks : BitVec 16) (id0 id2 : Byte) (s : State) : (setIdentity blocks id0 id2 s).cfg = s.cfg := rfl
@[simp] theorem setIdentity_blockcount (blocks : BitVec 16) (id0 id2 : Byte) (s : State) : (setIdentity blocks id0 id2 s).blockcount = blocks := rfl
@[simp] theorem setIdentity_vendor (blocks : BitVec 16) (id0 id2 : Byte) (s : State) : (setIdentity blocks id0 id2 s).vendor = id0 := rfl
@[simp] theorem setIdentity_capcode (blocks : BitVec 16) (id0 id2 : Byte) (s : State) : (setIdentity blocks id0 id2 s).capcode = id2 := rfl
@[simp] theorem setIdentity_depth (blocks : BitVec 16) (id0 id2 : Byte) (s : State) : (setIdentity blocks id0 id2 s).depth = s.depth := rfl
@[simp] theorem setIdentity_cs (blocks : BitVec 16) (id0 id2 : Byte) (s : State) : (setIdentity blocks id0 id2 s).cs = s.cs := rfl
@[simp] theorem setIdentity_fast (blocks : BitVec 16) (id0 id2 : Byte) (s : State) : (setIdentity blocks id0 id2 s).fast = s.fast := rfl
@[simp] theorem setIdentity_sr1 (blocks : BitVec 16) (id0 id2 : Byte) (s : State) : (setIdentity blocks id0 id2 s).sr1 = s.sr1 := rfl
@[simp] theorem setIdentity_sr2 (blocks : BitVec 16) (id0 id2 : Byte) (s : State) : (setIdentity blocks id0 id2 s).sr2 = s.sr2 := rfl
@[simp] theorem setIdentity_sr3 (blocks : BitVec 16) (id0 id2 : Byte) (s : State) : (setIdentity blocks id0 id2 s).sr3 = s.sr3 := rfl
@[simp] theorem setIdentity_lasterr (blocks : BitVec 16) (id0 id2 : Byte) (s : State) : (setIdentity blocks id0 id2 s).lasterr = s.lasterr := rfl
@[simp] theorem setIdentity_fault (blocks : BitVec 16) (id0 id2 : Byte) (s : State) : (setIdentity blocks id0 id2 s).fault = s.fault := rfl
@[simp] theorem setIdentity_faultcause (blocks : BitVec 16) (id0 id2 : Byte) (s : State) : (setIdentity blocks id0 id2 s).faultcause = s.faultcause := rfl
@[simp] theorem setIdentity_op (blocks : BitVec 16) (id0 id2 : Byte) (s : State) : (setIdentity blocks id0 id2 s).op = s.op := rfl
@[simp] theorem setIdentity_a (blocks : BitVec 16) (id0 id2 : Byte) (s : State) : (setIdentity blocks id0 id2 s).a = s.a := rfl
@[simp] theorem setIdentity_b (blocks : BitVec 16) (id0 id2 : Byte) (s : State) : (setIdentity blocks id0 id2 s).b = s.b := rfl
@[simp] theorem setIdentity_len (blocks : BitVec 16) (id0 id2 : Byte) (s : State) : (setIdentity blocks id0 id2 s).len = s.len := rfl
@[simp] theorem setIdentity_tmo (blocks : BitVec 16) (id0 id2 : Byte) (s : State) : (setIdentity blocks id0 id2 s).tmo = s.tmo := rfl
@[simp] theorem setIdentity_wdata (blocks : BitVec 16) (id0 id2 : Byte) (s : State) : (setIdentity blocks id0 id2 s).wdata = s.wdata := rfl
@[simp] theorem setIdentity_result (blocks : BitVec 16) (id0 id2 : Byte) (s : State) : (setIdentity blocks id0 id2 s).result = s.result := rfl
@[simp] theorem setIdentity_rdata (blocks : BitVec 16) (id0 id2 : Byte) (s : State) : (setIdentity blocks id0 id2 s).rdata = s.rdata := rfl
@[simp] theorem setIdentity_seq (blocks : BitVec 16) (id0 id2 : Byte) (s : State) : (setIdentity blocks id0 id2 s).seq = s.seq := rfl
@[simp] theorem setIdentity_start (blocks : BitVec 16) (id0 id2 : Byte) (s : State) : (setIdentity blocks id0 id2 s).start = s.start := rfl
@[simp] theorem setIdentity_cur (blocks : BitVec 16) (id0 id2 : Byte) (s : State) : (setIdentity blocks id0 id2 s).cur = s.cur := rfl
@[simp] theorem setIdentity_rem (blocks : BitVec 16) (id0 id2 : Byte) (s : State) : (setIdentity blocks id0 id2 s).rem = s.rem := rfl
@[simp] theorem setIdentity_total (blocks : BitVec 16) (id0 id2 : Byte) (s : State) : (setIdentity blocks id0 id2 s).total = s.total := rfl
@[simp] theorem setIdentity_page (blocks : BitVec 16) (id0 id2 : Byte) (s : State) : (setIdentity blocks id0 id2 s).page = s.page := rfl
@[simp] theorem setIdentity_off (blocks : BitVec 16) (id0 id2 : Byte) (s : State) : (setIdentity blocks id0 id2 s).off = s.off := rfl
@[simp] theorem setIdentity_trace (blocks : BitVec 16) (id0 id2 : Byte) (s : State) : (setIdentity blocks id0 id2 s).trace = s.trace := rfl
@[simp] theorem setIdentity_script (blocks : BitVec 16) (id0 id2 : Byte) (s : State) : (setIdentity blocks id0 id2 s).script = s.script := rfl
@[simp] theorem setIdentity_ticks (blocks : BitVec 16) (id0 id2 : Byte) (s : State) : (setIdentity blocks id0 id2 s).ticks = s.ticks := rfl
@[simp] theorem setIdentity_refDevice (blocks : BitVec 16) (id0 id2 : Byte) (s : State) : (setIdentity blocks id0 id2 s).refDevice = s.refDevice := rfl
@[simp] theorem setIdentity_dev (blocks : BitVec 16) (id0 id2 : Byte) (s : State) : (setIdentity blocks id0 id2 s).dev = s.dev := rfl
@[simp] theorem setIdentity_count (blocks : BitVec 16) (id0 id2 : Byte) (s : State) : (setIdentity blocks id0 id2 s).count = s.count := rfl
@[simp] theorem setIdentity_hostQ (blocks : BitVec 16) (id0 id2 : Byte) (s : State) : (setIdentity blocks id0 id2 s).hostQ = s.hostQ := rfl
@[simp] theorem setIdentity_frameOk (blocks : BitVec 16) (id0 id2 : Byte) (s : State) : (setIdentity blocks id0 id2 s).frameOk = s.frameOk := rfl
@[simp] theorem setIdentity_frameRx (blocks : BitVec 16) (id0 id2 : Byte) (s : State) : (setIdentity blocks id0 id2 s).frameRx = s.frameRx := rfl

@[simp] theorem setStatus_cfg (n : StatusReg) (v : Byte) (s : State) : (setStatus n v s).cfg = s.cfg := by cases n <;> rfl
@[simp] theorem setStatus_blockcount (n : StatusReg) (v : Byte) (s : State) : (setStatus n v s).blockcount = s.blockcount := by cases n <;> rfl
@[simp] theorem setStatus_vendor (n : StatusReg) (v : Byte) (s : State) : (setStatus n v s).vendor = s.vendor := by cases n <;> rfl
@[simp] theorem setStatus_capcode (n : StatusReg) (v : Byte) (s : State) : (setStatus n v s).capcode = s.capcode := by cases n <;> rfl
@[simp] theorem setStatus_depth (n : StatusReg) (v : Byte) (s : State) : (setStatus n v s).depth = s.depth := by cases n <;> rfl
@[simp] theorem setStatus_cs (n : StatusReg) (v : Byte) (s : State) : (setStatus n v s).cs = s.cs := by cases n <;> rfl
@[simp] theorem setStatus_fast (n : StatusReg) (v : Byte) (s : State) : (setStatus n v s).fast = s.fast := by cases n <;> rfl
@[simp] theorem setStatus_sr1 (n : StatusReg) (v : Byte) (s : State) :
    (setStatus n v s).sr1 = if n = .sr1 then v else s.sr1 := by cases n <;> rfl
@[simp] theorem setStatus_sr2 (n : StatusReg) (v : Byte) (s : State) :
    (setStatus n v s).sr2 = if n = .sr2 then v else s.sr2 := by cases n <;> rfl
@[simp] theorem setStatus_sr3 (n : StatusReg) (v : Byte) (s : State) :
    (setStatus n v s).sr3 = if n = .sr3 then v else s.sr3 := by cases n <;> rfl
@[simp] theorem setStatus_lasterr (n : StatusReg) (v : Byte) (s : State) : (setStatus n v s).lasterr = s.lasterr := by cases n <;> rfl
@[simp] theorem setStatus_fault (n : StatusReg) (v : Byte) (s : State) : (setStatus n v s).fault = s.fault := by cases n <;> rfl
@[simp] theorem setStatus_faultcause (n : StatusReg) (v : Byte) (s : State) : (setStatus n v s).faultcause = s.faultcause := by cases n <;> rfl
@[simp] theorem setStatus_op (n : StatusReg) (v : Byte) (s : State) : (setStatus n v s).op = s.op := by cases n <;> rfl
@[simp] theorem setStatus_a (n : StatusReg) (v : Byte) (s : State) : (setStatus n v s).a = s.a := by cases n <;> rfl
@[simp] theorem setStatus_b (n : StatusReg) (v : Byte) (s : State) : (setStatus n v s).b = s.b := by cases n <;> rfl
@[simp] theorem setStatus_len (n : StatusReg) (v : Byte) (s : State) : (setStatus n v s).len = s.len := by cases n <;> rfl
@[simp] theorem setStatus_tmo (n : StatusReg) (v : Byte) (s : State) : (setStatus n v s).tmo = s.tmo := by cases n <;> rfl
@[simp] theorem setStatus_wdata (n : StatusReg) (v : Byte) (s : State) : (setStatus n v s).wdata = s.wdata := by cases n <;> rfl
@[simp] theorem setStatus_result (n : StatusReg) (v : Byte) (s : State) : (setStatus n v s).result = s.result := by cases n <;> rfl
@[simp] theorem setStatus_rdata (n : StatusReg) (v : Byte) (s : State) : (setStatus n v s).rdata = s.rdata := by cases n <;> rfl
@[simp] theorem setStatus_seq (n : StatusReg) (v : Byte) (s : State) : (setStatus n v s).seq = s.seq := by cases n <;> rfl
@[simp] theorem setStatus_start (n : StatusReg) (v : Byte) (s : State) : (setStatus n v s).start = s.start := by cases n <;> rfl
@[simp] theorem setStatus_cur (n : StatusReg) (v : Byte) (s : State) : (setStatus n v s).cur = s.cur := by cases n <;> rfl
@[simp] theorem setStatus_rem (n : StatusReg) (v : Byte) (s : State) : (setStatus n v s).rem = s.rem := by cases n <;> rfl
@[simp] theorem setStatus_total (n : StatusReg) (v : Byte) (s : State) : (setStatus n v s).total = s.total := by cases n <;> rfl
@[simp] theorem setStatus_page (n : StatusReg) (v : Byte) (s : State) : (setStatus n v s).page = s.page := by cases n <;> rfl
@[simp] theorem setStatus_off (n : StatusReg) (v : Byte) (s : State) : (setStatus n v s).off = s.off := by cases n <;> rfl
@[simp] theorem setStatus_trace (n : StatusReg) (v : Byte) (s : State) : (setStatus n v s).trace = s.trace := by cases n <;> rfl
@[simp] theorem setStatus_script (n : StatusReg) (v : Byte) (s : State) : (setStatus n v s).script = s.script := by cases n <;> rfl
@[simp] theorem setStatus_ticks (n : StatusReg) (v : Byte) (s : State) : (setStatus n v s).ticks = s.ticks := by cases n <;> rfl
@[simp] theorem setStatus_refDevice (n : StatusReg) (v : Byte) (s : State) : (setStatus n v s).refDevice = s.refDevice := by cases n <;> rfl
@[simp] theorem setStatus_dev (n : StatusReg) (v : Byte) (s : State) : (setStatus n v s).dev = s.dev := by cases n <;> rfl
@[simp] theorem setStatus_count (n : StatusReg) (v : Byte) (s : State) : (setStatus n v s).count = s.count := by cases n <;> rfl
@[simp] theorem setStatus_hostQ (n : StatusReg) (v : Byte) (s : State) : (setStatus n v s).hostQ = s.hostQ := by cases n <;> rfl
@[simp] theorem setStatus_frameOk (n : StatusReg) (v : Byte) (s : State) : (setStatus n v s).frameOk = s.frameOk := by cases n <;> rfl
@[simp] theorem setStatus_frameRx (n : StatusReg) (v : Byte) (s : State) : (setStatus n v s).frameRx = s.frameRx := by cases n <;> rfl

end Sys2Proof.Machine
end

