-- ==== Sys2Proof/Laws/Run.lean ====
section
/-!
SUPPORT. How a procedure ends: the state it leaves however it ends, and what can be said of `bind` and `settle` without unfolding
them.
-/

namespace Sys2Proof.Machine

/-- The state a procedure leaves, however it ends. -/
def Run.final {α : Type} : Run α → State
  | .done _ s => s
  | .wait s => s
  | .halt s => s

@[simp] theorem Run.final_done {α : Type} (a : α) (s : State) : (Run.done a s).final = s := rfl
@[simp] theorem Run.final_wait {α : Type} (s : State) : (Run.wait s : Run α).final = s := rfl
@[simp] theorem Run.final_halt {α : Type} (s : State) : (Run.halt s : Run α).final = s := rfl

@[simp] theorem Run.bind_done {α β : Type} (a : α) (s : State) (f : α → State → Run β) : (Run.done a s).bind f = f a s := rfl
@[simp] theorem Run.bind_wait {α β : Type} (s : State) (f : α → State → Run β) : (Run.wait s).bind f = .wait s := rfl
@[simp] theorem Run.bind_halt {α β : Type} (s : State) (f : α → State → Run β) : (Run.halt s).bind f = .halt s := rfl

@[simp] theorem Run.settle_done (s : State) (h : State → State) : (Run.done () s).settle h = s := rfl
@[simp] theorem Run.settle_wait (s : State) (h : State → State) : (Run.wait s : Run Unit).settle h = s := rfl
@[simp] theorem Run.settle_halt (s : State) (h : State → State) : (Run.halt s : Run Unit).settle h = h s := rfl

/-- A reflexive-transitive relation that the first procedure keeps, and the second from wherever the first is done, holds across
both. -/
theorem Run.bind_final {α β : Type} {R : State → State → Prop} (trans : ∀ {a b c}, R a b → R b c → R a c) {s : State}
    {r : Run α} {f : α → State → Run β} (h : R s r.final) (hf : ∀ a t, r = .done a t → R t (f a t).final) :
    R s (r.bind f).final := by
  cases r with
  | done a t => exact trans h (hf a t rfl)
  | wait t => exact h
  | halt t => exact h

/-- How an operation may end: done and idle, waiting at a loop's end, or stopped by a fault. -/
def Run.EndsWell {α : Type} : Run α → Prop
  | .done _ _ => True
  | .wait s => s.seq = .wait ∨ s.seq = .check
  | .halt s => s.fault = true

theorem Run.EndsWell.bind {α β : Type} {r : Run α} {f : α → State → Run β} (h : r.EndsWell)
    (hf : ∀ a t, r = .done a t → (f a t).EndsWell) : (r.bind f).EndsWell := by
  cases r with
  | done a t => exact hf a t rfl
  | wait t => exact h
  | halt t => exact h

/-- A whole operation: as `EndsWell`, and idle when done. -/
def Run.Settles : Run Unit → Prop
  | .done _ s => s.seq = .idle
  | .wait s => s.seq = .wait ∨ s.seq = .check
  | .halt s => s.fault = true

theorem Run.Settles.bind {α : Type} {r : Run α} {f : α → State → Run Unit} (h : r.EndsWell)
    (hf : ∀ a t, r = .done a t → (f a t).Settles) : (r.bind f).Settles := by
  cases r with
  | done a t => exact hf a t rfl
  | wait t => exact h
  | halt t => exact h

/-- A settled operation is at a step boundary (Safety's `BoundaryOk`), if what is done at a fault keeps the fault. -/
theorem Run.Settles.boundary {r : Run Unit} (h : r.Settles) {halted : State → State}
    (hh : ∀ s, (halted s).fault = s.fault) :
    (r.settle halted).fault = false →
      (r.settle halted).seq = .idle ∨ (r.settle halted).seq = .wait ∨ (r.settle halted).seq = .check := by
  cases r with
  | done a t => exact fun _ => .inl h
  | wait t => exact fun _ => .inr h
  | halt t =>
    intro hf
    rw [Run.settle_halt, hh] at hf
    have : t.fault = true := h
    simp [this] at hf

end Sys2Proof.Machine
end

