-- ==== Sys2Proof/Laws/Keeps.lean ====
section
/-!
SUPPORT. What every procedure leaves unchanged, said once: a footprint names the registers and cells a procedure may change,
`Keeps F s t` says that everything else is as it was, that the line and the device are still in step, that the cells are still
canonical, and that the trace grew by sessions whose first byte is an opcode. One lemma per shared operation.
-/

namespace Sys2Proof.Machine

/-- What a procedure may change, beside `SEQ`, `LASTERR`, `RESULT`, the fault registers, the trace and the environment's
answers: cells, status cache, `CUR`, `RDATA`, `START`, the page loop's registers, the identity. -/
structure Footprint where
  mem : Nat → Prop
  st : StatusReg → Prop
  cur : Prop
  rdata : Prop
  start : Prop
  loop : Prop
  ident : Prop

/-- The transfers of R14. -/
def Event.isTransfer : Event → Bool
  | .xfer _ _ | .xferFail _ | .bulkTx _ _ | .bulkRx _ _ _ => true
  | .cs0 | .cs1 | .tick _ => false

/-- The byte sent by a single exchange. -/
def Event.sentByte : Event → Option Byte
  | .xfer tx _ | .xferFail tx => some tx
  | .bulkTx _ _ | .bulkRx _ _ _ | .cs0 | .cs1 | .tick _ => none

theorem fresh_append (b : Bool) (xs ys : List Event) : freshAfter b (xs ++ ys) = freshAfter (freshAfter b xs) ys := by
  induction xs generalizing b with
  | nil => rfl
  | cons e xs ih => exact ih _

theorem opens_append (b : Bool) (xs ys : List Event) :
    opensRight b (xs ++ ys) = (opensRight b xs && opensRight (freshAfter b xs) ys) := by
  induction xs generalizing b with
  | nil => rfl
  | cons e xs ih => simp [opensRight, freshAfter, ih, Bool.and_assoc]

/-- Events that are right whatever came before. -/
def RightEvents (es : List Event) : Prop := ∀ b, opensRight b es = true

theorem RightEvents.append {xs ys : List Event} (hx : RightEvents xs) (hy : RightEvents ys) : RightEvents (xs ++ ys) := by
  intro b
  rw [opens_append, hx, hy]
  rfl

theorem opens_transfers {es : List Event} (h : ∀ e ∈ es, e.isTransfer = true) : opensRight false es = true := by
  induction es with
  | nil => rfl
  | cons e es ih =>
    have he := h e (by simp)
    have hes := ih (fun x hx => h x (by simp [hx]))
    cases e <;> simp_all [Event.isTransfer, opensRight, eventOpens, freshEvent]

theorem fresh_transfers {es : List Event} (h : ∀ e ∈ es, e.isTransfer = true) (hne : es ≠ []) (b : Bool) :
    freshAfter b es = false := by
  induction es generalizing b with
  | nil => exact absurd rfl hne
  | cons e es ih =>
    have he := h e (by simp)
    have hb : freshEvent b e = false := by cases e <;> simp_all [Event.isTransfer, freshEvent]
    simp only [freshAfter, hb]
    by_cases hes : es = []
    · subst hes; rfl
    · exact ih (fun x hx => h x (by simp [hx])) hes _

/-- The line, the depth and the device are in step. -/
abbrev InStep (s : State) : Prop := (s.cs = false ↔ 1 ≤ s.depth) ∧ (s.dev.selected = true ↔ s.cs = false)

/-- What is unchanged outside a footprint. -/
structure Keeps (F : Footprint) (s t : State) : Prop where
  cfg : t.cfg = s.cfg
  depth : t.depth = s.depth
  op : t.op = s.op
  a : t.a = s.a
  b : t.b = s.b
  len : t.len = s.len
  tmo : t.tmo = s.tmo
  wdata : t.wdata = s.wdata
  refDevice : t.refDevice = s.refDevice
  hostQ : t.hostQ = s.hostQ
  frameOk : t.frameOk = s.frameOk
  frameRx : t.frameRx = s.frameRx
  ident : ¬F.ident → t.blockcount = s.blockcount ∧ t.vendor = s.vendor ∧ t.capcode = s.capcode ∧ t.fast = s.fast
  st : ∀ n, ¬F.st n → getStatus n t = getStatus n s
  cur : ¬F.cur → t.cur = s.cur
  rdata : ¬F.rdata → t.rdata = s.rdata
  start : ¬F.start → t.start = s.start
  loop : ¬F.loop → t.rem = s.rem ∧ t.total = s.total ∧ t.page = s.page ∧ t.off = s.off
  inStep : InStep s → InStep t ∧ t.cs = s.cs
  refBlocks : t.dev.refBlocks = s.dev.refBlocks
  memWf : MemWf s.dev.mem → MemWf t.dev.mem
  mem : InStep s → MemWf s.dev.mem → ∀ x, ¬F.mem x → memRead t.dev.mem x = memRead s.dev.mem x
  faults : t.fault = s.fault ∧ t.faultcause = s.faultcause ∨
    t.fault = true ∧ t.faultcause = .selectOverflow ∧ s.cfg.depthMax ≤ s.depth
  events : ∃ es, t.trace = s.trace ++ es ∧ RightEvents es

theorem Keeps.refl (F : Footprint) (s : State) : Keeps F s s where
  cfg := rfl
  depth := rfl
  op := rfl
  a := rfl
  b := rfl
  len := rfl
  tmo := rfl
  wdata := rfl
  refDevice := rfl
  hostQ := rfl
  frameOk := rfl
  frameRx := rfl
  ident := fun _ => ⟨rfl, rfl, rfl, rfl⟩
  st := fun _ _ => rfl
  cur := fun _ => rfl
  rdata := fun _ => rfl
  start := fun _ => rfl
  loop := fun _ => ⟨rfl, rfl, rfl, rfl⟩
  inStep := fun h => ⟨h, rfl⟩
  refBlocks := rfl
  memWf := id
  mem := fun _ _ _ _ => rfl
  faults := .inl ⟨rfl, rfl⟩
  events := ⟨[], by simp, fun _ => rfl⟩

theorem Keeps.trans {F : Footprint} {s t u : State} (h : Keeps F s t) (k : Keeps F t u) : Keeps F s u where
  cfg := k.cfg.trans h.cfg
  depth := k.depth.trans h.depth
  op := k.op.trans h.op
  a := k.a.trans h.a
  b := k.b.trans h.b
  len := k.len.trans h.len
  tmo := k.tmo.trans h.tmo
  wdata := k.wdata.trans h.wdata
  refDevice := k.refDevice.trans h.refDevice
  hostQ := k.hostQ.trans h.hostQ
  frameOk := k.frameOk.trans h.frameOk
  frameRx := k.frameRx.trans h.frameRx
  ident := fun n => ⟨(k.ident n).1.trans (h.ident n).1, (k.ident n).2.1.trans (h.ident n).2.1,
    (k.ident n).2.2.1.trans (h.ident n).2.2.1, (k.ident n).2.2.2.trans (h.ident n).2.2.2⟩
  st := fun n hn => (k.st n hn).trans (h.st n hn)
  cur := fun n => (k.cur n).trans (h.cur n)
  rdata := fun n => (k.rdata n).trans (h.rdata n)
  start := fun n => (k.start n).trans (h.start n)
  loop := fun n => ⟨(k.loop n).1.trans (h.loop n).1, (k.loop n).2.1.trans (h.loop n).2.1,
    (k.loop n).2.2.1.trans (h.loop n).2.2.1, (k.loop n).2.2.2.trans (h.loop n).2.2.2⟩
  inStep := fun hs => ⟨(k.inStep (h.inStep hs).1).1, (k.inStep (h.inStep hs).1).2.trans (h.inStep hs).2⟩
  refBlocks := k.refBlocks.trans h.refBlocks
  memWf := fun hs => k.memWf (h.memWf hs)
  mem := fun hs hm x hx => (k.mem (h.inStep hs).1 (h.memWf hm) x hx).trans (h.mem hs hm x hx)
  faults := by
    rcases k.faults with ⟨k1, k2⟩ | ⟨k1, k2, k3⟩
    · rcases h.faults with ⟨h1, h2⟩ | ⟨h1, h2, h3⟩
      · exact .inl ⟨k1.trans h1, k2.trans h2⟩
      · exact .inr ⟨k1.trans h1, k2.trans h2, h3⟩
    · exact .inr ⟨k1, k2, by rw [← h.cfg, ← h.depth]; exact k3⟩
  events := by
    obtain ⟨es, he, hr⟩ := h.events
    obtain ⟨fs, hf, hq⟩ := k.events
    exact ⟨es ++ fs, by rw [hf, he, List.append_assoc], hr.append hq⟩

/-- The fault registers stay in step. -/
theorem Keeps.faultOk {F : Footprint} {s t : State} (h : Keeps F s t) (hs : FaultOk s) : FaultOk t := by
  show t.fault = false ↔ t.faultcause = .none
  rcases h.faults with ⟨h1, h2⟩ | ⟨h1, h2, -⟩
  · rw [h1, h2]
    exact hs
  · rw [h1, h2]
    exact ⟨fun k => (by cases k), fun k => (by cases k)⟩

/-- The footprint that allows nothing more than every procedure may change. -/
def Footprint.none : Footprint := ⟨fun _ => False, fun _ => False, False, False, False, False, False⟩

/-- A smaller footprint's procedure is also one of a larger. -/
theorem Keeps.mono {F G : Footprint} {s t : State} (h : Keeps F s t) (hm : ∀ x, F.mem x → G.mem x)
    (hs : ∀ n, F.st n → G.st n) (hc : F.cur → G.cur) (hr : F.rdata → G.rdata) (ht : F.start → G.start)
    (hl : F.loop → G.loop) (hi : F.ident → G.ident) : Keeps G s t :=
  { h with
    ident := fun n => h.ident (fun k => n (hi k))
    st := fun n hn => h.st n (fun k => hn (hs n k))
    cur := fun n => h.cur (fun k => n (hc k))
    rdata := fun n => h.rdata (fun k => n (hr k))
    start := fun n => h.start (fun k => n (ht k))
    loop := fun n => h.loop (fun k => n (hl k))
    mem := fun h1 h2 x hx => h.mem h1 h2 x (fun k => hx (hm x k)) }

theorem Keeps.of_none {F : Footprint} {s t : State} (h : Keeps .none s t) : Keeps F s t :=
  h.mono (fun _ k => k.elim) (fun _ k => k.elim) (fun k => k.elim) (fun k => k.elim) (fun k => k.elim)
    (fun k => k.elim) (fun k => k.elim)

/-- Across two procedures. -/
theorem Keeps.bind {F : Footprint} {α β : Type} {s : State} {r : Run α} {f : α → State → Run β} (h : Keeps F s r.final)
    (hf : ∀ a t, r = .done a t → Keeps F t (f a t).final) : Keeps F s (r.bind f).final :=
  Run.bind_final (R := Keeps F) (fun h k => h.trans k) h hf

end Sys2Proof.Machine
end

