-- ==== Sys2Proof/Laws/Ports.lean ====
section
/-!
SUPPORT. The port primitives and the frames built from them: what a transfer does, that a frame moves a prefix of its bytes to
the device and appends transfers only, and that one chip-select session keeps everything but the cells its command stores to.
-/

namespace Sys2Proof.Machine

/-- What transfers inside a session do: only the phase, the environment and the trace change; the device has seen a prefix of
the bytes to be sent. -/
structure Moves (txs : List Byte) (s t : State) : Prop where
  same : t = { s with
    seq := t.seq, dev := t.dev, trace := t.trace, script := t.script, ticks := t.ticks, count := t.count }
  dev : ∃ k, t.dev = (s.dev.exchangeAll (txs.take k)).2
  events : ∃ es, t.trace = s.trace ++ es ∧ ∀ e ∈ es, e.isTransfer = true

theorem Moves.refl (s : State) : Moves [] s s :=
  ⟨rfl, ⟨0, rfl⟩, ⟨[], by simp, by simp⟩⟩

theorem Moves.cfg {txs : List Byte} {s t : State} (h : Moves txs s t) : t.cfg = s.cfg := by rw [h.same]

theorem Moves.depth {txs : List Byte} {s t : State} (h : Moves txs s t) : t.depth = s.depth := by rw [h.same]

/-- One more transfer after a part whose bytes all went. -/
theorem Moves.append {as bs : List Byte} {s t u : State} (h : Moves as s t) (hk : t.dev = (s.dev.exchangeAll as).2)
    (k : Moves bs t u) : Moves (as ++ bs) s u where
  same := by
    rw [k.same, h.same]
  dev := by
    obtain ⟨n, hn⟩ := k.dev
    refine ⟨as.length + n, ?_⟩
    rw [hn, hk, List.take_length_add_append, Flash.exchangeAll_append]
  events := by
    obtain ⟨es, he, hr⟩ := h.events
    obtain ⟨fs, hf, hq⟩ := k.events
    refine ⟨es ++ fs, by rw [hf, he, List.append_assoc], ?_⟩
    intro e hm
    rcases List.mem_append.mp hm with hm | hm
    · exact hr e hm
    · exact hq e hm

/-- A part that was cut short may be followed by nothing. -/
theorem Moves.weaken {as bs : List Byte} {s t : State} (h : Moves as s t) : Moves (as ++ bs) s t where
  same := h.same
  dev := by
    obtain ⟨n, hn⟩ := h.dev
    refine ⟨min n as.length, ?_⟩
    rw [hn, List.take_append_of_le_length (Nat.min_le_right _ _)]
    congr 2
    rcases Nat.le_total n as.length with hle | hle
    · rw [Nat.min_eq_left hle]
    · rw [Nat.min_eq_right hle, List.take_of_length_le hle, List.take_of_length_le (Nat.le_refl _)]
  events := h.events

/-- A phase change is no move. -/
theorem Moves.setSeq {as : List Byte} {s t : State} (q : Seq) (h : Moves as s t) : Moves as s (setSeq q t) where
  same := by rw [h.same]; rfl
  dev := h.dev
  events := h.events

theorem Moves.setSeq_left {as : List Byte} {s t : State} (q : Seq) (h : Moves as (Machine.setSeq q s) t) : Moves as s t where
  same := by rw [h.same]; rfl
  dev := h.dev
  events := h.events

/-- Everything a single exchange can do (R71). -/
theorem xfer_cases (tx : Byte) (s : State) :
    Moves [tx] s (xfer tx s).2 ∧ (xfer tx s).2.seq = s.seq ∧
      (∃ e, (xfer tx s).2.trace = s.trace ++ [e] ∧ e.sentByte = some tx) ∧
      ((xfer tx s).1 = none ∨
        ∃ b, (xfer tx s).1 = some b ∧ (xfer tx s).2.dev = (s.dev.exchangeAll [tx]).2) := by
  unfold xfer
  split
  · exact ⟨⟨rfl, ⟨1, rfl⟩, ⟨_, rfl, by simp [Event.isTransfer]⟩⟩, rfl, ⟨_, rfl, rfl⟩, .inr ⟨_, rfl, rfl⟩⟩
  · exact ⟨⟨rfl, ⟨0, rfl⟩, ⟨_, rfl, by simp [Event.isTransfer]⟩⟩, rfl, ⟨_, rfl, rfl⟩, .inl rfl⟩
  · exact ⟨⟨rfl, ⟨1, rfl⟩, ⟨_, rfl, by simp [Event.isTransfer]⟩⟩, rfl, ⟨_, rfl, rfl⟩, .inr ⟨_, rfl, rfl⟩⟩

/-- Sending bytes one by one (R97): a prefix goes; all of them if it succeeds; the first event sends the first byte. -/
theorem sendAll_spec (txs : List Byte) (s : State) :
    Moves txs s (sendAll txs s).2 ∧ (sendAll txs s).2.seq = s.seq ∧
      ((sendAll txs s).1 = true → (sendAll txs s).2.dev = (s.dev.exchangeAll txs).2) ∧
      (∀ op rest, txs = op :: rest →
        ∃ e es, (sendAll txs s).2.trace = s.trace ++ e :: es ∧ e.sentByte = some op) := by
  induction txs generalizing s with
  | nil => exact ⟨.refl s, rfl, fun _ => rfl, by simp⟩
  | cons b bs ih =>
    obtain ⟨hm, hseq, ⟨e, he, hsent⟩, hres⟩ := xfer_cases b s
    simp only [sendAll]
    generalize hx : xfer b s = r at *
    obtain ⟨o, s1⟩ := r
    simp only at hm hseq he hres
    rcases hres with rfl | ⟨b', rfl, hd⟩
    · refine ⟨hm.weaken, hseq, by simp, ?_⟩
      intro op rest hop
      cases hop
      exact ⟨e, [], he, hsent⟩
    · obtain ⟨im, iseq, idev, -⟩ := ih s1
      refine ⟨hm.append hd im, iseq.trans hseq, ?_, ?_⟩
      · intro h
        rw [idev h, hd]
        exact (Flash.exchangeAll_append s.dev [b] bs).symm ▸ rfl
      · intro op rest hop
        cases hop
        obtain ⟨es, hes, -⟩ := im.events
        exact ⟨e, es, by rw [hes, he]; simp, hsent⟩

/-- Receiving bytes one by one. -/
theorem recvAll_spec (n : Nat) (s : State) :
    Moves (List.replicate n s.cfg.dummy) s (recvAll n s).2 ∧ (recvAll n s).2.seq = s.seq := by
  induction n generalizing s with
  | zero => exact ⟨.refl s, rfl⟩
  | succ n ih =>
    obtain ⟨hm, hseq, -, hres⟩ := xfer_cases s.cfg.dummy s
    simp only [recvAll, List.replicate_succ]
    generalize hx : xfer s.cfg.dummy s = r at *
    obtain ⟨o, s1⟩ := r
    simp only at hm hseq hres
    rcases hres with rfl | ⟨b, rfl, hd⟩
    · exact ⟨hm.weaken, hseq⟩
    · have hcfg : s1.cfg = s.cfg := hm.cfg
      obtain ⟨im, iseq⟩ := ih s1
      rw [hcfg] at im
      simp only
      generalize hy : recvAll n s1 = q at *
      obtain ⟨o2, s2⟩ := q
      cases o2
      · exact ⟨hm.append hd im, iseq.trans hseq⟩
      · exact ⟨hm.append hd im, iseq.trans hseq⟩

theorem bulkTx_spec (bytes : List Byte) (s : State) :
    Moves bytes s (bulkTx bytes s).2 ∧ (bulkTx bytes s).2.seq = s.seq := by
  unfold bulkTx
  split
  · exact ⟨⟨rfl, ⟨_, rfl⟩, ⟨_, rfl, by simp [Event.isTransfer]⟩⟩, rfl⟩
  · exact ⟨⟨rfl, ⟨bytes.length, by rw [List.take_length]; rfl⟩, ⟨_, rfl, by simp [Event.isTransfer]⟩⟩, rfl⟩
  · exact ⟨⟨rfl, ⟨bytes.length, by rw [List.take_length]; rfl⟩, ⟨_, rfl, by simp [Event.isTransfer]⟩⟩, rfl⟩

theorem bulkRx_spec (n : Nat) (s : State) :
    Moves (List.replicate n s.cfg.dummy) s (bulkRx n s).2 ∧ (bulkRx n s).2.seq = s.seq := by
  have hall : ∀ k, (List.replicate n s.cfg.dummy).take (min k n) = List.replicate (min k n) s.cfg.dummy := by
    intro k
    rw [List.take_replicate]
    congr 1
    omega
  unfold bulkRx
  split
  · rename_i done bytes _
    refine ⟨⟨rfl, ⟨shortDone done n, ?_⟩, ⟨_, rfl, by simp [Event.isTransfer]⟩⟩, rfl⟩
    have hle : min (shortDone done n) n = shortDone done n := by unfold shortDone; omega
    rw [← hle, hall, hle]
    rfl
  · refine ⟨⟨rfl, ⟨n, ?_⟩, ⟨_, rfl, by simp [Event.isTransfer]⟩⟩, rfl⟩
    rw [List.take_replicate, Nat.min_self]
    rfl
  · refine ⟨⟨rfl, ⟨n, ?_⟩, ⟨_, rfl, by simp [Event.isTransfer]⟩⟩, rfl⟩
    rw [List.take_replicate, Nat.min_self]
    rfl

/-- What a frame does inside its session: it moves a prefix of its bytes, and its first event sends its opcode (R90). -/
structure FrameMoves (op : Byte) (rest : List Byte) (s t : State) : Prop where
  moves : Moves (op :: rest) s t
  opens : ∃ e es, t.trace = s.trace ++ e :: es ∧ e.sentByte = some op

theorem FrameMoves.then {op : Byte} {as bs : List Byte} {s t u : State} (h : FrameMoves op as s t)
    (hk : t.dev = (s.dev.exchangeAll (op :: as)).2) (k : Moves bs t u) : FrameMoves op (as ++ bs) s u where
  moves := h.moves.append hk k
  opens := by
    obtain ⟨e, es, he, hs⟩ := h.opens
    obtain ⟨fs, hf, -⟩ := k.events
    exact ⟨e, es ++ fs, by rw [hf, he]; simp, hs⟩

theorem FrameMoves.cut {op : Byte} {as bs : List Byte} {s t : State} (h : FrameMoves op as s t) :
    FrameMoves op (as ++ bs) s t where
  moves := h.moves.weaken
  opens := h.opens

theorem sendFrame_spec (op : Byte) (rest : List Byte) (s : State) :
    FrameMoves op rest s (sendFrame (op :: rest) s).2 ∧ (sendFrame (op :: rest) s).2.seq = s.seq :=
  ⟨⟨(sendAll_spec (op :: rest) s).1, (sendAll_spec (op :: rest) s).2.2.2 op rest rfl⟩,
    (sendAll_spec (op :: rest) s).2.1⟩

theorem recvFrame_spec (op : Byte) (rest : List Byte) (n : Nat) (s : State) :
    FrameMoves op (rest ++ List.replicate n s.cfg.dummy) s (recvFrame (op :: rest) n s).2 ∧
      (recvFrame (op :: rest) n s).2.seq = s.seq := by
  obtain ⟨hm, hseq, hd, ho⟩ := sendAll_spec (op :: rest) s
  have hf : FrameMoves op rest s (sendAll (op :: rest) s).2 := ⟨hm, ho op rest rfl⟩
  unfold recvFrame
  generalize hx : sendAll (op :: rest) s = r at *
  obtain ⟨ok, s1⟩ := r
  cases ok
  · exact ⟨hf.cut, hseq⟩
  · have hcfg : s1.cfg = s.cfg := hm.cfg
    obtain ⟨im, iseq⟩ := recvAll_spec n s1
    rw [hcfg] at im
    exact ⟨hf.then (hd rfl) im, iseq.trans hseq⟩

theorem readFrame_spec (op : Byte) (rest dummies : List Byte) (n : Nat) (s : State) :
    FrameMoves op (rest ++ (dummies ++ List.replicate n s.cfg.dummy)) s (readFrame (op :: rest) dummies n s).2 := by
  obtain ⟨hm, -, hd, ho⟩ := sendAll_spec (op :: rest) s
  have hf : FrameMoves op rest s (sendAll (op :: rest) s).2 := ⟨hm, ho op rest rfl⟩
  unfold readFrame
  generalize hx : sendAll (op :: rest) s = r at *
  obtain ⟨ok, s1⟩ := r
  cases ok
  · exact hf.cut
  · simp only
    have hcfg : s1.cfg = s.cfg := hm.cfg
    generalize hs1 : (if dummies = [] then s1 else setSeq .dummy s1) = s1'
    have hdev : s1'.dev = s1.dev := by rw [← hs1]; split <;> rfl
    have hcfg' : s1'.cfg = s.cfg := by rw [← hs1, ← hcfg]; split <;> rfl
    have hback : ∀ {as : List Byte} {t : State}, Moves as s1' t → Moves as s1 t := by
      intro as t h
      rw [← hs1] at h
      split at h
      · exact h
      · exact h.setSeq_left
    obtain ⟨jm, -, jd, -⟩ := sendAll_spec dummies s1'
    generalize hy : sendAll dummies s1' = q at *
    obtain ⟨ok2, s2⟩ := q
    cases ok2
    · exact hf.then (hd rfl) (hback jm).weaken
    · have hcfg2 : s2.cfg = s.cfg := Eq.trans jm.cfg hcfg'
      obtain ⟨km, -⟩ := bulkRx_spec n (setSeq .data s2)
      have hk : (setSeq .data s2).cfg.dummy = s.cfg.dummy := by rw [setSeq_cfg, hcfg2]
      rw [hk] at km
      refine hf.then (hd rfl) ((hback jm).append ?_ km.setSeq_left)
      rw [jd rfl, hdev]

theorem programFrame_spec (op : Byte) (rest data : List Byte) (s : State) :
    FrameMoves op (rest ++ data) s (programFrame (op :: rest) data s).2 := by
  obtain ⟨hm, -, hd, ho⟩ := sendAll_spec (op :: rest) s
  have hf : FrameMoves op rest s (sendAll (op :: rest) s).2 := ⟨hm, ho op rest rfl⟩
  unfold programFrame
  generalize hx : sendAll (op :: rest) s = r at *
  obtain ⟨ok, s1⟩ := r
  cases ok
  · exact hf.cut
  · exact hf.then (hd rfl) (bulkTx_spec data (setSeq .data s1)).1.setSeq_left

/-- The state inside a session: one more acquisition, the line driven low if it is the outermost (R160). -/
def opened (s : State) : State :=
  if s.depth = 0 then csDrive false { s with depth := s.depth + 1 } else { s with depth := s.depth + 1 }

/-- The state after a session's release, the line driven high if it was the outermost (R161). -/
def closed (s : State) : State :=
  if s.depth = 1 then csDrive true { s with depth := s.depth - 1 } else { s with depth := s.depth - 1 }

theorem select_eq (s : State) :
    select s = if s.cfg.depthMax ≤ s.depth then .halt (raiseFault .selectOverflow s) else .done () (opened s) := by
  unfold select opened
  split
  · rfl
  · simp

theorem deselect_eq (s : State) :
    deselect s = if s.depth = 0 then .halt (raiseFault .selectUnderflow s) else .done () (closed s) := by
  unfold deselect closed
  split
  · rfl
  · simp only
    congr 1
    by_cases h : s.depth = 1
    · rw [if_pos (by omega), if_pos h]
    · rw [if_neg (by omega), if_neg h]

@[simp] theorem opened_cfg (s : State) : (opened s).cfg = s.cfg := by unfold opened; split <;> rfl
@[simp] theorem opened_depth (s : State) : (opened s).depth = s.depth + 1 := by unfold opened; split <;> rfl
@[simp] theorem opened_seq (s : State) : (opened s).seq = s.seq := by unfold opened; split <;> rfl
@[simp] theorem opened_blockcount (s : State) : (opened s).blockcount = s.blockcount := by unfold opened; split <;> rfl
@[simp] theorem closed_seq (s : State) : (closed s).seq = s.seq := by unfold closed; split <;> rfl

/-- One chip-select session (R90, R165): the fault `SelectOverflow` and nothing else, or the frame between one acquisition and one
release. -/
theorem session_eq {α : Type} {frame : State → α × State} {s : State}
    (h : (frame (opened s)).2.depth = s.depth + 1) :
    session frame s =
      if s.cfg.depthMax ≤ s.depth then .halt (raiseFault .selectOverflow s)
      else .done (frame (opened s)).1 (closed (frame (opened s)).2) := by
  unfold session
  rw [select_eq]
  split
  · rfl
  · rw [Run.bind_done, deselect_eq, if_neg (by omega), Run.bind_done]

theorem eventOpens_of_sent {e : Event} {op : Byte} (h : e.sentByte = some op) (hop : opcodes.contains op = true) (b : Bool) :
    eventOpens b e = true := by
  cases e with
  | xfer tx rx =>
    have ht : tx = op := Option.some.inj h
    show (!b || opcodes.contains tx) = true
    rw [ht, hop, Bool.or_true]
  | xferFail tx =>
    have ht : tx = op := Option.some.inj h
    show (!b || opcodes.contains tx) = true
    rw [ht, hop, Bool.or_true]
  | cs0 => rfl
  | cs1 => rfl
  | tick t => rfl
  | bulkTx bs n => cases h
  | bulkRx n d bs => cases h

theorem fresh_of_sent {e : Event} {op : Byte} (h : e.sentByte = some op) (b : Bool) : freshEvent b e = false := by
  cases e <;> first | rfl | cases h

/-- A fault entry keeps `FAULT` and `FAULTCAUSE` in step. -/
theorem raiseFault_ok {c : FaultCause} (hc : c ≠ .none) (s : State) : FaultOk (raiseFault c s) := by
  show (true = false ↔ c = .none)
  constructor
  · intro h; cases h
  · intro h; exact absurd h hc

/-- A session keeps everything outside the footprint, if its frame moves the bytes of one command and that command, or any
prefix of it, stores only inside the footprint. -/
theorem session_keeps {α : Type} {frame : State → α × State} {s : State} {op : Byte} {rest : List Byte} {F : Footprint}
    (hframe : ∀ s1, s1.cfg = s.cfg → FrameMoves op rest s1 (frame s1).2) (hop : opcodes.contains op = true)
    (hmem : ∀ d : Flash, d.refBlocks = s.dev.refBlocks → MemWf d.mem → (∃ k, d.session = (op :: rest).take k) →
      ∀ x, ¬F.mem x → memRead d.effect.mem x = memRead d.mem x) :
    Keeps F s (session frame s).final := by
  have hf := hframe (opened s) (opened_cfg s)
  have hdepth : (frame (opened s)).2.depth = s.depth + 1 := by rw [hf.moves.depth, opened_depth]
  rw [session_eq hdepth]
  split
  · rename_i hmax
    exact { Keeps.refl F s with faults := .inr ⟨rfl, rfl, hmax⟩ }
  · have hfok : (frame (opened s)).2.fault = s.fault ∧ (frame (opened s)).2.faultcause = s.faultcause := by
      rw [hf.moves.same]
      unfold opened
      split <;> exact ⟨rfl, rfl⟩
    obtain ⟨hsame, ⟨k, hdev⟩, -⟩ := hf.moves
    obtain ⟨e, es, htr, hsent⟩ := hf.opens
    obtain ⟨fs, hfs, htransfers⟩ := hf.moves.events
    have hes : fs = e :: es := List.append_cancel_left (hfs.symm.trans htr)
    subst hes
    generalize (frame (opened s)).2 = u at *
    have hright : ∀ b, opensRight b (e :: es) = true := by
      intro b
      simp only [opensRight, eventOpens_of_sent hsent hop, fresh_of_sent hsent, Bool.true_and]
      exact opens_transfers (fun x hx => htransfers x (by simp [hx]))
    have hfresh : ∀ b, freshAfter b (e :: es) = false := fun b => fresh_transfers htransfers (by simp) b
    by_cases h0 : s.depth = 0
    · have hop' : opened s = csDrive false { s with depth := s.depth + 1 } := by unfold opened; rw [if_pos h0]
      have hcl : closed u = csDrive true { u with depth := u.depth - 1 } := by
        unfold closed; rw [if_pos (by omega)]
      rw [Run.final_done, hcl]
      rw [hop'] at hsame hdev htr
      have hsel : u.dev.selected = true := by rw [hdev]; simp
      have hses : u.dev.session = (op :: rest).take k := by
        rw [hdev, Flash.exchangeAll_session _ _ (by simp)]
        simp
      exact {
        cfg := by rw [csDrive_cfg, hsame]; rfl
        depth := by rw [csDrive_depth]; simp only; rw [hdepth]; omega
        op := by rw [csDrive_op, hsame]; rfl
        a := by rw [csDrive_a, hsame]; rfl
        b := by rw [csDrive_b, hsame]; rfl
        len := by rw [csDrive_len, hsame]; rfl
        tmo := by rw [csDrive_tmo, hsame]; rfl
        wdata := by rw [csDrive_wdata, hsame]; rfl
        refDevice := by rw [csDrive_refDevice, hsame]; rfl
        hostQ := by rw [csDrive_hostQ, hsame]; rfl
        frameOk := by rw [csDrive_frameOk, hsame]; rfl
        frameRx := by rw [csDrive_frameRx, hsame]; rfl
        ident := fun _ => by rw [hsame]; exact ⟨rfl, rfl, rfl, rfl⟩
        st := fun n _ => by rw [hsame]; cases n <;> rfl
        cur := fun _ => by rw [hsame]; rfl
        rdata := fun _ => by rw [hsame]; rfl
        start := fun _ => by rw [hsame]; rfl
        loop := fun _ => by rw [hsame]; exact ⟨rfl, rfl, rfl, rfl⟩
        inStep := fun hs => by
          have hcs : s.cs = true := by
            by_contra hc
            have := hs.1.mp (by simpa using hc)
            omega
          refine ⟨⟨?_, ?_⟩, ?_⟩
          · simp only [csDrive_cs, csDrive_depth]
            simp [hdepth, h0]
          · simp
          · simp [hcs]
        refBlocks := by
          simp only [csDrive_dev, if_true, Flash.csHigh_refBlocks]
          rw [hdev]; simp
        memWf := fun hm => by
          simp only [csDrive_dev, if_true]
          exact Flash.csHigh_memWf (by rw [hdev]; simpa using hm)
        mem := fun _ hm x hx => by
          simp only [csDrive_dev, if_true]
          rw [Flash.csHigh_mem, if_pos hsel, hmem u.dev (by rw [hdev]; simp) (by rw [hdev]; simpa using hm) ⟨k, hses⟩ x hx,
            hdev]
          simp
        faults := .inl hfok
        events := ⟨[.cs0] ++ (e :: es) ++ [.cs1], by simp [htr], by
          intro b
          rw [opens_append, opens_append]
          show ((true && opensRight true (e :: es)) && true) = true
          rw [hright true]
          rfl⟩ }
    · have hop' : opened s = { s with depth := s.depth + 1 } := by unfold opened; rw [if_neg h0]
      have hcl : closed u = { u with depth := u.depth - 1 } := by unfold closed; rw [if_neg (by omega)]
      rw [Run.final_done, hcl]
      rw [hop'] at hsame hdev htr
      exact {
        cfg := by rw [hsame]
        depth := by simp only; rw [hdepth]; omega
        op := by rw [hsame]
        a := by rw [hsame]
        b := by rw [hsame]
        len := by rw [hsame]
        tmo := by rw [hsame]
        wdata := by rw [hsame]
        refDevice := by rw [hsame]
        hostQ := by rw [hsame]
        frameOk := by rw [hsame]
        frameRx := by rw [hsame]
        ident := fun _ => by rw [hsame]; exact ⟨rfl, rfl, rfl, rfl⟩
        st := fun n _ => by rw [hsame]; cases n <;> rfl
        cur := fun _ => by rw [hsame]
        rdata := fun _ => by rw [hsame]
        start := fun _ => by rw [hsame]
        loop := fun _ => by rw [hsame]; exact ⟨rfl, rfl, rfl, rfl⟩
        inStep := fun hs => by
          have hcs : s.cs = false := hs.1.mpr (by omega)
          have hcu : u.cs = s.cs := by rw [hsame]
          refine ⟨⟨?_, ?_⟩, hcu⟩
          · simp only [hcu]
            simp [hdepth, hcs]
            omega
          · simp only [hcu]
            rw [hdev]
            simpa using hs.2
        refBlocks := by simp only; rw [hdev]; simp
        memWf := fun hm => by simp only; rw [hdev]; simpa using hm
        mem := fun _ _ x _ => by simp only; rw [hdev]; simp
        faults := .inl hfok
        events := ⟨e :: es, by simp [htr], hright⟩ }

end Sys2Proof.Machine
end

