-- ==== Sys2Proof/Laws/Procedures.lean ====
section
/-!
SUPPORT. What each procedure of the operations keeps, in the footprint it needs, and how it may end: the micro-operations, the two busy
waits, the program and erase sequencers, the read frame, and the bodies of the operations built from them.
-/

namespace Sys2Proof.Machine

/-! The plain updates. -/

theorem setSeq_keeps (F : Footprint) (q : Seq) (s : State) : Keeps F s (setSeq q s) := { Keeps.refl F s with }
theorem noteErr_keeps (F : Footprint) (k : ErrKind) (s : State) : Keeps F s (noteErr k s) := { Keeps.refl F s with }
theorem complete_keeps (F : Footprint) (r : Word) (s : State) : Keeps F s (complete r s) := { Keeps.refl F s with }
theorem raiseErr_keeps (F : Footprint) (k : ErrKind) (s : State) : Keeps F s (raiseErr k s) := { Keeps.refl F s with }
theorem freeResult_keeps (F : Footprint) (s : State) : Keeps F s (freeResult s) := { Keeps.refl F s with }

theorem setCur_keeps {F : Footprint} (h : F.cur) (a : Nat) (s : State) : Keeps F s (setCur a s) :=
  { Keeps.refl F s with cur := fun n => absurd h n }

theorem setRdata_keeps {F : Footprint} (h : F.rdata) (bs : List Byte) (s : State) : Keeps F s { s with rdata := bs } :=
  { Keeps.refl F s with rdata := fun n => absurd h n }

theorem freeRdata_keeps {F : Footprint} (h : F.rdata) (s : State) : Keeps F s (freeRdata s) :=
  { Keeps.refl F s with rdata := fun n => absurd h n }

theorem setStatus_keeps {F : Footprint} {n : StatusReg} (h : F.st n) (v : Byte) (s : State) : Keeps F s (setStatus n v s) := by
  cases n <;>
    exact { Keeps.refl F s with
      st := fun m hm => by
        cases m <;> first | rfl | exact absurd h hm }

theorem tick_right (t : Word) : RightEvents [Event.tick t] := fun b => by cases b <;> rfl

theorem now_keeps (F : Footprint) (s : State) : Keeps F s (now s).2 := by
  unfold now
  split
  · exact { Keeps.refl F s with events := ⟨_, rfl, tick_right _⟩ }
  · exact { Keeps.refl F s with events := ⟨_, rfl, tick_right _⟩ }

theorem startClock_keeps {F : Footprint} (h : F.start) (s : State) : Keeps F s (startClock s) :=
  (now_keeps F s).trans { Keeps.refl F (now s).2 with start := fun n => absurd h n }

@[simp] theorem now_seq (s : State) : (now s).2.seq = s.seq := by unfold now; split <;> rfl

/-! Sessions end: done, or stopped by a fault. -/

/-- A session whose frame keeps the depth never waits, and where it stops it has raised a fault. -/
theorem session_ends {α : Type} (frame : State → α × State) (s : State) : (session frame s).EndsWell := by
  unfold session
  rw [select_eq]
  split
  · exact rfl
  · rw [Run.bind_done, deselect_eq]
    split
    · exact rfl
    · exact trivial

/-- Every way the frame of a command that stores nothing can go. -/
theorem not_storing {op : Byte} (h : storing op = false) {rest : List Byte} (d : Flash)
    (hs : ∃ k, d.session = (op :: rest).take k) (x : Nat) : memRead d.effect.mem x = memRead d.mem x := by
  rw [Flash.effect_mem_of_not_storing]
  intro b hb
  obtain ⟨k, hk⟩ := hs
  rw [hk] at hb
  cases k with
  | zero => simp at hb
  | succ k =>
    simp only [List.take_succ_cons, List.head?_cons, Option.mem_some_iff] at hb
    rw [← hb, h]

theorem sendSession_keeps (F : Footprint) {op : Byte} {rest : List Byte} (hop : opcodes.contains op = true)
    (hst : storing op = false) (s : State) : Keeps F s (session (sendFrame (op :: rest)) s).final :=
  session_keeps (fun s1 _ => (sendFrame_spec op rest s1).1) hop (fun d _ _ hs x _ => not_storing hst d hs x)

theorem uWREN_keeps (F : Footprint) (s : State) : Keeps F s (uWREN s).final :=
  sendSession_keeps F (by decide) (by decide) s

theorem uWRDI_keeps (F : Footprint) (s : State) : Keeps F s (uWRDI s).final :=
  sendSession_keeps F (by decide) (by decide) s

theorem uWREN_ends (s : State) : (uWREN s).EndsWell := session_ends _ s
theorem uWRDI_ends (s : State) : (uWRDI s).EndsWell := session_ends _ s

theorem recvSession_keeps (F : Footprint) {op : Byte} (n : Nat) (hop : opcodes.contains op = true)
    (hst : storing op = false) (s : State) : Keeps F s (session (recvFrame [op] n) s).final :=
  session_keeps (rest := [] ++ List.replicate n s.cfg.dummy)
    (fun s1 h => by rw [← h]; exact (recvFrame_spec op [] n s1).1) hop
    (fun d _ _ hs x _ => not_storing hst d hs x)

theorem readSession_keeps (F : Footprint) {op : Byte} (rest dummies : List Byte) (n : Nat)
    (hop : opcodes.contains op = true) (hst : storing op = false) (s : State) :
    Keeps F s (session (readFrame (op :: rest) dummies n) s).final :=
  session_keeps (rest := rest ++ (dummies ++ List.replicate n s.cfg.dummy))
    (fun s1 h => by rw [← h]; exact readFrame_spec op rest dummies n s1) hop
    (fun d _ _ hs x _ => not_storing hst d hs x)

theorem cacheStatus_keeps {F : Footprint} {n : StatusReg} (h : F.st n) (r : Option (List Byte)) (s : State) :
    Keeps F s (cacheStatus n r s) := by
  unfold cacheStatus
  split
  · exact setStatus_keeps h _ s
  · exact .refl F s
  · exact .refl F s

theorem uRDSR_keeps {F : Footprint} {n : StatusReg} (h : F.st n) (s : State) : Keeps F s (uRDSR n s).final :=
  (recvSession_keeps F 1 (by cases n <;> decide) (by cases n <;> decide) s).bind
    fun r t _ => cacheStatus_keeps h r t

theorem uRDSR_ends (n : StatusReg) (s : State) : (uRDSR n s).EndsWell :=
  (session_ends _ s).bind fun _ _ _ => trivial

theorem uRDID_keeps (F : Footprint) (s : State) : Keeps F s (uRDID s).final :=
  recvSession_keeps F 3 (by decide) (by decide) s

theorem uRDID_ends (s : State) : (uRDID s).EndsWell := session_ends _ s

/-! Sessions keep the phase where their frame does. -/

theorem sendSession_seq (op : Byte) (rest : List Byte) (s : State) :
    (session (sendFrame (op :: rest)) s).final.seq = s.seq := by
  have hf := sendFrame_spec op rest (opened s)
  rw [session_eq (by rw [hf.1.moves.depth, opened_depth])]
  split
  · rfl
  · rw [Run.final_done, closed_seq, hf.2, opened_seq]

theorem recvSession_seq (op : Byte) (n : Nat) (s : State) : (session (recvFrame [op] n) s).final.seq = s.seq := by
  have hf := recvFrame_spec op [] n (opened s)
  rw [session_eq (by rw [hf.1.moves.depth, opened_depth])]
  split
  · rfl
  · rw [Run.final_done, closed_seq, hf.2, opened_seq]

theorem uRDSR_seq {n : StatusReg} {s t : State} {r : Option Byte} (h : uRDSR n s = .done r t) : t.seq = s.seq := by
  have hr := recvSession_seq (rdsrOpc n) 1 s
  unfold uRDSR at h
  cases hs : session (recvFrame [rdsrOpc n] 1) s with
  | done a u =>
    rw [hs, Run.final_done] at hr
    rw [hs, Run.bind_done] at h
    injection h with _ h2
    rw [← h2]
    refine Eq.trans ?_ hr
    unfold cacheStatus
    split
    · cases n <;> rfl
    · rfl
    · rfl
  | wait u => rw [hs] at h; cases h
  | halt u => rw [hs] at h; cases h

/-! The busy waits. -/

theorem waitForever_keeps {F : Footprint} (h : F.st .sr1) (s : State) : Keeps F s (waitForever s).final :=
  ((setSeq_keeps F .wait s).trans (uRDSR_keeps h _)).bind fun r t _ => by
    split
    · exact .refl F t
    · exact .refl F t

theorem waitForever_ends (s : State) : (waitForever s).EndsWell :=
  (uRDSR_ends .sr1 _).bind fun r t ht => by
    split
    · exact trivial
    · exact .inl ((uRDSR_seq ht).trans rfl)

theorem waitThenDisable_keeps {F : Footprint} (h : F.st .sr1) (s : State) : Keeps F s (waitThenDisable s).final :=
  (waitForever_keeps h s).bind fun _ t _ =>
    ((setSeq_keeps F .wrdi t).trans (uWRDI_keeps F _)).bind fun _ u _ => .refl F u

theorem waitThenDisable_ends (s : State) : (waitThenDisable s).EndsWell :=
  (waitForever_ends s).bind fun _ _ _ => (uWRDI_ends _).bind fun _ _ _ => trivial

theorem pollUntil_keeps {F : Footprint} (h : F.st .sr1) (s : State) : Keeps F s (pollUntil s).final :=
  ((setSeq_keeps F .wait s).trans (uRDSR_keeps h _)).bind fun r t _ => by
    split
    · exact complete_keeps F _ t
    · split
      · exact (now_keeps F t).trans (raiseErr_keeps F _ _)
      · exact now_keeps F t

theorem pollUntil_settles (s : State) : (pollUntil s).Settles :=
  Run.Settles.bind (uRDSR_ends .sr1 _) fun r t ht => by
    split
    · exact rfl
    · split
      · exact rfl
      · exact .inl ((now_seq t).trans ((uRDSR_seq ht).trans rfl))

/-! The status operations. -/

theorem runReadstatus_keeps {F : Footprint} (h : ∀ n, F.st n) (a : Word) (s : State) :
    Keeps F s (runReadstatus a s).final := by
  unfold runReadstatus
  split
  · exact raiseErr_keeps F _ s
  · exact ((setSeq_keeps F .status s).trans (uRDSR_keeps (h _) _)).bind fun r t _ => by
      split
      · exact complete_keeps F _ t
      · exact raiseErr_keeps F _ t

theorem runReadstatus_settles (a : Word) (s : State) : (runReadstatus a s).Settles := by
  unfold runReadstatus
  split
  · exact rfl
  · exact Run.Settles.bind (uRDSR_ends _ _) fun r t _ => by
      split
      · exact rfl
      · exact rfl

theorem finishWritestatus_keeps {F : Footprint} (h : F.st .sr1) (s : State) : Keeps F s (finishWritestatus s).final :=
  (waitThenDisable_keeps h s).bind fun _ t _ => complete_keeps F _ t

theorem finishWritestatus_settles (s : State) : (finishWritestatus s).Settles :=
  Run.Settles.bind (waitThenDisable_ends s) fun _ _ _ => rfl

theorem runWritestatus_keeps {F : Footprint} (h : F.st .sr1) (a b : Word) (s : State) :
    Keeps F s (runWritestatus a b s).final := by
  unfold runWritestatus
  split
  · exact raiseErr_keeps F _ s
  · rename_i n _
    exact ((setSeq_keeps F .wren s).trans (uWREN_keeps F _)).bind fun ok t _ => by
      split
      · exact ((setSeq_keeps F .status t).trans
          (sendSession_keeps F (by cases n <;> decide) (by cases n <;> decide) _)).bind
          fun _ u _ => finishWritestatus_keeps h u
      · exact raiseErr_keeps F _ t

theorem runWritestatus_settles (a b : Word) (s : State) : (runWritestatus a b s).Settles := by
  unfold runWritestatus
  split
  · exact rfl
  · exact Run.Settles.bind (uWREN_ends _) fun ok t _ => by
      split
      · exact Run.Settles.bind (session_ends _ _) fun _ u _ => finishWritestatus_settles u
      · exact rfl

/-! Identification. -/

theorem clearIdentity_keeps {F : Footprint} (h : F.ident) (s : State) : Keeps F s (clearIdentity s) :=
  { Keeps.refl F s with ident := fun n => absurd h n }

theorem setIdentity_keeps {F : Footprint} (h : F.ident) (bc : BitVec 16) (i0 i2 : Byte) (s : State) :
    Keeps F s (setIdentity bc i0 i2 s) :=
  { Keeps.refl F s with ident := fun n => absurd h n }

theorem readAllStatus_keeps {F : Footprint} (h : ∀ n, F.st n) (s : State) : Keeps F s (readAllStatus s).final :=
  ((setSeq_keeps F .status s).trans (uRDSR_keeps (h _) _)).bind fun _ t _ =>
    (uRDSR_keeps (h _) t).bind fun _ u _ => (uRDSR_keeps (h _) u).bind fun _ v _ => .refl F v

theorem readAllStatus_ends (s : State) : (readAllStatus s).EndsWell :=
  (uRDSR_ends _ _).bind fun _ _ _ => (uRDSR_ends _ _).bind fun _ _ _ => (uRDSR_ends _ _).bind fun _ _ _ => trivial

theorem identify_keeps {F : Footprint} (hi : F.ident) (h : ∀ n, F.st n) (id : List Byte) (s : State) :
    Keeps F s (identify id s).final := by
  unfold identify
  split
  · split
    · split
      · exact ((setIdentity_keeps hi _ _ _ s).trans (readAllStatus_keeps h _)).bind fun _ t _ => complete_keeps F _ t
      · exact raiseErr_keeps F _ s
    · exact raiseErr_keeps F _ s
  · exact raiseErr_keeps F _ s

theorem identify_settles (id : List Byte) (s : State) : (identify id s).Settles := by
  unfold identify
  split
  · split
    · split
      · exact Run.Settles.bind (readAllStatus_ends _) fun _ _ _ => rfl
      · exact rfl
    · exact rfl
  · exact rfl

theorem runInit_keeps {F : Footprint} (hi : F.ident) (h : ∀ n, F.st n) (s : State) : Keeps F s (runInit s).final :=
  (((clearIdentity_keeps hi s).trans (setSeq_keeps F .wrdi _)).trans (uWRDI_keeps F _)).bind fun ok t _ => by
    split
    · exact ((setSeq_keeps F .ident t).trans (uRDID_keeps F _)).bind fun r u _ => by
        split
        · exact identify_keeps hi h _ u
        · exact raiseErr_keeps F _ u
    · exact raiseErr_keeps F _ t

theorem runInit_settles (s : State) : (runInit s).Settles :=
  Run.Settles.bind (uWRDI_ends _) fun ok t _ => by
    split
    · exact Run.Settles.bind (uRDID_ends _) fun r u _ => by
        split
        · exact identify_settles _ u
        · exact rfl
    · exact rfl

/-! Erasing and programming: the addressed frames. -/

/-- The opcode a logical operation sends is one of R94. -/
theorem opc_mem (lop : LogOp) (four : Bool) : opcodes.contains (opc lop four) = true := by
  cases lop <;> cases four <;> decide

/-- How many address bytes a mode sends (R96). -/
theorem addrBytes_length (four : Bool) (addr : Word) : (addrBytes four addr).length = if four then 4 else 3 := by
  cases four <;> rfl

theorem natOfBytes_four (a : Word) : natOfBytes (addrBytes true a) = a.toNat := by
  have h : natOfBytes (addrBytes true a) =
      ((a.toNat >>> 24 % 256 * 256 + a.toNat >>> 16 % 256) * 256 + a.toNat >>> 8 % 256) * 256 + a.toNat % 256 := by
    simp [natOfBytes, addrBytes, bytesOfAddr4]
  have := a.isLt
  rw [h]
  simp only [Nat.shiftRight_eq_div_pow]
  omega

theorem natOfBytes_three (a : Word) : natOfBytes (addrBytes false a) = a.toNat % 16777216 := by
  have h2 : ((a.extractLsb' 0 24).extractLsb' 16 8).toNat = a.toNat / 65536 % 256 := by
    simp only [BitVec.extractLsb'_toNat, Nat.shiftRight_eq_div_pow]
    omega
  have h1 : ((a.extractLsb' 0 24).extractLsb' 8 8).toNat = a.toNat / 256 % 256 := by
    simp only [BitVec.extractLsb'_toNat, Nat.shiftRight_eq_div_pow]
    omega
  have h0 : ((a.extractLsb' 0 24).extractLsb' 0 8).toNat = a.toNat % 256 := by
    simp only [BitVec.extractLsb'_toNat, Nat.shiftRight_eq_div_pow]
    omega
  show ((0 * 256 + ((a.extractLsb' 0 24).extractLsb' 16 8).toNat) * 256 + ((a.extractLsb' 0 24).extractLsb' 8 8).toNat) * 256 +
    ((a.extractLsb' 0 24).extractLsb' 0 8).toNat = _
  rw [h2, h1, h0]
  omega

/-- The device's address of a frame, modulo any unit it is a whole number of: that of the linear address (R96). -/
theorem deviceAddr_mod (s : State) (addr : Nat) (k : Nat) (hk : k ∣ 65536) : deviceAddr s addr % k = addr % k := by
  have hsize : k ∣ s.dev.size := Dvd.dvd.mul_left hk _
  unfold deviceAddr
  rw [Nat.mod_mod_of_dvd _ hsize]
  cases a4 s.cfg s.blockcount
  · rw [natOfBytes_three, Nat.mod_mod_of_dvd _ (hk.trans (by decide)), BitVec.toNat_ofNat,
      Nat.mod_mod_of_dvd _ (hk.trans (by decide))]
  · rw [natOfBytes_four, BitVec.toNat_ofNat, Nat.mod_mod_of_dvd _ (hk.trans (by decide))]

/-- Where a prefix of a page-program frame stores: only the bytes of its data, from the device's address on (R84, R102). -/
theorem program_outside {four : Bool} {addr : Word} {data : List Byte} {d : Flash} (hwf : MemWf d.mem)
    (hs : ∃ k, d.session = (opc .program four :: (addrBytes four addr ++ data)).take k)
    (hfit : natOfBytes (addrBytes four addr) % d.size % 256 + data.length ≤ 256) {x : Nat}
    (hx : x < natOfBytes (addrBytes four addr) % d.size ∨ natOfBytes (addrBytes four addr) % d.size + data.length ≤ x) :
    memRead d.effect.mem x = memRead d.mem x := by
  obtain ⟨k, hk⟩ := hs
  refine d.effect_cases (fun e => memRead e.mem x = memRead d.mem x) rfl (fun _ => rfl) ?_ ?_ ?_ (fun _ _ => by simp)
  · intro op rest w hd hop
    cases k with
    | zero => rw [hk] at hd; cases hd
    | succ k =>
      rw [hk, List.take_succ_cons] at hd
      injection hd with h1 h2
      have hw : w = (addrBytes four addr).length := by
        rw [addrBytes_length]
        cases four
        · rcases hop with ⟨_, h⟩ | ⟨h, _⟩
          · exact h
          · rw [← h1] at h; exact absurd h (by decide)
        · rcases hop with ⟨h, _⟩ | ⟨_, h⟩
          · rw [← h1] at h; exact absurd h (by decide)
          · exact h
      by_cases hlt : w < rest.length
      · have hlen : rest.length = min k ((addrBytes four addr).length + data.length) := by
          rw [← h2, List.length_take, List.length_append]
        have htake : rest.take w = addrBytes four addr := by
          rw [← h2, List.take_take, Nat.min_eq_left (by omega), hw, List.take_left']
          rfl
        have hdrop : (rest.drop w).length ≤ data.length := by
          rw [List.length_drop]; omega
        have hin : d.addrIn w rest = natOfBytes (addrBytes four addr) % d.size := by
          unfold Flash.addrIn; rw [htake]
        exact Flash.program_mem_outside hwf w rest x (by rw [hin]; omega) (by rw [hin]; omega)
      · unfold Flash.program
        rw [if_neg (fun h => hlt h.2)]
  · intro op rest w n hd hop
    cases k with
    | zero => rw [hk] at hd; cases hd
    | succ k =>
      rw [hk, List.take_succ_cons] at hd
      injection hd with h1 _
      rw [← h1] at hop
      cases four <;> exact absurd hop (by simp [opc])
  · intro rest hd
    cases k with
    | zero => rw [hk] at hd; cases hd
    | succ k =>
      rw [hk, List.take_succ_cons] at hd
      injection hd with h1 _
      cases four <;> exact absurd h1 (by decide)

/-- Where a prefix of an erase frame stores: only the unit that holds the device's address (R85, R103, R104). -/
theorem erase_outside {lop : LogOp} {n : Nat} (hl : lop = .eraseSec ∧ n = 4096 ∨ lop = .eraseBlk ∧ n = 65536) {four : Bool}
    {addr : Word} {d : Flash}
    (hs : ∃ k, d.session = (opc lop four :: (addrBytes four addr)).take k) {x : Nat}
    (hx : x < natOfBytes (addrBytes four addr) % d.size - natOfBytes (addrBytes four addr) % d.size % n ∨
      natOfBytes (addrBytes four addr) % d.size - natOfBytes (addrBytes four addr) % d.size % n + n ≤ x) :
    memRead d.effect.mem x = memRead d.mem x := by
  obtain ⟨k, hk⟩ := hs
  refine d.effect_cases (fun e => memRead e.mem x = memRead d.mem x) rfl (fun _ => rfl) ?_ ?_ ?_ (fun _ _ => by simp)
  · intro op rest w hd hop
    cases k with
    | zero => rw [hk] at hd; cases hd
    | succ k =>
      rw [hk, List.take_succ_cons] at hd
      injection hd with h1 _
      rw [← h1] at hop
      rcases hl with ⟨rfl, _⟩ | ⟨rfl, _⟩ <;> cases four <;> exact absurd hop (by simp [opc])
  · intro op rest w m hd hop
    cases k with
    | zero => rw [hk] at hd; cases hd
    | succ k =>
      rw [hk, List.take_succ_cons] at hd
      injection hd with h1 h2
      rw [← h1] at hop
      have hw : w = (addrBytes four addr).length ∧ m = n := by
        rw [addrBytes_length]
        rcases hl with ⟨rfl, rfl⟩ | ⟨rfl, rfl⟩ <;> cases four <;> simp [opc] at hop ⊢ <;> omega
      obtain ⟨hw, rfl⟩ := hw
      by_cases hle : w ≤ rest.length
      · have hlen : rest.length = min k (addrBytes four addr).length := by rw [← h2, List.length_take]
        have htake : rest.take w = addrBytes four addr := by
          rw [← h2, List.take_take, Nat.min_eq_left (by omega), hw, List.take_length]
        have hin : d.addrIn w rest = natOfBytes (addrBytes four addr) % d.size := by
          unfold Flash.addrIn; rw [htake]
        exact Flash.erase_mem_outside w m rest x (by rw [hin]; exact hx)
      · unfold Flash.erase
        rw [if_neg (fun h => hle h.2)]
  · intro rest hd
    cases k with
    | zero => rw [hk] at hd; cases hd
    | succ k =>
      rw [hk, List.take_succ_cons] at hd
      injection hd with h1 _
      rcases hl with ⟨rfl, _⟩ | ⟨rfl, _⟩ <;> cases four <;> exact absurd h1 (by decide)

/-- The sub-write of R190 past its checks. -/
theorem programTail_keeps {F : Footprint} (h : F.st .sr1) (n len : Nat) (s : State) :
    Keeps F s (programTail n len s).final :=
  (waitThenDisable_keeps h s).bind fun _ t _ => .refl F t

theorem programTail_ends (n len : Nat) (s : State) : (programTail n len s).EndsWell :=
  (waitThenDisable_ends s).bind fun _ _ _ => trivial

theorem programPage_keeps {F : Footprint} {linear n len : Nat} {data : List Byte} {s : State} (h : F.st .sr1) (hc : F.cur)
    (hm : ∀ x, deviceAddr s linear ≤ x → x < deviceAddr s linear + n → F.mem x) (hfit : linear % 256 + n ≤ 256)
    (hi : ¬F.ident) : Keeps F s (programPage linear n len data s).final := by
  have hw := (setSeq_keeps F .wren s).trans (uWREN_keeps F (setSeq .wren s))
  refine Keeps.bind hw fun ok t ht => ?_
  have hst : Keeps F s t := by rw [ht] at hw; exact hw
  split
  · have hcfg := hst.cfg
    have hbc := (hst.ident hi).1
    have hblocks := hst.refBlocks
    have hlen : (data.take n).length ≤ n := by rw [List.length_take]; exact Nat.min_le_left _ _
    refine Keeps.bind (((setSeq_keeps F .cmd t).trans (setCur_keeps hc linear _)).trans
      (session_keeps (op := opc .program (a4 s.cfg s.blockcount))
        (rest := addrBytes (a4 s.cfg s.blockcount) (BitVec.ofNat 32 linear) ++ data.take n)
        (fun s1 _ => by
          have := programFrame_spec (opc .program (a4 s.cfg s.blockcount))
            (addrBytes (a4 s.cfg s.blockcount) (BitVec.ofNat 32 linear)) (data.take n) s1
          unfold cmdAddr
          rw [hcfg, hbc]
          exact this) (opc_mem _ _) ?_)) fun ok u _ => ?_
    · intro d hd hwf hs x hx
      have hda : natOfBytes (addrBytes (a4 s.cfg s.blockcount) (BitVec.ofNat 32 linear)) % d.size = deviceAddr s linear := by
        have hsize : d.size = s.dev.size := by
          unfold Flash.size
          rw [hd]
          show t.dev.refBlocks * 65536 = _
          rw [hblocks]
        unfold deviceAddr
        rw [hsize]
      refine program_outside hwf hs ?_ ?_
      · rw [hda, deviceAddr_mod s linear 256 (by decide)]
        omega
      · rw [hda]
        by_contra hcon
        exact hx (hm x (by omega) (by omega))
    · split
      · exact programTail_keeps h n len u
      · exact .refl F u
  · exact .refl F t

theorem programPage_ends (linear n len : Nat) (data : List Byte) (s : State) :
    (programPage linear n len data s).EndsWell :=
  (uWREN_ends _).bind fun ok t _ => by
    split
    · exact (session_ends _ _).bind fun ok u _ => by
        split
        · exact programTail_ends n len u
        · exact trivial
    · exact trivial

end Sys2Proof.Machine
end

