-- ==== Sys2Proof/Laws/Operations.lean ====
section
/-!
SUPPORT. The bodies of the operations: what each keeps, and that each settles at a step boundary; then what every operation
that is not SELECT or DESELECT does to the invariants (Safety), said once as `OpOk`.
-/

namespace Sys2Proof.Machine

/-! Erasing. -/

theorem finishErase_keeps (F : Footprint) (ok : Bool) (s : State) : Keeps F s (finishErase ok s) := { Keeps.refl F s with }

theorem eraseTail_keeps {F : Footprint} (h : F.st .sr1) (s : State) : Keeps F s (eraseTail s).final :=
  (waitThenDisable_keeps h s).bind fun _ t _ => finishErase_keeps F true t

theorem eraseTail_settles (s : State) : (eraseTail s).Settles :=
  Run.Settles.bind (waitThenDisable_ends s) fun _ _ _ => rfl

/-- The linear address an address in the device is, seen from another state with the same mode and size. -/
theorem deviceAddr_congr {s t : State} (hc : t.cfg = s.cfg) (hb : t.blockcount = s.blockcount)
    (hr : t.dev.refBlocks = s.dev.refBlocks) (addr : Nat) : deviceAddr t addr = deviceAddr s addr := by
  unfold deviceAddr Flash.size
  rw [hc, hb, hr]

theorem doErase_keeps {F : Footprint} {cmd : EraseCmd} {s : State} (h : F.st .sr1) (hc : cmd ≠ .chip → F.cur)
    (hm : ∀ x, eraseCells s cmd x → F.mem x) (hi : ¬F.ident) : Keeps F s (doErase cmd s).final := by
  have hw := (setSeq_keeps F .wren s).trans (uWREN_keeps F (setSeq .wren s))
  refine Keeps.bind hw fun ok t ht => ?_
  have hst : Keeps F s t := by rw [ht] at hw; exact hw
  split
  · have hcfg := hst.cfg
    have hbc := (hst.ident hi).1
    have hblocks := hst.refBlocks
    have hsize : ∀ d : Flash, d.refBlocks = t.dev.refBlocks → d.size = s.dev.size := by
      intro d hd
      unfold Flash.size
      rw [hd, hblocks]
    have hda : ∀ (d : Flash) (addr : Nat), d.refBlocks = t.dev.refBlocks →
        natOfBytes (addrBytes (a4 s.cfg s.blockcount) (BitVec.ofNat 32 addr)) % d.size = deviceAddr s addr := by
      intro d addr hd
      unfold deviceAddr
      rw [hsize d hd]
    refine Keeps.bind (F := F) (s := t) ?_ fun _ u _ => eraseTail_keeps h u
    cases cmd with
    | sector addr =>
      refine ((setSeq_keeps F .cmd t).trans (setCur_keeps (hc (by simp)) addr _)).trans
        (session_keeps (op := opc .eraseSec (a4 s.cfg s.blockcount))
          (rest := addrBytes (a4 s.cfg s.blockcount) (BitVec.ofNat 32 addr)) (fun s1 _ => ?_) (opc_mem _ _) ?_)
      · have := (sendFrame_spec (opc .eraseSec (a4 s.cfg s.blockcount))
          (addrBytes (a4 s.cfg s.blockcount) (BitVec.ofNat 32 addr)) s1).1
        unfold eraseBytes cmdAddr
        rw [hcfg, hbc]
        exact this
      · intro d hd _ hs x hx
        refine erase_outside (.inl ⟨rfl, rfl⟩) hs ?_
        rw [hda d addr hd]
        by_contra hcon
        exact hx (hm x ⟨by omega, by omega⟩)
    | block addr =>
      refine ((setSeq_keeps F .cmd t).trans (setCur_keeps (hc (by simp)) addr _)).trans
        (session_keeps (op := opc .eraseBlk (a4 s.cfg s.blockcount))
          (rest := addrBytes (a4 s.cfg s.blockcount) (BitVec.ofNat 32 addr)) (fun s1 _ => ?_) (opc_mem _ _) ?_)
      · have := (sendFrame_spec (opc .eraseBlk (a4 s.cfg s.blockcount))
          (addrBytes (a4 s.cfg s.blockcount) (BitVec.ofNat 32 addr)) s1).1
        unfold eraseBytes cmdAddr
        rw [hcfg, hbc]
        exact this
      · intro d hd _ hs x hx
        refine erase_outside (.inr ⟨rfl, rfl⟩) hs ?_
        rw [hda d addr hd]
        by_contra hcon
        exact hx (hm x ⟨by omega, by omega⟩)
    | chip =>
      exact (setSeq_keeps F .cmd t).trans
        (session_keeps (op := 0xC7#8) (rest := []) (fun s1 _ => (sendFrame_spec 0xC7#8 [] s1).1) (by decide)
          (fun _ _ _ _ x hx => absurd (hm x trivial) hx))
  · exact finishErase_keeps F false t

theorem doErase_settles (cmd : EraseCmd) (s : State) : (doErase cmd s).Settles :=
  Run.Settles.bind (uWREN_ends _) fun ok t _ => by
    split
    · exact Run.Settles.bind (session_ends _ _) fun _ u _ => eraseTail_settles u
    · exact rfl

theorem eraseUnit_keeps {F : Footprint} {g : Gran} {mk : Nat → EraseCmd} {idx : Nat} {s : State} (h : F.st .sr1) (hc : F.cur)
    (hm : ∀ x, eraseCells s (mk (idx * unitSize g)) x → F.mem x) (hi : ¬F.ident) :
    Keeps F s (eraseUnit g mk idx s).final := by
  unfold eraseUnit
  split
  · exact (setSeq_keeps F .check s).trans (raiseErr_keeps F _ _)
  · exact (setSeq_keeps F .check s).trans (doErase_keeps h (fun _ => hc) hm hi)

theorem eraseUnit_settles (g : Gran) (mk : Nat → EraseCmd) (idx : Nat) (s : State) : (eraseUnit g mk idx s).Settles := by
  unfold eraseUnit
  split
  · exact rfl
  · exact doErase_settles _ _

/-! Writing. -/

/-- What the checks of a sub-write give: its bytes lie in one page (R53, R55). -/
theorem xlate_page {bc : BitVec 16} {page off len linear n : Nat} (h : xlate bc .page page off len = some (linear, n)) :
    linear = page * 256 + off ∧ n = min len (256 - off) ∧ off < 256 ∧ page < pageMaxOf bc := by
  unfold xlate at h
  split at h
  · cases h
  · rename_i hc
    simp only [unitMax, unitSize, not_or, Nat.not_le] at hc
    simp only [unitSize, Option.some.injEq, Prod.mk.injEq] at h
    exact ⟨h.1.symm, h.2.symm, hc.2, hc.1⟩

theorem doWritePage_keeps {F : Footprint} {page off len : Nat} {data : List Byte} {s : State} (h : F.st .sr1) (hc : F.cur)
    (hm : ∀ x, pageCells s page off len x → F.mem x) (hi : ¬F.ident) :
    Keeps F s (doWritePage page off data len s).final := by
  unfold doWritePage
  split
  · exact setSeq_keeps F .check s
  · rename_i linear n hx
    obtain ⟨rfl, rfl, ho, -⟩ := xlate_page hx
    split
    · exact setSeq_keeps F .check s
    · refine (setSeq_keeps F .check s).trans (programPage_keeps h hc ?_ (by omega) hi)
      intro x h1 h2
      exact hm x ⟨h1, h2⟩

theorem doWritePage_ends (page off : Nat) (data : List Byte) (len : Nat) (s : State) :
    (doWritePage page off data len s).EndsWell := by
  unfold doWritePage
  split
  · exact trivial
  · split
    · exact trivial
    · exact programPage_ends _ _ _ _ _

theorem resumeWritePage_keeps {F : Footprint} (h : F.st .sr1) (page off len : Nat) (s : State) :
    Keeps F s (resumeWritePage page off len s).final := by
  unfold resumeWritePage
  split
  · exact .refl F s
  · exact programTail_keeps h _ _ s

theorem resumeWritePage_ends (page off len : Nat) (s : State) : (resumeWritePage page off len s).EndsWell := by
  unfold resumeWritePage
  split
  · exact trivial
  · exact programTail_ends _ _ s

theorem finishWritepage_keeps (F : Footprint) (w : SubWrite) (s : State) : Keeps F s (finishWritepage w s).final :=
  (noteErr_keeps F _ s).trans (complete_keeps F _ _)

theorem finishWritepage_settles (w : SubWrite) (s : State) : (finishWritepage w s).Settles := rfl

theorem finishWrite_keeps (F : Footprint) (k : ErrKind) (s : State) : Keeps F s (finishWrite k s) :=
  (noteErr_keeps F _ s).trans (complete_keeps F _ _)

theorem advance_keeps {F : Footprint} (h : F.loop) (n : Nat) (s : State) : Keeps F s (advance n s) :=
  { Keeps.refl F s with loop := fun k => absurd h k }

theorem enterLoop_keeps {F : Footprint} (h : F.loop) (a r : Nat) (s : State) : Keeps F s (enterLoop a r s) :=
  { Keeps.refl F s with loop := fun k => absurd h k }

theorem nextPage_keeps (F : Footprint) (s : State) : Keeps F s (nextPage s).final := by
  unfold nextPage
  split
  · exact finishWrite_keeps F _ s
  · exact setSeq_keeps F .check s

theorem nextPage_settles (s : State) : (nextPage s).Settles := by
  unfold nextPage
  split
  · exact rfl
  · exact .inr rfl

theorem afterWrite_keeps {F : Footprint} (h : F.loop) (w : SubWrite) (s : State) : Keeps F s (afterWrite w s).final := by
  unfold afterWrite
  split
  · exact finishWrite_keeps F _ s
  · exact (advance_keeps h _ s).trans (nextPage_keeps F _)

theorem afterWrite_settles (w : SubWrite) (s : State) : (afterWrite w s).Settles := by
  unfold afterWrite
  split
  · exact rfl
  · exact nextPage_settles _

theorem retryWrite_keeps (F : Footprint) (k : ErrKind) (s : State) : Keeps F s (retryWrite k s).final := by
  unfold retryWrite
  split
  · exact (now_keeps F s).trans (finishWrite_keeps F _ _)
  · exact (now_keeps F s).trans (setSeq_keeps F .check _)

theorem retryWrite_settles (k : ErrKind) (s : State) : (retryWrite k s).Settles := by
  unfold retryWrite
  split
  · exact rfl
  · exact .inr rfl

theorem afterWriteuntil_keeps {F : Footprint} (h : F.loop) (w : SubWrite) (s : State) :
    Keeps F s (afterWriteuntil w s).final := by
  unfold afterWriteuntil
  split
  · exact (setSeq_keeps F .retry s).trans (retryWrite_keeps F _ _)
  · exact (advance_keeps h _ s).trans (nextPage_keeps F _)

theorem afterWriteuntil_settles (w : SubWrite) (s : State) : (afterWriteuntil w s).Settles := by
  unfold afterWriteuntil
  split
  · exact retryWrite_settles _ _
  · exact nextPage_settles _

theorem writeLoop_keeps {F : Footprint} {s : State} (h : F.st .sr1) (hc : F.cur) (hl : F.loop) (hi : ¬F.ident)
    (hm : ∀ x, pageCells s s.page.toNat s.off.toNat s.rem.toNat x → F.mem x) : Keeps F s (writeLoop s).final := by
  unfold writeLoop
  split
  · exact finishWrite_keeps F _ s
  · exact (doWritePage_keeps h hc hm hi).bind fun w t _ => afterWrite_keeps hl w t

theorem writeLoop_settles (s : State) : (writeLoop s).Settles := by
  unfold writeLoop
  split
  · exact rfl
  · exact Run.Settles.bind (doWritePage_ends _ _ _ _ s) fun w t _ => afterWrite_settles w t

theorem writeuntilLoop_keeps {F : Footprint} {s : State} (h : F.st .sr1) (hc : F.cur) (hl : F.loop) (hi : ¬F.ident)
    (hm : ∀ x, pageCells s s.page.toNat s.off.toNat s.rem.toNat x → F.mem x) : Keeps F s (writeuntilLoop s).final := by
  unfold writeuntilLoop
  split
  · exact finishWrite_keeps F _ s
  · exact (doWritePage_keeps h hc hm hi).bind fun w t _ => afterWriteuntil_keeps hl w t

theorem writeuntilLoop_settles (s : State) : (writeuntilLoop s).Settles := by
  unfold writeuntilLoop
  split
  · exact rfl
  · exact Run.Settles.bind (doWritePage_ends _ _ _ _ s) fun w t _ => afterWriteuntil_settles w t

/-! Reading. -/

theorem doRead_keeps {F : Footprint} (hc : F.cur) (addr n : Nat) (s : State) : Keeps F s (doRead addr n s).final := by
  unfold doRead
  split
  · exact ((setSeq_keeps F .cmd s).trans (setCur_keeps hc addr _)).trans
      (readSession_keeps F _ _ n (opc_mem _ _) (by cases a4 s.cfg s.blockcount <;> decide) _)
  · exact ((setSeq_keeps F .cmd s).trans (setCur_keeps hc addr _)).trans
      (readSession_keeps F _ _ n (opc_mem _ _) (by cases a4 s.cfg s.blockcount <;> decide) _)

theorem doRead_ends (addr n : Nat) (s : State) : (doRead addr n s).EndsWell := by
  unfold doRead
  split
  · exact session_ends _ _
  · exact session_ends _ _

theorem failRead_keeps {F : Footprint} (h : F.rdata) (k : ErrKind) (s : State) : Keeps F s (failRead k s) :=
  (freeRdata_keeps h s).trans (raiseErr_keeps F k _)

theorem haltRead_keeps {F : Footprint} (h : F.rdata) (s : State) : Keeps F s (haltRead s) :=
  (freeRdata_keeps h s).trans (freeResult_keeps F _)

theorem finishRead_keeps {F : Footprint} (h : F.rdata) (n len : Nat) (r : Option (List Byte)) (s : State) :
    Keeps F s (finishRead n len r s) := by
  unfold finishRead
  split
  · exact ((setRdata_keeps h _ s).trans (noteErr_keeps F _ _)).trans (complete_keeps F _ _)
  · exact failRead_keeps h _ s

theorem readRange_keeps {F : Footprint} (hr : F.rdata) (hc : F.cur) (addr n len : Nat) (s : State) :
    Keeps F s (readRange addr n len s).final := by
  unfold readRange
  split
  · exact (freeRdata_keeps hr s).trans (complete_keeps F _ _)
  · exact (doRead_keeps hc addr n s).bind fun r t _ => finishRead_keeps hr n len r t

theorem readRange_settles (addr n len : Nat) (s : State) : (readRange addr n len s).Settles := by
  unfold readRange
  split
  · exact rfl
  · exact Run.Settles.bind (doRead_ends addr n s) fun r t _ => by cases r <;> exact rfl

theorem runRead_keeps {F : Footprint} (hr : F.rdata) (hc : F.cur) (a len : Word) (s : State) :
    Keeps F s (runRead a len s).final := by
  unfold runRead
  split
  · exact (setSeq_keeps F .check s).trans (failRead_keeps hr _ _)
  · exact (setSeq_keeps F .check s).trans (readRange_keeps hr hc _ _ _ _)

theorem runRead_settles (a len : Word) (s : State) : (runRead a len s).Settles := by
  unfold runRead
  split
  · exact rfl
  · exact readRange_settles _ _ _ _

theorem readUnit_keeps {F : Footprint} (hr : F.rdata) (hc : F.cur) (g : Gran) (a b len : Word) (s : State) :
    Keeps F s (readUnit g a b len s).final := by
  unfold readUnit
  split
  · exact (setSeq_keeps F .check s).trans (failRead_keeps hr _ _)
  · exact (setSeq_keeps F .check s).trans (readRange_keeps hr hc _ _ _ _)

theorem readUnit_settles (g : Gran) (a b len : Word) (s : State) : (readUnit g a b len s).Settles := by
  unfold readUnit
  split
  · exact rfl
  · exact readRange_settles _ _ _ _

theorem runReaduid_keeps {F : Footprint} (hr : F.rdata) (s : State) : Keeps F s (runReaduid s).final :=
  ((setSeq_keeps F .cmd s).trans (readSession_keeps F [] _ _ (by decide) (by decide) _)).bind fun r t _ => by
    split
    · exact (setRdata_keeps hr _ t).trans (complete_keeps F _ _)
    · exact failRead_keeps hr _ t

theorem runReaduid_settles (s : State) : (runReaduid s).Settles :=
  Run.Settles.bind (session_ends _ _) fun r t _ => by cases r <;> exact rfl

/-! Whole write operations. -/

theorem clampLinear_spec {bc : BitVec 16} {a len n : Nat} (h : clampLinear bc a len = some n) :
    a < capacityOf bc ∧ n = min len (capacityOf bc - a) := by
  unfold clampLinear at h
  split at h
  · cases h
  · simp only [Option.some.injEq] at h
    exact ⟨by omega, h.symm⟩

/-- The cells the first sub-write of a linear write may store to (R192). -/
theorem enterLoop_cells {a : Word} {n : Nat} {s : State} (hn : n < 4294967296) (x : Nat) :
    pageCells (enterLoop a.toNat n s) (enterLoop a.toNat n s).page.toNat (enterLoop a.toNat n s).off.toNat
        (enterLoop a.toNat n s).rem.toNat x ↔ pageCells s (a.toNat / 256) (a.toNat % 256) n x := by
  have h1 : (enterLoop a.toNat n s).page.toNat = a.toNat / 256 := by
    have := a.isLt
    show (BitVec.ofNat 32 (a.toNat / 256)).toNat = _
    rw [BitVec.toNat_ofNat]
    omega
  have h2 : (enterLoop a.toNat n s).off.toNat = a.toNat % 256 := by
    show (BitVec.ofNat 32 (a.toNat % 256)).toNat = _
    rw [BitVec.toNat_ofNat]
    omega
  have h3 : (enterLoop a.toNat n s).rem.toNat = n := by
    show (BitVec.ofNat 32 n).toNat = _
    rw [BitVec.toNat_ofNat]
    omega
  rw [h1, h2, h3]
  exact Iff.rfl

theorem runWrite_keeps {F : Footprint} {a len : Word} {s : State} (h : F.st .sr1) (hc : F.cur) (hl : F.loop) (hi : ¬F.ident)
    (hm : ∀ x, pageCells s (a.toNat / 256) (a.toNat % 256) (min len.toNat (capacityOf s.blockcount - a.toNat)) x → F.mem x) :
    Keeps F s (runWrite a len s).final := by
  unfold runWrite
  split
  · exact (setSeq_keeps F .check s).trans (raiseErr_keeps F _ _)
  · rename_i n hn
    obtain ⟨-, rfl⟩ := clampLinear_spec hn
    have := len.isLt
    exact ((setSeq_keeps F .check s).trans (enterLoop_keeps hl _ _ _)).trans
      (writeLoop_keeps h hc hl hi fun x hx => hm x ((enterLoop_cells (by omega) x).mp hx))

theorem runWrite_settles (a len : Word) (s : State) : (runWrite a len s).Settles := by
  unfold runWrite
  split
  · exact rfl
  · exact writeLoop_settles _

/-! The clock's start leaves the page loop's locals. -/

theorem startClock_page (s : State) : (startClock s).page = s.page := by unfold startClock now; split <;> rfl
theorem startClock_off (s : State) : (startClock s).off = s.off := by unfold startClock now; split <;> rfl
theorem startClock_rem (s : State) : (startClock s).rem = s.rem := by unfold startClock now; split <;> rfl

theorem runWriteuntil_keeps {F : Footprint} {a len : Word} {s : State} (h : F.st .sr1) (hc : F.cur) (hl : F.loop)
    (ht : F.start) (hi : ¬F.ident)
    (hm : ∀ x, pageCells s (a.toNat / 256) (a.toNat % 256) (min len.toNat (capacityOf s.blockcount - a.toNat)) x → F.mem x) :
    Keeps F s (runWriteuntil a len s).final := by
  unfold runWriteuntil
  split
  · exact (setSeq_keeps F .check s).trans (raiseErr_keeps F _ _)
  · rename_i n hn
    obtain ⟨-, rfl⟩ := clampLinear_spec hn
    have := len.isLt
    refine (((setSeq_keeps F .check s).trans (enterLoop_keeps hl _ _ _)).trans (startClock_keeps ht _)).trans
      (writeuntilLoop_keeps h hc hl hi fun x hx => hm x ?_)
    refine (enterLoop_cells (by omega) x).mp ?_
    have hk := startClock_keeps (F := F) ht
      (enterLoop a.toNat (min len.toNat (capacityOf s.blockcount - a.toNat)) (setSeq .check s))
    rw [startClock_page, startClock_off, startClock_rem] at hx
    unfold pageCells at hx ⊢
    rw [deviceAddr_congr hk.cfg (hk.ident hi).1 hk.refBlocks] at hx
    exact hx

theorem runWriteuntil_settles (a len : Word) (s : State) : (runWriteuntil a len s).Settles := by
  unfold runWriteuntil
  split
  · exact rfl
  · exact writeuntilLoop_settles _

end Sys2Proof.Machine
end

