-- ==== Sys2Proof/Laws/Invariants.lean ====
section
/-!
SUPPORT. What one instruction, one later step of an operation, and a fault do to the invariants (Safety), said once: `OpOk` for all
that leave the chip-select depth as it was.
-/

namespace Sys2Proof.Machine

/-- No entry of the capacity table is the sentinel (R9 (b)). -/
abbrev TableOk (s : State) : Prop := ∀ b ∈ s.cfg.capTable, b ≠ 0#16

/-- What every operation but SELECT and DESELECT does. -/
structure OpOk (s t : State) : Prop where
  cfg : t.cfg = s.cfg
  depth : t.depth = s.depth
  hostQ : t.hostQ = s.hostQ
  inStep : InStep s → InStep t ∧ t.cs = s.cs
  identity : TableOk s → IdentityOk s → IdentityOk t
  memWf : MemWf s.dev.mem → MemWf t.dev.mem
  faultOk : FaultOk s → FaultOk t
  boundary : BoundaryOk t
  events : ∃ es, t.trace = s.trace ++ es ∧ RightEvents es

/-- From a body with a footprint that leaves the identity. -/
theorem OpOk.of_keeps {F : Footprint} (hi : ¬F.ident) {s t : State} (h : Keeps F s t) (hb : BoundaryOk t) : OpOk s t where
  cfg := h.cfg
  depth := h.depth
  hostQ := h.hostQ
  inStep := h.inStep
  identity := by
    obtain ⟨h1, h2, h3, h4⟩ := h.ident hi
    intro _ hs
    show (t.blockcount = 0#16 ∨ t.blockcount ∈ t.cfg.capTable) ∧ (t.blockcount = 0#16 → _)
    rw [h1, h2, h3, h4, h.cfg]
    exact hs
  memWf := h.memWf
  faultOk := h.faultOk
  boundary := hb
  events := h.events

/-- A whole operation. -/
theorem OpOk.of_run {F : Footprint} (hi : ¬F.ident) {s : State} {r : Run Unit} {halted : State → State}
    (h : Keeps F s r.final) (hs : r.Settles) (hk : ∀ u, Keeps F u (halted u)) (hf : ∀ u, (halted u).fault = u.fault) :
    OpOk s (r.settle halted) := by
  refine .of_keeps hi ?_ (hs.boundary hf)
  cases r with
  | done a t => exact h
  | wait t => exact h
  | halt t => exact h.trans (hk t)

theorem OpOk.of_run_free {F : Footprint} (hi : ¬F.ident) {s : State} {r : Run Unit} (h : Keeps F s r.final)
    (hs : r.Settles) : OpOk s (r.settle freeResult) :=
  .of_run hi h hs (freeResult_keeps F) fun _ => rfl

theorem OpOk.of_run_read {F : Footprint} (hi : ¬F.ident) (hr : F.rdata) {s : State} {r : Run Unit} (h : Keeps F s r.final)
    (hs : r.Settles) : OpOk s (r.settle haltRead) :=
  .of_run hi h hs (haltRead_keeps hr) fun _ => rfl

/-- Latching the operands, the operation code and `LASTERR` first makes no difference. -/
theorem OpOk.latched {s s1 t : State} (h : OpOk s1 t)
    (e : s1 = { s with op := s1.op, a := s1.a, b := s1.b, len := s1.len, tmo := s1.tmo, wdata := s1.wdata, lasterr := s1.lasterr }) :
    OpOk s t where
  cfg := by have := h.cfg; rw [e] at this; exact this
  depth := by have := h.depth; rw [e] at this; exact this
  hostQ := by have := h.hostQ; rw [e] at this; exact this
  inStep := by have := h.inStep; rw [e] at this; exact this
  identity := by have := h.identity; rw [e] at this; exact this
  memWf := by have := h.memWf; rw [e] at this; exact this
  faultOk := by have := h.faultOk; rw [e] at this; exact this
  boundary := h.boundary
  events := by have := h.events; rw [e] at this; exact this

theorem OpOk.raiseFault {s : State} {c : FaultCause} (hc : c ≠ .none) : OpOk s (raiseFault c s) where
  cfg := rfl
  depth := rfl
  hostQ := rfl
  inStep := fun h => ⟨h, rfl⟩
  identity := fun _ h => h
  memWf := id
  faultOk := fun _ => raiseFault_ok hc s
  boundary := fun h => by cases h
  events := ⟨[], by simp, fun _ => rfl⟩

/-- A state that a fault has stopped, or that is at a step boundary, is reached from itself. -/
theorem OpOk.refl {s : State} (hb : BoundaryOk s) : OpOk s s :=
  .of_keeps (F := .none) (fun h => h) (.refl _ s) hb

/-- What comes before every operation. -/
theorem OpOk.of_guarded {s t : State} {run : State → Result} (h : guarded s run = .next t)
    (hr : s.fault = false → s.seq = .idle → run s = .next t → OpOk s t) : OpOk s t := by
  unfold guarded at h
  split at h
  · rename_i hf
    injection h with h
    subst h
    exact .refl fun k => by rw [hf] at k; cases k
  · rename_i hf
    split at h
    · rename_i hq
      exact hr (by simpa using hf) hq h
    · injection h with h
      subst h
      exact .raiseFault (by decide)

/-- Every instruction has the same beginning (R255, R260). -/
theorem exec_guarded (i : Instr) (s : State) : ∃ run : State → Result, exec i s = guarded s run := by
  cases i <;>
    simp only [exec, execWrsr1, execPp3, execRead3, execWrdi, execRdsr1, execWren, execFr3, execFr4, execWrsr3, execPp4, execRead4,
      execRdsr3, execSe3, execSe4, execWrsr2, execRdsr2, execRduid, execRdid, execCe, execBe3, execBe4, execInit, execCapacity,
      execBlockmax, execSectormax, execPagemax, execSelect, execDeselect, execWaitbusy, execRead, execReadpage, execReadsector,
      execReadblock, execReadstatus, execReaduid, execWritepage, execWrite, execWriteuntil, execWritestatus, execErasesector,
      execEraseblock, execErasechip, execSetfast, frameWrsr, frameRdsr, frameOp, frameAddr, frameRead, frameProgram, query] <;>
    exact ⟨_, rfl⟩

theorem guarded_fault {s : State} (h : s.fault = true) (run : State → Result) : guarded s run = .next s := by
  unfold guarded
  rw [if_pos h]

theorem guarded_run {s : State} (h1 : s.fault = false) (h2 : s.seq = .idle) (run : State → Result) : guarded s run = run s := by
  unfold guarded
  rw [if_neg (by simp [h1]), if_pos h2]

/-- The footprint that allows everything but the identity. -/
def Footprint.most : Footprint := ⟨fun _ => True, fun _ => True, True, True, True, True, False⟩

theorem Footprint.most_ident : ¬Footprint.most.ident := fun h => h

/-- A frame by itself. -/
theorem runFrame_ok {q : Seq} {frame : State → Run (Option (List Byte))} {s : State}
    (h : Keeps .most (setSeq q s) (frame (setSeq q s)).final) (he : (frame (setSeq q s)).EndsWell) :
    OpOk s (runFrame q frame s) := by
  have hs : OpOk (setSeq q s) (runFrame q frame s) := by
    unfold runFrame
    cases hr : frame (setSeq q s) with
    | done a t =>
      rw [hr] at h
      have hk : OpOk (setSeq q s) { t with seq := .idle } :=
        .of_keeps Footprint.most_ident (h.trans (setSeq_keeps .most .idle t)) fun _ => .inl rfl
      exact { hk with boundary := fun _ => .inl rfl }
    | wait t =>
      rw [hr] at h he
      exact .of_keeps Footprint.most_ident h fun _ => .inr he
    | halt t =>
      rw [hr] at h he
      have hf : t.fault = true := he
      exact .of_keeps Footprint.most_ident h fun k => by rw [hf] at k; cases k
  exact { hs with }

theorem sentOnly_keeps {F : Footprint} {s : State} {r : Run Bool} (h : Keeps F s r.final) : Keeps F s (sentOnly r).final :=
  h.bind fun _ t _ => .refl F t

theorem sentOnly_ends {r : Run Bool} (h : r.EndsWell) : (sentOnly r).EndsWell := h.bind fun _ _ _ => trivial

theorem frameOp_ok {q : Seq} {op : Byte} (hop : opcodes.contains op = true) {s t : State} (h : frameOp q op s = .next t) :
    OpOk s t :=
  .of_guarded h fun _ _ h => by
    injection h with h
    rw [← h]
    exact runFrame_ok (sentOnly_keeps (session_keeps (fun s1 _ => (sendFrame_spec op [] s1).1) hop
      fun _ _ _ _ _ hx => absurd trivial hx)) (sentOnly_ends (session_ends _ _))

theorem frameWrsr_ok {n : StatusReg} {v : Byte} {s t : State} (h : frameWrsr n v s = .next t) : OpOk s t :=
  .of_guarded h fun _ _ h => by
    injection h with h
    rw [← h]
    exact runFrame_ok (sentOnly_keeps (session_keeps (fun s1 _ => (sendFrame_spec (wrsrOpc n) [v] s1).1) (by cases n <;> decide)
      fun _ _ _ _ _ hx => absurd trivial hx)) (sentOnly_ends (session_ends _ _))

theorem frameAddr_ok {op : Byte} {addr : List Byte} (hop : opcodes.contains op = true) {s t : State}
    (h : frameAddr op addr s = .next t) : OpOk s t :=
  .of_guarded h fun _ _ h => by
    injection h with h
    rw [← h]
    exact runFrame_ok (sentOnly_keeps (session_keeps (fun s1 _ => (sendFrame_spec op addr s1).1) hop
      fun _ _ _ _ _ hx => absurd trivial hx)) (sentOnly_ends (session_ends _ _))

theorem frameRdsr_ok {n : StatusReg} {s t : State} (h : frameRdsr n s = .next t) : OpOk s t :=
  .of_guarded h fun _ _ h => by
    injection h with h
    rw [← h]
    exact runFrame_ok ((uRDSR_keeps (F := .most) trivial _).bind fun _ u _ => .refl _ u)
      ((uRDSR_ends n _).bind fun _ _ _ => trivial)

theorem frameRead_ok {op : Byte} {addr dummies : List Byte} {n : Nat} (hop : opcodes.contains op = true) {s t : State}
    (h : frameRead op addr dummies n s = .next t) : OpOk s t :=
  .of_guarded h fun _ _ h => by
    split at h
    · cases h
    · injection h with h
      rw [← h]
      exact runFrame_ok (session_keeps (rest := addr ++ (dummies ++ List.replicate n s.cfg.dummy))
        (fun s1 hc => by
          rw [show s.cfg.dummy = s1.cfg.dummy by rw [hc]; rfl]
          exact readFrame_spec op addr dummies n s1) hop fun _ _ _ _ _ hx => absurd trivial hx) (session_ends _ _)

theorem frameProgram_ok {op : Byte} {addr data : List Byte} (hop : opcodes.contains op = true) {s t : State}
    (h : frameProgram op addr data s = .next t) : OpOk s t :=
  .of_guarded h fun _ _ h => by
    split at h
    · cases h
    · injection h with h
      rw [← h]
      exact runFrame_ok (sentOnly_keeps (session_keeps (fun s1 _ => programFrame_spec op addr data s1) hop
        fun _ _ _ _ _ hx => absurd trivial hx)) (sentOnly_ends (session_ends _ _))

/-! INIT. -/

theorem readAllStatus_ident (s : State) :
    (readAllStatus s).final.blockcount = s.blockcount ∧ (readAllStatus s).final.vendor = s.vendor ∧
      (readAllStatus s).final.capcode = s.capcode ∧ (readAllStatus s).final.fast = s.fast :=
  (readAllStatus_keeps (F := .most) (fun _ => trivial) s).ident Footprint.most_ident

/-- INIT leaves the identity wholly cleared or an entry of the table. -/
theorem runInit_identity {s : State} (ht : TableOk s) : IdentityOk (runInit s).final := by
  have hclear : IdentityOk (setSeq .wrdi (clearIdentity s)) := ⟨.inl rfl, fun _ => ⟨rfl, rfl, rfl⟩⟩
  have htab : TableOk (setSeq .wrdi (clearIdentity s)) := ht
  have hok : ∀ {u v : State}, Keeps .most u v → TableOk u → IdentityOk u → IdentityOk v ∧ TableOk v := by
    intro u v hk h1 h2
    obtain ⟨e1, e2, e3, e4⟩ := hk.ident Footprint.most_ident
    refine ⟨?_, ?_⟩
    · show (v.blockcount = 0#16 ∨ v.blockcount ∈ v.cfg.capTable) ∧ (v.blockcount = 0#16 → _)
      rw [e1, e2, e3, e4, hk.cfg]
      exact h2
    · show ∀ b ∈ v.cfg.capTable, _
      rw [hk.cfg]
      exact h1
  unfold runInit
  cases hw : uWRDI (setSeq .wrdi (clearIdentity s)) with
  | halt t =>
    have := hok (uWRDI_keeps .most _) htab hclear
    rw [hw] at this
    exact this.1
  | wait t =>
    have := hok (uWRDI_keeps .most _) htab hclear
    rw [hw] at this
    exact this.1
  | done ok t =>
    have h1 := hok (uWRDI_keeps .most _) htab hclear
    rw [hw, Run.final_done] at h1
    rw [Run.bind_done]
    split
    · cases hd : uRDID (setSeq .ident t) with
      | halt u =>
        have := hok (uRDID_keeps .most (setSeq .ident t)) h1.2 h1.1
        rw [hd] at this
        exact this.1
      | wait u =>
        have := hok (uRDID_keeps .most (setSeq .ident t)) h1.2 h1.1
        rw [hd] at this
        exact this.1
      | done r u =>
        have h2 := hok (uRDID_keeps .most (setSeq .ident t)) h1.2 h1.1
        rw [hd, Run.final_done] at h2
        rw [Run.bind_done]
        split
        · rename_i id
          unfold identify
          split
          · rename_i id0 _ id2
            split
            · split
              · rename_i blocks hl
                have hmem : blocks ∈ u.cfg.capTable := by
                  unfold lookup at hl
                  split at hl
                  · cases hl
                  · exact List.mem_of_getElem? hl
                have h3 : IdentityOk (setIdentity blocks id0 id2 u) :=
                  ⟨.inr hmem, fun h => absurd h (h2.2 blocks hmem)⟩
                have hk : Keeps .most (setIdentity blocks id0 id2 u)
                    ((readAllStatus (setIdentity blocks id0 id2 u)).bind fun _ s1 => .done () (complete 1#32 s1)).final :=
                  (readAllStatus_keeps (fun _ => trivial) _).bind fun _ v _ => complete_keeps .most _ v
                exact (hok hk h2.2 h3).1
              · exact h2.1
            · exact h2.1
          · exact h2.1
        · exact h2.1
    · exact h1.1

/-- The footprint that allows everything. -/
def Footprint.all : Footprint := ⟨fun _ => True, fun _ => True, True, True, True, True, True⟩

theorem runInit_ok (s : State) : OpOk s ((runInit s).settle freeResult) := by
  have h := runInit_keeps (F := .all) trivial (fun _ => trivial) s
  have hb := (runInit_settles s).boundary (halted := freeResult) fun _ => rfl
  have hi : TableOk s → IdentityOk ((runInit s).settle freeResult) := by
    intro ht
    have := runInit_identity ht
    cases hr : runInit s with
    | done a t => rw [hr] at this; exact this
    | wait t => rw [hr] at this; exact this
    | halt t => rw [hr] at this; exact this
  have hk : Keeps .all s ((runInit s).settle freeResult) := by
    cases hr : runInit s with
    | done a t => rw [hr] at h; exact h
    | wait t => rw [hr] at h; exact h
    | halt t => rw [hr] at h; exact h.trans (freeResult_keeps .all t)
  exact ⟨hk.cfg, hk.depth, hk.hostQ, hk.inStep, fun ht _ => hi ht, hk.memWf, hk.faultOk, hb, hk.events⟩

/-! Every instruction but SELECT and DESELECT. -/

theorem execSetfast_ok {a : Word} {s t : State} (h : execSetfast a s = .next t) : OpOk s t :=
  .of_guarded h fun _ _ h => by
    injection h with h
    rw [← h]
    refine OpOk.latched (s1 := { accept 0x50#8 s with a := a }) ?_ rfl
    unfold runSetfast
    split
    · exact .of_keeps Footprint.most_ident (raiseErr_keeps .most _ _) fun _ => .inl rfl
    · rename_i hb
      split
      · exact ⟨rfl, rfl, rfl, fun h => ⟨h, rfl⟩, fun _ h => ⟨h.1, fun k => absurd k hb⟩, id, id, fun _ => .inl rfl,
          ⟨[], by simp [complete], fun _ => rfl⟩⟩
      · exact .of_keeps Footprint.most_ident (raiseErr_keeps .most _ _) fun _ => .inl rfl

theorem query_ok {code : Byte} {f : BitVec 16 → Nat} {s t : State} (h : query code f s = .next t) : OpOk s t :=
  .of_guarded h fun _ _ h => by
    injection h with h
    rw [← h]
    exact OpOk.latched (s1 := accept code s)
      (.of_keeps Footprint.most_ident (complete_keeps .most _ _) fun _ => .inl rfl) rfl

/-- Every instruction but SELECT and DESELECT. -/
theorem exec_ok {i : Instr} {s t : State} (h1 : i ≠ .select) (h2 : i ≠ .deselect) (h : exec i s = .next t) : OpOk s t := by
  have most : ∀ {F : Footprint}, F = Footprint.most → ¬F.ident := fun e => by rw [e]; exact Footprint.most_ident
  cases i with
  | select => exact absurd rfl h1
  | deselect => exact absurd rfl h2
  | wrsr1 v => exact frameWrsr_ok h
  | wrsr2 v => exact frameWrsr_ok h
  | wrsr3 v => exact frameWrsr_ok h
  | pp3 a d => exact frameProgram_ok (by decide) h
  | pp4 a d => exact frameProgram_ok (by decide) h
  | read3 a n => exact frameRead_ok (by decide) h
  | read4 a n => exact frameRead_ok (by decide) h
  | fr3 a n => exact frameRead_ok (by decide) h
  | fr4 a n => exact frameRead_ok (by decide) h
  | rduid => exact frameRead_ok (by decide) h
  | wrdi => exact frameOp_ok (by decide) h
  | wren => exact frameOp_ok (by decide) h
  | ce => exact frameOp_ok (by decide) h
  | rdsr1 => exact frameRdsr_ok h
  | rdsr2 => exact frameRdsr_ok h
  | rdsr3 => exact frameRdsr_ok h
  | se3 a => exact frameAddr_ok (by decide) h
  | se4 a => exact frameAddr_ok (by decide) h
  | be3 a => exact frameAddr_ok (by decide) h
  | be4 a => exact frameAddr_ok (by decide) h
  | rdid =>
    change execRdid s = _ at h
    unfold execRdid at h
    exact .of_guarded h fun _ _ h => by
      injection h with h
      rw [← h]
      exact runFrame_ok (uRDID_keeps .most _) (uRDID_ends _)
  | init =>
    change execInit s = _ at h
    unfold execInit at h
    exact .of_guarded h fun _ _ h => by
      injection h with h
      rw [← h]
      exact (runInit_ok _).latched rfl
  | capacity => exact query_ok h
  | blockmax => exact query_ok h
  | sectormax => exact query_ok h
  | pagemax => exact query_ok h
  | setfast a => exact execSetfast_ok h
  | waitbusy tmo =>
    change execWaitbusy tmo s = _ at h
    unfold execWaitbusy at h
    exact .of_guarded h fun _ _ h => by
      injection h with h
      rw [← h]
      exact OpOk.latched (s1 := { accept 0x18#8 s with tmo := tmo }) (.of_run_free Footprint.most_ident
        ((startClock_keeps (F := .most) trivial _).trans (pollUntil_keeps (F := .most) trivial _)) (pollUntil_settles _)) rfl
  | read a len =>
    change execRead a len s = _ at h
    unfold execRead at h
    exact .of_guarded h fun _ _ h => by
      injection h with h
      rw [← h]
      exact OpOk.latched (s1 := { accept 0x20#8 s with a := a, len := len }) (.of_run_read Footprint.most_ident trivial
        (runRead_keeps trivial trivial _ _ _) (runRead_settles _ _ _)) rfl
  | readpage a b len =>
    change execReadpage a b len s = _ at h
    unfold execReadpage at h
    exact .of_guarded h fun _ _ h => by
      injection h with h
      rw [← h]
      exact OpOk.latched (s1 := { accept 0x21#8 s with a := a, b := b, len := len }) (.of_run_read Footprint.most_ident trivial
        (readUnit_keeps trivial trivial _ _ _ _ _) (readUnit_settles _ _ _ _ _)) rfl
  | readsector a b len =>
    change execReadsector a b len s = _ at h
    unfold execReadsector at h
    exact .of_guarded h fun _ _ h => by
      injection h with h
      rw [← h]
      exact OpOk.latched (s1 := { accept 0x22#8 s with a := a, b := b, len := len }) (.of_run_read Footprint.most_ident trivial
        (readUnit_keeps trivial trivial _ _ _ _ _) (readUnit_settles _ _ _ _ _)) rfl
  | readblock a b len =>
    change execReadblock a b len s = _ at h
    unfold execReadblock at h
    exact .of_guarded h fun _ _ h => by
      injection h with h
      rw [← h]
      exact OpOk.latched (s1 := { accept 0x23#8 s with a := a, b := b, len := len }) (.of_run_read Footprint.most_ident trivial
        (readUnit_keeps trivial trivial _ _ _ _ _) (readUnit_settles _ _ _ _ _)) rfl
  | readuid =>
    change execReaduid s = _ at h
    unfold execReaduid at h
    exact .of_guarded h fun _ _ h => by
      injection h with h
      rw [← h]
      exact OpOk.latched (s1 := accept 0x29#8 s) (.of_run_read Footprint.most_ident trivial
        (runReaduid_keeps trivial _) (runReaduid_settles _)) rfl
  | readstatus a =>
    change execReadstatus a s = _ at h
    unfold execReadstatus at h
    exact .of_guarded h fun _ _ h => by
      injection h with h
      rw [← h]
      exact OpOk.latched (s1 := { accept 0x28#8 s with a := a }) (.of_run_free Footprint.most_ident
        (runReadstatus_keeps (fun _ => trivial) _ _) (runReadstatus_settles _ _)) rfl
  | writestatus a b =>
    change execWritestatus a b s = _ at h
    unfold execWritestatus at h
    exact .of_guarded h fun _ _ h => by
      injection h with h
      rw [← h]
      exact OpOk.latched (s1 := { accept 0x38#8 s with a := a, b := b }) (.of_run_free Footprint.most_ident
        (runWritestatus_keeps trivial _ _ _) (runWritestatus_settles _ _ _)) rfl
  | writepage a b len data =>
    change execWritepage a b len data s = _ at h
    unfold execWritepage at h
    exact .of_guarded h fun _ _ h => by
      split at h
      · injection h with h
        rw [← h]
        exact OpOk.latched (s1 := { accept 0x30#8 s with a := a, b := b, len := len, wdata := data })
          (.of_run_free Footprint.most_ident
            ((doWritePage_keeps (F := .most) trivial trivial (fun _ _ => trivial) Footprint.most_ident).bind
              fun w u _ => finishWritepage_keeps _ w u)
            (.bind (doWritePage_ends _ _ _ _ _) fun w u _ => finishWritepage_settles w u)) rfl
      · cases h
  | write a len data =>
    change execWrite a len data s = _ at h
    unfold execWrite at h
    exact .of_guarded h fun _ _ h => by
      split at h
      · injection h with h
        rw [← h]
        exact OpOk.latched (s1 := { accept 0x31#8 s with a := a, len := len, wdata := data }) (.of_run_free Footprint.most_ident
          (runWrite_keeps trivial trivial trivial Footprint.most_ident fun _ _ => trivial) (runWrite_settles _ _ _)) rfl
      · cases h
  | writeuntil a len tmo data =>
    change execWriteuntil a len tmo data s = _ at h
    unfold execWriteuntil at h
    exact .of_guarded h fun _ _ h => by
      split at h
      · injection h with h
        rw [← h]
        exact OpOk.latched (s1 := { accept 0x32#8 s with a := a, len := len, tmo := tmo, wdata := data })
          (.of_run_free Footprint.most_ident
            (runWriteuntil_keeps trivial trivial trivial trivial Footprint.most_ident fun _ _ => trivial)
            (runWriteuntil_settles _ _ _)) rfl
      · cases h
  | erasesector a =>
    change execErasesector a s = _ at h
    unfold execErasesector at h
    exact .of_guarded h fun _ _ h => by
      injection h with h
      rw [← h]
      exact OpOk.latched (s1 := { accept 0x40#8 s with a := a }) (.of_run_free Footprint.most_ident
        (eraseUnit_keeps trivial trivial (fun _ _ => trivial) Footprint.most_ident) (eraseUnit_settles _ _ _ _)) rfl
  | eraseblock a =>
    change execEraseblock a s = _ at h
    unfold execEraseblock at h
    exact .of_guarded h fun _ _ h => by
      injection h with h
      rw [← h]
      exact OpOk.latched (s1 := { accept 0x41#8 s with a := a }) (.of_run_free Footprint.most_ident
        (eraseUnit_keeps trivial trivial (fun _ _ => trivial) Footprint.most_ident) (eraseUnit_settles _ _ _ _)) rfl
  | erasechip =>
    change execErasechip s = _ at h
    unfold execErasechip at h
    exact .of_guarded h fun _ _ h => by
      injection h with h
      rw [← h]
      exact OpOk.latched (s1 := accept 0x42#8 s) (.of_run_free Footprint.most_ident
        (doErase_keeps trivial (fun _ => trivial) (fun _ _ => trivial) Footprint.most_ident) (doErase_settles _ _)) rfl

/-! The later steps of an operation. -/

theorem resumeWait_ok {s t : State} (h : resumeWait s = .next t) : OpOk s t := by
  unfold resumeWait at h
  generalize decodeRequest (latched s) = d at h
  cases d with
  | error e => cases h
  | ok i =>
    cases i
    case waitbusy =>
      injection h with h
      rw [← h]
      exact .of_run_free Footprint.most_ident (pollUntil_keeps trivial s) (pollUntil_settles s)
    case writestatus =>
      injection h with h
      rw [← h]
      exact .of_run_free Footprint.most_ident (finishWritestatus_keeps trivial s) (finishWritestatus_settles s)
    case writepage =>
      injection h with h
      rw [← h]
      exact .of_run_free Footprint.most_ident
        ((resumeWritePage_keeps (F := .most) trivial _ _ _ s).bind fun w u _ => finishWritepage_keeps _ w u)
        (.bind (resumeWritePage_ends _ _ _ s) fun w u _ => finishWritepage_settles w u)
    case write =>
      injection h with h
      rw [← h]
      exact .of_run_free Footprint.most_ident
        ((resumeWritePage_keeps (F := .most) trivial _ _ _ s).bind fun w u _ => afterWrite_keeps trivial w u)
        (.bind (resumeWritePage_ends _ _ _ s) fun w u _ => afterWrite_settles w u)
    case writeuntil =>
      injection h with h
      rw [← h]
      exact .of_run_free Footprint.most_ident
        ((resumeWritePage_keeps (F := .most) trivial _ _ _ s).bind fun w u _ => afterWriteuntil_keeps trivial w u)
        (.bind (resumeWritePage_ends _ _ _ s) fun w u _ => afterWriteuntil_settles w u)
    case erasesector =>
      injection h with h
      rw [← h]
      exact .of_run_free Footprint.most_ident (eraseTail_keeps trivial s) (eraseTail_settles s)
    case eraseblock =>
      injection h with h
      rw [← h]
      exact .of_run_free Footprint.most_ident (eraseTail_keeps trivial s) (eraseTail_settles s)
    case erasechip =>
      injection h with h
      rw [← h]
      exact .of_run_free Footprint.most_ident (eraseTail_keeps trivial s) (eraseTail_settles s)
    all_goals cases h

theorem resumeCheck_ok {s t : State} (h : resumeCheck s = .next t) : OpOk s t := by
  unfold resumeCheck at h
  generalize decodeRequest (latched s) = d at h
  cases d with
  | error e => cases h
  | ok i =>
    cases i
    case write =>
      injection h with h
      rw [← h]
      exact .of_run_free Footprint.most_ident
        (writeLoop_keeps trivial trivial trivial Footprint.most_ident fun _ _ => trivial) (writeLoop_settles s)
    case writeuntil =>
      injection h with h
      rw [← h]
      exact .of_run_free Footprint.most_ident
        (writeuntilLoop_keeps trivial trivial trivial Footprint.most_ident fun _ _ => trivial) (writeuntilLoop_settles s)
    all_goals cases h

/-- The block going on with nothing presented. -/
theorem proceed_ok {s t : State} (h : proceed s = .next t) : OpOk s t := by
  unfold proceed at h
  split at h
  · rename_i hf
    injection h with h
    subst h
    exact .refl fun k => by rw [hf] at k; cases k
  · split at h
    · rename_i hq
      injection h with h
      subst h
      exact .refl fun _ => .inl hq
    · exact resumeWait_ok h
    · exact resumeCheck_ok h
    all_goals cases h

end Sys2Proof.Machine
end

