-- ==== Sys2Proof/Laws/Exec.lean ====
section
/-!
SUPPORT. What each instruction does outside its footprint, once per instruction, and what a later step of an operation does outside
its own: the footprints are those of Safety's tables `mayWrite` and `storesTo`, `laterWrites` and `laterStores`.
-/

namespace Sys2Proof.Machine

/-- The register that holds a status register's cached value. -/
def statusRegister : StatusReg → Reg
  | .sr1 => .sr1
  | .sr2 => .sr2
  | .sr3 => .sr3

/-- The footprint of an instruction. -/
def footprint (i : Instr) (s : State) : Footprint where
  mem := storesTo i s
  st := fun n => statusRegister n ∈ mayWrite i
  cur := .cur ∈ mayWrite i
  rdata := .rdata ∈ mayWrite i
  start := .start ∈ mayWrite i
  loop := .rem ∈ mayWrite i
  ident := .blockcount ∈ mayWrite i ∨ .fast ∈ mayWrite i

/-- A settled operation is its final state but for the free values of a fault. -/
theorem settle_keeps {F : Footprint} {s : State} {r : Run Unit} {halted : State → State} (h : Keeps F s r.final)
    (hk : ∀ u, Keeps F u (halted u)) : Keeps F s (r.settle halted) := by
  cases r with
  | done a t => exact h
  | wait t => exact h
  | halt t => exact h.trans (hk t)

theorem settle_free {F : Footprint} {s : State} {r : Run Unit} (h : Keeps F s r.final) :
    Keeps F s (r.settle freeResult) := settle_keeps h (freeResult_keeps F)

theorem settle_read {F : Footprint} (hr : F.rdata) {s : State} {r : Run Unit} (h : Keeps F s r.final) :
    Keeps F s (r.settle haltRead) := settle_keeps h (haltRead_keeps hr)

theorem execWaitbusy_keeps {tmo : Word} {s t : State} (hf : s.fault = false) (hq : s.seq = .idle)
    (h : execWaitbusy tmo s = .next t) : Keeps (footprint (.waitbusy tmo) s) { accept 0x18#8 s with tmo := tmo } t := by
  unfold execWaitbusy at h
  rw [guarded_run hf hq] at h
  injection h with h
  rw [← h]
  exact settle_free ((startClock_keeps (by simp [footprint, mayWrite, statusRegister]) _).trans (pollUntil_keeps (by simp [footprint, mayWrite, statusRegister]) _))

theorem execRead_keeps {a len : Word} {s t : State} (hf : s.fault = false) (hq : s.seq = .idle)
    (h : execRead a len s = .next t) : Keeps (footprint (.read a len) s) { accept 0x20#8 s with a := a, len := len } t := by
  unfold execRead at h
  rw [guarded_run hf hq] at h
  injection h with h
  rw [← h]
  exact settle_read (by simp [footprint, mayWrite, statusRegister]) (runRead_keeps (by simp [footprint, mayWrite, statusRegister]) (by simp [footprint, mayWrite, statusRegister]) _ _ _)

theorem execReadpage_keeps {a b len : Word} {s t : State} (hf : s.fault = false) (hq : s.seq = .idle)
    (h : execReadpage a b len s = .next t) :
    Keeps (footprint (.readpage a b len) s) { accept 0x21#8 s with a := a, b := b, len := len } t := by
  unfold execReadpage at h
  rw [guarded_run hf hq] at h
  injection h with h
  rw [← h]
  exact settle_read (by simp [footprint, mayWrite, statusRegister]) (readUnit_keeps (by simp [footprint, mayWrite, statusRegister]) (by simp [footprint, mayWrite, statusRegister]) _ _ _ _ _)

theorem execReadsector_keeps {a b len : Word} {s t : State} (hf : s.fault = false) (hq : s.seq = .idle)
    (h : execReadsector a b len s = .next t) :
    Keeps (footprint (.readsector a b len) s) { accept 0x22#8 s with a := a, b := b, len := len } t := by
  unfold execReadsector at h
  rw [guarded_run hf hq] at h
  injection h with h
  rw [← h]
  exact settle_read (by simp [footprint, mayWrite, statusRegister]) (readUnit_keeps (by simp [footprint, mayWrite, statusRegister]) (by simp [footprint, mayWrite, statusRegister]) _ _ _ _ _)

theorem execReadblock_keeps {a b len : Word} {s t : State} (hf : s.fault = false) (hq : s.seq = .idle)
    (h : execReadblock a b len s = .next t) :
    Keeps (footprint (.readblock a b len) s) { accept 0x23#8 s with a := a, b := b, len := len } t := by
  unfold execReadblock at h
  rw [guarded_run hf hq] at h
  injection h with h
  rw [← h]
  exact settle_read (by simp [footprint, mayWrite, statusRegister]) (readUnit_keeps (by simp [footprint, mayWrite, statusRegister]) (by simp [footprint, mayWrite, statusRegister]) _ _ _ _ _)

theorem execReaduid_keeps {s t : State} (hf : s.fault = false) (hq : s.seq = .idle) (h : execReaduid s = .next t) :
    Keeps (footprint .readuid s) (accept 0x29#8 s) t := by
  unfold execReaduid at h
  rw [guarded_run hf hq] at h
  injection h with h
  rw [← h]
  exact settle_read (by simp [footprint, mayWrite, statusRegister]) (runReaduid_keeps (by simp [footprint, mayWrite, statusRegister]) _)

/-- The register number is the one the operation reads (R175). -/
theorem statusReg_written {a : Word} {n : StatusReg} (h : statusReg a = some n) :
    statusRegister n ∈ mayWrite (.readstatus a) := by
  unfold statusReg at h
  split at h
  · rename_i ha
    injection h with h
    subst h ha
    decide
  · split at h
    · rename_i ha
      injection h with h
      subst h ha
      decide
    · split at h
      · rename_i ha
        injection h with h
        subst h ha
        decide
      · cases h

theorem execReadstatus_keeps {a : Word} {s t : State} (hf : s.fault = false) (hq : s.seq = .idle)
    (h : execReadstatus a s = .next t) : Keeps (footprint (.readstatus a) s) { accept 0x28#8 s with a := a } t := by
  unfold execReadstatus at h
  rw [guarded_run hf hq] at h
  injection h with h
  rw [← h]
  refine settle_free ?_
  unfold runReadstatus
  split
  · exact raiseErr_keeps _ _ _
  · rename_i n hn
    exact ((setSeq_keeps _ .status _).trans (uRDSR_keeps (statusReg_written hn) _)).bind fun r u _ => by
      split
      · exact complete_keeps _ _ u
      · exact raiseErr_keeps _ _ u

theorem execWritestatus_keeps {a b : Word} {s t : State} (hf : s.fault = false) (hq : s.seq = .idle)
    (h : execWritestatus a b s = .next t) :
    Keeps (footprint (.writestatus a b) s) { accept 0x38#8 s with a := a, b := b } t := by
  unfold execWritestatus at h
  rw [guarded_run hf hq] at h
  injection h with h
  rw [← h]
  exact settle_free (runWritestatus_keeps (show Reg.sr1 ∈ mayWrite (.writestatus a b) by simp [mayWrite]) _ _ _)

theorem execWritepage_keeps {a b len : Word} {data : List Byte} {s t : State} (hf : s.fault = false) (hq : s.seq = .idle)
    (h : execWritepage a b len data s = .next t) :
    Keeps (footprint (.writepage a b len data) s) { accept 0x30#8 s with a := a, b := b, len := len, wdata := data } t := by
  unfold execWritepage at h
  rw [guarded_run hf hq] at h
  split at h
  · injection h with h
    rw [← h]
    exact settle_free ((doWritePage_keeps (show Reg.sr1 ∈ mayWrite (.writepage a b len data) by simp [mayWrite])
      (show Reg.cur ∈ mayWrite (.writepage a b len data) by simp [mayWrite]) (fun _ hx => hx)
      (by simp [footprint, mayWrite])).bind fun w u _ => finishWritepage_keeps _ w u)
  · cases h

theorem execWrite_keeps {a len : Word} {data : List Byte} {s t : State} (hf : s.fault = false) (hq : s.seq = .idle)
    (h : execWrite a len data s = .next t) :
    Keeps (footprint (.write a len data) s) { accept 0x31#8 s with a := a, len := len, wdata := data } t := by
  unfold execWrite at h
  rw [guarded_run hf hq] at h
  split at h
  · injection h with h
    rw [← h]
    exact settle_free (runWrite_keeps (show Reg.sr1 ∈ mayWrite (.write a len data) by simp [mayWrite])
      (show Reg.cur ∈ mayWrite (.write a len data) by simp [mayWrite])
      (show Reg.rem ∈ mayWrite (.write a len data) by simp [mayWrite]) (by simp [footprint, mayWrite]) (fun _ hx => hx))
  · cases h

theorem execWriteuntil_keeps {a len tmo : Word} {data : List Byte} {s t : State} (hf : s.fault = false) (hq : s.seq = .idle)
    (h : execWriteuntil a len tmo data s = .next t) :
    Keeps (footprint (.writeuntil a len tmo data) s)
      { accept 0x32#8 s with a := a, len := len, tmo := tmo, wdata := data } t := by
  unfold execWriteuntil at h
  rw [guarded_run hf hq] at h
  split at h
  · injection h with h
    rw [← h]
    exact settle_free (runWriteuntil_keeps (show Reg.sr1 ∈ mayWrite (.writeuntil a len tmo data) by simp [mayWrite])
      (show Reg.cur ∈ mayWrite (.writeuntil a len tmo data) by simp [mayWrite])
      (show Reg.rem ∈ mayWrite (.writeuntil a len tmo data) by simp [mayWrite])
      (show Reg.start ∈ mayWrite (.writeuntil a len tmo data) by simp [mayWrite]) (by simp [footprint, mayWrite])
      (fun _ hx => hx))
  · cases h

theorem execErasesector_keeps {a : Word} {s t : State} (hf : s.fault = false) (hq : s.seq = .idle)
    (h : execErasesector a s = .next t) : Keeps (footprint (.erasesector a) s) { accept 0x40#8 s with a := a } t := by
  unfold execErasesector at h
  rw [guarded_run hf hq] at h
  injection h with h
  rw [← h]
  exact settle_free (eraseUnit_keeps (by simp [footprint, mayWrite, statusRegister]) (by simp [footprint, mayWrite, statusRegister]) (fun _ hx => hx) (by simp [footprint, mayWrite, statusRegister]))

theorem execEraseblock_keeps {a : Word} {s t : State} (hf : s.fault = false) (hq : s.seq = .idle)
    (h : execEraseblock a s = .next t) : Keeps (footprint (.eraseblock a) s) { accept 0x41#8 s with a := a } t := by
  unfold execEraseblock at h
  rw [guarded_run hf hq] at h
  injection h with h
  rw [← h]
  exact settle_free (eraseUnit_keeps (by simp [footprint, mayWrite, statusRegister]) (by simp [footprint, mayWrite, statusRegister]) (fun _ hx => hx) (by simp [footprint, mayWrite, statusRegister]))

theorem execErasechip_keeps {s t : State} (hf : s.fault = false) (hq : s.seq = .idle) (h : execErasechip s = .next t) :
    Keeps (footprint .erasechip s) (accept 0x42#8 s) t := by
  unfold execErasechip at h
  rw [guarded_run hf hq] at h
  injection h with h
  rw [← h]
  exact settle_free (doErase_keeps (by simp [footprint, mayWrite, statusRegister]) (fun k => absurd rfl k) (fun _ hx => hx) (by simp [footprint, mayWrite, statusRegister]))

theorem execInit_keeps {s t : State} (hf : s.fault = false) (hq : s.seq = .idle) (h : execInit s = .next t) :
    Keeps (footprint .init s) (accept 0x01#8 s) t := by
  unfold execInit at h
  rw [guarded_run hf hq] at h
  injection h with h
  rw [← h]
  exact settle_free (runInit_keeps (by simp [footprint, mayWrite, statusRegister]) (fun n => by cases n <;> simp [footprint, mayWrite, statusRegister]) _)

theorem query_keeps {F : Footprint} {code : Byte} {f : BitVec 16 → Nat} {s t : State} (hf : s.fault = false) (hq : s.seq = .idle)
    (h : query code f s = .next t) : Keeps F (accept code s) t := by
  unfold query at h
  rw [guarded_run hf hq] at h
  injection h with h
  rw [← h]
  exact complete_keeps F _ _

theorem execSetfast_keeps {a : Word} {s t : State} (hf : s.fault = false) (hq : s.seq = .idle)
    (h : execSetfast a s = .next t) : Keeps (footprint (.setfast a) s) { accept 0x50#8 s with a := a } t := by
  unfold execSetfast at h
  rw [guarded_run hf hq] at h
  injection h with h
  rw [← h]
  unfold runSetfast
  split
  · exact raiseErr_keeps _ _ _
  · split
    · exact { Keeps.refl _ { accept 0x50#8 s with a := a } with ident := fun n => absurd (by simp [footprint, mayWrite, statusRegister]) n }
    · exact raiseErr_keeps _ _ _

/-! The frames by themselves. -/

/-- What a frame by itself does: the state of its session, idle again, with the model's own two registers. -/
theorem runFrame_keeps {F : Footprint} {q : Seq} {frame : State → Run (Option (List Byte))} {s : State}
    (h : Keeps F (setSeq q s) (frame (setSeq q s)).final) :
    ∃ u ok rx q', Keeps F s u ∧ u = { (frame (setSeq q s)).final with seq := u.seq } ∧
      runFrame q frame s = { u with seq := q', frameOk := ok, frameRx := rx } := by
  have hk := (setSeq_keeps F q s).trans h
  unfold runFrame
  cases hr : frame (setSeq q s) with
  | done a t => rw [hr] at hk; exact ⟨t, _, _, _, hk, rfl, rfl⟩
  | wait t => rw [hr] at hk; exact ⟨t, t.frameOk, t.frameRx, t.seq, hk, rfl, rfl⟩
  | halt t => rw [hr] at hk; exact ⟨t, t.frameOk, t.frameRx, t.seq, hk, rfl, rfl⟩

/-- Sessions write neither `LASTERR` nor `RESULT`. -/
theorem session_result {α : Type} {frame : State → α × State} {s : State} {op : Byte} {rest : List Byte}
    (hframe : FrameMoves op rest (opened s) (frame (opened s)).2) :
    (session frame s).final.lasterr = s.lasterr ∧ (session frame s).final.result = s.result := by
  have h := hframe.moves.same
  have ho : (opened s).lasterr = s.lasterr ∧ (opened s).result = s.result := by unfold opened; split <;> exact ⟨rfl, rfl⟩
  rw [session_eq (by rw [hframe.moves.depth, opened_depth])]
  split
  · exact ⟨rfl, rfl⟩
  · rw [Run.final_done]
    have hc : ∀ u : State, (closed u).lasterr = u.lasterr ∧ (closed u).result = u.result := by
      intro u
      unfold closed
      split <;> exact ⟨rfl, rfl⟩
    rw [(hc _).1, (hc _).2, h]
    exact ho

/-- What a frame instruction does: its session's state `u`, idle again, with the model's own two registers. -/
def FrameDone (F : Footprint) (s t : State) : Prop :=
  ∃ u ok rx q, Keeps F s u ∧ u.lasterr = s.lasterr ∧ u.result = s.result ∧ t = { u with seq := q, frameOk := ok, frameRx := rx }

theorem sentOnly_final (r : Run Bool) : (sentOnly r).final = r.final := by cases r <;> rfl

theorem frameDone_of {F : Footprint} {q : Seq} {frame : State → Run (Option (List Byte))} {s : State}
    (h : Keeps F (setSeq q s) (frame (setSeq q s)).final)
    (hr : (frame (setSeq q s)).final.lasterr = s.lasterr ∧ (frame (setSeq q s)).final.result = s.result) :
    FrameDone F s (runFrame q frame s) := by
  obtain ⟨u, ok, rx, q', hk, hu, ht⟩ := runFrame_keeps h
  refine ⟨u, ok, rx, q', hk, ?_, ?_, ht⟩
  · rw [hu]; exact hr.1
  · rw [hu]; exact hr.2

/-- The frames that only send. -/
theorem sendFrame_done {F : Footprint} {q : Seq} {op : Byte} {rest : List Byte} {s : State} (hop : opcodes.contains op = true)
    (hmem : ∀ d : Flash, d.refBlocks = s.dev.refBlocks → MemWf d.mem → (∃ k, d.session = (op :: rest).take k) →
      ∀ x, ¬F.mem x → memRead d.effect.mem x = memRead d.mem x) :
    FrameDone F s (runFrame q (fun s => sentOnly (session (sendFrame (op :: rest)) s)) s) := by
  refine frameDone_of ?_ ?_
  · simp only [sentOnly_final]
    exact session_keeps (fun s1 _ => (sendFrame_spec op rest s1).1) hop hmem
  · simp only [sentOnly_final]
    exact session_result (sendFrame_spec op rest _).1

theorem programFrame_done {F : Footprint} {q : Seq} {op : Byte} {rest data : List Byte} {s : State} (hop : opcodes.contains op = true)
    (hmem : ∀ d : Flash, d.refBlocks = s.dev.refBlocks → MemWf d.mem →
      (∃ k, d.session = (op :: (rest ++ data)).take k) → ∀ x, ¬F.mem x → memRead d.effect.mem x = memRead d.mem x) :
    FrameDone F s (runFrame q (fun s => sentOnly (session (programFrame (op :: rest) data) s)) s) := by
  refine frameDone_of ?_ ?_
  · simp only [sentOnly_final]
    exact session_keeps (fun s1 _ => programFrame_spec op rest data s1) hop hmem
  · simp only [sentOnly_final]
    exact session_result (programFrame_spec op rest data _)

theorem readFrame_done {F : Footprint} {q : Seq} {op : Byte} {rest dummies : List Byte} {n : Nat} {s : State}
    (hop : opcodes.contains op = true) (hst : storing op = false) :
    FrameDone F s (runFrame q (session (readFrame (op :: rest) dummies n)) s) :=
  frameDone_of (readSession_keeps F rest dummies n hop hst _) (session_result (readFrame_spec op rest dummies n _))

theorem rdid_done {F : Footprint} {q : Seq} {s : State} : FrameDone F s (runFrame q uRDID s) :=
  frameDone_of (uRDID_keeps F _) (session_result (recvFrame_spec 0x9F#8 [] 3 _).1)

theorem rdsr_done {F : Footprint} {q : Seq} {n : StatusReg} (h : F.st n) {s : State} :
    FrameDone F s (runFrame q (fun s => (uRDSR n s).bind fun r s1 => .done (r.map fun b => [b]) s1) s) := by
  have hb : ∀ u : State, ((uRDSR n u).bind fun r s1 => Run.done (r.map fun b => [b]) s1).final = (uRDSR n u).final := by
    intro u
    cases uRDSR n u <;> rfl
  refine frameDone_of ?_ ?_
  · simp only [hb]
    exact uRDSR_keeps h _
  · simp only [hb]
    have hs := session_result (s := setSeq q s) (recvFrame_spec (rdsrOpc n) [] 1 _).1
    unfold uRDSR
    cases hr : session (recvFrame [rdsrOpc n] 1) (setSeq q s) with
    | done a u =>
      rw [hr] at hs
      rw [Run.bind_done, Run.final_done]
      unfold cacheStatus
      split
      · cases n <;> exact hs
      · exact hs
      · exact hs
    | wait u => rw [hr] at hs; exact hs
    | halt u => rw [hr] at hs; exact hs

/-! The later steps of an operation. -/

/-- The footprint of a later step of the operation in progress: the one Safety's `laterWrites` and `laterStores` give it. -/
def laterFootprint (s : State) : Footprint where
  mem := laterStores s
  st := fun n => statusRegister n ∈ laterWrites s
  cur := .cur ∈ laterWrites s
  rdata := False
  start := False
  loop := .rem ∈ laterWrites s
  ident := False

/-- An if that is not its first branch's value is its second's. -/
theorem else_of_ne {α : Type} {p : Prop} [Decidable p] {x y z : α} (h : (if p then x else y) = z) (hx : x ≠ z) : y = z := by
  by_cases hp : p
  · rw [if_pos hp] at h
    exact absurd h hx
  · rwa [if_neg hp] at h

theorem op_of_write {s : State} {a l : Word} {d : List Byte} (h : decodeRequest (latched s) = .ok (.write a l d)) :
    s.op = 0x31#8 := by
  by_contra ho
  unfold decodeRequest at h
  iterate 15 replace h := else_of_ne h (by nofun)
  rw [if_neg (show ¬(latched s).op = 0x31#8 from ho)] at h
  iterate 6 replace h := else_of_ne h (by nofun)
  cases h

theorem op_of_writeuntil {s : State} {a l m : Word} {d : List Byte}
    (h : decodeRequest (latched s) = .ok (.writeuntil a l m d)) : s.op = 0x32#8 := by
  by_contra ho
  unfold decodeRequest at h
  iterate 16 replace h := else_of_ne h (by nofun)
  rw [if_neg (show ¬(latched s).op = 0x32#8 from ho)] at h
  iterate 5 replace h := else_of_ne h (by nofun)
  cases h

/-- Every later step reads status register 1 at most. -/
theorem sr1_later (s : State) : (laterFootprint s).st .sr1 := by simp [laterFootprint, statusRegister, laterWrites]

/-- A page loop writes its locals. -/
theorem loop_later {s : State} (h : s.op = 0x31#8 ∨ s.op = 0x32#8) : (laterFootprint s).loop := by
  simp [laterFootprint, laterWrites, h]

/-- A page loop at its head writes the current address. -/
theorem cur_later {s : State} (h : s.op = 0x31#8 ∨ s.op = 0x32#8) (hq : s.seq = .check) : (laterFootprint s).cur := by
  simp [laterFootprint, laterWrites, h, hq]

theorem resumeWait_keeps {s t : State} (h : resumeWait s = .next t) : Keeps (laterFootprint s) s t := by
  unfold resumeWait at h
  have h1 := sr1_later s
  have hw : ∀ a l d, decodeRequest (latched s) = .ok (.write a l d) → (laterFootprint s).loop :=
    fun _ _ _ hd => loop_later (.inl (op_of_write hd))
  have hu : ∀ a l m d, decodeRequest (latched s) = .ok (.writeuntil a l m d) → (laterFootprint s).loop :=
    fun _ _ _ _ hd => loop_later (.inr (op_of_writeuntil hd))
  generalize laterFootprint s = F at *
  generalize decodeRequest (latched s) = d at *
  cases d with
  | error e => cases h
  | ok i =>
    cases i
    case waitbusy => injection h with h; rw [← h]; exact settle_free (pollUntil_keeps h1 s)
    case writestatus => injection h with h; rw [← h]; exact settle_free (finishWritestatus_keeps h1 s)
    case writepage =>
      injection h with h
      rw [← h]
      exact settle_free ((resumeWritePage_keeps h1 _ _ _ s).bind fun w u _ => finishWritepage_keeps _ w u)
    case write =>
      injection h with h
      rw [← h]
      exact settle_free ((resumeWritePage_keeps h1 _ _ _ s).bind fun w u _ => afterWrite_keeps (hw _ _ _ rfl) w u)
    case writeuntil =>
      injection h with h
      rw [← h]
      exact settle_free ((resumeWritePage_keeps h1 _ _ _ s).bind fun w u _ => afterWriteuntil_keeps (hu _ _ _ _ rfl) w u)
    case erasesector => injection h with h; rw [← h]; exact settle_free (eraseTail_keeps h1 s)
    case eraseblock => injection h with h; rw [← h]; exact settle_free (eraseTail_keeps h1 s)
    case erasechip => injection h with h; rw [← h]; exact settle_free (eraseTail_keeps h1 s)
    all_goals cases h

theorem resumeCheck_keeps {s t : State} (hq : s.seq = .check) (h : resumeCheck s = .next t) : Keeps (laterFootprint s) s t := by
  unfold resumeCheck at h
  have h1 := sr1_later s
  cases hd : decodeRequest (latched s) with
  | error e => rw [hd] at h; cases h
  | ok i =>
    rw [hd] at h
    cases i
    case write =>
      have ho := op_of_write hd
      injection h with h
      rw [← h]
      exact settle_free (writeLoop_keeps h1 (cur_later (.inl ho) hq) (loop_later (.inl ho)) (fun k => k) fun x hx => ⟨.inl ho, hq, hx⟩)
    case writeuntil =>
      have ho := op_of_writeuntil hd
      injection h with h
      rw [← h]
      exact settle_free (writeuntilLoop_keeps h1 (cur_later (.inr ho) hq) (loop_later (.inr ho)) (fun k => k)
        fun x hx => ⟨.inr ho, hq, hx⟩)
    all_goals cases h

/-- What the block does with nothing presented, in the footprint of a later step. -/
theorem proceed_keeps {s t : State} (h : proceed s = .next t) : Keeps (laterFootprint s) s t := by
  unfold proceed at h
  split at h
  · injection h with h
    subst h
    exact .refl _ _
  · split at h
    · injection h with h
      subst h
      exact .refl _ _
    · exact resumeWait_keeps h
    · exact resumeCheck_keeps ‹_› h
    all_goals cases h

end Sys2Proof.Machine
end

