-- ==== Sys2Proof/Laws/PerInstr.lean ====
section
/-!
SUPPORT. Statements made for all instructions, one lemma per constructor. `FirstByte`: an SPI frame's encoding begins with an
opcode of R94, and a host operation's carries a code of R120, whatever the parameters.
-/

namespace Sys2Proof.Laws.FirstByte

open Sys2Proof Sys2Proof.Machine

/-- The encoding of an instruction is a frame that begins with an opcode of R94, or a request whose code is in R120. -/
def Statement (i : Instr) : Prop :=
  ∀ p : Params,
    if i.isFrame then ∃ op rest, encode p i = .frame (op :: rest) ∧ op ∈ opcodes
    else ∃ r, encode p i = .host r ∧ r.op ∈ hostCodes

theorem wrsr1 (value : Byte) : Statement (.wrsr1 value) := fun _ => ⟨_, _, rfl, by decide⟩

theorem pp3 (addr : BitVec 24) (data : List Byte) : Statement (.pp3 addr data) := fun _ => ⟨_, _, rfl, by decide⟩

theorem read3 (addr : BitVec 24) (n : Nat) : Statement (.read3 addr n) := fun _ => ⟨_, _, rfl, by decide⟩

theorem wrdi : Statement .wrdi := fun _ => ⟨_, _, rfl, by decide⟩

theorem rdsr1 : Statement .rdsr1 := fun _ => ⟨_, _, rfl, by decide⟩

theorem wren : Statement .wren := fun _ => ⟨_, _, rfl, by decide⟩

theorem fr3 (addr : BitVec 24) (n : Nat) : Statement (.fr3 addr n) := fun _ => ⟨_, _, rfl, by decide⟩

theorem fr4 (addr : Word) (n : Nat) : Statement (.fr4 addr n) := fun _ => ⟨_, _, rfl, by decide⟩

theorem wrsr3 (value : Byte) : Statement (.wrsr3 value) := fun _ => ⟨_, _, rfl, by decide⟩

theorem pp4 (addr : Word) (data : List Byte) : Statement (.pp4 addr data) := fun _ => ⟨_, _, rfl, by decide⟩

theorem read4 (addr : Word) (n : Nat) : Statement (.read4 addr n) := fun _ => ⟨_, _, rfl, by decide⟩

theorem rdsr3 : Statement .rdsr3 := fun _ => ⟨_, _, rfl, by decide⟩

theorem se3 (addr : BitVec 24) : Statement (.se3 addr) := fun _ => ⟨_, _, rfl, by decide⟩

theorem se4 (addr : Word) : Statement (.se4 addr) := fun _ => ⟨_, _, rfl, by decide⟩

theorem wrsr2 (value : Byte) : Statement (.wrsr2 value) := fun _ => ⟨_, _, rfl, by decide⟩

theorem rdsr2 : Statement .rdsr2 := fun _ => ⟨_, _, rfl, by decide⟩

theorem rduid : Statement .rduid := fun _ => ⟨_, _, rfl, by decide⟩

theorem rdid : Statement .rdid := fun _ => ⟨_, _, rfl, by decide⟩

theorem ce : Statement .ce := fun _ => ⟨_, _, rfl, by decide⟩

theorem be3 (addr : BitVec 24) : Statement (.be3 addr) := fun _ => ⟨_, _, rfl, by decide⟩

theorem be4 (addr : Word) : Statement (.be4 addr) := fun _ => ⟨_, _, rfl, by decide⟩

theorem init : Statement .init := fun _ => ⟨_, rfl, by simp [hostCodes, Request.ofOp]⟩

theorem capacity : Statement .capacity := fun _ => ⟨_, rfl, by simp [hostCodes, Request.ofOp]⟩

theorem blockmax : Statement .blockmax := fun _ => ⟨_, rfl, by simp [hostCodes, Request.ofOp]⟩

theorem sectormax : Statement .sectormax := fun _ => ⟨_, rfl, by simp [hostCodes, Request.ofOp]⟩

theorem pagemax : Statement .pagemax := fun _ => ⟨_, rfl, by simp [hostCodes, Request.ofOp]⟩

theorem select : Statement .select := fun _ => ⟨_, rfl, by simp [hostCodes, Request.ofOp]⟩

theorem deselect : Statement .deselect := fun _ => ⟨_, rfl, by simp [hostCodes, Request.ofOp]⟩

theorem waitbusy (tmo : Word) : Statement (.waitbusy tmo) := fun _ => ⟨_, rfl, by simp [hostCodes]⟩

theorem read (a len : Word) : Statement (.read a len) := fun _ => ⟨_, rfl, by simp [hostCodes]⟩

theorem readpage (a b len : Word) : Statement (.readpage a b len) := fun _ => ⟨_, rfl, by simp [hostCodes]⟩

theorem readsector (a b len : Word) : Statement (.readsector a b len) := fun _ => ⟨_, rfl, by simp [hostCodes]⟩

theorem readblock (a b len : Word) : Statement (.readblock a b len) := fun _ => ⟨_, rfl, by simp [hostCodes]⟩

theorem readstatus (a : Word) : Statement (.readstatus a) := fun _ => ⟨_, rfl, by simp [hostCodes]⟩

theorem readuid : Statement .readuid := fun _ => ⟨_, rfl, by simp [hostCodes, Request.ofOp]⟩

theorem writepage (a b len : Word) (data : List Byte) : Statement (.writepage a b len data) := fun _ => ⟨_, rfl, by simp [hostCodes]⟩

theorem write (a len : Word) (data : List Byte) : Statement (.write a len data) := fun _ => ⟨_, rfl, by simp [hostCodes]⟩

theorem writeuntil (a len tmo : Word) (data : List Byte) : Statement (.writeuntil a len tmo data) := fun _ => ⟨_, rfl, by simp [hostCodes]⟩

theorem writestatus (a b : Word) : Statement (.writestatus a b) := fun _ => ⟨_, rfl, by simp [hostCodes]⟩

theorem erasesector (a : Word) : Statement (.erasesector a) := fun _ => ⟨_, rfl, by simp [hostCodes]⟩

theorem eraseblock (a : Word) : Statement (.eraseblock a) := fun _ => ⟨_, rfl, by simp [hostCodes]⟩

theorem erasechip : Statement .erasechip := fun _ => ⟨_, rfl, by simp [hostCodes, Request.ofOp]⟩

theorem setfast (a : Word) : Statement (.setfast a) := fun _ => ⟨_, rfl, by simp [hostCodes]⟩

end Sys2Proof.Laws.FirstByte
end

