-- ==== Sys2Proof/Laws/Scripted.lean ====
section
/-!
SUPPORT. What transfers, frames and sessions do under explicit answers (log 1): exactly which state they leave, when every exchange
succeeds and when one fails.
-/

namespace Sys2Proof.Machine

/-- The state after transfers with events `es`, in which the device saw `bytes`, `n` answers were used and `rest` remain. -/
def moved (es : List Event) (bytes : List Byte) (n : Nat) (rest : List (Option Answer)) (s : State) : State :=
  { s with
    dev := (s.dev.exchangeAll bytes).2, trace := s.trace ++ es, script := rest, count := s.count + n }

@[simp] theorem moved_script (es : List Event) (bytes : List Byte) (n : Nat) (rest : List (Option Answer)) (s : State) :
    (moved es bytes n rest s).script = rest := rfl
@[simp] theorem moved_cfg (es : List Event) (bytes : List Byte) (n : Nat) (rest : List (Option Answer)) (s : State) :
    (moved es bytes n rest s).cfg = s.cfg := rfl
@[simp] theorem moved_depth (es : List Event) (bytes : List Byte) (n : Nat) (rest : List (Option Answer)) (s : State) :
    (moved es bytes n rest s).depth = s.depth := rfl

theorem moved_moved (es fs : List Event) (as bs : List Byte) (m n : Nat) (r q : List (Option Answer)) (s : State) :
    moved fs bs n q (moved es as m r s) = moved (es ++ fs) (as ++ bs) (m + n) q s := by
  simp [moved, Flash.exchangeAll_append, Nat.add_assoc]

@[simp] theorem oks_nil : oks [] = [] := rfl
@[simp] theorem oks_cons (b : Byte) (bs : List Byte) : oks (b :: bs) = some (.ok [b]) :: oks bs := rfl
theorem oks_append (as bs : List Byte) : oks (as ++ bs) = oks as ++ oks bs := List.map_append

theorem xfer_ok {tx b : Byte} {s : State} {rest : List (Option Answer)} (h : s.script = some (.ok [b]) :: rest) :
    xfer tx s = (some b, moved [.xfer tx b] [tx] 1 rest s) := by
  unfold xfer nextAnswer
  simp [h, moved, emit, useAnswer, deviceSees]

theorem xfer_fail {tx : Byte} {s : State} {d : Nat} {bs : List Byte} {rest : List (Option Answer)}
    (h : s.script = some (.fail d bs) :: rest) : xfer tx s = (none, moved [.xferFail tx] [] 1 rest s) := by
  unfold xfer nextAnswer
  simp [h, moved, emit, useAnswer, Flash.exchangeAll]

theorem sendAll_ok {tx rx : List Byte} {s : State} {rest : List (Option Answer)} (h : s.script = oks rx ++ rest)
    (hl : rx.length = tx.length) : sendAll tx s = (true, moved (exchanged tx rx) tx tx.length rest s) := by
  induction tx generalizing rx s with
  | nil =>
    have : rx = [] := List.length_eq_zero_iff.mp hl
    subst this
    simp only [sendAll, moved, exchanged, Flash.exchangeAll, List.zipWith_nil_left, List.append_nil, List.length_nil, Nat.add_zero]
    rw [← show s.script = rest by simpa using h]
  | cons b bs ih =>
    cases rx with
    | nil => simp at hl
    | cons r rs =>
      have h1 : s.script = some (.ok [r]) :: (oks rs ++ rest) := by simpa using h
      simp only [sendAll, xfer_ok h1]
      rw [ih (s := moved [.xfer b r] [b] 1 (oks rs ++ rest) s) rfl (by simpa using hl), moved_moved, List.length_cons,
        Nat.add_comm 1]
      rfl

/-- Sending stops at the first failed exchange (R97). -/
theorem sendAll_fail {tx rx : List Byte} {b : Byte} {bs ds : List Byte} {d : Nat} {s : State} {rest : List (Option Answer)}
    (h : s.script = oks rx ++ some (.fail d ds) :: rest) (hl : rx.length = tx.length) :
    sendAll (tx ++ b :: bs) s =
      (false, moved (exchanged tx rx ++ [.xferFail b]) tx (tx.length + 1) rest s) := by
  induction tx generalizing rx s with
  | nil =>
    have : rx = [] := List.length_eq_zero_iff.mp hl
    subst this
    have h1 : s.script = some (.fail d ds) :: rest := by simpa using h
    simp [sendAll, xfer_fail h1, exchanged]
  | cons c cs ih =>
    cases rx with
    | nil => simp at hl
    | cons r rs =>
      have h1 : s.script = some (.ok [r]) :: (oks rs ++ some (.fail d ds) :: rest) := by simpa using h
      simp only [sendAll, List.cons_append, xfer_ok h1]
      rw [ih (s := moved [.xfer c r] [c] 1 (oks rs ++ some (.fail d ds) :: rest) s) rfl (by simpa using hl), moved_moved,
        List.length_cons, Nat.add_comm 1]
      simp [exchanged]

theorem recvAll_ok {n : Nat} {rx : List Byte} {s : State} {rest : List (Option Answer)} (h : s.script = oks rx ++ rest)
    (hl : rx.length = n) :
    recvAll n s = (some rx, moved (exchanged (List.replicate n s.cfg.dummy) rx) (List.replicate n s.cfg.dummy) n rest s) := by
  induction n generalizing rx s with
  | zero =>
    have : rx = [] := List.length_eq_zero_iff.mp hl
    subst this
    simp only [recvAll, moved, exchanged, Flash.exchangeAll, List.replicate_zero, List.zipWith_nil_left, List.append_nil,
      Nat.add_zero]
    rw [← show s.script = rest by simpa using h]
  | succ n ih =>
    cases rx with
    | nil => simp at hl
    | cons r rs =>
      have h1 : s.script = some (.ok [r]) :: (oks rs ++ rest) := by simpa using h
      simp only [recvAll, xfer_ok h1]
      rw [ih (s := moved [.xfer s.cfg.dummy r] [s.cfg.dummy] 1 (oks rs ++ rest) s) rfl (by simpa using hl)]
      simp only [moved_cfg]
      rw [moved_moved, Nat.add_comm 1, List.replicate_succ]
      rfl

theorem bulkTx_ok {bytes bs : List Byte} {s : State} {rest : List (Option Answer)} (h : s.script = some (.ok bs) :: rest) :
    bulkTx bytes s = (true, moved [.bulkTx bytes bytes.length] bytes 1 rest s) := by
  unfold bulkTx nextAnswer
  simp [h, moved, emit, useAnswer, deviceSees]

theorem bulkTx_fail {bytes bs : List Byte} {d : Nat} {s : State} {rest : List (Option Answer)}
    (h : s.script = some (.fail d bs) :: rest) :
    bulkTx bytes s =
      (false, moved [.bulkTx bytes (shortDone d bytes.length)] (bytes.take (shortDone d bytes.length)) 1 rest s) := by
  unfold bulkTx nextAnswer
  simp [h, moved, emit, useAnswer, deviceSees]

theorem bulkRx_ok {n : Nat} {bs : List Byte} {s : State} {rest : List (Option Answer)} (h : s.script = some (.ok bs) :: rest) :
    bulkRx n s = (some (fillTo n bs), moved [.bulkRx n n (fillTo n bs)] (List.replicate n s.cfg.dummy) 1 rest s) := by
  unfold bulkRx nextAnswer
  simp [h, moved, emit, useAnswer, deviceSees]

theorem bulkRx_fail {n d : Nat} {bs : List Byte} {s : State} {rest : List (Option Answer)}
    (h : s.script = some (.fail d bs) :: rest) :
    bulkRx n s =
      (none, moved [.bulkRx n (shortDone d n) ((fillTo n bs).take (shortDone d n))]
        (List.replicate (shortDone d n) s.cfg.dummy) 1 rest s) := by
  unfold bulkRx nextAnswer
  simp [h, moved, emit, useAnswer, deviceSees]

/-! Sessions. -/

/-- The device after one session in which it saw `bytes`. -/
def sessionDev (bytes : List Byte) (s : State) : Flash :=
  if s.depth = 0 then (s.dev.csLow.exchangeAll bytes).2.csHigh else (s.dev.exchangeAll bytes).2

/-- The state after one session with events `es`, phase `q`. -/
def sessioned (es : List Event) (bytes : List Byte) (n : Nat) (rest : List (Option Answer)) (q : Seq) (s : State) : State :=
  { s with
    cs := if s.depth = 0 then true else s.cs, dev := sessionDev bytes s, trace := s.trace ++ inSession s es,
    script := rest, count := s.count + n, seq := q }

@[simp] theorem sessioned_script (es : List Event) (bytes : List Byte) (n : Nat) (rest : List (Option Answer)) (q : Seq) (s : State) :
    (sessioned es bytes n rest q s).script = rest := rfl
@[simp] theorem sessioned_trace (es : List Event) (bytes : List Byte) (n : Nat) (rest : List (Option Answer)) (q : Seq) (s : State) :
    (sessioned es bytes n rest q s).trace = s.trace ++ inSession s es := rfl
@[simp] theorem sessioned_cfg (es : List Event) (bytes : List Byte) (n : Nat) (rest : List (Option Answer)) (q : Seq) (s : State) :
    (sessioned es bytes n rest q s).cfg = s.cfg := rfl
@[simp] theorem sessioned_depth (es : List Event) (bytes : List Byte) (n : Nat) (rest : List (Option Answer)) (q : Seq) (s : State) :
    (sessioned es bytes n rest q s).depth = s.depth := rfl
@[simp] theorem sessioned_blockcount (es : List Event) (bytes : List Byte) (n : Nat) (rest : List (Option Answer)) (q : Seq)
    (s : State) : (sessioned es bytes n rest q s).blockcount = s.blockcount := rfl

/-- A session whose frame makes known moves from inside it. -/
theorem session_moved {α : Type} {frame : State → α × State} {s : State} (hd : s.depth < s.cfg.depthMax) {a : α} {es : List Event}
    {bytes : List Byte} {n : Nat} {rest : List (Option Answer)} {q : Seq}
    (h : frame (opened s) = (a, { moved es bytes n rest (opened s) with seq := q })) :
    session frame s = .done a (sessioned es bytes n rest q s) := by
  rw [session_eq (by rw [h]; simp [moved]), if_neg (by omega), h]
  congr 1
  unfold closed opened sessioned sessionDev inSession moved csDrive emit
  by_cases h0 : s.depth = 0
  · simp [h0]
  · simp [h0]

theorem sendSession_ok {tx rx : List Byte} {s : State} {rest : List (Option Answer)} (hd : s.depth < s.cfg.depthMax)
    (h : s.script = oks rx ++ rest) (hl : rx.length = tx.length) :
    session (sendFrame tx) s = .done true (sessioned (exchanged tx rx) tx tx.length rest s.seq s) :=
  session_moved hd (by
    unfold sendFrame
    rw [sendAll_ok (s := opened s) (rest := rest) (by rw [← h]; unfold opened; split <;> rfl) hl, ← opened_seq]
    rfl)

theorem sendSession_fail {tx rx : List Byte} {b : Byte} {bs ds : List Byte} {d : Nat} {s : State} {rest : List (Option Answer)}
    (hd : s.depth < s.cfg.depthMax) (h : s.script = oks rx ++ some (.fail d ds) :: rest) (hl : rx.length = tx.length) :
    session (sendFrame (tx ++ b :: bs)) s =
      .done false (sessioned (exchanged tx rx ++ [.xferFail b]) tx (tx.length + 1) rest s.seq s) :=
  session_moved hd (by
    unfold sendFrame
    rw [sendAll_fail (s := opened s) (rest := rest) (by rw [← h]; unfold opened; split <;> rfl) hl, ← opened_seq]
    rfl)

theorem opened_script (s : State) : (opened s).script = s.script := by unfold opened; split <;> rfl

theorem recvSession_ok {tx ra rb : List Byte} {n : Nat} {s : State} {rest : List (Option Answer)} (hd : s.depth < s.cfg.depthMax)
    (h : s.script = oks (ra ++ rb) ++ rest) (ha : ra.length = tx.length) (hb : rb.length = n) :
    session (recvFrame tx n) s =
      .done (some rb) (sessioned (exchanged (tx ++ List.replicate n s.cfg.dummy) (ra ++ rb)) (tx ++ List.replicate n s.cfg.dummy)
        (tx.length + n) rest s.seq s) :=
  session_moved hd (by
    unfold recvFrame
    rw [sendAll_ok (s := opened s) (rx := ra) (rest := oks rb ++ rest) (by rw [opened_script, h, oks_append, List.append_assoc]) ha]
    simp only
    rw [recvAll_ok (s := moved (exchanged tx ra) tx tx.length (oks rb ++ rest) (opened s)) rfl hb,
      show (moved (exchanged tx ra) tx tx.length (oks rb ++ rest) (opened s)).cfg.dummy = s.cfg.dummy by
        rw [moved_cfg, opened_cfg], moved_moved, ← opened_seq]
    unfold exchanged
    rw [List.zipWith_append ha.symm]
    rfl)

theorem readSession_ok {tx ra ds rd bs : List Byte} {n : Nat} {s : State} {rest : List (Option Answer)}
    (hd : s.depth < s.cfg.depthMax) (h : s.script = oks (ra ++ rd) ++ some (.ok bs) :: rest) (ha : ra.length = tx.length)
    (hb : rd.length = ds.length) :
    session (readFrame tx ds n) s =
      .done (some (fillTo n bs))
        (sessioned (exchanged (tx ++ ds) (ra ++ rd) ++ [.bulkRx n n (fillTo n bs)]) (tx ++ ds ++ List.replicate n s.cfg.dummy)
          (tx.length + ds.length + 1) rest .data s) :=
  session_moved hd (by
    unfold readFrame
    rw [sendAll_ok (s := opened s) (rx := ra) (rest := oks rd ++ some (.ok bs) :: rest)
      (by rw [opened_script, h, oks_append, List.append_assoc]) ha]
    simp only
    generalize hx : (if ds = [] then moved (exchanged tx ra) tx tx.length (oks rd ++ some (.ok bs) :: rest) (opened s)
      else setSeq .dummy (moved (exchanged tx ra) tx tx.length (oks rd ++ some (.ok bs) :: rest) (opened s))) = u
    have hu : ∃ q, u = { moved (exchanged tx ra) tx tx.length (oks rd ++ some (.ok bs) :: rest) (opened s) with seq := q } := by
      rw [← hx]
      split
      · exact ⟨_, rfl⟩
      · exact ⟨_, rfl⟩
    obtain ⟨q, rfl⟩ := hu
    rw [sendAll_ok (rx := rd) (rest := some (.ok bs) :: rest) rfl hb]
    simp only
    rw [bulkRx_ok (s := setSeq .data (moved (exchanged ds rd) ds ds.length (some (.ok bs) :: rest)
      { moved (exchanged tx ra) tx tx.length (oks rd ++ some (.ok bs) :: rest) (opened s) with seq := q })) (rest := rest) rfl]
    have hz : exchanged (tx ++ ds) (ra ++ rd) = exchanged tx ra ++ exchanged ds rd := List.zipWith_append ha.symm
    rw [hz]
    simp [moved, setSeq, Flash.exchangeAll_append, Nat.add_assoc])

theorem programSession_ok {tx ra data bs : List Byte} {s : State} {rest : List (Option Answer)}
    (hd : s.depth < s.cfg.depthMax) (h : s.script = oks ra ++ some (.ok bs) :: rest) (ha : ra.length = tx.length) :
    session (programFrame tx data) s =
      .done true (sessioned (exchanged tx ra ++ [.bulkTx data data.length]) (tx ++ data) (tx.length + 1) rest .data s) :=
  session_moved hd (by
    unfold programFrame
    rw [sendAll_ok (s := opened s) (rx := ra) (rest := some (.ok bs) :: rest) (by rw [opened_script, h]) ha]
    simp only
    rw [bulkTx_ok (s := setSeq .data (moved (exchanged tx ra) tx tx.length (some (.ok bs) :: rest) (opened s))) (rest := rest) rfl]
    simp [moved, setSeq, Flash.exchangeAll_append, Nat.add_assoc])

/-! The micro-operations and one poll. -/

theorem uWREN_ok {r : Byte} {s : State} {rest : List (Option Answer)} (hd : s.depth < s.cfg.depthMax)
    (h : s.script = oks [r] ++ rest) :
    uWREN s = .done true (sessioned (exchanged [0x06#8] [r]) [0x06#8] 1 rest s.seq s) := sendSession_ok hd h rfl

theorem uWREN_fail {d : Nat} {bs : List Byte} {s : State} {rest : List (Option Answer)} (hd : s.depth < s.cfg.depthMax)
    (h : s.script = some (.fail d bs) :: rest) :
    uWREN s = .done false (sessioned [.xferFail 0x06#8] [] 1 rest s.seq s) :=
  sendSession_fail (tx := []) (rx := []) (b := 0x06#8) (bs := []) (ds := bs) hd h rfl

theorem uWRDI_ok {r : Byte} {s : State} {rest : List (Option Answer)} (hd : s.depth < s.cfg.depthMax)
    (h : s.script = oks [r] ++ rest) :
    uWRDI s = .done true (sessioned (exchanged [0x04#8] [r]) [0x04#8] 1 rest s.seq s) := sendSession_ok hd h rfl

theorem uRDSR_ok {n : StatusReg} {r b : Byte} {s : State} {rest : List (Option Answer)} (hd : s.depth < s.cfg.depthMax)
    (h : s.script = oks [r, b] ++ rest) :
    uRDSR n s = .done (some b) (setStatus n b (sessioned (exchanged [rdsrOpc n, s.cfg.dummy] [r, b]) [rdsrOpc n, s.cfg.dummy]
      2 rest s.seq s)) := by
  unfold uRDSR
  rw [recvSession_ok (tx := [rdsrOpc n]) (ra := [r]) (rb := [b]) (n := 1) hd h rfl rfl]
  rfl

/-! The same under Safety's relations of a frame to its answers and events: what a frame does with them, once for each. -/

theorem sendSession_sent {s : State} {tx : List Byte} {as : List (Option Answer)} {es : List Event} {rest : List (Option Answer)}
    (hd : s.depth < s.cfg.depthMax) (h : FrameSent s tx as es) (hs : s.script = as ++ rest) :
    ∃ n, session (sendFrame tx) s = .done true { sessioned [] tx n rest s.seq s with trace := s.trace ++ es } := by
  obtain ⟨rx, hl, rfl, rfl⟩ := h
  exact ⟨_, sendSession_ok hd hs hl⟩

theorem sendSession_cut {s : State} {tx : List Byte} {as : List (Option Answer)} {es : List Event} {rest : List (Option Answer)}
    (hd : s.depth < s.cfg.depthMax) (h : FrameCut s tx as es) (hs : s.script = as ++ rest) :
    ∃ bytes n, session (sendFrame tx) s = .done false { sessioned [] bytes n rest s.seq s with trace := s.trace ++ es } := by
  obtain ⟨pre, c, post, rx, done, bytes, rfl, hl, rfl, rfl⟩ := h
  exact ⟨_, _, sendSession_fail hd (by rw [hs, List.append_assoc]; rfl) hl⟩

/-- A frame whose result is not examined, whatever becomes of it. -/
theorem sendSession_runs {s : State} {tx : List Byte} {as : List (Option Answer)} {es : List Event} {rest : List (Option Answer)}
    (hd : s.depth < s.cfg.depthMax) (h : FrameRuns s tx as es) (hs : s.script = as ++ rest) :
    ∃ ok bytes n, session (sendFrame tx) s = .done ok { sessioned [] bytes n rest s.seq s with trace := s.trace ++ es } := by
  obtain h | h := h
  · obtain ⟨n, h⟩ := sendSession_sent hd h hs
    exact ⟨_, _, n, h⟩
  · obtain ⟨bytes, n, h⟩ := sendSession_cut hd h hs
    exact ⟨_, bytes, n, h⟩

/-- A status read that fails at either exchange. -/
theorem uRDSR_cut {k : StatusReg} {s : State} {as : List (Option Answer)} {es : List Event} {rest : List (Option Answer)}
    (hd : s.depth < s.cfg.depthMax) (h : FrameCut s [rdsrOpc k, s.cfg.dummy] as es) (hs : s.script = as ++ rest) :
    ∃ bytes n, uRDSR k s = .done none { sessioned [] bytes n rest s.seq s with trace := s.trace ++ es } := by
  obtain ⟨pre, c, post, rx, done, bytes, htx, hl, rfl, rfl⟩ := h
  have key : ∃ bytes n, session (recvFrame [rdsrOpc k] 1) s =
      .done none (sessioned (exchanged pre rx ++ [.xferFail c]) bytes n rest s.seq s) := by
    match pre, htx with
    | [], htx =>
      obtain rfl : rx = [] := List.length_eq_zero_iff.mp hl
      simp only [List.nil_append, List.cons.injEq] at htx
      obtain ⟨rfl, -⟩ := htx
      refine ⟨[], 1, session_moved hd ?_⟩
      unfold recvFrame
      have hf := sendAll_fail (tx := []) (rx := []) (b := rdsrOpc k) (bs := []) (s := opened s) (rest := rest)
        (by rw [opened_script, hs, List.append_assoc]; rfl) rfl
      rw [List.nil_append] at hf
      rw [hf, ← opened_seq]
      rfl
    | [o], htx =>
      obtain ⟨r, rfl⟩ := List.length_eq_one_iff.mp hl
      simp only [List.cons_append, List.nil_append, List.cons.injEq] at htx
      obtain ⟨rfl, rfl, -⟩ := htx
      refine ⟨[rdsrOpc k], 2, session_moved hd ?_⟩
      unfold recvFrame
      rw [sendAll_ok (tx := [rdsrOpc k]) (s := opened s) (rx := [r]) (rest := some (.fail done bytes) :: rest)
        (by rw [opened_script, hs, List.append_assoc]; rfl) rfl]
      simp only [recvAll]
      rw [xfer_fail (d := done) (bs := bytes) (rest := rest) rfl, moved_moved, ← opened_seq,
        show s.cfg.dummy = (opened s).cfg.dummy by rw [opened_cfg]]
      rfl
    | _ :: _ :: _, htx => simp at htx
  obtain ⟨bytes, n, key⟩ := key
  refine ⟨bytes, n, ?_⟩
  unfold uRDSR
  rw [key]
  rfl

/-- A poll that shows the device idle ends the wait. -/
theorem waitForever_idle {s : State} {q : Byte} {as : List (Option Answer)} {es : List Event} {rest : List (Option Answer)}
    (hd : s.depth < s.cfg.depthMax) (h : PollIdle s q as es) (hs : s.script = as ++ rest) :
    ∃ bytes n, waitForever s = .done () { sessioned [] bytes n rest .wait s with trace := s.trace ++ es, sr1 := q } := by
  obtain ⟨p, hq, rfl, rfl⟩ := h
  refine ⟨[0x05#8, s.cfg.dummy], 2, ?_⟩
  unfold waitForever
  rw [uRDSR_ok (s := setSeq .wait s) (rest := rest) hd hs, Run.bind_done]
  simp only [sawIdle, idleStatus, hq, Bool.not_false, if_true]
  rfl

/-- A poll that counts as busy leaves the wait waiting. -/
theorem waitForever_busy {s : State} {as : List (Option Answer)} {es : List Event} {rest : List (Option Answer)}
    (hd : s.depth < s.cfg.depthMax) (h : PollBusy s as es) (hs : s.script = as ++ rest) :
    ∃ bytes n v, waitForever s = .wait { sessioned [] bytes n rest .wait s with trace := s.trace ++ es, sr1 := v } := by
  unfold waitForever
  obtain ⟨p, q, hq, rfl, rfl⟩ | h := h
  · refine ⟨[0x05#8, s.cfg.dummy], 2, q, ?_⟩
    rw [uRDSR_ok (s := setSeq .wait s) (rest := rest) hd hs, Run.bind_done]
    simp only [sawIdle, idleStatus, hq, Bool.not_true, Bool.false_eq_true, if_false]
    rfl
  · obtain ⟨bytes, n, h⟩ := uRDSR_cut (k := .sr1) (s := setSeq .wait s) hd h hs
    refine ⟨bytes, n, s.sr1, ?_⟩
    rw [h, Run.bind_done]
    rfl

end Sys2Proof.Machine
end

