-- ==== Sys2Proof/Tests/Slice0.lean ====
section
/-!
SUPPORT. Tests: the checks of WellFormed, the decoding of words written out from spec/30_encoding.md, single steps whose results come
from the vectors of spec/95_test_vectors.md (named V-… and P…), and for each statement with hypotheses a concrete state and operands
that meet them.
-/

namespace Sys2Proof.Tests

open Sys2Proof Sys2Proof.Machine

/-! Helpers. -/

/-- An outcome is a next state that a check accepts. -/
def gives (r : Result) (p : State → Bool) : Bool :=
  match r with
  | .next t => p t
  | .fault _ => false
  | .refused _ => false

/-- The state after reset, answered by the default reference device with `REF_BUSY` given. -/
def onDevice (busy : Nat) : State :=
  { State.reset with refDevice := true, dev := { Flash.initial with refBusy := busy } }

/-- `ident256` of the vectors. -/
def ident256 (busy : Nat) : State :=
  { onDevice busy with blockcount := 256#16, vendor := 0xEF#8, capcode := 0x18#8 }

/-- `ident512` of the vectors. -/
def ident512 : State :=
  { State.reset with
    refDevice := true, dev := { Flash.initial with refBusy := 0, refBlocks := 512, refId := [0xEF#8, 0x40#8, 0x19#8] },
    blockcount := 512#16, vendor := 0xEF#8, capcode := 0x19#8 }

/-- `fail @k` of the vectors. -/
def failAt (k : Nat) : List (Option Answer) := List.replicate (k - 1) none ++ [some (.fail 0 [])]

/-- An event without the bytes received (`..` in the vectors). -/
def asSent : Event → Event
  | .xfer tx _ => .xfer tx 0#8
  | .bulkRx n done _ => .bulkRx n done []
  | .cs0 => .cs0
  | .cs1 => .cs1
  | .xferFail tx => .xferFail tx
  | .bulkTx bytes done => .bulkTx bytes done
  | .tick t => .tick t

/-- What an operation put on the ports, from an empty trace. -/
def wire (t : State) : List Event := t.trace.map asSent

/-- A session that sends these bytes and then makes these events. -/
def sent (bytes : List Byte) (more : List Event) : List Event :=
  .cs0 :: (bytes.map (fun b => Event.xfer b 0#8) ++ more ++ [.cs1])

/-! The checks of WellFormed: an ill-formed term for each, and a well-formed one at the limit. -/

theorem test_wellFormed_refuses :
    Instr.wellFormed (.pp3 0x0000FF#24 [0x5A#8, 0x5B#8]) = false ∧ Instr.wellFormed (.pp3 0#24 []) = false ∧
    Instr.wellFormed (.pp4 0x010000FE#32 [1#8, 2#8, 3#8]) = false ∧ Instr.wellFormed (.pp4 0#32 []) = false ∧
    Instr.wellFormed (.read3 0#24 0) = false ∧ Instr.wellFormed (.read4 0#32 0) = false ∧
    Instr.wellFormed (.fr3 0#24 0) = false ∧ Instr.wellFormed (.fr4 0#32 0) = false ∧
    Instr.wellFormed (.se3 0x001001#24) = false ∧ Instr.wellFormed (.se4 0x00000FFF#32) = false ∧
    Instr.wellFormed (.be3 0x001000#24) = false ∧ Instr.wellFormed (.be4 0x01008000#32) = false ∧
    Instr.wellFormed (.writepage 0#32 0#32 2#32 [1#8]) = false ∧ Instr.wellFormed (.write 0#32 0#32 [1#8]) = false ∧
    Instr.wellFormed (.writeuntil 0#32 3#32 9#32 [1#8]) = false := by decide

theorem test_wellFormed_accepts :
    Instr.wellFormed (.pp3 0x0000FF#24 [0x5A#8]) = true ∧ Instr.wellFormed (.pp4 0x010000FE#32 [1#8, 2#8]) = true ∧
    Instr.wellFormed (.read3 0#24 1) = true ∧ Instr.wellFormed (.se3 0xFFF000#24) = true ∧
    Instr.wellFormed (.be4 0x01000000#32) = true ∧ Instr.wellFormed (.write 0#32 0#32 []) = true := by decide

/-! Decoding: words written out from R91, R94, R96 (frames) and R120, R121 (requests). -/

theorem test_decode_reads :
    decodeFrame 8 [0x03#8, 0x00#8, 0x10#8, 0x00#8, 0#8, 0#8, 0#8, 0#8] = .ok (.read3 0x001000#24 4) ∧
    decodeFrame 8 [0x13#8, 0x12#8, 0x34#8, 0x56#8, 0x78#8, 0#8] = .ok (.read4 0x12345678#32 1) ∧
    decodeFrame 8 [0x0B#8, 0x00#8, 0x02#8, 0xFE#8, 0x00#8, 0#8, 0#8] = .ok (.fr3 0x0002FE#24 2) ∧
    decodeFrame 8 [0x0C#8, 0x01#8, 0xFF#8, 0xFF#8, 0xFF#8, 0x00#8, 0#8] = .ok (.fr4 0x01FFFFFF#32 1) := by decide

theorem test_decode_programs :
    decodeFrame 8 [0x02#8, 0x12#8, 0x34#8, 0x56#8, 0x5A#8, 0x5B#8] = .ok (.pp3 0x123456#24 [0x5A#8, 0x5B#8]) ∧
    decodeFrame 8 [0x12#8, 0x01#8, 0x00#8, 0x00#8, 0x80#8, 0x01#8, 0x02#8, 0x03#8] =
      .ok (.pp4 0x01000080#32 [0x01#8, 0x02#8, 0x03#8]) := by decide

theorem test_decode_erases :
    decodeFrame 8 [0x20#8, 0x00#8, 0x10#8, 0x00#8] = .ok (.se3 0x001000#24) ∧
    decodeFrame 8 [0x21#8, 0x01#8, 0x00#8, 0x00#8, 0x00#8] = .ok (.se4 0x01000000#32) ∧
    decodeFrame 8 [0xD8#8, 0x12#8, 0x00#8, 0x00#8] = .ok (.be3 0x120000#24) ∧
    decodeFrame 8 [0xDC#8, 0x01#8, 0x00#8, 0x00#8, 0x00#8] = .ok (.be4 0x01000000#32) ∧
    decodeFrame 8 [0xC7#8] = .ok .ce := by decide

theorem test_decode_latch_and_status :
    decodeFrame 8 [0x06#8] = .ok .wren ∧ decodeFrame 8 [0x04#8] = .ok .wrdi ∧
    decodeFrame 8 [0x05#8, 0#8] = .ok .rdsr1 ∧ decodeFrame 8 [0x35#8, 0#8] = .ok .rdsr2 ∧
    decodeFrame 8 [0x15#8, 0#8] = .ok .rdsr3 ∧ decodeFrame 8 [0x01#8, 0xFF#8] = .ok (.wrsr1 0xFF#8) ∧
    decodeFrame 8 [0x31#8, 0x02#8] = .ok (.wrsr2 0x02#8) ∧ decodeFrame 8 [0x11#8, 0x60#8] = .ok (.wrsr3 0x60#8) := by decide

theorem test_decode_ids :
    decodeFrame 8 [0x9F#8, 0#8, 0#8, 0#8] = .ok .rdid ∧
    decodeFrame 8 [0x4B#8, 0#8, 0#8, 0#8, 0#8, 0#8, 0#8, 0#8, 0#8, 0#8, 0#8, 0#8, 0#8] = .ok .rduid := by decide

theorem test_decode_refuses_frames :
    decodeFrame 8 [] = .error .emptySession ∧ decodeFrame 8 [0x9E#8] = .error (.notAnOpcode 0x9E#8) ∧
    decodeFrame 8 [0x20#8, 0x00#8, 0x10#8] = .error .shortAddress ∧ decodeFrame 8 [0x06#8, 0#8] = .error .trailingBytes ∧
    decodeFrame 8 [0x03#8, 0#8, 0#8, 0#8] = .error .missingData ∧
    decodeFrame 8 [0x0B#8, 0#8, 0#8, 0#8] = .error .missingDummy := by decide

theorem test_decode_host_queries :
    decodeRequest (.ofOp 0x01#8) = .ok .init ∧ decodeRequest (.ofOp 0x02#8) = .ok .capacity ∧
    decodeRequest (.ofOp 0x03#8) = .ok .blockmax ∧ decodeRequest (.ofOp 0x04#8) = .ok .sectormax ∧
    decodeRequest (.ofOp 0x05#8) = .ok .pagemax ∧ decodeRequest (.ofOp 0x10#8) = .ok .select ∧
    decodeRequest (.ofOp 0x11#8) = .ok .deselect ∧ decodeRequest (.ofOp 0x29#8) = .ok .readuid ∧
    decodeRequest (.ofOp 0x42#8) = .ok .erasechip := by decide

theorem test_decode_host_reads :
    decodeRequest ⟨0x20#8, 1#32, 2#32, 3#32, 4#32, []⟩ = .ok (.read 1#32 3#32) ∧
    decodeRequest ⟨0x21#8, 1#32, 2#32, 3#32, 4#32, []⟩ = .ok (.readpage 1#32 2#32 3#32) ∧
    decodeRequest ⟨0x22#8, 1#32, 2#32, 3#32, 4#32, []⟩ = .ok (.readsector 1#32 2#32 3#32) ∧
    decodeRequest ⟨0x23#8, 1#32, 2#32, 3#32, 4#32, []⟩ = .ok (.readblock 1#32 2#32 3#32) ∧
    decodeRequest ⟨0x28#8, 1#32, 2#32, 3#32, 4#32, []⟩ = .ok (.readstatus 1#32) ∧
    decodeRequest ⟨0x18#8, 1#32, 2#32, 3#32, 4#32, []⟩ = .ok (.waitbusy 4#32) ∧
    decodeRequest ⟨0x50#8, 1#32, 2#32, 3#32, 4#32, []⟩ = .ok (.setfast 1#32) := by decide

theorem test_decode_host_writes :
    decodeRequest ⟨0x30#8, 1#32, 2#32, 1#32, 4#32, [9#8]⟩ = .ok (.writepage 1#32 2#32 1#32 [9#8]) ∧
    decodeRequest ⟨0x31#8, 1#32, 2#32, 1#32, 4#32, [9#8]⟩ = .ok (.write 1#32 1#32 [9#8]) ∧
    decodeRequest ⟨0x32#8, 1#32, 2#32, 1#32, 4#32, [9#8]⟩ = .ok (.writeuntil 1#32 1#32 4#32 [9#8]) ∧
    decodeRequest ⟨0x38#8, 1#32, 2#32, 1#32, 4#32, []⟩ = .ok (.writestatus 1#32 2#32) ∧
    decodeRequest ⟨0x40#8, 1#32, 2#32, 1#32, 4#32, []⟩ = .ok (.erasesector 1#32) ∧
    decodeRequest ⟨0x41#8, 1#32, 2#32, 1#32, 4#32, []⟩ = .ok (.eraseblock 1#32) := by decide

theorem test_decode_refuses_requests :
    decodeRequest (.ofOp 0x00#8) = .error (.illegalOp 0x00#8) ∧ decodeRequest (.ofOp 0x06#8) = .error (.illegalOp 0x06#8) ∧
    decodeRequest (.ofOp 0x12#8) = .error (.illegalOp 0x12#8) ∧ decodeRequest (.ofOp 0x51#8) = .error (.illegalOp 0x51#8) ∧
    decodeRequest (.ofOp 0xFF#8) = .error (.illegalOp 0xFF#8) := by decide

theorem test_table_words :
    decodeTableWord 8 0x9F = some .rdid ∧ decodeTableWord 8 0x06 = some .wren ∧ decodeTableWord 8 0xD8 = some (.be3 0#24) ∧
    decodeTableWord 8 0x0B = some (.fr3 0#24 1) ∧ decodeTableWord 8 0x01 = some .init ∧
    decodeTableWord 8 0x50 = some (.setfast 0#32) ∧ decodeTableWord 8 0xFF = none := by decide

/-! SPI frames: one step on the reference device (V-ENC-25 to V-ENC-38; the opcodes they leave out from R94). -/

theorem test_wren :
    gives (exec .wren (ident256 0)) (fun t => wire t == sent [0x06#8] [] && t.dev.wel && t.frameOk) = true := by decide

theorem test_wrdi :
    gives (exec .wrdi { ident256 0 with dev := { (ident256 0).dev with wel := true } })
      (fun t => wire t == sent [0x04#8] [] && !t.dev.wel && t.frameOk) = true := by decide

theorem test_ce :
    gives (exec .ce (ident256 0)) (fun t => wire t == sent [0xC7#8] [] && t.frameOk) = true := by decide

theorem test_rdsr1 :
    gives (exec .rdsr1 (ident256 0)) (fun t => t.trace.drop 2 == [.xfer 0x00#8 0x00#8, .cs1] && t.frameRx == [0x00#8]) = true := by
  decide

theorem test_rdsr1_busy_latch :
    gives (exec .rdsr1 { ident256 0 with dev := { (ident256 0).dev with wel := true, busyLeft := 1 } })
      (fun t => t.frameRx == [0x03#8] && t.sr1 == 0x03#8 && t.dev.busyLeft == 0) = true := by decide

theorem test_rdsr2 :
    gives (exec .rdsr2 { ident256 0 with dev := { (ident256 0).dev with refSr2 := 0x02#8 } })
      (fun t => wire t == sent [0x35#8, 0x00#8] [] && t.sr2 == 0x02#8 && t.sr1 == 0x00#8) = true := by decide

theorem test_rdsr3 :
    gives (exec .rdsr3 { ident256 0 with dev := { (ident256 0).dev with refSr3 := 0x60#8 } })
      (fun t => wire t == sent [0x15#8, 0x00#8] [] && t.sr3 == 0x60#8) = true := by decide

theorem test_wrsr1 :
    gives (exec (.wrsr1 0xFF#8) (ident256 0)) (fun t => wire t == sent [0x01#8, 0xFF#8] []) = true := by decide

theorem test_wrsr2 :
    gives (exec (.wrsr2 0x02#8) { ident256 1 with dev := { (ident256 1).dev with wel := true } })
      (fun t => wire t == sent [0x31#8, 0x02#8] [] && t.dev.refSr2 == 0x02#8 && t.dev.busyLeft == 1) = true := by decide

theorem test_wrsr3 :
    gives (exec (.wrsr3 0x60#8) (ident256 0)) (fun t => wire t == sent [0x11#8, 0x60#8] [] && t.dev.refSr3 == 0x00#8) = true := by
  decide

theorem test_rdid :
    gives (exec .rdid (ident256 0))
      (fun t => wire t == sent [0x9F#8, 0x00#8, 0x00#8, 0x00#8] [] && t.frameRx == [0xEF#8, 0x40#8, 0x18#8]) = true := by decide

theorem test_rduid :
    gives (exec .rduid (ident256 0))
      (fun t => wire t == sent [0x4B#8, 0#8, 0#8, 0#8, 0#8] [.bulkRx 8 8 []] &&
        t.frameRx == [0xD1#8, 0xD2#8, 0xD3#8, 0xD4#8, 0xD5#8, 0xD6#8, 0xD7#8, 0xD8#8]) = true := by decide

theorem test_se3 :
    gives (exec (.se3 0x001000#24) (ident256 0)) (fun t => wire t == sent [0x20#8, 0x00#8, 0x10#8, 0x00#8] []) = true := by decide

theorem test_se3_erases_its_sector :
    gives (exec (.se3 0x001000#24)
        { ident256 0 with dev := { (ident256 0).dev with wel := true, mem := [(0xFFF, 1#8), (0x1000, 2#8), (0x1FFF, 3#8), (0x2000, 4#8)] } })
      (fun t => t.dev.mem == [(0xFFF, 1#8), (0x2000, 4#8)]) = true := by decide

theorem test_se4 :
    gives (exec (.se4 0x01000000#32) ident512) (fun t => wire t == sent [0x21#8, 0x01#8, 0x00#8, 0x00#8, 0x00#8] []) = true := by
  decide

theorem test_be3 :
    gives (exec (.be3 0xFF0000#24) (ident256 0)) (fun t => wire t == sent [0xD8#8, 0xFF#8, 0x00#8, 0x00#8] []) = true := by decide

theorem test_be4 :
    gives (exec (.be4 0x01000000#32) ident512) (fun t => wire t == sent [0xDC#8, 0x01#8, 0x00#8, 0x00#8, 0x00#8] []) = true := by
  decide

theorem test_read3 :
    gives (exec (.read3 0x001000#24 4) (ident256 0))
      (fun t => wire t == sent [0x03#8, 0x00#8, 0x10#8, 0x00#8] [.bulkRx 4 4 []] &&
        t.frameRx == [0xFF#8, 0xFF#8, 0xFF#8, 0xFF#8]) = true := by decide

theorem test_read4 :
    gives (exec (.read4 0x01000080#32 1) ident512)
      (fun t => wire t == sent [0x13#8, 0x01#8, 0x00#8, 0x00#8, 0x80#8] [.bulkRx 1 1 []] && t.frameRx == [0xFF#8]) = true := by
  decide

theorem test_fr3 :
    gives (exec (.fr3 0x0002FE#24 2) (ident256 0))
      (fun t => wire t == sent [0x0B#8, 0x00#8, 0x02#8, 0xFE#8, 0x00#8] [.bulkRx 2 2 []] &&
        t.frameRx == [0xFF#8, 0xFF#8]) = true := by decide

theorem test_fr4 :
    gives (exec (.fr4 0x01FFFFFF#32 2) { ident512 with dev := { ident512.dev with mem := [(0, 7#8), (0x01FFFFFF, 9#8)] } })
      (fun t => wire t == sent [0x0C#8, 0x01#8, 0xFF#8, 0xFF#8, 0xFF#8, 0x00#8] [.bulkRx 2 2 []] &&
        t.frameRx == [9#8, 7#8]) = true := by decide

theorem test_pp3 :
    gives (exec (.pp3 0x0000FF#24 [0x5A#8]) { ident256 0 with dev := { (ident256 0).dev with wel := true, mem := [(255, 0x0F#8)] } })
      (fun t => wire t == sent [0x02#8, 0x00#8, 0x00#8, 0xFF#8] [.bulkTx [0x5A#8] 1] && t.dev.mem == [(255, 0x0A#8)]) = true := by
  decide

theorem test_pp4 :
    gives (exec (.pp4 0x01000080#32 [1#8, 2#8]) { ident512 with dev := { ident512.dev with wel := true } })
      (fun t => wire t == sent [0x12#8, 0x01#8, 0x00#8, 0x00#8, 0x80#8] [.bulkTx [1#8, 2#8] 2] &&
        t.dev.mem == [(0x01000080, 1#8), (0x01000081, 2#8)]) = true := by decide

/-! Host operations. -/

/-- P1, operation 1. -/
theorem test_init :
    gives (exec .init (onDevice 2)) (fun t =>
      wire t == sent [0x04#8] [] ++ sent [0x9F#8, 0#8, 0#8, 0#8] [] ++ sent [0x05#8, 0#8] [] ++ sent [0x35#8, 0#8] [] ++
        sent [0x15#8, 0#8] [] && t.result == 1#32 && t.blockcount == 256#16 && t.vendor == 0xEF#8 && t.capcode == 0x18#8 &&
      t.lasterr == .none && t.depth == 0 && t.cs) = true := by decide

/-- P5, operation 1. -/
theorem test_init_other_vendor :
    gives (exec .init { onDevice 2 with dev := { Flash.initial with refId := [0xC2#8, 0x20#8, 0x18#8] } }) (fun t =>
      wire t == sent [0x04#8] [] ++ sent [0x9F#8, 0#8, 0#8, 0#8] [] && t.result == 0#32 && t.lasterr == .unsupportedDevice &&
      t.blockcount == 0#16) = true := by decide

/-- P1, operations 2 to 5. -/
theorem test_capacity : gives (exec .capacity (ident256 0)) (fun t => t.result == 16777216#32 && t.trace.isEmpty) = true := by decide
theorem test_blockmax : gives (exec .blockmax (ident256 0)) (fun t => t.result == 256#32 && t.trace.isEmpty) = true := by decide
theorem test_sectormax : gives (exec .sectormax (ident256 0)) (fun t => t.result == 4096#32 && t.trace.isEmpty) = true := by decide
theorem test_pagemax : gives (exec .pagemax (ident256 0)) (fun t => t.result == 65536#32 && t.trace.isEmpty) = true := by decide

/-- V-CS-1, V-CS-6. -/
theorem test_select : gives (exec .select State.reset) (fun t => t.trace == [.cs0] && t.depth == 1 && !t.cs) = true := by decide
theorem test_select_overflow :
    gives (exec .select { State.reset with depth := 2147483647, cs := false })
      (fun t => t.trace.isEmpty && t.fault && t.faultcause == .selectOverflow && t.depth == 2147483647) = true := by decide

/-- V-CS-2, V-CS-5. -/
theorem test_deselect :
    gives (exec .deselect { State.reset with depth := 1, cs := false }) (fun t => t.trace == [.cs1] && t.depth == 0 && t.cs) = true := by
  decide
theorem test_deselect_underflow :
    gives (exec .deselect State.reset) (fun t => t.trace.isEmpty && t.fault && t.faultcause == .selectUnderflow && t.cs) = true := by
  decide

/-- V-BP-3, V-BP-2. -/
theorem test_waitbusy :
    gives (exec (.waitbusy 0#32) { ident256 0 with ticks := [7#32] })
      (fun t => wire t == .tick 7#32 :: sent [0x05#8, 0#8] [] && t.result == 1#32 && t.seq == .idle) = true := by decide
theorem test_waitbusy_gives_up :
    gives (exec (.waitbusy 0#32) { ident256 0 with ticks := [7#32, 7#32], script := oks [0#8, 0x01#8] })
      (fun t => wire t == .tick 7#32 :: (sent [0x05#8, 0#8] [] ++ [.tick 7#32]) && t.result == 0#32 && t.lasterr == .busyTimeout) =
      true := by decide

/-- V-RD-1, V-RD-2. -/
theorem test_read :
    gives (exec (.read 0xFF#32 3#32) (ident256 0))
      (fun t => wire t == sent [0x03#8, 0x00#8, 0x00#8, 0xFF#8] [.bulkRx 3 3 []] && t.result == 3#32 &&
        t.rdata == [0xFF#8, 0xFF#8, 0xFF#8] && t.lasterr == .none) = true := by decide
theorem test_read_clamped :
    gives (exec (.read 0xFFFFFF#32 5#32) (ident256 0))
      (fun t => wire t == sent [0x03#8, 0xFF#8, 0xFF#8, 0xFF#8] [.bulkRx 1 1 []] && t.result == 1#32 &&
        t.lasterr == .partialRead) = true := by decide

/-- V-RD-5, V-RD-6, V-RD-7, V-RD-9. -/
theorem test_readpage_fast :
    gives (exec (.readpage 2#32 254#32 10#32) { ident256 0 with fast := .fast })
      (fun t => wire t == sent [0x0B#8, 0x00#8, 0x02#8, 0xFE#8, 0x00#8] [.bulkRx 2 2 []] && t.result == 2#32 &&
        t.lasterr == .partialRead) = true := by decide
theorem test_readsector :
    gives (exec (.readsector 1#32 4095#32 10#32) (ident256 0))
      (fun t => wire t == sent [0x03#8, 0x00#8, 0x1F#8, 0xFF#8] [.bulkRx 1 1 []] && t.lasterr == .partialRead) = true := by decide
theorem test_readblock :
    gives (exec (.readblock 255#32 65535#32 9#32) (ident256 0))
      (fun t => wire t == sent [0x03#8, 0xFF#8, 0xFF#8, 0xFF#8] [.bulkRx 1 1 []] && t.lasterr == .partialRead) = true := by decide
theorem test_readblock_four_bytes :
    gives (exec (.readblock 256#32 0#32 4#32) ident512)
      (fun t => wire t == sent [0x13#8, 0x01#8, 0x00#8, 0x00#8, 0x00#8] [.bulkRx 4 4 []] && t.result == 4#32) = true := by decide

/-- V-BP-9, V-BP-12. -/
theorem test_readstatus :
    gives (exec (.readstatus 2#32) { ident256 0 with dev := { (ident256 0).dev with refSr2 := 0x02#8 } })
      (fun t => wire t == sent [0x35#8, 0x00#8] [] && t.result == 2#32 && t.sr2 == 0x02#8) = true := by decide
theorem test_readstatus_failed :
    gives (exec (.readstatus 1#32) { ident256 0 with script := failAt 2, sr1 := 0x44#8 })
      (fun t => t.result == 0#32 && t.lasterr == .transferFailure && t.sr1 == 0x44#8 && t.cs) = true := by decide

/-- V-RD-13, V-RD-14. -/
theorem test_readuid :
    gives (exec .readuid (onDevice 2))
      (fun t => wire t == sent [0x4B#8, 0#8, 0#8, 0#8, 0#8] [.bulkRx 8 8 []] && t.result == 8#32 &&
        t.rdata == [0xD1#8, 0xD2#8, 0xD3#8, 0xD4#8, 0xD5#8, 0xD6#8, 0xD7#8, 0xD8#8]) = true := by decide
theorem test_readuid_failed :
    gives (exec .readuid { onDevice 2 with script := failAt 3 })
      (fun t => wire t == sent [0x4B#8, 0#8] [.xferFail 0#8] && t.result == 0#32 && t.lasterr == .transferFailure) = true := by decide

/-- V-WR-2, V-ERR-3. -/
theorem test_writepage :
    gives (exec (.writepage 3#32 0x10#32 3#32 [0x11#8, 0x22#8, 0x33#8]) (ident256 0))
      (fun t => wire t == sent [0x06#8] [] ++ sent [0x02#8, 0x00#8, 0x03#8, 0x10#8] [.bulkTx [0x11#8, 0x22#8, 0x33#8] 3] ++
          sent [0x05#8, 0#8] [] ++ sent [0x04#8] [] && t.result == 3#32 && t.lasterr == .none &&
        t.dev.mem == [(0x310, 0x11#8), (0x311, 0x22#8), (0x312, 0x33#8)]) = true := by decide
theorem test_writepage_failed_before_the_clamp :
    gives (exec (.writepage 0#32 255#32 2#32 [0x5A#8, 0x5B#8]) { ident256 0 with script := failAt 1 })
      (fun t => wire t == sent [] [.xferFail 0x06#8] && t.result == 0#32 && t.lasterr == .transferFailure) = true := by decide

/-- V-WR-8, V-WR-11. -/
theorem test_write_clamped :
    gives (exec (.write 16777214#32 5#32 [1#8, 2#8, 3#8, 4#8, 5#8]) (ident256 0))
      (fun t => wire t == sent [0x06#8] [] ++ sent [0x02#8, 0xFF#8, 0xFF#8, 0xFE#8] [.bulkTx [1#8, 2#8] 2] ++
          sent [0x05#8, 0#8] [] ++ sent [0x04#8] [] && t.result == 2#32 && t.lasterr == .partialWrite) = true := by decide
theorem test_write_failed :
    gives (exec (.write 0#32 1#32 [0#8]) { ident256 0 with script := failAt 1 })
      (fun t => wire t == sent [] [.xferFail 0x06#8] && t.result == 0#32 && t.lasterr == .transferFailure) = true := by decide

/-- V-WR-13, and the first attempt of P4. -/
theorem test_writeuntil_nothing :
    gives (exec (.writeuntil 10#32 0#32 5#32 []) { ident256 0 with ticks := [55#32] })
      (fun t => t.trace == [.tick 55#32] && t.result == 0#32 && t.lasterr == .none) = true := by decide
theorem test_writeuntil_retries :
    gives (exec (.writeuntil 0x1FE#32 4#32 10#32 [0xA1#8, 0xA2#8, 0xA3#8, 0xA4#8])
        { ident256 0 with ticks := [100#32, 103#32], script := failAt 1 })
      (fun t => wire t == .tick 100#32 :: (sent [] [.xferFail 0x06#8] ++ [.tick 103#32]) && t.seq == .check && t.page == 1#32 &&
        t.off == 254#32 && t.start == 100#32) = true := by decide

/-- V-BP-14, V-BP-18. -/
theorem test_writestatus :
    gives (exec (.writestatus 1#32 0x1FF#32) (onDevice 0))
      (fun t => wire t == sent [0x06#8] [] ++ sent [0x01#8, 0xFF#8] [] ++ sent [0x05#8, 0#8] [] ++ sent [0x04#8] [] &&
        t.result == 1#32) = true := by decide
theorem test_writestatus_frame_failed :
    gives (exec (.writestatus 1#32 0#32) { onDevice 0 with script := failAt 2 })
      (fun t => wire t == sent [0x06#8] [] ++ sent [] [.xferFail 0x01#8] ++ sent [0x05#8, 0#8] [] ++ sent [0x04#8] [] &&
        t.result == 1#32 && t.sr1 == 0x02#8) = true := by decide

/-- V-ER-5, V-ER-10. -/
theorem test_erasesector :
    gives (exec (.erasesector 4095#32) (ident256 0))
      (fun t => wire t == sent [0x06#8] [] ++ sent [0x20#8, 0xFF#8, 0xF0#8, 0x00#8] [] ++ sent [0x05#8, 0#8] [] ++ sent [0x04#8] [] &&
        t.result == 1#32) = true := by decide
theorem test_erasesector_frame_failed :
    gives (exec (.erasesector 2#32) { ident256 1 with script := failAt 3 })
      (fun t => wire t == sent [0x06#8] [] ++ sent [0x20#8] [.xferFail 0x00#8] ++ sent [0x05#8, 0#8] [] ++ sent [0x04#8] [] &&
        t.result == 1#32 && t.lasterr == .none && t.sr1 == 0x02#8) = true := by decide

/-- V-ER-6, and the erased block of V-ER-9. -/
theorem test_eraseblock_four_bytes :
    gives (exec (.eraseblock 256#32) ident512)
      (fun t => wire t == sent [0x06#8] [] ++ sent [0xDC#8, 0x01#8, 0x00#8, 0x00#8, 0x00#8] [] ++ sent [0x05#8, 0#8] [] ++
        sent [0x04#8] [] && t.result == 1#32) = true := by decide
theorem test_eraseblock_leaves_the_next :
    gives (exec (.eraseblock 0#32)
        { ident256 0 with dev := { (ident256 0).dev with mem := [(65534, 1#8), (65535, 2#8), (65536, 3#8), (65537, 4#8)] } })
      (fun t => t.dev.mem == [(65536, 3#8), (65537, 4#8)]) = true := by decide

/-- V-ER-8 up to its first poll, V-ER-12. -/
theorem test_erasechip :
    gives (exec .erasechip (onDevice 1))
      (fun t => wire t == sent [0x06#8] [] ++ sent [0xC7#8] [] ++ sent [0x05#8, 0#8] [] && t.seq == .wait && t.sr1 == 0x01#8) = true := by
  decide
theorem test_erasechip_failed :
    gives (exec .erasechip { ident256 0 with script := failAt 1 })
      (fun t => wire t == sent [] [.xferFail 0x06#8] && t.result == 0#32 && t.lasterr == .transferFailure) = true := by decide

/-- V-FM-8, V-FM-4. -/
theorem test_setfast :
    gives (exec (.setfast 0x80000000#32) (ident256 0)) (fun t => t.fast == .fast && t.result == 1#32 && t.trace.isEmpty) = true := by
  decide
theorem test_setfast_unidentified :
    gives (exec (.setfast 1#32) State.reset) (fun t => t.fast == .unset && t.result == 0#32 && t.lasterr == .refused) = true := by decide

/-! Phases. -/

/-- The phase a frame stands in where `SelectOverflow` stops it (R33, R261): INIT starts with its write disable, an erase with its
write enable, a read with its command; a frame by itself has the phase of its kind. -/
theorem test_phase_of_a_stopped_frame :
    let full := { ident256 0 with depth := 2147483647, cs := false, dev := { (ident256 0).dev with selected := true } }
    gives (exec .init full) (fun t => t.seq == .wrdi) = true ∧
    gives (exec (.erasesector 1#32) full) (fun t => t.seq == .wren) = true ∧
    gives (exec (.readpage 1#32 0#32 4#32) full) (fun t => t.seq == .cmd) = true ∧
    gives (exec (.readstatus 2#32) full) (fun t => t.seq == .status) = true ∧
    gives (exec .rdsr1 full) (fun t => t.seq == .status) = true ∧
    gives (exec .wren full) (fun t => t.seq == .wren) = true ∧
    gives (exec .rdid full) (fun t => t.seq == .ident) = true := by decide

/-! The host port and reset. -/

/-- V-FLT-3, V-FLT-4. -/
theorem test_illegal_op :
    gives (step { ident256 0 with hostQ := [.op (.ofOp 0x51#8)] })
      (fun t => t.fault && t.faultcause == .illegalOp && t.trace.isEmpty && t.op == 0#8) = true := by decide
theorem test_reentry :
    gives (step { ident256 0 with hostQ := [.barge (.ofOp 0x02#8)], seq := .wait, op := 0x42#8 })
      (fun t => t.fault && t.faultcause == .reentry && t.seq == .wait && t.result == 0#32) = true := by decide

/-- V-FLT-6. -/
theorem test_reset :
    gives (step { ident256 0 with
        hostQ := [.reset], fault := true, faultcause := .reentry, depth := 1, cs := false, fast := .fast, lasterr := .outOfRange })
      (fun t => !t.fault && t.faultcause == .none && t.depth == 0 && t.cs && t.blockcount == 0#16 && t.fast == .unset &&
        t.lasterr == .none && t.seq == .idle && t.trace == [.cs1]) = true := by decide

/-- An instruction placed by `withFetchWord` is what the next step runs: INIT from reset. -/
theorem test_fetch :
    gives (step ((onDevice 2).withFetchWord 8 0x01)) (fun t => t.op == 0x01#8 && t.result == 1#32 && t.hostQ.isEmpty) = true := by decide

/-! Witnesses: for each statement with hypotheses a concrete state and operands that meet them, each clause at a boundary of its range. -/

/-- `ident256` with the coming answers given, the line held by the host `depth` times. -/
def calm (depth : Nat) (script : List (Option Answer)) : State :=
  { ident256 0 with
    depth := depth, cs := decide (depth = 0), dev := { (ident256 0).dev with selected := decide (depth ≠ 0) }, script := script }

/-- A WAITBUSY in progress. -/
def waiting (script : List (Option Answer)) (ticks : List Word) (tmo start : Word) : State :=
  { calm 0 script with seq := .wait, op := 0x18#8, tmo := tmo, start := start, ticks := ticks }

theorem default_wf : Params.default.wf :=
  ⟨rfl, by decide, by simp [Params.default], by simp [Params.default], by decide, by decide, by decide, by decide, by decide, by decide⟩

theorem legal_of {s : State} (hc : s.cfg = Params.default)
    (h : GuardOk s ∧ IdentityOk s ∧ DeviceOk s ∧ FaultOk s ∧ BoundaryOk s) : Legal s := ⟨hc ▸ default_wf, h⟩

theorem legal_reset : Legal State.reset := legal_of rfl (by decide)
theorem legal_calm : Legal (calm 0 []) := legal_of rfl (by decide)
theorem legal_held : Legal (calm 2147483647 []) := legal_of rfl (by decide)
theorem legal_waiting : Legal (waiting (oks [0#8, 1#8]) [5#32] 9#32 0#32) := legal_of rfl (by decide)

/-! Answers that meet Safety's relations of a frame to its answers and events. -/

theorem sent_exists (s : State) {tx rx : List Byte} (h : rx.length = tx.length) : ∃ es, FrameSent s tx (oks rx) es :=
  ⟨_, rx, h, rfl, rfl⟩

theorem cut_exists (s : State) {pre rx : List Byte} (c : Byte) (post : List Byte) (h : rx.length = pre.length) :
    ∃ es, FrameCut s (pre ++ c :: post) (oks rx ++ [some (.fail 0 [])]) es :=
  ⟨_, pre, c, post, rx, 0, [], rfl, h, rfl, rfl⟩

theorem idle_exists (s : State) (p q : Byte) (h : q.getLsbD 0 = false) : ∃ es, PollIdle s q (oks [p, q]) es :=
  ⟨_, p, h, rfl, rfl⟩

theorem busy_exists (s : State) (p q : Byte) (h : q.getLsbD 0 = true) : ∃ es, PollBusy s (oks [p, q]) es :=
  ⟨_, .inl ⟨p, q, h, rfl, rfl⟩⟩

theorem busy_exists_failed (s : State) (r : Byte) : ∃ es, PollBusy s (oks [r] ++ [some (.fail 0 [])]) es :=
  ⟨_, .inr ⟨[0x05#8], s.cfg.dummy, [], [r], 0, [], rfl, rfl, rfl, rfl⟩⟩

theorem program_exists (s : State) (linear : Nat) (data rx : List Byte) (h : rx.length = (cmdAddr .program linear s).length) :
    ∃ es, ProgramSent s linear data (oks rx ++ [some (.ok [])]) es := ⟨_, rx, [], h, rfl, rfl⟩

/-- A program session that fails in its bulk transfer, after the write enable. -/
theorem stops_exists (s : State) (linear : Nat) (data rx : List Byte) (w : Byte)
    (h : rx.length = (cmdAddr .program linear s).length) (hd : 0 < data.length) :
    ∃ es, ProgramStops s linear data (oks [w] ++ (oks rx ++ [some (.fail 0 [])])) es :=
  ⟨_, .inr ⟨_, _, _, _, ⟨[w], rfl, rfl, rfl⟩, .inr ⟨rx, 0, [], hd, h, rfl, rfl⟩, rfl, rfl⟩⟩

theorem test_witness_DecodeEncodeAgree :
    Instr.wellFormed (.pp3 0xFFFFFF#24 [0xFF#8]) = true ∧ Instr.wellFormed (.be4 0xFFFF0000#32) = true ∧
    Instr.wellFormed (.writeuntil 0xFFFFFFFF#32 1#32 0xFFFFFFFF#32 [0#8]) = true := by decide

theorem test_witness_UnassignedCodes :
    (Request.ofOp 0x50#8).op ∈ hostCodes ∧ (Request.ofOp 0x51#8).op ∉ hostCodes ∧ (calm 0 []).fault = false ∧
    (calm 0 []).seq = .idle := by decide

theorem test_witness_OpcodeSelection :
    let fixed : Bool → State := fun b => { ident256 0 with cfg := { Params.default with fastCfg := .fixed b } }
    { ident256 0 with cfg := { Params.default with fastCfg := .disabled } }.cfg.fastCfg = .disabled ∧
    (ident256 0).cfg.fastCfg = .enabled ∧ (ident256 0).fast ≠ .fast ∧ { ident256 0 with fast := .fast }.fast = .fast ∧
    (fixed true).cfg.fastCfg = .fixed true ∧ (fixed false).cfg.fastCfg = .fixed false := by decide

theorem test_witness_OpcodeSelection_frames : Ready (calm 1 []) ∧ (calm 1 []).cfg.wf := ⟨by decide, default_wf⟩

theorem test_witness_AddressBytes :
    Params.default.addrMode = .auto ∧ a4 Params.default 256#16 = false ∧ (0xFFFFFF#32).toNat < capacityOf 256#16 := by decide

theorem test_witness_Translate :
    unitMax 256#16 .page ≤ 65536 ∧ unitSize .page ≤ 256 ∧ 65535 < unitMax 256#16 .page ∧ 255 < unitSize .page ∧
    xlate 256#16 .page 65535 255 2 = some (16777215, 1) ∧ xlate 256#16 .page 3 10 0 = some (778, 0) ∧
    xlate 256#16 .block 255 65535 9 = some (16777215, 1) ∧ xlate 256#16 .sector 4096 0 1 = none ∧ xlate 0#16 .page 0 0 1 = none := by
  decide

theorem test_witness_Decompose : (16777215#32).toNat < capacityOf 256#16 ∧ decomp 16777215 = (65535, 255) := by decide

theorem test_witness_ClampToCapacity :
    capacityOf 256#16 ≤ 16777216 ∧ 16777215 < capacityOf 256#16 ∧ clampLinear 256#16 16777000 0xFFFFFFFF = some 216 ∧
    clampLinear 256#16 16777216 0 = none ∧ clampLinear 0#16 0 1 = none := by decide

theorem test_witness_NothingWraps :
    xlate 65535#16 .block (65534#32).toNat (65535#32).toNat (0xFFFFFFFF#32).toNat = some (4294901759, 1) ∧
    clampLinear 65535#16 (4294901759#32).toNat (0xFFFFFFFF#32).toNat = some 1 := by decide

theorem test_witness_CapacityTable :
    (0x10#8).toNat < Params.default.capBase.toNat ∧ (0x1A#8).toNat = Params.default.capBase.toNat + 9 ∧
    9 < Params.default.capTable.length ∧ (0x1B#8).toNat = Params.default.capBase.toNat + 10 ∧
    Params.default.capTable.length ≤ 10 := by decide

theorem test_witness_CapacityTable_parameters : Params.default.wf := default_wf

theorem test_witness_AddressMode :
    { Params.default with addrMode := .force3 }.addrMode = .force3 ∧ { Params.default with addrMode := .force4 }.addrMode = .force4 ∧
    Params.default.addrMode = .auto ∧ a4 Params.default 257#16 = true ∧ a4 Params.default 256#16 = false := by decide

theorem test_witness_SelectAcquires :
    (calm 2147483646 []).fault = false ∧ (calm 2147483646 []).seq = .idle ∧
    (calm 2147483646 []).depth < (calm 2147483646 []).cfg.depthMax ∧ 1 ≤ (calm 2147483646 []).depth ∧
    (calm 0 []).depth < (calm 0 []).cfg.depthMax ∧ (calm 0 []).depth = 0 ∧
    (calm 2147483647 []).depth = (calm 2147483647 []).cfg.depthMax := by decide

theorem test_witness_DeselectReleases :
    (calm 2 []).fault = false ∧ (calm 2 []).seq = .idle ∧ 2 ≤ (calm 2 []).depth ∧ (calm 1 []).depth = 1 ∧ (calm 0 []).depth = 0 := by
  decide

theorem test_witness_NestingLaw :
    (calm 0 []).fault = false ∧ (calm 0 []).seq = .idle ∧ (calm 0 []).depth = 0 ∧ 1 ≤ 2147483647 ∧
    2147483647 ≤ (calm 0 []).cfg.depthMax ∧ GuardOk (calm 0 []) ∧
    (execAll [.select, .select, .deselect] (calm 0 [])).map State.fault = some false := by decide

theorem test_witness_EveryOperationReleases : ∃ t, Legal (calm 0 []) ∧ exec .capacity (calm 0 []) = .next t :=
  ⟨_, legal_calm, rfl⟩

theorem test_witness_EveryOperationReleases_later :
    ∃ t, Legal (waiting (oks [0#8, 1#8]) [5#32] 9#32 0#32) ∧ proceed (waiting (oks [0#8, 1#8]) [5#32] 9#32 0#32) = .next t :=
  ⟨_, legal_waiting, rfl⟩

theorem test_witness_FaultIgnores : { calm 0 [] with fault := true, faultcause := .illegalOp }.fault = true := by decide

theorem test_witness_ReentryFaults : (waiting [] [] 0#32 0#32).fault = false ∧ (waiting [] [] 0#32 0#32).seq ≠ .idle := by decide

theorem test_witness_FaultUntilReset :
    ∃ s t : State, s.fault = true ∧ (∀ q, s.hostQ ≠ .reset :: q) ∧ step s = .next t :=
  ⟨{ calm 0 [] with fault := true, faultcause := .reentry, hostQ := [.op (.ofOp 0x01#8)] }, _, rfl, (fun _ h => by cases h), rfl⟩

theorem test_witness_OnlyOverflowInside :
    (calm 2147483647 []).fault = false ∧ (calm 2147483647 []).seq = .idle ∧
    gives (exec .wren (calm 2147483647 [])) (fun t => t.fault && t.faultcause == .selectOverflow) = true := by decide

theorem test_witness_InitIdentifies :
    let s := calm 1 (oks [1#8, 2#8, 0xEF#8, 0xFF#8, 0x11#8, 3#8, 4#8, 5#8, 6#8, 7#8, 8#8] ++ [none])
    Ready s ∧ s.script = oks [1#8, 2#8, 0xEF#8, 0xFF#8, 0x11#8, 3#8, 4#8, 5#8, 6#8, 7#8, 8#8] ++ [none] ∧
    0xEF#8 = s.cfg.vendorMarker ∧ lookup s.cfg 0x11#8 = some 2#16 := by decide

theorem test_witness_InitIdentifies_failed_reads :
    let s := calm 0 (oks [1#8, 2#8, 0xEF#8, 0x40#8, 0x1A#8] ++ some (.fail 0 []) :: some (.fail 0 []) :: some (.fail 0 []) :: [])
    Ready s ∧ s.script = oks [1#8, 2#8, 0xEF#8, 0x40#8, 0x1A#8] ++ some (.fail 0 []) :: some (.fail 0 []) :: some (.fail 0 []) :: [] ∧
    0xEF#8 = s.cfg.vendorMarker ∧ lookup s.cfg 0x1A#8 = some 1024#16 := by decide

theorem test_witness_InitRejects :
    let s := calm 0 (oks [1#8, 2#8, 0xEE#8, 0x40#8, 0x18#8] ++ [])
    let u := calm 0 (oks [1#8, 2#8, 0xEF#8, 0x40#8, 0x1B#8] ++ [])
    Ready s ∧ s.script = oks [1#8, 2#8, 0xEE#8, 0x40#8, 0x18#8] ++ [] ∧ 0xEE#8 ≠ s.cfg.vendorMarker ∧
    Ready u ∧ u.script = oks [1#8, 2#8, 0xEF#8, 0x40#8, 0x1B#8] ++ [] ∧ lookup u.cfg 0x1B#8 = none := by decide

theorem test_witness_InitAbsent :
    let s := calm 0 (some (.fail 0 []) :: [])
    let u := calm 0 (oks (1#8 :: []) ++ some (.fail 0 []) :: [])
    let v := calm 0 (oks (1#8 :: [2#8, 0xEF#8, 0x40#8]) ++ some (.fail 0 []) :: [])
    Ready s ∧ s.script = some (.fail 0 []) :: [] ∧ Ready u ∧ u.script = oks (1#8 :: []) ++ some (.fail 0 []) :: [] ∧
    Ready v ∧ v.script = oks (1#8 :: [2#8, 0xEF#8, 0x40#8]) ++ some (.fail 0 []) :: [] ∧
    [2#8, 0xEF#8, 0x40#8].length < 4 := by decide

theorem test_witness_IdentityOnlyByInit :
    (∃ t, exec .select (calm 0 []) = .next t) ∧ (∃ t, proceed (waiting (oks [0#8, 1#8]) [5#32] 9#32 0#32) = .next t) :=
  ⟨⟨_, rfl⟩, ⟨_, rfl⟩⟩

theorem test_witness_GeometryQueries : (calm 3 []).fault = false ∧ (calm 3 []).seq = .idle := by decide

theorem test_witness_ReadstatusReturns :
    let s := calm 0 (oks [1#8, 2#8] ++ [])
    let u := calm 0 (some (.fail 0 []) :: [])
    let v := calm 0 (oks [1#8] ++ some (.fail 0 []) :: [])
    Ready s ∧ s.script = oks [1#8, 2#8] ++ [] ∧ Ready u ∧ u.script = some (.fail 0 []) :: [] ∧
    Ready v ∧ v.script = oks [1#8] ++ some (.fail 0 []) :: [] ∧ (0#32).toNat < 1 ∧ 3 < (4#32).toNat := by decide

theorem test_witness_WritestatusCompletes :
    let s := calm 0 (oks [1#8] ++ oks [2#8, 3#8] ++ oks [4#8, 0xFE#8] ++ oks [6#8] ++ [])
    Ready s ∧ (∃ we, FrameSent s [0x06#8] (oks [1#8]) we) ∧
    (∃ fe, FrameSent s [0x31#8, BitVec.ofNat 8 (0x102#32).toNat] (oks [2#8, 3#8]) fe) ∧ (∃ pe, PollIdle s 0xFE#8 (oks [4#8, 0xFE#8]) pe) ∧
    (∃ de, FrameSent s [0x04#8] (oks [6#8]) de) ∧ s.script = oks [1#8] ++ oks [2#8, 3#8] ++ oks [4#8, 0xFE#8] ++ oks [6#8] ++ [] ∧
    s.script = oks [1#8] ++ oks [2#8, 3#8, 4#8, 0xFE#8, 6#8] ∧ (0#32).toNat < 1 ∧ 3 < (4#32).toNat :=
  ⟨by decide, sent_exists _ rfl, sent_exists _ rfl, idle_exists _ _ _ rfl, sent_exists _ rfl, rfl, rfl, by decide, by decide⟩

/-- The value byte failed, a busy poll; and a write enable that failed. -/
theorem test_witness_WritestatusCompletes_failed :
    let s := calm 0 (oks [1#8] ++ (oks [2#8] ++ [some (.fail 0 [])]) ++ oks [4#8, 1#8] ++ [])
    let u := calm 0 ((oks [] ++ [some (.fail 0 [])]) ++ [])
    (Ready s ∧ (∃ fe, FrameCut s [0x11#8, BitVec.ofNat 8 (0x102#32).toNat] (oks [2#8] ++ [some (.fail 0 [])]) fe) ∧
      (∃ pe, PollBusy s (oks [4#8, 1#8]) pe) ∧
      s.script = oks [1#8] ++ (oks [2#8] ++ [some (.fail 0 [])]) ++ oks [4#8, 1#8] ++ []) ∧
    (Ready u ∧ (∃ we, FrameCut u [0x06#8] (oks [] ++ [some (.fail 0 [])]) we) ∧ u.script = (oks [] ++ [some (.fail 0 [])]) ++ []) :=
  ⟨⟨by decide, cut_exists _ (pre := [0x11#8]) _ [] rfl, busy_exists _ _ _ rfl, rfl⟩,
    by decide, cut_exists _ (pre := []) _ [] rfl, rfl⟩

theorem test_witness_WaitbusySeesIdle :
    let s := { calm 0 (oks [1#8, 0xFE#8] ++ []) with ticks := 0xFFFFFFFF#32 :: [] }
    Ready s ∧ s.ticks = 0xFFFFFFFF#32 :: [] ∧ s.script = oks [1#8, 0xFE#8] ++ [] ∧ (0xFE#8).getLsbD 0 = false := by decide

/-- Elapsed 32 against a timeout of 32 ends the wait, and 31 does not (V-BP-4). -/
theorem test_witness_WaitbusyPolls :
    let s := waiting (oks [1#8, 1#8] ++ []) (16#32 :: []) 32#32 4294967280#32
    let u := waiting ((oks [1#8] ++ [some (.fail 0 [])]) ++ []) (15#32 :: []) 32#32 4294967280#32
    let v := waiting (oks [1#8, 0#8] ++ []) [] 0#32 0#32
    (s.hostQ = [] ∧ s.fault = false ∧ s.seq = .wait ∧ s.op = 0x18#8 ∧ s.depth < s.cfg.depthMax ∧ s.cfg.tickW ≤ 32 ∧
      s.script = oks [1#8, 1#8] ++ [] ∧ s.ticks = 16#32 :: [] ∧ s.tmo.toNat ≤ sinceStart s s.start 16#32) ∧
    (u.hostQ = [] ∧ u.fault = false ∧ u.seq = .wait ∧ u.op = 0x18#8 ∧ u.depth < u.cfg.depthMax ∧ u.cfg.tickW ≤ 32 ∧
      u.script = (oks [1#8] ++ [some (.fail 0 [])]) ++ [] ∧ u.ticks = 15#32 :: [] ∧ sinceStart u u.start 15#32 < u.tmo.toNat) ∧
    (v.hostQ = [] ∧ v.fault = false ∧ v.seq = .wait ∧ v.op = 0x18#8 ∧ v.depth < v.cfg.depthMax ∧ v.cfg.tickW ≤ 32 ∧
      v.script = oks [1#8, 0#8] ++ []) := by decide

theorem test_witness_WaitbusyPolls_polls :
    (∃ pe, PollBusy (waiting (oks [1#8, 1#8] ++ []) (16#32 :: []) 32#32 4294967280#32) (oks [1#8, 1#8]) pe) ∧
    (∃ pe, PollBusy (waiting ((oks [1#8] ++ [some (.fail 0 [])]) ++ []) (15#32 :: []) 32#32 4294967280#32)
      (oks [1#8] ++ [some (.fail 0 [])]) pe) ∧
    (∃ pe, PollIdle (waiting (oks [1#8, 0#8] ++ []) [] 0#32 0#32) 0#8 (oks [1#8, 0#8]) pe) :=
  ⟨busy_exists _ _ _ rfl, busy_exists_failed _ _, idle_exists _ _ _ rfl⟩

theorem test_witness_WaitbusyPolls_first :
    let s := { calm 0 (oks [1#8, 1#8] ++ []) with ticks := 4294967280#32 :: 16#32 :: [] }
    Ready s ∧ s.cfg.tickW ≤ 32 ∧ s.ticks = 4294967280#32 :: 16#32 :: [] ∧ (∃ pe, PollBusy s (oks [1#8, 1#8]) pe) ∧
    s.script = oks [1#8, 1#8] ++ [] ∧ (32#32).toNat ≤ sinceStart s (tickValue s.cfg 4294967280#32) 16#32 ∧
    sinceStart s (tickValue s.cfg 4294967280#32) 16#32 < (33#32).toNat :=
  ⟨by decide, by decide, rfl, busy_exists _ _ _ rfl, rfl, by decide, by decide⟩

/-- A poll that shows busy and one whose second exchange fails. -/
def busyPolls : List (List (Option Answer) × List Event) :=
  [(oks [1#8, 1#8], pollEvents (calm 0 []) 1#8 1#8),
    (oks [1#8] ++ [some (.fail 0 [])], inSession (calm 0 []) (exchanged [0x05#8] [1#8] ++ [.xferFail (calm 0 []).cfg.dummy]))]

/-- A wait in progress of the operation in `op`. -/
def inWait (op : Byte) : State :=
  { calm 0 (busyPolls.flatMap Prod.fst ++ []) with
    seq := .wait, op := op, a := 65535#32, b := 255#32, page := 65535#32, off := 255#32 }

theorem test_witness_UnboundedWaitGoesOn :
    (inWait 0x42#8).hostQ = [] ∧ (inWait 0x42#8).fault = false ∧ (inWait 0x42#8).seq = .wait ∧
    (inWait 0x42#8).depth < (inWait 0x42#8).cfg.depthMax ∧ (inWait 0x42#8).op ∈ [0x38#8, 0x40#8, 0x41#8, 0x42#8] ∧
    (∀ p ∈ busyPolls, PollBusy (inWait 0x42#8) p.1 p.2) ∧ (inWait 0x42#8).script = busyPolls.flatMap Prod.fst ++ [] :=
  ⟨rfl, rfl, rfl, by decide, by decide, by
    simp only [busyPolls, List.forall_mem_cons, List.not_mem_nil, false_implies, implies_true, and_true]
    exact ⟨.inl ⟨1#8, 1#8, rfl, rfl, rfl⟩, .inr ⟨[0x05#8], _, [], [1#8], 0, [], rfl, rfl, rfl, rfl⟩⟩, rfl⟩

theorem test_witness_UnboundedWaitGoesOn_writes :
    ((inWait 0x30#8).op = 0x30#8 ∧ (inWait 0x30#8).a.toNat < pageMaxOf (inWait 0x30#8).blockcount ∧
      (inWait 0x30#8).b.toNat < 256) ∧
    ((inWait 0x32#8).op ∈ [0x31#8, 0x32#8] ∧ (inWait 0x32#8).page.toNat < pageMaxOf (inWait 0x32#8).blockcount ∧
      (inWait 0x32#8).off.toNat < 256) := by decide

/-- The wait of an operation that the device then ends: the last byte of the device, the last byte of the data. -/
def endsWait (op : Byte) (rem : Word) : State :=
  { calm 0 (oks [1#8, 0xFE#8] ++ oks [2#8] ++ []) with
    seq := .wait, op := op, a := 65535#32, b := 255#32, page := 65535#32, off := 255#32, rem := rem, total := 2#32, len := 4#32 }

theorem test_witness_WaitsEnd :
    (endsWait 0x38#8 1#32).hostQ = [] ∧ (endsWait 0x38#8 1#32).fault = false ∧ (endsWait 0x38#8 1#32).seq = .wait ∧
    (endsWait 0x38#8 1#32).depth < (endsWait 0x38#8 1#32).cfg.depthMax ∧
    (∃ pe, PollIdle (endsWait 0x38#8 1#32) 0xFE#8 (oks [1#8, 0xFE#8]) pe) ∧
    (∃ de, FrameSent (endsWait 0x38#8 1#32) [0x04#8] (oks [2#8]) de) ∧
    (endsWait 0x38#8 1#32).script = oks [1#8, 0xFE#8] ++ oks [2#8] ++ [] :=
  ⟨rfl, rfl, rfl, by decide, idle_exists _ _ _ rfl, sent_exists _ rfl, rfl⟩

/-- The clauses by operation: one page left and one to come. -/
theorem test_witness_WaitsEnd_operations :
    ((endsWait 0x30#8 1#32).op = 0x30#8 ∧ (endsWait 0x30#8 1#32).a.toNat < (endsWait 0x30#8 1#32).blockcount.toNat * 256 ∧
      (endsWait 0x30#8 1#32).b.toNat < 256) ∧
    ((endsWait 0x32#8 1#32).op ∈ [0x31#8, 0x32#8] ∧ (endsWait 0x32#8 1#32).page.toNat < (endsWait 0x32#8 1#32).blockcount.toNat * 256 ∧
      (endsWait 0x32#8 1#32).off.toNat < 256 ∧ 1 ≤ (endsWait 0x32#8 1#32).rem.toNat ∧
      (endsWait 0x32#8 1#32).total.toNat + (endsWait 0x32#8 1#32).rem.toNat ≤ (endsWait 0x32#8 1#32).len.toNat) ∧
    ((endsWait 0x32#8 2#32).op ∈ [0x31#8, 0x32#8] ∧ (endsWait 0x32#8 2#32).page.toNat < (endsWait 0x32#8 2#32).blockcount.toNat * 256 ∧
      (endsWait 0x32#8 2#32).off.toNat < 256 ∧ 1 ≤ (endsWait 0x32#8 2#32).rem.toNat ∧
      (endsWait 0x32#8 2#32).total.toNat + (endsWait 0x32#8 2#32).rem.toNat ≤ (endsWait 0x32#8 2#32).len.toNat) ∧
    min (1#32).toNat (256 - (255#32).toNat) = (1#32).toNat ∧ min (2#32).toNat (256 - (255#32).toNat) < (2#32).toNat := by decide

/-- The last byte of the device, clamped. -/
theorem test_witness_WritepageCompletes :
    let s := calm 0 (oks [1#8] ++ (oks [2#8, 3#8, 4#8, 5#8] ++ [some (.ok [])]) ++ oks [6#8, 0#8] ++ oks [7#8] ++ [])
    Ready s ∧ [1#8, 2#8].length = (2#32).toNat ∧ (65535#32).toNat < s.blockcount.toNat * 256 ∧ (255#32).toNat < 256 ∧
    1 ≤ (2#32).toNat ∧ 1 = min (2#32).toNat (256 - (255#32).toNat) ∧ (∃ we, FrameSent s [0x06#8] (oks [1#8]) we) ∧
    (∃ fe, ProgramSent s ((65535#32).toNat * 256 + (255#32).toNat) ([1#8, 2#8].take 1)
      (oks [2#8, 3#8, 4#8, 5#8] ++ [some (.ok [])]) fe) ∧
    (∃ pe, PollIdle s 0#8 (oks [6#8, 0#8]) pe) ∧ (∃ de, FrameSent s [0x04#8] (oks [7#8]) de) ∧
    s.script = oks [1#8] ++ (oks [2#8, 3#8, 4#8, 5#8] ++ [some (.ok [])]) ++ oks [6#8, 0#8] ++ oks [7#8] ++ [] :=
  ⟨by decide, rfl, by decide, by decide, by decide, by decide, sent_exists _ rfl, program_exists _ _ _ _ rfl,
    idle_exists _ _ _ rfl, sent_exists _ rfl, rfl⟩

theorem test_witness_WritepageCompletes_busy :
    let s := calm 0 (oks [1#8] ++ (oks [2#8, 3#8, 4#8, 5#8] ++ [some (.ok [])]) ++ oks [6#8, 1#8] ++ [])
    Ready s ∧ (∃ we, FrameSent s [0x06#8] (oks [1#8]) we) ∧
    (∃ fe, ProgramSent s ((65535#32).toNat * 256 + (255#32).toNat) ([1#8, 2#8].take 1)
      (oks [2#8, 3#8, 4#8, 5#8] ++ [some (.ok [])]) fe) ∧
    (∃ pe, PollBusy s (oks [6#8, 1#8]) pe) ∧ s.script = oks [1#8] ++ (oks [2#8, 3#8, 4#8, 5#8] ++ [some (.ok [])]) ++ oks [6#8, 1#8] ++ [] :=
  ⟨by decide, sent_exists _ rfl, program_exists _ _ _ _ rfl, busy_exists _ _ _ rfl, rfl⟩

theorem test_witness_WritepageStops :
    let s := calm 0 (some (.fail 0 []) :: [])
    let u := calm 0 (oks (1#8 :: []) ++ some (.fail 0 []) :: [])
    let v := calm 0 (oks (1#8 :: [2#8, 3#8, 4#8, 5#8]) ++ some (.fail 0 []) :: [])
    (Ready s ∧ s.script = some (.fail 0 []) :: []) ∧
    (Ready u ∧ u.script = oks (1#8 :: []) ++ some (.fail 0 []) :: [] ∧
      cmdAddr .program ((65535#32).toNat * 256 + (255#32).toNat) u = [] ++ 0x02#8 :: [0xFF#8, 0xFF#8, 0xFF#8]) ∧
    (Ready v ∧ v.script = oks (1#8 :: [2#8, 3#8, 4#8, 5#8]) ++ some (.fail 0 []) :: [] ∧
      [2#8, 3#8, 4#8, 5#8].length = 1 + (if a4 v.cfg v.blockcount then 4 else 3)) ∧
    [1#8].length = (1#32).toNat ∧ ([] : List Byte).length = (0#32).toNat ∧ (65535#32).toNat < s.blockcount.toNat * 256 ∧
    (255#32).toNat < 256 ∧ 1 ≤ (1#32).toNat := by decide

theorem test_witness_WriteCompletesInPage :
    let s := calm 0 (oks [1#8] ++ (oks [2#8, 3#8, 4#8, 5#8] ++ [some (.ok [])]) ++ oks [6#8, 0#8] ++ oks [7#8] ++ [])
    Ready s ∧ [1#8, 2#8].length = (2#32).toNat ∧ (16777215#32).toNat < s.blockcount.toNat * 65536 ∧ 1 ≤ (2#32).toNat ∧
    1 = min (2#32).toNat (s.blockcount.toNat * 65536 - (16777215#32).toNat) ∧ 1 = min 1 (256 - (16777215#32).toNat % 256) ∧
    (∃ we, FrameSent s [0x06#8] (oks [1#8]) we) ∧
    (∃ fe, ProgramSent s (16777215#32).toNat ([1#8, 2#8].take 1) (oks [2#8, 3#8, 4#8, 5#8] ++ [some (.ok [])]) fe) ∧
    (∃ pe, PollIdle s 0#8 (oks [6#8, 0#8]) pe) ∧ (∃ de, FrameSent s [0x04#8] (oks [7#8]) de) ∧
    s.script = oks [1#8] ++ (oks [2#8, 3#8, 4#8, 5#8] ++ [some (.ok [])]) ++ oks [6#8, 0#8] ++ oks [7#8] ++ [] ∧ ([] : List Byte).length = (0#32).toNat ∧
    0 = min (0#32).toNat (s.blockcount.toNat * 65536 - (16777215#32).toNat) ∧ 0 = min 0 (256 - (16777215#32).toNat % 256) :=
  ⟨by decide, rfl, by decide, by decide, by decide, by decide, sent_exists _ rfl, program_exists _ _ _ _ rfl,
    idle_exists _ _ _ rfl, sent_exists _ rfl, rfl, rfl, by decide, by decide⟩

/-- A busy first poll, and a first sub-write that fails in its bulk transfer. -/
theorem test_witness_WriteCompletesInPage_others :
    let s := calm 0 (oks [1#8] ++ (oks [2#8, 3#8, 4#8, 5#8] ++ [some (.ok [])]) ++ oks [6#8, 1#8] ++ [])
    let u := calm 0 ((oks [1#8] ++ (oks [2#8, 3#8, 4#8, 5#8] ++ [some (.fail 0 [])])) ++ [])
    (Ready s ∧ (∃ we, FrameSent s [0x06#8] (oks [1#8]) we) ∧
      (∃ fe, ProgramSent s (16777215#32).toNat ([1#8, 2#8].take 1) (oks [2#8, 3#8, 4#8, 5#8] ++ [some (.ok [])]) fe) ∧
      (∃ pe, PollBusy s (oks [6#8, 1#8]) pe) ∧ s.script = oks [1#8] ++ (oks [2#8, 3#8, 4#8, 5#8] ++ [some (.ok [])]) ++ oks [6#8, 1#8] ++ []) ∧
    (Ready u ∧ (∃ fe, ProgramStops u (16777215#32).toNat ([1#8, 2#8].take 1)
      (oks [1#8] ++ (oks [2#8, 3#8, 4#8, 5#8] ++ [some (.fail 0 [])])) fe) ∧ u.script = (oks [1#8] ++ (oks [2#8, 3#8, 4#8, 5#8] ++ [some (.fail 0 [])])) ++ []) :=
  ⟨⟨by decide, sent_exists _ rfl, program_exists _ _ _ _ rfl, busy_exists _ _ _ rfl, rfl⟩,
    by decide, stops_exists _ _ _ _ _ rfl (by decide), rfl⟩

theorem test_witness_WriteGoesOn :
    let s := { calm 0 (oks [1#8] ++ (oks [2#8, 3#8, 4#8, 5#8] ++ [some (.ok [])]) ++ oks [6#8, 0#8] ++ oks [7#8] ++ []) with ticks := 9#32 :: [] }
    Ready s ∧ (∃ te, WriteOf s (.writeuntil 255#32 2#32 5#32 [1#8, 2#8]) 255#32 2#32 [1#8, 2#8] 0x32#8 te) ∧
    [1#8, 2#8].length = (2#32).toNat ∧ (255#32).toNat < s.blockcount.toNat * 65536 ∧
    2 = min (2#32).toNat (s.blockcount.toNat * 65536 - (255#32).toNat) ∧ 1 = 256 - (255#32).toNat % 256 ∧ 1 < 2 ∧
    (∃ we, FrameSent s [0x06#8] (oks [1#8]) we) ∧
    (∃ fe, ProgramSent s (255#32).toNat ([1#8, 2#8].take 1) (oks [2#8, 3#8, 4#8, 5#8] ++ [some (.ok [])]) fe) ∧
    (∃ pe, PollIdle s 0#8 (oks [6#8, 0#8]) pe) ∧ (∃ de, FrameSent s [0x04#8] (oks [7#8]) de) ∧
    s.script = oks [1#8] ++ (oks [2#8, 3#8, 4#8, 5#8] ++ [some (.ok [])]) ++ oks [6#8, 0#8] ++ oks [7#8] ++ [] :=
  ⟨by decide, ⟨_, .inr ⟨_, _, _, rfl, rfl, rfl, rfl⟩⟩, rfl, by decide, by decide, rfl, by decide, sent_exists _ rfl,
    program_exists _ _ _ _ rfl, idle_exists _ _ _ rfl, sent_exists _ rfl, rfl⟩

/-- A page loop at its head, at the last page of the device, with its answers to come. -/
def inLoop (op : Byte) (off rem : Word) (script : List (Option Answer)) : State :=
  { calm 0 script with
    seq := .check, op := op, page := 65535#32, off := off, rem := rem, total := 2#32, len := 3#32, wdata := [1#8, 2#8, 3#8],
    tmo := 10#32, start := 100#32, ticks := 111#32 :: [] }

/-- The last byte of the data, retried in the middle of a page. -/
theorem test_witness_WriteLoopIterates :
    let s := inLoop 0x32#8 255#32 1#32 (oks [1#8] ++ (oks [2#8, 3#8, 4#8, 5#8] ++ [some (.ok [])]) ++ oks [6#8, 0#8] ++ oks [7#8] ++ [])
    (s.hostQ = [] ∧ s.fault = false ∧ s.seq = .check ∧ s.op ∈ [0x31#8, 0x32#8] ∧ s.depth < s.cfg.depthMax ∧ s.cfg.tickW ≤ 32 ∧
      s.page.toNat < s.blockcount.toNat * 256 ∧ s.off.toNat < 256 ∧ 1 ≤ s.rem.toNat ∧
      s.total.toNat + s.rem.toNat ≤ s.len.toNat ∧ s.wdata.length = s.len.toNat ∧
      16777215 = s.page.toNat * 256 + s.off.toNat ∧ 1 = min s.rem.toNat (256 - s.off.toNat) ∧ 1 = s.rem.toNat) ∧
    (∃ we, FrameSent s [0x06#8] (oks [1#8]) we) ∧
    (∃ fe, ProgramSent s 16777215 ((s.wdata.drop s.total.toNat).take 1) (oks [2#8, 3#8, 4#8, 5#8] ++ [some (.ok [])]) fe) ∧
    (∃ pe, PollIdle s 0#8 (oks [6#8, 0#8]) pe) ∧ (∃ de, FrameSent s [0x04#8] (oks [7#8]) de) ∧
    s.script = oks [1#8] ++ (oks [2#8, 3#8, 4#8, 5#8] ++ [some (.ok [])]) ++ oks [6#8, 0#8] ++ oks [7#8] ++ [] :=
  ⟨by decide, sent_exists _ rfl, program_exists _ _ _ _ rfl, idle_exists _ _ _ rfl, sent_exists _ rfl, rfl⟩

/-- A busy first poll; and a program session that fails in its bulk transfer, past the timeout (elapsed 11 against 10) and not. -/
theorem test_witness_WriteLoopIterates_others :
    let s := inLoop 0x31#8 0#32 1#32 (oks [1#8] ++ (oks [2#8, 3#8, 4#8, 5#8] ++ [some (.ok [])]) ++ oks [6#8, 1#8] ++ [])
    let u := inLoop 0x32#8 0#32 1#32 ((oks [1#8] ++ (oks [2#8, 3#8, 4#8, 5#8] ++ [some (.fail 0 [])])) ++ [])
    ((∃ we, FrameSent s [0x06#8] (oks [1#8]) we) ∧
      (∃ fe, ProgramSent s 16776960 ((s.wdata.drop s.total.toNat).take 1) (oks [2#8, 3#8, 4#8, 5#8] ++ [some (.ok [])]) fe) ∧
      (∃ pe, PollBusy s (oks [6#8, 1#8]) pe) ∧ s.script = oks [1#8] ++ (oks [2#8, 3#8, 4#8, 5#8] ++ [some (.ok [])]) ++ oks [6#8, 1#8] ++ []) ∧
    ((∃ fe, ProgramStops u 16776960 ((u.wdata.drop u.total.toNat).take 1)
      (oks [1#8] ++ (oks [2#8, 3#8, 4#8, 5#8] ++ [some (.fail 0 [])])) fe) ∧ u.script = (oks [1#8] ++ (oks [2#8, 3#8, 4#8, 5#8] ++ [some (.fail 0 [])])) ++ [] ∧ u.op = 0x32#8 ∧
      u.ticks = 111#32 :: [] ∧ u.tmo.toNat < sinceStart u u.start 111#32 ∧ sinceStart u u.start 110#32 ≤ u.tmo.toNat) :=
  ⟨⟨sent_exists _ rfl, program_exists _ _ _ _ rfl, busy_exists _ _ _ rfl, rfl⟩,
    stops_exists _ _ _ _ _ rfl (by decide), rfl, rfl, rfl, by decide, by decide⟩

/-- A page that is not the last: two bytes left at the last offset of a page. -/
theorem test_witness_WriteLoopIterates_more :
    let s := { inLoop 0x31#8 255#32 2#32 [] with total := 1#32 }
    s.hostQ = [] ∧ s.fault = false ∧ s.seq = .check ∧ s.op ∈ [0x31#8, 0x32#8] ∧ s.depth < s.cfg.depthMax ∧
    s.total.toNat + s.rem.toNat ≤ s.len.toNat ∧ s.wdata.length = s.len.toNat ∧
    min s.rem.toNat (256 - s.off.toNat) < s.rem.toNat := by decide

theorem test_witness_WriteuntilCompletesInPage :
    let s := { calm 0 (oks [1#8] ++ (oks [2#8, 3#8, 4#8, 5#8] ++ [some (.ok [])]) ++ oks [6#8, 0#8] ++ oks [7#8] ++ []) with ticks := 9#32 :: [] }
    Ready s ∧ [1#8, 2#8].length = (2#32).toNat ∧ (16777215#32).toNat < s.blockcount.toNat * 65536 ∧ s.ticks = 9#32 :: [] ∧
    1 ≤ (2#32).toNat ∧ 1 = min (2#32).toNat (s.blockcount.toNat * 65536 - (16777215#32).toNat) ∧
    1 = min 1 (256 - (16777215#32).toNat % 256) ∧ (∃ we, FrameSent s [0x06#8] (oks [1#8]) we) ∧
    (∃ fe, ProgramSent s (16777215#32).toNat ([1#8, 2#8].take 1) (oks [2#8, 3#8, 4#8, 5#8] ++ [some (.ok [])]) fe) ∧
    (∃ pe, PollIdle s 0#8 (oks [6#8, 0#8]) pe) ∧ (∃ de, FrameSent s [0x04#8] (oks [7#8]) de) ∧
    s.script = oks [1#8] ++ (oks [2#8, 3#8, 4#8, 5#8] ++ [some (.ok [])]) ++ oks [6#8, 0#8] ++ oks [7#8] ++ [] ∧ ([] : List Byte).length = (0#32).toNat ∧
    0 = min (0#32).toNat (s.blockcount.toNat * 65536 - (16777215#32).toNat) ∧ 0 = min 0 (256 - (16777215#32).toNat % 256) :=
  ⟨by decide, rfl, by decide, rfl, by decide, by decide, by decide, sent_exists _ rfl, program_exists _ _ _ _ rfl,
    idle_exists _ _ _ rfl, sent_exists _ rfl, rfl, rfl, by decide, by decide⟩

theorem test_witness_WriteuntilCompletesInPage_busy :
    let s := { calm 0 (oks [1#8] ++ (oks [2#8, 3#8, 4#8, 5#8] ++ [some (.ok [])]) ++ oks [6#8, 1#8] ++ []) with ticks := 9#32 :: [] }
    Ready s ∧ (∃ we, FrameSent s [0x06#8] (oks [1#8]) we) ∧
    (∃ fe, ProgramSent s (16777215#32).toNat ([1#8, 2#8].take 1) (oks [2#8, 3#8, 4#8, 5#8] ++ [some (.ok [])]) fe) ∧
    (∃ pe, PollBusy s (oks [6#8, 1#8]) pe) ∧ s.script = oks [1#8] ++ (oks [2#8, 3#8, 4#8, 5#8] ++ [some (.ok [])]) ++ oks [6#8, 1#8] ++ [] :=
  ⟨by decide, sent_exists _ rfl, program_exists _ _ _ _ rfl, busy_exists _ _ _ rfl, rfl⟩

/-- Elapsed 11 against a timeout of 10 gives up, and 10 does not (P4b). -/
theorem test_witness_WriteuntilRetries :
    let s := { calm 0 ((oks [1#8] ++ (oks [2#8, 3#8, 4#8, 5#8] ++ [some (.fail 0 [])])) ++ []) with ticks := 100#32 :: 111#32 :: [] }
    Ready s ∧ [1#8].length = (1#32).toNat ∧ 1 ≤ (1#32).toNat ∧ (16777215#32).toNat < s.blockcount.toNat * 65536 ∧
    s.cfg.tickW ≤ 32 ∧ s.ticks = 100#32 :: 111#32 :: [] ∧ 1 = min (1#32).toNat (s.blockcount.toNat * 65536 - (16777215#32).toNat) ∧
    (∃ fe, ProgramStops s (16777215#32).toNat ([1#8].take (min 1 (256 - (16777215#32).toNat % 256)))
      (oks [1#8] ++ (oks [2#8, 3#8, 4#8, 5#8] ++ [some (.fail 0 [])])) fe) ∧ s.script = (oks [1#8] ++ (oks [2#8, 3#8, 4#8, 5#8] ++ [some (.fail 0 [])])) ++ [] ∧
    (10#32).toNat < sinceStart s (tickValue s.cfg 100#32) 111#32 ∧ sinceStart s (tickValue s.cfg 100#32) 111#32 ≤ (11#32).toNat :=
  ⟨by decide, rfl, by decide, by decide, by decide, rfl, by decide, stops_exists _ _ _ _ _ rfl (by decide), rfl, by decide,
    by decide⟩

theorem test_witness_StopsByName :
    (calm 0 []).fault = false ∧ (calm 0 []).seq = .idle ∧ [1#8].length ≠ (0#32).toNat ∧
    decodeFrame 8 [0x9E#8] = .error (.notAnOpcode 0x9E#8) ∧
    { calm 0 [] with hostQ := .probe [0x9E#8] :: [] }.hostQ = .probe [0x9E#8] :: [] := by decide

theorem test_witness_EraseCompletes :
    let s := calm 0 (oks [1#8] ++ oks [2#8, 3#8, 4#8, 5#8] ++ oks [6#8, 0#8] ++ oks [7#8] ++ [])
    let u := calm 0 (oks [1#8] ++ oks [2#8] ++ oks [6#8, 1#8] ++ [])
    (Ready s ∧ EraseOf s (.erasesector 4095#32) 0x40#8 (cmdAddr .eraseSec ((4095#32).toNat * 4096) s) ∧
      EraseOf s (.eraseblock 255#32) 0x41#8 (cmdAddr .eraseBlk ((255#32).toNat * 65536) s) ∧
      (∃ we, FrameSent s [0x06#8] (oks [1#8]) we) ∧
      (∃ fe, FrameSent s (cmdAddr .eraseSec ((4095#32).toNat * 4096) s) (oks [2#8, 3#8, 4#8, 5#8]) fe) ∧
      (∃ fe, FrameSent s (cmdAddr .eraseBlk ((255#32).toNat * 65536) s) (oks [2#8, 3#8, 4#8, 5#8]) fe) ∧
      (∃ pe, PollIdle s 0#8 (oks [6#8, 0#8]) pe) ∧ (∃ de, FrameSent s [0x04#8] (oks [7#8]) de) ∧
      s.script = oks [1#8] ++ oks [2#8, 3#8, 4#8, 5#8] ++ oks [6#8, 0#8] ++ oks [7#8] ++ []) ∧
    (Ready u ∧ EraseOf u .erasechip 0x42#8 [0xC7#8] ∧ (∃ we, FrameSent u [0x06#8] (oks [1#8]) we) ∧
      (∃ fe, FrameSent u [0xC7#8] (oks [2#8]) fe) ∧ (∃ pe, PollBusy u (oks [6#8, 1#8]) pe) ∧
      u.script = oks [1#8] ++ oks [2#8] ++ oks [6#8, 1#8] ++ []) :=
  ⟨⟨by decide, .inl ⟨_, rfl, rfl, by decide, rfl⟩, .inr (.inl ⟨_, rfl, rfl, by decide, rfl⟩), sent_exists _ rfl, sent_exists _ rfl,
    sent_exists _ rfl, idle_exists _ _ _ rfl, sent_exists _ rfl, rfl⟩,
    by decide, .inr (.inr ⟨rfl, rfl, rfl⟩), sent_exists _ rfl, sent_exists _ rfl, busy_exists _ _ _ rfl, rfl⟩

theorem test_witness_EraseExaminesWriteEnableOnly :
    let s := calm 0 (oks [1#8] ++ (oks [2#8, 3#8, 4#8] ++ [some (.fail 0 [])]) ++ oks [6#8, 0#8] ++ oks [7#8] ++ [])
    let v := calm 0 (oks [1#8] ++ (oks [] ++ [some (.fail 0 [])]) ++ oks [6#8, 1#8] ++ [])
    let u := calm 0 ((oks [] ++ [some (.fail 0 [])]) ++ [])
    (Ready s ∧ EraseOf s (.erasesector 4095#32) 0x40#8 (cmdAddr .eraseSec ((4095#32).toNat * 4096) s) ∧
      (∃ we, FrameSent s [0x06#8] (oks [1#8]) we) ∧
      (∃ fe, FrameCut s (cmdAddr .eraseSec ((4095#32).toNat * 4096) s) (oks [2#8, 3#8, 4#8] ++ [some (.fail 0 [])]) fe) ∧
      (∃ pe, PollIdle s 0#8 (oks [6#8, 0#8]) pe) ∧ (∃ de, FrameSent s [0x04#8] (oks [7#8]) de) ∧ s.script = oks [1#8] ++ (oks [2#8, 3#8, 4#8] ++ [some (.fail 0 [])]) ++ oks [6#8, 0#8] ++ oks [7#8] ++ []) ∧
    (Ready v ∧ EraseOf v .erasechip 0x42#8 [0xC7#8] ∧ (∃ we, FrameSent v [0x06#8] (oks [1#8]) we) ∧
      (∃ fe, FrameCut v [0xC7#8] (oks [] ++ [some (.fail 0 [])]) fe) ∧ (∃ pe, PollBusy v (oks [6#8, 1#8]) pe) ∧
      v.script = oks [1#8] ++ (oks [] ++ [some (.fail 0 [])]) ++ oks [6#8, 1#8] ++ [] ∧ v.script = oks [1#8] ++ (some (.fail 0 []) :: oks [6#8, 1#8])) ∧
    (Ready u ∧ EraseOf u .erasechip 0x42#8 [0xC7#8] ∧ (∃ we, FrameCut u [0x06#8] (oks [] ++ [some (.fail 0 [])]) we) ∧
      u.script = (oks [] ++ [some (.fail 0 [])]) ++ []) :=
  ⟨⟨by decide, .inl ⟨_, rfl, rfl, by decide, rfl⟩, sent_exists _ rfl, cut_exists _ (pre := [0x20#8, 0xFF#8, 0xF0#8]) 0x00#8 [] rfl,
    idle_exists _ _ _ rfl, sent_exists _ rfl, rfl⟩,
    ⟨by decide, .inr (.inr ⟨rfl, rfl, rfl⟩), sent_exists _ rfl, cut_exists _ (pre := []) _ [] rfl, busy_exists _ _ _ rfl, rfl, rfl⟩,
    by decide, .inr (.inr ⟨rfl, rfl, rfl⟩), cut_exists _ (pre := []) _ [] rfl, rfl⟩

theorem test_witness_EraseExaminesWriteEnableOnly_later :
    (inWait 0x41#8).fault = false ∧ (inWait 0x41#8).seq = .wait ∧ (inWait 0x41#8).op ∈ [0x40#8, 0x41#8, 0x42#8] ∧
    (inWait 0x41#8).depth < (inWait 0x41#8).cfg.depthMax := by decide

theorem test_witness_OutOfRangeRefused :
    let s := calm 0 []
    s.fault = false ∧ s.seq = .idle ∧ s.blockcount.toNat * 65536 ≤ (16777216#32).toNat ∧
    s.blockcount.toNat * 256 ≤ (65536#32).toNat ∧ 256 ≤ (256#32).toNat ∧ s.blockcount.toNat * 16 ≤ (4096#32).toNat ∧
    4096 ≤ (4096#32).toNat ∧ s.blockcount.toNat ≤ (256#32).toNat ∧ 65536 ≤ (65536#32).toNat ∧
    Instr.wellFormed (.write 16777216#32 1#32 [0#8]) = true := by decide

theorem test_witness_UnidentifiedGate :
    State.reset.fault = false ∧ State.reset.seq = .idle ∧ State.reset.blockcount = 0#16 ∧
    Instr.wellFormed (.writeuntil 0#32 1#32 5#32 [0#8]) = true ∧ Instr.wellFormed (.setfast 1#32) = true ∧
    Instr.wellFormed .capacity = true := by decide

/-- READ of the last byte, clamped; READPAGE, READSECTOR and READBLOCK of the last byte, in one scripted state. -/
theorem test_witness_ReadCompletes :
    let s := calm 0 (oks ([1#8, 2#8, 3#8, 4#8] ++ []) ++ some (.ok [9#8]) :: [])
    let f := { calm 0 (oks ([1#8, 2#8, 3#8, 4#8] ++ [5#8]) ++ some (.ok [9#8]) :: []) with fast := .fast }
    (Ready s ∧ (16777215#32).toNat < s.blockcount.toNat * 65536 ∧ 1 = min 5 (s.blockcount.toNat * 65536 - (16777215#32).toNat) ∧
      [1#8, 2#8, 3#8, 4#8].length = (readHead s 16777215).length ∧ ([] : List Byte).length = (readDummies s).length ∧
      s.script = oks ([1#8, 2#8, 3#8, 4#8] ++ []) ++ some (.ok [9#8]) :: [] ∧ [9#8].length = 1) ∧
    ((65535#32).toNat < s.blockcount.toNat * 256 ∧ (255#32).toNat < 256 ∧ 1 = min 5 (256 - (255#32).toNat) ∧
      (4095#32).toNat < s.blockcount.toNat * 16 ∧ (4095#32).toNat < 4096 ∧ 1 = min 5 (4096 - (4095#32).toNat) ∧
      (255#32).toNat < s.blockcount.toNat ∧ (65535#32).toNat < 65536 ∧ 1 = min 5 (65536 - (65535#32).toNat)) ∧
    (Ready f ∧ [1#8, 2#8, 3#8, 4#8].length = (readHead f 16777215).length ∧ [5#8].length = (readDummies f).length ∧
      f.script = oks ([1#8, 2#8, 3#8, 4#8] ++ [5#8]) ++ some (.ok [9#8]) :: []) := by decide

/-- READPAGE and READ of the last byte of the device: a failed address byte of a fast read, and an empty bulk transfer. -/
theorem test_witness_ReadStops :
    let s := { calm 0 ((oks [1#8, 2#8] ++ [some (.fail 0 [])]) ++ []) with fast := .fast }
    let u := calm 0 ((oks [1#8, 2#8, 3#8, 4#8] ++ [some (.fail 0 [])]) ++ [])
    (Ready s ∧ ReadOf s (.readpage 65535#32 255#32 2#32) 16777215 1 2 ∧ 1 ≤ 2 ∧
      (∃ fe, ReadCut s (readHead s 16777215 ++ readDummies s) 1 (oks [1#8, 2#8] ++ [some (.fail 0 [])]) fe) ∧
      s.script = (oks [1#8, 2#8] ++ [some (.fail 0 [])]) ++ []) ∧
    (Ready u ∧ ReadOf u (.read 16777215#32 2#32) 16777215 1 2 ∧
      (∃ fe, ReadCut u (readHead u 16777215 ++ readDummies u) 1 (oks [1#8, 2#8, 3#8, 4#8] ++ [some (.fail 0 [])]) fe) ∧
      u.script = (oks [1#8, 2#8, 3#8, 4#8] ++ [some (.fail 0 [])]) ++ []) :=
  ⟨⟨by decide, .inr (.inl ⟨_, _, _, rfl, by decide, by decide, by decide, by decide, by decide⟩), by decide,
      ⟨_, .inl ⟨[0x0B#8, 0xFF#8], 0xFF#8, [0xFF#8, 0x00#8], [1#8, 2#8], 0, [], rfl, rfl, rfl, rfl⟩⟩, rfl⟩,
    by decide, .inl ⟨_, _, rfl, by decide, by decide, by decide, by decide⟩,
    ⟨_, .inr ⟨[1#8, 2#8, 3#8, 4#8], 0, [], by decide, rfl, rfl, rfl, rfl⟩⟩, rfl⟩

/-- READSECTOR and READBLOCK of no bytes. -/
theorem test_witness_ReadStops_nothing :
    Ready (calm 0 []) ∧ ReadOf (calm 0 []) (.readsector 4095#32 4095#32 0#32) 16777215 0 0 ∧
    ReadOf (calm 0 []) (.readblock 255#32 65535#32 0#32) 16777215 0 0 :=
  ⟨by decide, .inr (.inr (.inl ⟨_, _, _, rfl, by decide, by decide, by decide, by decide, by decide⟩)),
    .inr (.inr (.inr ⟨_, _, _, rfl, by decide, by decide, by decide, by decide, by decide⟩))⟩

theorem test_witness_ReaduidReturns :
    let s := calm 0 (oks [1#8, 2#8, 3#8, 4#8, 5#8] ++ some (.ok (List.replicate 8 7#8)) :: [])
    Ready s ∧ [1#8, 2#8, 3#8, 4#8, 5#8].length = [0x4B#8, s.cfg.dummy, s.cfg.dummy, s.cfg.dummy, s.cfg.dummy].length ∧
    (List.replicate 8 7#8).length = s.cfg.uidLen ∧
    s.script = oks [1#8, 2#8, 3#8, 4#8, 5#8] ++ some (.ok (List.replicate 8 7#8)) :: [] := by decide

/-- A failed dummy byte. -/
theorem test_witness_ReaduidReturns_failed :
    let u := calm 0 ((oks [1#8, 2#8] ++ [some (.fail 0 [])]) ++ [])
    Ready u ∧ (∃ fe, ReadCut u [0x4B#8, u.cfg.dummy, u.cfg.dummy, u.cfg.dummy, u.cfg.dummy] u.cfg.uidLen
      (oks [1#8, 2#8] ++ [some (.fail 0 [])]) fe) ∧ u.script = (oks [1#8, 2#8] ++ [some (.fail 0 [])]) ++ [] :=
  ⟨by decide, ⟨_, .inl ⟨[0x4B#8, 0x00#8], 0x00#8, [0x00#8, 0x00#8], [1#8, 2#8], 0, [], rfl, rfl, rfl, rfl⟩⟩, rfl⟩

theorem test_witness_ReaduidReturns_parameters (script : List (Option Answer)) : (calm 0 script).cfg.wf := default_wf

theorem test_witness_SetfastSets :
    State.reset.fault = false ∧ State.reset.seq = .idle ∧ State.reset.blockcount = 0#16 ∧ (calm 0 []).fault = false ∧
    (calm 0 []).seq = .idle ∧ (calm 0 []).blockcount ≠ 0#16 ∧ (calm 0 []).cfg.fastCfg = .enabled ∧ 1#32 ≠ 0#32 ∧
    { calm 0 [] with cfg := { Params.default with fastCfg := .fixed true } }.cfg.fastCfg ≠ .enabled := by decide

theorem test_witness_SetfastSets_init : ∃ t, exec .init (calm 2147483647 []) = .next t := ⟨_, rfl⟩

theorem test_witness_SetfastSets_others :
    { calm 0 [] with fast := .fast }.fast ≠ .unset ∧ ∃ t, exec .capacity { calm 0 [] with fast := .fast } = .next t :=
  ⟨by decide, _, rfl⟩

theorem test_witness_SendFramesComplete :
    let s := calm 0 (oks [1#8, 2#8, 3#8, 4#8, 5#8] ++ [])
    Ready s ∧ [1#8, 2#8, 3#8, 4#8, 5#8].length = [0xDC#8, 0xFF#8, 0xFF#8, 0x00#8, 0x00#8].length ∧
    s.script = oks [1#8, 2#8, 3#8, 4#8, 5#8] ++ [] ∧
    (Instr.be4 0xFFFF0000#32 = .be4 (0xFF#8 ++ 0xFF#8 ++ 0x00#8 ++ 0x00#8)) ∧
    (Instr.se3 0xFFF000#24 = .se3 (0xFF#8 ++ 0xF0#8 ++ 0x00#8)) := by decide

theorem test_witness_SendFramesStop :
    let s := calm 0 (oks [1#8, 2#8, 3#8, 4#8] ++ some (.fail 0 []) :: [])
    Ready s ∧ [0x21#8, 0xFF#8, 0xFF#8, 0xF0#8, 0x00#8] = [0x21#8, 0xFF#8, 0xFF#8, 0xF0#8] ++ 0x00#8 :: [] ∧
    [1#8, 2#8, 3#8, 4#8].length = [0x21#8, 0xFF#8, 0xFF#8, 0xF0#8].length ∧
    s.script = oks [1#8, 2#8, 3#8, 4#8] ++ some (.fail 0 []) :: [] := by decide

theorem test_witness_ReceiveFramesComplete :
    let s := calm 0 (oks [1#8, 2#8] ++ [])
    let u := calm 0 (oks [1#8, 0xEF#8, 0x40#8, 0x18#8] ++ [])
    Ready s ∧ s.script = oks [1#8, 2#8] ++ [] ∧ Ready u ∧ u.script = oks [1#8, 0xEF#8, 0x40#8, 0x18#8] ++ [] := by decide

theorem test_witness_DataFramesComplete :
    let s := calm 0 (oks [1#8, 2#8, 3#8, 4#8, 5#8, 6#8] ++ some (.ok [9#8]) :: [])
    let u := calm 0 (oks [1#8, 2#8, 3#8, 4#8] ++ some (.ok []) :: [])
    (Ready s ∧ 1 ≤ 1 ∧ [9#8].length = 1 ∧
      [1#8, 2#8, 3#8, 4#8, 5#8, 6#8].length = [0x0C#8, 0xFF#8, 0xFF#8, 0xFF#8, 0xFF#8, s.cfg.dummy].length ∧
      s.script = oks [1#8, 2#8, 3#8, 4#8, 5#8, 6#8] ++ some (.ok [9#8]) :: []) ∧
    (Ready u ∧ [9#8] ≠ [] ∧ [1#8, 2#8, 3#8, 4#8].length = [0x02#8, 0xFF#8, 0xFF#8, 0xFF#8].length ∧
      u.script = oks [1#8, 2#8, 3#8, 4#8] ++ some (.ok []) :: []) := by decide

theorem test_witness_StepRunsTheInstruction :
    let s := { calm 0 [] with hostQ := .op ⟨0x50#8, 0xFFFFFFFF#32, 0#32, 0#32, 0#32, []⟩ :: [] }
    let u := { calm 0 [] with hostQ := .probe [0xC7#8] :: [] }
    let v := { waiting [] [] 0#32 0#32 with hostQ := .op (.ofOp 0x02#8) :: [] }
    (s.hostQ = .op ⟨0x50#8, 0xFFFFFFFF#32, 0#32, 0#32, 0#32, []⟩ :: [] ∧ s.fault = false ∧ s.seq = .idle ∧
      decodeRequest ⟨0x50#8, 0xFFFFFFFF#32, 0#32, 0#32, 0#32, []⟩ = .ok (.setfast 0xFFFFFFFF#32)) ∧
    (u.hostQ = .probe [0xC7#8] :: [] ∧ u.fault = false ∧ u.seq = .idle ∧ decodeFrame u.cfg.uidLen [0xC7#8] = .ok .ce) ∧
    (v.hostQ = .op (.ofOp 0x02#8) :: [] ∧ v.fault = false ∧ v.seq ≠ .idle) ∧
    { v with hostQ := .barge (.ofOp 0x02#8) :: [] }.hostQ = .barge (.ofOp 0x02#8) :: [] ∧
    { v with hostQ := .idle :: [] }.hostQ = .idle :: [] ∧ (calm 0 []).hostQ = [] := by decide

theorem test_witness_ResetStep :
    { waiting [] [] 0#32 0#32 with hostQ := .reset :: [] }.hostQ = .reset :: [] ∧ (calm 0 []).cs = true ∧ (calm 1 []).cs = false := by
  decide

theorem test_witness_StepKeepsLegal :
    ∃ t, Legal (waiting (oks [0#8, 1#8]) [5#32] 9#32 0#32) ∧ step (waiting (oks [0#8, 1#8]) [5#32] 9#32 0#32) = .next t :=
  ⟨_, legal_waiting, rfl⟩

theorem test_witness_ParametersFixed : ∃ t, step (calm 0 []) = .next t := ⟨_, rfl⟩

theorem test_witness_OpcodesOnlyKept :
    ∃ s t : State, Legal s ∧ OpcodesOnly s ∧ step s = .next t :=
  ⟨{ calm 0 [] with trace := [.cs0, .xfer 0xC7#8 0#8, .cs1], hostQ := [.op (.ofOp 0x42#8)] }, _, legal_of rfl (by decide), by decide, rfl⟩

theorem test_witness_RegistersKept :
    ∃ t, Legal (calm 2147483647 []) ∧ (calm 2147483647 []).fault = false ∧ (calm 2147483647 []).seq = .idle ∧
      exec (.setfast 0#32) (calm 2147483647 []) = .next t := ⟨_, legal_held, rfl, rfl, rfl⟩

theorem test_witness_RegistersKept_later :
    ∃ t, Legal (inWait 0x38#8) ∧ proceed (inWait 0x38#8) = .next t ∧ .lasterr ∉ laterWrites (inWait 0x38#8) :=
  ⟨_, legal_of rfl (by decide), rfl, by decide⟩

theorem test_witness_CellsKept :
    ∃ t, Legal (calm 0 []) ∧ Instr.wellFormed (.pp3 0xFFFFFF#24 [1#8]) = true ∧
      exec (.pp3 0xFFFFFF#24 [1#8]) (calm 0 []) = .next t ∧ ¬storesTo (.pp3 0xFFFFFF#24 [1#8]) (calm 0 []) 16777214 :=
  ⟨_, legal_calm, rfl, rfl, by unfold storesTo dataCells; decide⟩

/-- The last byte of the data goes to the last cell of the device, in a later step of a WRITE. -/
theorem test_witness_CellsKept_later :
    ∃ t, Legal (inLoop 0x31#8 255#32 1#32 []) ∧ proceed (inLoop 0x31#8 255#32 1#32 []) = .next t ∧
      ¬laterStores (inLoop 0x31#8 255#32 1#32 []) 16777214 :=
  ⟨_, legal_of rfl (by decide), rfl, by unfold laterStores pageCells dataCells; decide⟩

/-- Two bytes that wrap at the end of the last page, in both address widths. -/
theorem test_witness_RefFlashStores :
    let d := { Flash.initial with wel := true, session := 0x02#8 :: ([0xFF#8, 0xFF#8, 0xFF#8] ++ [1#8, 2#8]) }
    let e := { Flash.initial with wel := true, session := 0x12#8 :: ([0x00#8, 0xFF#8, 0xFF#8, 0xFF#8] ++ [1#8, 2#8]) }
    MemWf d.mem ∧ d.wel = true ∧ d.busyLeft = 0 ∧ 16777215 < d.size ∧
    16777215 = (0xFF#8).toNat * 65536 + (0xFF#8).toNat * 256 + (0xFF#8).toNat ∧ [1#8, 2#8] ≠ [] ∧ [1#8, 2#8].length ≤ 256 ∧
    d.session = (if 3 = 3 then 0x02#8 else 0x12#8) :: ([0xFF#8, 0xFF#8, 0xFF#8] ++ [1#8, 2#8]) ∧
    MemWf e.mem ∧ e.wel = true ∧ e.busyLeft = 0 ∧ 16777215 < e.size ∧
    16777215 = (0x00#8).toNat * 16777216 + (0xFF#8).toNat * 65536 + (0xFF#8).toNat * 256 + (0xFF#8).toNat ∧
    e.session = (if 4 = 3 then 0x02#8 else 0x12#8) :: ([0x00#8, 0xFF#8, 0xFF#8, 0xFF#8] ++ [1#8, 2#8]) ∧
    { d with session := [0x20#8, 0xFF#8, 0xFF#8, 0xFF#8] }.session = (if 3 = 3 then 0x20#8 else 0x21#8) :: [0xFF#8, 0xFF#8, 0xFF#8] ∧
    { d with session := [0xDC#8, 0x00#8, 0xFF#8, 0xFF#8, 0xFF#8] }.session =
      (if 4 = 3 then 0xD8#8 else 0xDC#8) :: [0x00#8, 0xFF#8, 0xFF#8, 0xFF#8] ∧
    { d with session := [0xC7#8] }.session = [0xC7#8] := by decide

theorem test_witness_RefFlashStores_ignored :
    let d := { Flash.initial with session := 0x21#8 :: [0x00#8] }
    d.session = 0x21#8 :: [0x00#8] ∧ 0x21#8 ∈ [0x02#8, 0x12#8, 0x20#8, 0x21#8, 0xD8#8, 0xDC#8, 0xC7#8] ∧ d.wel = false ∧
    { d with wel := true, busyLeft := 1 }.busyLeft ≠ 0 := by decide

theorem test_witness_ReadBack :
    let s := calm 0 []
    (Ready s ∧ s.depth = 0 ∧ s.script = [] ∧ s.refDevice = true ∧ s.cfg.addrMode = .auto ∧ s.dev.busyLeft = 0 ∧ s.dev.refBusy = 0 ∧
      s.dev.refBlocks = s.blockcount.toNat ∧ [7#8].length = (1#32).toNat ∧ 1 ≤ (1#32).toNat ∧
      (65535#32).toNat < s.blockcount.toNat * 256 ∧ (255#32).toNat + (1#32).toNat ≤ 256 ∧
      (16777215#32).toNat = (65535#32).toNat * 256 + (255#32).toNat ∧
      ∀ k, k < (1#32).toNat → memRead s.dev.mem ((16777215#32).toNat + k) = 0xFF#8) := by decide

theorem test_witness_ReadBack_legal : Legal (calm 0 []) := legal_calm

end Sys2Proof.Tests
end

section
/-!
The address mode (R24): `a4` under each override and in automatic mode, and what a command with an address takes from it.
-/
namespace Sys2Proof.Machine

theorem a4_of_force4 {p : Params} (h : p.addrMode = .force4) (bc : BitVec 16) : a4 p bc = true := by
  simp only [a4, h]

theorem a4_of_force3 {p : Params} (h : p.addrMode = .force3) (bc : BitVec 16) : a4 p bc = false := by
  simp only [a4, h]

theorem a4_of_auto {p : Params} (h : p.addrMode = .auto) (bc : BitVec 16) : a4 p bc = decide (256 < bc.toNat) := by
  simp only [a4, h]

/-- 256 blocks are 16 MiB: the bound of R24 on the block count is a bound on the capacity (R23). -/
theorem capacityOf_gt_16MiB_iff (bc : BitVec 16) : 16777216 < capacityOf bc ↔ 256 < bc.toNat := by
  unfold capacityOf
  omega

theorem cmdAddr_head? (lop : LogOp) (addr : Nat) (s : State) :
    (cmdAddr lop addr s).head? = some (opc lop (a4 s.cfg s.blockcount)) := rfl

theorem cmdAddr_length (lop : LogOp) (addr : Nat) (s : State) :
    (cmdAddr lop addr s).length = 1 + (if a4 s.cfg s.blockcount then 4 else 3) := by
  rw [cmdAddr, List.length_cons, addrBytes_length, Nat.add_comm]

/-- Settles O11: the mode by the cases of the override, the automatic bound on blocks carried over to bytes, and the frame's
opcode and length read off `cmdAddr`. -/
theorem addressMode : Obligations.AddressMode := by
  unfold Obligations.AddressMode
  refine ⟨fun p bc => ⟨fun h => a4_of_force4 h bc, fun h => a4_of_force3 h bc, fun h => ?_⟩,
    fun s lop addr => ⟨cmdAddr_head? lop addr s, cmdAddr_length lop addr s⟩, by decide⟩
  have blocks : a4 p bc = true ↔ 256 < bc.toNat := by rw [a4_of_auto h, decide_eq_true_iff]
  exact ⟨blocks, blocks.trans (capacityOf_gt_16MiB_iff bc).symm, a4_of_auto h 256#16⟩

end Sys2Proof.Machine
end

section
/-!
The address translator (R53, R56, R57): when `xlate` and `clampLinear` refuse, what `xlate` answers, where the
bytes of its answer lie, and `decomp` as its inverse on pages.
-/
namespace Sys2Proof.Machine

theorem xlate_eq_none {bc : BitVec 16} {g : Gran} {idx off : Nat} (h : unitMax bc g ≤ idx ∨ unitSize g ≤ off) (len : Nat) :
    xlate bc g idx off len = none := if_pos h

theorem xlate_eq_some {bc : BitVec 16} {g : Gran} {idx off : Nat} (hi : idx < unitMax bc g) (ho : off < unitSize g) (len : Nat) :
    xlate bc g idx off len = some (idx * unitSize g + off, min len (unitSize g - off)) :=
  if_neg (by simp only [not_or, Nat.not_le]; exact ⟨hi, ho⟩)

theorem clampLinear_eq_none {bc : BitVec 16} {addr : Nat} (h : capacityOf bc ≤ addr) (len : Nat) :
    clampLinear bc addr len = none := if_pos h

/-- The units of every granularity tile the device (R23). -/
theorem unitMax_mul_unitSize (bc : BitVec 16) (g : Gran) : unitMax bc g * unitSize g = capacityOf bc := by
  cases g with
  | page => exact Nat.mul_assoc bc.toNat 256 256
  | sector => exact Nat.mul_assoc bc.toNat 16 4096
  | block => rfl

/-- The last byte of a range that begins in unit `idx` and is clamped to it lies in unit `idx`. -/
theorem lastByte_div_size {size off n : Nat} (idx : Nat) (hn : 1 ≤ n) (hfit : off + n ≤ size) :
    (idx * size + off + n - 1) / size = idx :=
  Nat.div_eq_of_lt_le (by omega) (by rw [Nat.succ_mul]; omega)

/-- A range that fits in a unit of the device ends inside the device. -/
theorem unitEnd_le_capacityOf {bc : BitVec 16} {g : Gran} {idx off n : Nat} (hi : idx < unitMax bc g)
    (hfit : off + n ≤ unitSize g) : idx * unitSize g + off + n ≤ capacityOf bc :=
  calc idx * unitSize g + off + n
      ≤ (idx + 1) * unitSize g := by rw [Nat.succ_mul]; omega
    _ ≤ unitMax bc g * unitSize g := Nat.mul_le_mul_right _ hi
    _ = capacityOf bc := unitMax_mul_unitSize bc g

/-- Settles O6: the two branches of the check; the clamped length fits in the unit, and the units tile the device. -/
theorem translate : Obligations.Translate := by
  unfold Obligations.Translate
  refine ⟨fun bc g idx off len => ⟨fun h => xlate_eq_none h len, fun hi ho => ?_⟩, by decide⟩
  have fits : off + min len (unitSize g - off) ≤ unitSize g := by omega
  exact ⟨_, _, xlate_eq_some hi ho len, rfl, rfl, fun hn => lastByte_div_size idx hn fits, unitEnd_le_capacityOf hi fits⟩

theorem decomp_recompose (addr : Nat) : (decomp addr).1 * 256 + (decomp addr).2 = addr := Nat.div_add_mod' addr 256

/-- The page is the upper 24 bits of a word and the offset the lower 8. -/
theorem decomp_toNat (addr : Word) :
    decomp addr.toNat = ((addr.extractLsb' 8 24).toNat, (addr.extractLsb' 0 8).toNat) := by
  have page : (addr.extractLsb' 8 24).toNat = addr.toNat / 256 := by
    rw [BitVec.extractLsb'_toNat, Nat.shiftRight_eq_div_pow]
    have := addr.isLt
    omega
  have offset : (addr.extractLsb' 0 8).toNat = addr.toNat % 256 := BitVec.extractLsb'_toNat 0 8 addr
  rw [page, offset, decomp]

theorem xlate_decomp {bc : BitVec 16} {addr : Nat} (h : addr < capacityOf bc) (len : Nat) :
    xlate bc .page (decomp addr).1 (decomp addr).2 len = some (addr, min len (256 - addr % 256)) := by
  have page : (decomp addr).1 < unitMax bc .page :=
    (Nat.div_lt_iff_lt_mul (by decide)).mpr (h.trans_eq (unitMax_mul_unitSize bc .page).symm)
  have offset : (decomp addr).2 < unitSize .page := Nat.mod_lt addr (by decide)
  rw [xlate_eq_some page offset, show unitSize .page = 256 from rfl, decomp_recompose, decomp]

/-- Settles O7: the bit fields are the quotient and the remainder by 256, which the translator puts together again. -/
theorem decompose : Obligations.Decompose := by
  unfold Obligations.Decompose
  exact fun addr => ⟨decomp_toNat addr, decomp_recompose addr.toNat, fun _ len h => xlate_decomp h len⟩

end Sys2Proof.Machine
end

section
/-!
What an operation with an address does when an idle block without a fault accepts it (R255, R260): its body runs from the state in
which the latches are written.
-/
namespace Sys2Proof.Machine

variable {s : State} (hf : s.fault = false) (hq : s.seq = .idle)
include hf hq

theorem exec_read_of_idle (a len : Word) :
    exec (.read a len) s = .next ((runRead a len { accept 0x20#8 s with a := a, len := len }).settle haltRead) := by
  rw [exec, execRead, guarded_run hf hq]

theorem exec_readpage_of_idle (a b len : Word) :
    exec (.readpage a b len) s =
      .next ((readUnit .page a b len { accept 0x21#8 s with a := a, b := b, len := len }).settle haltRead) := by
  rw [exec, execReadpage, guarded_run hf hq]

theorem exec_readsector_of_idle (a b len : Word) :
    exec (.readsector a b len) s =
      .next ((readUnit .sector a b len { accept 0x22#8 s with a := a, b := b, len := len }).settle haltRead) := by
  rw [exec, execReadsector, guarded_run hf hq]

theorem exec_readblock_of_idle (a b len : Word) :
    exec (.readblock a b len) s =
      .next ((readUnit .block a b len { accept 0x23#8 s with a := a, b := b, len := len }).settle haltRead) := by
  rw [exec, execReadblock, guarded_run hf hq]

theorem exec_writepage_of_idle (a b : Word) {len : Word} {data : List Byte} (hl : data.length = len.toNat) :
    exec (.writepage a b len data) s =
      .next (runWritepage a b len data { accept 0x30#8 s with a := a, b := b, len := len, wdata := data }) := by
  rw [exec, execWritepage, guarded_run hf hq, if_pos hl]

theorem exec_write_of_idle (a : Word) {len : Word} {data : List Byte} (hl : data.length = len.toNat) :
    exec (.write a len data) s =
      .next ((runWrite a len { accept 0x31#8 s with a := a, len := len, wdata := data }).settle freeResult) := by
  rw [exec, execWrite, guarded_run hf hq, if_pos hl]

theorem exec_writeuntil_of_idle (a tmo : Word) {len : Word} {data : List Byte} (hl : data.length = len.toNat) :
    exec (.writeuntil a len tmo data) s =
      .next ((runWriteuntil a len { accept 0x32#8 s with a := a, len := len, tmo := tmo, wdata := data }).settle freeResult) := by
  rw [exec, execWriteuntil, guarded_run hf hq, if_pos hl]

theorem exec_erasesector_of_idle (a : Word) :
    exec (.erasesector a) s = .next ((eraseUnit .sector .sector a.toNat { accept 0x40#8 s with a := a }).settle freeResult) := by
  rw [exec, execErasesector, guarded_run hf hq]

theorem exec_eraseblock_of_idle (a : Word) :
    exec (.eraseblock a) s = .next ((eraseUnit .block .block a.toNat { accept 0x41#8 s with a := a }).settle freeResult) := by
  rw [exec, execEraseblock, guarded_run hf hq]

end Sys2Proof.Machine
end

section
/-!
Refusal of an address out of bounds (R54, R57): the body of each operation with an address ends in CHECK with `OutOfRange`, before
any port event.
-/
namespace Sys2Proof.Machine

/-- `t` is the end of an operation that refused its address in `s`: `OutOfRange`, `RESULT` 0, and nothing seen on a port. -/
def RefusedRange (s t : State) : Prop :=
  t.result = 0#32 ∧ t.lasterr = .outOfRange ∧ t.seq = .idle ∧ t.fault = false ∧ t.trace = s.trace ∧ t.dev = s.dev ∧
  t.depth = s.depth ∧ t.cs = s.cs

/-- `u` is `s` but for registers that are neither seen on a port nor read by a bounds check: the latches, `SEQ`, `LASTERR` and
the like. -/
structure SameOutside (s u : State) : Prop where
  blockcount : u.blockcount = s.blockcount := by rfl
  fault : u.fault = s.fault := by rfl
  trace : u.trace = s.trace := by rfl
  dev : u.dev = s.dev := by rfl
  depth : u.depth = s.depth := by rfl
  cs : u.cs = s.cs := by rfl

section
variable {s u : State} (hf : s.fault = false) (same : SameOutside s u)
include hf same

theorem raiseErr_refusedRange : RefusedRange s (raiseErr .outOfRange u) :=
  ⟨rfl, rfl, rfl, same.fault.trans hf, same.trace, same.dev, same.depth, same.cs⟩

theorem runRead_refusesRange {a : Word} (h : capacityOf s.blockcount ≤ a.toNat) (len : Word) :
    RefusedRange s ((runRead a len u).settle haltRead) := by
  rw [runRead, same.blockcount, clampLinear_eq_none h]
  exact raiseErr_refusedRange hf { same with }

theorem readUnit_refusesRange {g : Gran} {a b : Word} (h : unitMax s.blockcount g ≤ a.toNat ∨ unitSize g ≤ b.toNat)
    (len : Word) : RefusedRange s ((readUnit g a b len u).settle haltRead) := by
  rw [readUnit, same.blockcount, xlate_eq_none h]
  exact raiseErr_refusedRange hf { same with }

theorem runWritepage_refusesRange {a b : Word} (h : unitMax s.blockcount .page ≤ a.toNat ∨ unitSize .page ≤ b.toNat)
    (len : Word) (data : List Byte) : RefusedRange s (runWritepage a b len data u) := by
  rw [runWritepage, doWritePage, same.blockcount, xlate_eq_none h]
  exact raiseErr_refusedRange (u := setSeq .check u) hf { same with }

theorem runWrite_refusesRange {a : Word} (h : capacityOf s.blockcount ≤ a.toNat) (len : Word) :
    RefusedRange s ((runWrite a len u).settle freeResult) := by
  rw [runWrite, same.blockcount, clampLinear_eq_none h]
  exact raiseErr_refusedRange hf { same with }

theorem runWriteuntil_refusesRange {a : Word} (h : capacityOf s.blockcount ≤ a.toNat) (len : Word) :
    RefusedRange s ((runWriteuntil a len u).settle freeResult) := by
  rw [runWriteuntil, same.blockcount, clampLinear_eq_none h]
  exact raiseErr_refusedRange hf { same with }

theorem eraseUnit_refusesRange {g : Gran} {idx : Nat} (h : unitMax s.blockcount g ≤ idx) (mk : Nat → EraseCmd) :
    RefusedRange s ((eraseUnit g mk idx u).settle freeResult) := by
  rw [eraseUnit, same.blockcount, if_pos h]
  exact raiseErr_refusedRange hf { same with }

end

/-- Settles O41: an idle block runs the operation's body, a write because well-formed data has `LEN` bytes (R121), and the body
refuses; acceptance writes latches and `LASTERR` only. -/
theorem outOfRangeRefused : Obligations.OutOfRangeRefused := by
  unfold Obligations.OutOfRangeRefused
  rintro s i hf hq wellFormed (⟨a, len, rfl, h⟩ | ⟨a, b, len, rfl, h⟩ | ⟨a, b, len, rfl, h⟩ | ⟨a, b, len, rfl, h⟩ |
    ⟨a, b, len, data, rfl, h⟩ | ⟨a, len, data, rfl, h⟩ | ⟨a, len, tmo, data, rfl, h⟩ | ⟨a, rfl, h⟩ | ⟨a, rfl, h⟩)
  · exact ⟨_, exec_read_of_idle hf hq a len, runRead_refusesRange hf {} h len⟩
  · exact ⟨_, exec_readpage_of_idle hf hq a b len, readUnit_refusesRange (g := .page) hf {} h len⟩
  · exact ⟨_, exec_readsector_of_idle hf hq a b len, readUnit_refusesRange (g := .sector) hf {} h len⟩
  · exact ⟨_, exec_readblock_of_idle hf hq a b len, readUnit_refusesRange (g := .block) hf {} h len⟩
  · exact ⟨_, exec_writepage_of_idle hf hq a b (of_decide_eq_true wellFormed), runWritepage_refusesRange hf {} h len data⟩
  · exact ⟨_, exec_write_of_idle hf hq a (of_decide_eq_true wellFormed), runWrite_refusesRange hf {} h len⟩
  · exact ⟨_, exec_writeuntil_of_idle hf hq a tmo (of_decide_eq_true wellFormed), runWriteuntil_refusesRange hf {} h len⟩
  · exact ⟨_, exec_erasesector_of_idle hf hq a, eraseUnit_refusesRange (g := .sector) hf {} h .sector⟩
  · exact ⟨_, exec_eraseblock_of_idle hf hq a, eraseUnit_refusesRange (g := .block) hf {} h .block⟩

end Sys2Proof.Machine
end

section
/-!
The host operation codes (R120, R122): a code of the table decodes to a host operation, any other to the error that an idle block
answers with `IllegalOp`.
-/
namespace Sys2Proof.Machine

/-- The table of R120 row by row: whatever the operands, the row's code is that of a host operation. -/
theorem decodeRequest_of_mem_hostCodes {r : Request} (h : r.op ∈ hostCodes) :
    ∃ i, decodeRequest r = .ok i ∧ i.isFrame = false := by
  obtain ⟨op, a, b, len, tmo, wdata⟩ := r
  have rows : ∀ c ∈ hostCodes, ∃ i, decodeRequest ⟨c, a, b, len, tmo, wdata⟩ = .ok i ∧ i.isFrame = false := by
    simp only [hostCodes, List.forall_mem_cons]
    and_intros
    iterate 22 exact ⟨_, rfl, rfl⟩
    exact List.forall_mem_nil _
  exact rows op h

theorem decodeRequest_of_not_mem_hostCodes {r : Request} (h : r.op ∉ hostCodes) :
    decodeRequest r = .error (.illegalOp r.op) := by
  simp only [hostCodes, List.mem_cons, not_or] at h
  simp only [decodeRequest, h, if_false]

theorem present_of_decode_error {r : Request} {e : DecodeError} (h : decodeRequest r = .error e) {s : State}
    (hf : s.fault = false) (hq : s.seq = .idle) : present r s = .next (raiseFault .illegalOp s) := by
  rw [present, guarded_run hf hq, h]

/-- Settles O3: a code of the table decodes; for any other code the decoder's error is the fault `IllegalOp`, which writes `FAULT`
and `FAULTCAUSE` alone. -/
theorem unassignedCodes : Obligations.UnassignedCodes := by
  unfold Obligations.UnassignedCodes
  exact fun r => ⟨decodeRequest_of_mem_hostCodes,
    fun h s hf hq => present_of_decode_error (decodeRequest_of_not_mem_hostCodes h) hf hq⟩

end Sys2Proof.Machine
end

section
/-!
The address bytes (R96): each byte sent as a digit of the address in base 256, and what the 3-byte mode leaves out.
-/
namespace Sys2Proof.Machine

/-- The byte at bit `k` of a word, as a number: the digit in base 256 when `k` is a multiple of 8. -/
theorem toNat_byteAt {w : Nat} (x : BitVec w) (k : Nat) : (x.extractLsb' k 8).toNat = x.toNat / 2 ^ k % 256 := by
  rw [BitVec.extractLsb'_toNat, Nat.shiftRight_eq_div_pow]

theorem addrBytes_four_toNat (addr : Word) :
    (addrBytes true addr).map BitVec.toNat =
      [addr.toNat / 16777216, addr.toNat / 65536 % 256, addr.toNat / 256 % 256, addr.toNat % 256] := by
  have top : addr.toNat / 16777216 % 256 = addr.toNat / 16777216 := Nat.mod_eq_of_lt (by have := addr.isLt; omega)
  simp [addrBytes, bytesOfAddr4, toNat_byteAt, top, -BitVec.extractLsb'_toNat]

/-- The bytes of the 3-byte mode are the lower three of the four. -/
theorem addrBytes_three (addr : Word) : addrBytes false addr = (addrBytes true addr).tail := by
  simp [addrBytes, bytesOfAddr3, bytesOfAddr4, BitVec.extractLsb'_extractLsb'_of_le]

theorem addrBytes_three_toNat (addr : Word) :
    (addrBytes false addr).map BitVec.toNat = [addr.toNat / 65536 % 256, addr.toNat / 256 % 256, addr.toNat % 256] := by
  rw [addrBytes_three, List.map_tail, addrBytes_four_toNat, List.tail_cons]

/-- A device that the automatic mode addresses with three bytes has at most 16 MiB (R24). -/
theorem capacityOf_le_of_auto_three {p : Params} {bc : BitVec 16} (hp : p.addrMode = .auto) (ha : a4 p bc = false) :
    capacityOf bc ≤ 16777216 := by
  rw [a4_of_auto hp, decide_eq_false_iff_not, ← capacityOf_gt_16MiB_iff] at ha
  exact Nat.not_lt.mp ha

/-- Settles O5: the four bytes are the base-256 digits of the address and the three are the lower ones of them; the automatic mode
sends three only to a device of at most 16 MiB. -/
theorem addressBytes : Obligations.AddressBytes := by
  unfold Obligations.AddressBytes
  exact ⟨fun addr => ⟨addrBytes_four_toNat addr, addrBytes_three_toNat addr⟩,
    fun p bc addr hp ha h => Nat.div_eq_of_lt (h.trans_le (capacityOf_le_of_auto_three hp ha)),
    by decide, by decide⟩

end Sys2Proof.Machine
end

section
/-!
The capacity table (R146): `lookup` below the base, and from the base on the table's entry at the code's distance from it.
-/
namespace Sys2Proof.Machine

theorem lookup_below {p : Params} {code : Byte} (h : code.toNat < p.capBase.toNat) : lookup p code = none := if_pos h

theorem lookup_at {p : Params} {code : Byte} {k : Nat} (h : code.toNat = p.capBase.toNat + k) :
    lookup p code = p.capTable[k]? := by
  rw [lookup, if_neg (by omega), h, Nat.add_sub_cancel_left]

theorem lookup_beyond {p : Params} {code : Byte} {k : Nat} (h : code.toNat = p.capBase.toNat + k)
    (hk : p.capTable.length ≤ k) : lookup p code = none := by
  rw [lookup_at h, List.getElem?_eq_none hk]

theorem lookup_inside {p : Params} {code : Byte} {k : Nat} (h : code.toNat = p.capBase.toNat + k)
    (hk : k < p.capTable.length) : lookup p code = some p.capTable[k] := by
  rw [lookup_at h, List.getElem?_eq_getElem hk]

/-- The entry that R9 asks of every legal table. -/
theorem lookup_0x18_of_wf {p : Params} (wf : p.wf) : lookup p 0x18#8 = some 256#16 := by
  obtain ⟨-, base, entry, -⟩ := wf
  have code : (0x18#8).toNat = p.capBase.toNat + (0x18 - p.capBase.toNat) := (Nat.add_sub_of_le base).symm
  rw [lookup_at code, entry]

/-- The default table holds the powers of two from 2 on (R8). -/
theorem default_capTable : ∀ k < 10, Params.default.capTable[k]? = some (BitVec.ofNat 16 (2 ^ (k + 1))) := by decide

theorem lookup_default_inside {k : Nat} (hk : k < 10) :
    lookup Params.default (BitVec.ofNat 8 (0x11 + k)) = some (BitVec.ofNat 16 (2 ^ (k + 1))) := by
  have code : (BitVec.ofNat 8 (0x11 + k)).toNat = 0x11 + k := by
    rw [BitVec.toNat_ofNat, Nat.mod_eq_of_lt (by omega)]
  exact (lookup_at code).trans (default_capTable k hk)

theorem lookup_default_outside {code : Byte} (h : code.toNat < 0x11 ∨ 0x1A < code.toNat) :
    lookup Params.default code = none := by
  rcases h with below | beyond
  · exact lookup_below below
  · have distance : code.toNat = 0x11 + (code.toNat - 0x11) := by omega
    have length : Params.default.capTable.length ≤ code.toNat - 0x11 := by
      rw [show Params.default.capTable.length = 10 from rfl]
      omega
    exact lookup_beyond distance length

/-- Settles O10: the code is below the base, or its distance from the base is or is not an index of the table; legal parameters
fix one entry, and the defaults all ten. -/
theorem capacityTable : Obligations.CapacityTable := by
  unfold Obligations.CapacityTable
  exact ⟨fun _ _ => ⟨lookup_below, fun _ h hk => lookup_beyond h hk, fun _ hk h => lookup_inside h hk⟩,
    fun _ wf => lookup_0x18_of_wf wf, fun _ hk => lookup_default_inside hk, fun _ h => lookup_default_outside h⟩

end Sys2Proof.Machine
end

section
/-!
The geometry queries (R142 to R145): what `query` answers of an idle block, and that no multiple of a block count by at most the
bytes of a block leaves 32 bits, so that `RESULT` is the exact product (R23).
-/
namespace Sys2Proof.Machine

theorem blocks_mul_lt_word (bc : BitVec 16) {n : Nat} (h : n ≤ 65536) : bc.toNat * n < 2 ^ 32 :=
  calc bc.toNat * n ≤ bc.toNat * 65536 := Nat.mul_le_mul_left _ h
    _ < 2 ^ 16 * 65536 := Nat.mul_lt_mul_of_pos_right bc.isLt (by decide)

theorem query_of_idle {s : State} (hf : s.fault = false) (hq : s.seq = .idle) (code : Byte) (value : BitVec 16 → Nat) :
    query code value s =
      .next { s with op := code, lasterr := .none, result := BitVec.ofNat 32 (value s.blockcount) } := by
  rw [query, guarded_run hf hq, complete, accept, ← hq]

theorem query_exact {s : State} (hf : s.fault = false) (hq : s.seq = .idle) (code : Byte) {value : BitVec 16 → Nat}
    (hv : value s.blockcount < 2 ^ 32) :
    ∃ r : Word, r.toNat = value s.blockcount ∧
      query code value s = .next { s with op := code, lasterr := .none, result := r } :=
  ⟨BitVec.ofNat 32 (value s.blockcount), by rw [BitVec.toNat_ofNat, Nat.mod_eq_of_lt hv], query_of_idle hf hq code value⟩

/-- Settles O24: each of the four is a query whose value fits in a word. -/
theorem geometryQueries : Obligations.GeometryQueries := by
  unfold Obligations.GeometryQueries
  exact fun s hf hq =>
    ⟨query_exact hf hq 0x02#8 (value := capacityOf) (blocks_mul_lt_word s.blockcount (by decide)),
      query_exact hf hq 0x03#8 (value := blockMaxOf) (s.blockcount.isLt.trans (by decide)),
      query_exact hf hq 0x04#8 (value := sectorMaxOf) (blocks_mul_lt_word s.blockcount (by decide)),
      query_exact hf hq 0x05#8 (value := pageMaxOf) (blocks_mul_lt_word s.blockcount (by decide))⟩

end Sys2Proof.Machine
end

section
/-!
The chip-select guard (R160 to R163): what SELECT and DESELECT do to an idle block, for the outermost acquisition or release, a nested
one, and one that faults.
-/
namespace Sys2Proof.Machine

theorem opened_of_outermost {s : State} (h : s.depth = 0) : opened s = csDrive false { s with depth := 1 } := by
  rw [opened, if_pos h, h]

theorem opened_of_nested {s : State} (h : 1 ≤ s.depth) : opened s = { s with depth := s.depth + 1 } :=
  if_neg (Nat.ne_of_gt h)

theorem closed_of_outermost {s : State} (h : s.depth = 1) : closed s = csDrive true { s with depth := 0 } := by
  rw [closed, if_pos h, h]

theorem closed_of_nested {s : State} (h : 2 ≤ s.depth) : closed s = { s with depth := s.depth - 1 } :=
  if_neg (Nat.ne_of_gt h)

section
variable {s : State} (hf : s.fault = false) (hq : s.seq = .idle)
include hf hq

theorem exec_select_of_idle : exec .select s = .next ((select (accept 0x10#8 s)).settle id) := by
  rw [exec, execSelect, guarded_run hf hq]

theorem exec_deselect_of_idle : exec .deselect s = .next ((deselect (accept 0x11#8 s)).settle id) := by
  rw [exec, execDeselect, guarded_run hf hq]

theorem exec_select_below_depthMax (h : s.depth < s.cfg.depthMax) :
    exec .select s = .next (opened (accept 0x10#8 s)) := by
  have room : ¬(accept 0x10#8 s).cfg.depthMax ≤ (accept 0x10#8 s).depth := Nat.not_le.mpr h
  rw [exec_select_of_idle hf hq, select_eq, if_neg room, Run.settle_done]

theorem exec_select_outermost (hmax : s.depth < s.cfg.depthMax) (h : s.depth = 0) :
    exec .select s = .next { s with
      op := 0x10#8, lasterr := .none, depth := 1, cs := false, dev := s.dev.csLow, trace := s.trace ++ [.cs0] } := by
  rw [exec_select_below_depthMax hf hq hmax, opened_of_outermost (s := accept 0x10#8 s) h]
  rfl

theorem exec_select_nested (hmax : s.depth < s.cfg.depthMax) (h : 1 ≤ s.depth) :
    exec .select s = .next { s with op := 0x10#8, lasterr := .none, depth := s.depth + 1 } := by
  rw [exec_select_below_depthMax hf hq hmax, opened_of_nested (s := accept 0x10#8 s) h]
  rfl

theorem exec_select_at_depthMax (h : s.depth = s.cfg.depthMax) :
    exec .select s = .next (raiseFault .selectOverflow (accept 0x10#8 s)) := by
  have full : (accept 0x10#8 s).cfg.depthMax ≤ (accept 0x10#8 s).depth := h.ge
  rw [exec_select_of_idle hf hq, select_eq, if_pos full, Run.settle_halt, id]

theorem exec_deselect_of_held (h : 1 ≤ s.depth) : exec .deselect s = .next (closed (accept 0x11#8 s)) := by
  have held : (accept 0x11#8 s).depth ≠ 0 := Nat.ne_of_gt h
  rw [exec_deselect_of_idle hf hq, deselect_eq, if_neg held, Run.settle_done]

theorem exec_deselect_outermost (h : s.depth = 1) :
    exec .deselect s = .next { s with
      op := 0x11#8, lasterr := .none, depth := 0, cs := true, dev := s.dev.csHigh, trace := s.trace ++ [.cs1] } := by
  rw [exec_deselect_of_held hf hq h.ge, closed_of_outermost (s := accept 0x11#8 s) h]
  rfl

theorem exec_deselect_nested (h : 2 ≤ s.depth) :
    exec .deselect s = .next { s with op := 0x11#8, lasterr := .none, depth := s.depth - 1 } := by
  rw [exec_deselect_of_held hf hq (Nat.le_of_lt h), closed_of_nested (s := accept 0x11#8 s) h]
  rfl

theorem exec_deselect_at_zero (h : s.depth = 0) :
    exec .deselect s = .next (raiseFault .selectUnderflow (accept 0x11#8 s)) := by
  have free : (accept 0x11#8 s).depth = 0 := h
  rw [exec_deselect_of_idle hf hq, deselect_eq, if_pos free, Run.settle_halt, id]

end

/-- Settles O12: a nested acquisition, the outermost one, and the fault, which writes what acceptance and fault entry write. -/
theorem selectAcquires : Obligations.SelectAcquires := by
  unfold Obligations.SelectAcquires
  exact fun s hf hq =>
    ⟨exec_select_nested hf hq, exec_select_outermost hf hq,
      fun h => ⟨_, exec_select_at_depthMax hf hq h, rfl, rfl, rfl, rfl, rfl, rfl, rfl⟩⟩

/-- Settles O13: a nested release, the outermost one, and the fault, which writes what acceptance and fault entry write. -/
theorem deselectReleases : Obligations.DeselectReleases := by
  unfold Obligations.DeselectReleases
  exact fun s hf hq =>
    ⟨exec_deselect_nested hf hq, exec_deselect_outermost hf hq,
      fun h => ⟨_, exec_deselect_at_zero hf hq h, rfl, rfl, rfl, rfl, rfl, rfl, rfl⟩⟩

end Sys2Proof.Machine
end

section
/-!
The nesting law (R164): the state after any number of SELECTs from depth 0 and after as many DESELECTs as there are acquisitions, and
`GuardOk` as what every SELECT and DESELECT keeps.
-/
namespace Sys2Proof.Machine

theorem execAll_cons {i : Instr} {s t : State} (h : exec i s = .next t) (is : List Instr) :
    execAll (i :: is) s = execAll is t := by
  rw [execAll, h]

theorem exec_of_execAll_cons {i : Instr} {is : List Instr} {s u : State} (h : execAll (i :: is) s = some u) :
    ∃ t, exec i s = .next t ∧ execAll is t = some u := by
  rw [execAll] at h
  split at h
  case h_1 t ht => exact ⟨t, ht, h⟩
  case h_2 => cases h
  case h_3 => cases h

theorem execAll_append {is js : List Instr} {s t : State} (h : execAll is s = some t) :
    execAll (is ++ js) s = execAll js t := by
  induction is generalizing s with
  | nil => cases h; rfl
  | cons i is ih =>
    obtain ⟨u, hu, hrest⟩ := exec_of_execAll_cons h
    rw [List.cons_append, execAll_cons hu, ih hrest]

/-- The first of the SELECTs moves the line; each further one only counts. -/
theorem execAll_selects {s : State} (hf : s.fault = false) (hq : s.seq = .idle) (h0 : s.depth = 0) (n : Nat)
    (hn : n + 1 ≤ s.cfg.depthMax) :
    execAll (List.replicate (n + 1) .select) s = some { s with
      op := 0x10#8, lasterr := .none, depth := n + 1, cs := false, dev := s.dev.csLow, trace := s.trace ++ [.cs0] } := by
  induction n with
  | zero => exact execAll_cons (exec_select_outermost hf hq (h0.trans_lt hn) h0) []
  | succ n ih =>
    rw [List.replicate_succ', execAll_append (ih (Nat.le_of_lt hn))]
    refine execAll_cons (exec_select_nested ?_ ?_ ?_ ?_) []
    exacts [hf, hq, hn, Nat.succ_pos n]

/-- Each of the DESELECTs only counts, but for the last, which moves the line. -/
theorem execAll_deselects (n : Nat) {s : State} (hf : s.fault = false) (hq : s.seq = .idle) (hd : s.depth = n + 1) :
    execAll (List.replicate (n + 1) .deselect) s = some { s with
      op := 0x11#8, lasterr := .none, depth := 0, cs := true, dev := s.dev.csHigh, trace := s.trace ++ [.cs1] } := by
  induction n generalizing s with
  | zero => exact execAll_cons (exec_deselect_outermost hf hq hd) []
  | succ n ih =>
    rw [List.replicate_succ, execAll_cons (exec_deselect_nested hf hq (by omega))]
    exact ih hf hq (Nat.sub_eq_of_eq_add hd)

theorem guardOk_opened {s : State} (h : GuardOk s) (hmax : s.depth < s.cfg.depthMax) : GuardOk (opened s) := by
  obtain ⟨-, hline⟩ := h
  rcases Nat.eq_zero_or_pos s.depth with h0 | hpos
  · rw [opened_of_outermost h0]
    exact ⟨Nat.zero_lt_of_lt hmax, iff_of_true rfl le_rfl⟩
  · rw [opened_of_nested hpos]
    exact ⟨hmax, iff_of_true (hline.mpr hpos) (Nat.succ_pos _)⟩

theorem guardOk_closed {s : State} (h : GuardOk s) (hheld : s.depth ≠ 0) : GuardOk (closed s) := by
  obtain ⟨hmax, hline⟩ := h
  by_cases h1 : s.depth = 1
  · rw [closed_of_outermost h1]
    exact ⟨Nat.zero_le _, by simp⟩
  · have h2 : 2 ≤ s.depth := by omega
    rw [closed_of_nested h2]
    exact ⟨(Nat.sub_le _ _).trans hmax, iff_of_true (hline.mpr (Nat.le_of_lt h2)) (Nat.le_sub_one_of_lt h2)⟩

theorem guardOk_select {s : State} (h : GuardOk s) : GuardOk ((select s).settle id) := by
  rw [select_eq]
  split
  case isTrue => exact h
  case isFalse room => exact guardOk_opened h (Nat.not_le.mp room)

theorem guardOk_deselect {s : State} (h : GuardOk s) : GuardOk ((deselect s).settle id) := by
  rw [deselect_eq]
  split
  case isTrue => exact h
  case isFalse held => exact guardOk_closed h held

/-- An operation that is ignored, or presented while another is in progress, moves neither the line nor the depth. -/
theorem guardOk_of_guarded {run : State → State} {s t : State} (h : GuardOk s) (hrun : GuardOk (run s))
    (ht : guarded s (fun s => .next (run s)) = .next t) : GuardOk t := by
  unfold guarded at ht
  split at ht
  case isTrue => cases ht; exact h
  case isFalse =>
    split at ht
    case isTrue => cases ht; exact hrun
    case isFalse => cases ht; exact h

theorem guardOk_exec {i : Instr} (hi : i = .select ∨ i = .deselect) {s t : State} (h : GuardOk s) (ht : exec i s = .next t) :
    GuardOk t := by
  rcases hi with rfl | rfl
  · exact guardOk_of_guarded (run := fun s => (select (accept 0x10#8 s)).settle id) h (guardOk_select h) ht
  · exact guardOk_of_guarded (run := fun s => (deselect (accept 0x11#8 s)).settle id) h (guardOk_deselect h) ht

theorem guardOk_execAll {is : List Instr} (hi : ∀ i ∈ is, i = .select ∨ i = .deselect) {s t : State} (h : GuardOk s)
    (ht : execAll is s = some t) : GuardOk t := by
  induction is generalizing s with
  | nil => cases ht; exact h
  | cons i is ih =>
    obtain ⟨u, hu, hrest⟩ := exec_of_execAll_cons ht
    obtain ⟨hhead, htail⟩ := List.forall_mem_cons.mp hi
    exact ih htail (guardOk_exec hhead h hu) hrest

/-- Settles O14: `n` SELECTs and `n` DESELECTs by their whole final states. That the line follows the depth is part of `GuardOk`,
which faults keep as well. -/
theorem nestingLaw : Obligations.NestingLaw := by
  unfold Obligations.NestingLaw
  refine ⟨fun s n hf hq h0 hn hmax => ?_, fun s n hf hq h0 hn hmax => ?_,
    fun is s t hi _ h ht _ => (guardOk_execAll hi h ht).2⟩
  · obtain ⟨m, rfl⟩ := Nat.exists_eq_add_of_le' hn
    refine ⟨_, (execAll_append (execAll_selects hf hq h0 m hmax)).trans (execAll_deselects m hf hq rfl), rfl, hf, ?_⟩
    exact List.append_assoc s.trace [.cs0] [.cs1]
  · obtain ⟨m, rfl⟩ := Nat.exists_eq_add_of_le' hn
    exact ⟨_, execAll_selects hf hq h0 m hmax, rfl, hf, rfl⟩

end Sys2Proof.Machine
end

section
/-!
READSTATUS (R175): which registers the operand names, that a cached byte is read back from its own cache alone, and how the operation
ends when its one frame is complete, when the transport cuts the frame (R97), and when the operand names no register.
-/
namespace Sys2Proof.Machine

@[simp] theorem getStatus_setStatus_same (n : StatusReg) (v : Byte) (s : State) : getStatus n (setStatus n v s) = v := by
  cases n <;> rfl

theorem getStatus_setStatus_of_ne {m n : StatusReg} (h : m ≠ n) (v : Byte) (s : State) :
    getStatus m (setStatus n v s) = getStatus m s :=
  match m, n with
  | .sr1, .sr1 | .sr2, .sr2 | .sr3, .sr3 => absurd rfl h
  | .sr1, .sr2 | .sr1, .sr3 | .sr2, .sr1 | .sr2, .sr3 | .sr3, .sr1 | .sr3, .sr2 => rfl

theorem statusReg_eq_none {a : Word} (h : a.toNat < 1 ∨ 3 < a.toNat) : statusReg a = none := by
  have outside : ∀ k : Word, 1 ≤ k.toNat → k.toNat ≤ 3 → a ≠ k := by
    rintro k low high rfl
    omega
  rw [statusReg, if_neg (outside 1#32 (by decide) (by decide)), if_neg (outside 2#32 (by decide) (by decide)),
    if_neg (outside 3#32 (by decide) (by decide))]

/-- The operand's register and its read opcode (R172, R175). -/
theorem statusReg_and_opcode {a : Word} {n : StatusReg} {opcode : Byte}
    (h : a = 1#32 ∧ n = .sr1 ∧ opcode = 0x05#8 ∨ a = 2#32 ∧ n = .sr2 ∧ opcode = 0x35#8 ∨ a = 3#32 ∧ n = .sr3 ∧ opcode = 0x15#8) :
    statusReg a = some n ∧ opcode = rdsrOpc n := by
  rcases h with ⟨rfl, rfl, rfl⟩ | ⟨rfl, rfl, rfl⟩ | ⟨rfl, rfl, rfl⟩ <;> exact ⟨rfl, rfl⟩

/-! The body. -/

theorem runReadstatus_outOfRange {a : Word} (h : statusReg a = none) (s : State) :
    runReadstatus a s = .done () (raiseErr .outOfRange s) := by
  rw [runReadstatus, h]

section
variable {s : State} {a : Word} {n : StatusReg} {rest : List (Option Answer)} (hn : statusReg a = some n)
  (hd : s.depth < s.cfg.depthMax)
include hn hd

theorem runReadstatus_ok {r b : Byte} (hs : s.script = oks [r, b] ++ rest) :
    runReadstatus a s = .done () (complete (b.setWidth 32) (setStatus n b
      (sessioned (exchanged [rdsrOpc n, s.cfg.dummy] [r, b]) [rdsrOpc n, s.cfg.dummy] 2 rest .status s))) := by
  rw [runReadstatus, hn]
  simp only
  rw [uRDSR_ok (s := setSeq .status s) hd hs, Run.bind_done]
  rfl

theorem runReadstatus_cut {as : List (Option Answer)} {es : List Event}
    (cut : FrameCut s [rdsrOpc n, s.cfg.dummy] as es) (hs : s.script = as ++ rest) :
    ∃ bytes k, runReadstatus a s =
      .done () (raiseErr .transferFailure { sessioned [] bytes k rest .status s with trace := s.trace ++ es }) := by
  obtain ⟨bytes, k, h⟩ := uRDSR_cut (s := setSeq .status s) hd cut hs
  refine ⟨bytes, k, ?_⟩
  rw [runReadstatus, hn]
  simp only
  rw [h, Run.bind_done]
  rfl

end

/-! The instruction, from an idle block without a fault. -/

section
variable {s : State} (hf : s.fault = false) (hq : s.seq = .idle)
include hf hq

theorem exec_readstatus_of_idle (a : Word) :
    exec (.readstatus a) s = .next ((runReadstatus a { accept 0x28#8 s with a := a }).settle freeResult) := by
  rw [exec, execReadstatus, guarded_run hf hq]

theorem exec_readstatus_outOfRange {a : Word} (h : statusReg a = none) :
    exec (.readstatus a) s = .next { s with op := 0x28#8, a := a, lasterr := .outOfRange, result := 0#32 } := by
  rw [exec_readstatus_of_idle hf hq, runReadstatus_outOfRange h, Run.settle_done, raiseErr, accept, ← hq]

variable {a : Word} {n : StatusReg} {rest : List (Option Answer)} (hn : statusReg a = some n) (hd : s.depth < s.cfg.depthMax)
include hn hd

theorem exec_readstatus_ok {r b : Byte} (hs : s.script = oks [r, b] ++ rest) :
    NextWith (exec (.readstatus a) s) fun t =>
      t.result.toNat = b.toNat ∧ getStatus n t = b ∧ (∀ m, m ≠ n → getStatus m t = getStatus m s) ∧ t.lasterr = .none ∧
      t.seq = .idle ∧ t.trace = s.trace ++ inSession s (exchanged [rdsrOpc n, s.cfg.dummy] [r, b]) := by
  rw [exec_readstatus_of_idle hf hq, runReadstatus_ok (s := { accept 0x28#8 s with a := a }) hn hd hs, Run.settle_done]
  refine ⟨_, rfl, ?result, ?own, fun m hm => ?others, ?lasterr, rfl, ?trace⟩
  case result => exact BitVec.toNat_setWidth_of_le (by decide)
  case own => exact getStatus_setStatus_same n b _
  case others => exact getStatus_setStatus_of_ne hm b _
  case lasterr => rw [complete_lasterr, setStatus_lasterr]; rfl
  case trace => rw [complete_trace, setStatus_trace]; rfl

/-- Whichever exchange fails, the caches keep their values (R172). -/
theorem exec_readstatus_cut {as : List (Option Answer)} {es : List Event}
    (cut : FrameCut s [rdsrOpc n, s.cfg.dummy] as es) (hs : s.script = as ++ rest) :
    NextWith (exec (.readstatus a) s) fun t =>
      t.result = 0#32 ∧ (∀ m, getStatus m t = getStatus m s) ∧ t.lasterr = .transferFailure ∧ t.seq = .idle ∧
      t.trace = s.trace ++ es := by
  obtain ⟨bytes, k, h⟩ := runReadstatus_cut (s := { accept 0x28#8 s with a := a }) hn hd cut hs
  rw [exec_readstatus_of_idle hf hq, h, Run.settle_done]
  exact ⟨_, rfl, rfl, fun _ => rfl, rfl, rfl, rfl⟩

end

/-- Settles O25: a complete frame gives its byte, a frame cut at either exchange gives the failure, and a number
that names no register is refused before any frame. -/
theorem readstatusReturns : Obligations.ReadstatusReturns := by
  unfold Obligations.ReadstatusReturns
  refine fun s a n opcode ⟨hf, hq, hd⟩ => ⟨fun h => ?_, fun h => exec_readstatus_outOfRange hf hq (statusReg_eq_none h)⟩
  obtain ⟨hn, rfl⟩ := statusReg_and_opcode h
  refine ⟨fun r b rest => exec_readstatus_ok hf hq hn hd, fun k l rest hs => ?atOpcode, fun r k l rest hs => ?atStatus⟩
  case atOpcode =>
    have cut : FrameCut s [rdsrOpc n, s.cfg.dummy] [some (.fail k l)] (inSession s [.xferFail (rdsrOpc n)]) :=
      ⟨[], rdsrOpc n, [s.cfg.dummy], [], k, l, rfl, rfl, rfl, rfl⟩
    exact exec_readstatus_cut hf hq hn hd cut hs
  case atStatus =>
    have cut : FrameCut s [rdsrOpc n, s.cfg.dummy] (oks [r] ++ [some (.fail k l)])
        (inSession s [.xfer (rdsrOpc n) r, .xferFail s.cfg.dummy]) :=
      ⟨[rdsrOpc n], s.cfg.dummy, [], [r], k, l, rfl, rfl, rfl, rfl⟩
    exact exec_readstatus_cut hf hq hn hd cut hs

end Sys2Proof.Machine
end

section
/-!
SETFAST (R240) and the fast flag (R27): the whole next state of a SETFAST, that INIT leaves the flag unset, and that no
instruction but these two writes it. Each instruction's footprint (`Keeps`) says the last; here it is read for the flag.
-/
namespace Sys2Proof.Machine

theorem fastEffective_of_enabled {p : Params} (h : p.fastCfg = .enabled) (f : FastFlag) :
    fastEffective p f = true ↔ f = .fast := by
  simp only [fastEffective, h, decide_eq_true_iff]

/-- The mode an operand of SETFAST asks for (R240), and what the flag then holds. -/
def requestedMode (a : Word) : FastFlag := if a = 0#32 then .standard else .fast

theorem requestedMode_of_zero {a : Word} (h : a = 0#32) : requestedMode a = .standard := if_pos h

theorem requestedMode_of_ne_zero {a : Word} (h : a ≠ 0#32) : requestedMode a = .fast := if_neg h

theorem requestedMode_eq_fast_iff (a : Word) : requestedMode a = .fast ↔ a ≠ 0#32 := by
  refine ⟨fun fast zero => ?_, requestedMode_of_ne_zero⟩
  rw [requestedMode_of_zero zero] at fast
  cases fast

theorem requestedMode_ne_unset (a : Word) : requestedMode a ≠ .unset := by
  unfold requestedMode
  split <;> decide

/-! The body of SETFAST. -/

theorem runSetfast_refused (a : Word) {s : State} (h : s.blockcount = 0#16 ∨ s.cfg.fastCfg ≠ .enabled) :
    runSetfast a s = raiseErr .refused s := by
  rcases h with unidentified | fixed
  · rw [runSetfast, if_pos unidentified]
  · rw [runSetfast, if_neg fixed, ite_self]

theorem runSetfast_set (a : Word) {s : State} (hb : s.blockcount ≠ 0#16) (hc : s.cfg.fastCfg = .enabled) :
    runSetfast a s = complete 1#32 { s with fast := requestedMode a } := by
  rw [runSetfast, if_neg hb, if_pos hc, requestedMode]

/-! INIT: the flag is cleared at the start, and nothing after that writes it. -/

theorem Keeps.fast {F : Footprint} (hF : ¬F.ident) {s t : State} (h : Keeps F s t) : t.fast = s.fast :=
  (h.ident hF).2.2.2

theorem readAllStatus_fast (s : State) : (readAllStatus s).final.fast = s.fast :=
  (readAllStatus_keeps (F := .most) (fun _ => trivial) s).fast Footprint.most_ident

theorem Run.bind_fast {α β : Type} {s : State} {r : Run α} {f : α → State → Run β} (h : r.final.fast = s.fast)
    (hf : ∀ a t, (f a t).final.fast = t.fast) : (r.bind f).final.fast = s.fast :=
  Run.bind_final (R := fun s t => t.fast = s.fast) (fun h k => k.trans h) h fun a t _ => hf a t

theorem identify_fast (id : List Byte) (s : State) : (identify id s).final.fast = s.fast := by
  unfold identify
  split
  case h_2 => rfl
  split
  case isFalse => rfl
  split
  case h_2 => rfl
  case h_1 blocks _ => exact Run.bind_fast (readAllStatus_fast (setIdentity blocks _ _ s)) fun _ _ => rfl

theorem runInit_fast (s : State) : (runInit s).final.fast = .unset := by
  refine Run.bind_fast (s := clearIdentity s) ((uWRDI_keeps .most _).fast Footprint.most_ident) fun ok t => ?_
  split
  case isFalse => rfl
  case isTrue =>
    refine Run.bind_fast ((uRDID_keeps .most (setSeq .ident t)).fast Footprint.most_ident) fun id u => ?_
    split
    · exact identify_fast _ u
    · rfl

theorem settle_fast {f : FastFlag} {r : Run Unit} (h : r.final.fast = f) : (r.settle freeResult).fast = f := by
  cases r <;> exact h

/-! SELECT and DESELECT. -/

@[simp] theorem opened_fast (s : State) : (opened s).fast = s.fast := by unfold opened; split <;> rfl
@[simp] theorem closed_fast (s : State) : (closed s).fast = s.fast := by unfold closed; split <;> rfl

theorem select_fast (s : State) : ((select s).settle id).fast = s.fast := by
  rw [select_eq]
  split
  · rfl
  · exact opened_fast s

theorem deselect_fast (s : State) : ((deselect s).settle id).fast = s.fast := by
  rw [deselect_eq]
  split
  · rfl
  · exact closed_fast s

/-! The instructions, from an idle block without a fault. -/

/-- Only INIT and SETFAST may write the identity or the flag (`mayWrite`). -/
theorem footprint_not_ident {i : Instr} (hinit : i ≠ .init) (hset : ∀ a, i ≠ .setfast a) (s : State) : ¬(footprint i s).ident := by
  cases i with
  | init => exact absurd rfl hinit
  | setfast a => exact absurd rfl (hset a)
  | readstatus a =>
    simp only [footprint, mayWrite]
    split_ifs <;> decide
  | _ => simp [footprint, mayWrite]

theorem FrameDone.fast {s t : State} (h : FrameDone .most s t) : t.fast = s.fast := by
  obtain ⟨u, _, _, _, keeps, _, _, rfl⟩ := h
  exact keeps.fast Footprint.most_ident

section
variable {s : State} (hf : s.fault = false) (hq : s.seq = .idle)
include hf hq

theorem exec_setfast_of_idle (a : Word) : exec (.setfast a) s = .next (runSetfast a { accept 0x50#8 s with a := a }) := by
  rw [exec, execSetfast, guarded_run hf hq]

theorem exec_setfast_refused (a : Word) (h : s.blockcount = 0#16 ∨ s.cfg.fastCfg ≠ .enabled) :
    exec (.setfast a) s = .next { s with op := 0x50#8, a := a, lasterr := .refused, result := 0#32 } := by
  rw [exec_setfast_of_idle hf hq, runSetfast_refused a (s := { accept 0x50#8 s with a := a }) h, raiseErr, accept, ← hq]

theorem exec_setfast_set (a : Word) (hb : s.blockcount ≠ 0#16) (hc : s.cfg.fastCfg = .enabled) :
    exec (.setfast a) s =
      .next { s with op := 0x50#8, a := a, lasterr := .none, fast := requestedMode a, result := 1#32 } := by
  rw [exec_setfast_of_idle hf hq, runSetfast_set a (s := { accept 0x50#8 s with a := a }) hb hc, complete, accept, ← hq]

theorem exec_init_fast {t : State} (h : exec .init s = .next t) : t.fast = .unset := by
  rw [exec, execInit, guarded_run hf hq] at h
  cases h
  exact settle_fast (runInit_fast _)

theorem frame_fast {run : State → State} {t : State} (h : guarded s (fun s => .next (run s)) = .next t)
    (hd : FrameDone .most s (run s)) : t.fast = s.fast := by
  rw [guarded_run hf hq] at h
  cases h
  exact hd.fast

/-- A frame that only sends: a command, a status write, an erase. -/
theorem sendFrame_fast {q : Seq} {op : Byte} {rest : List Byte} {t : State} (hop : opcodes.contains op = true)
    (h : guarded s (fun s => .next (runFrame q (fun s => sentOnly (session (sendFrame (op :: rest)) s)) s)) = .next t) :
    t.fast = s.fast :=
  frame_fast hf hq h (sendFrame_done hop fun _ _ _ _ _ hx => absurd trivial hx)

theorem frameProgram_fast {op : Byte} {addr data : List Byte} {t : State} (hop : opcodes.contains op = true)
    (h : frameProgram op addr data s = .next t) : t.fast = s.fast := by
  rw [frameProgram, guarded_run hf hq] at h
  split at h
  · cases h
  · cases h
    exact (programFrame_done hop fun _ _ _ _ _ hx => absurd trivial hx).fast

theorem frameRead_fast {op : Byte} {addr dummies : List Byte} {n : Nat} {t : State} (hop : opcodes.contains op = true)
    (hst : storing op = false) (h : frameRead op addr dummies n s = .next t) : t.fast = s.fast := by
  rw [frameRead, guarded_run hf hq] at h
  split at h
  · cases h
  · cases h
    exact (readFrame_done hop hst).fast

/-- R27: SETFAST and INIT alone write the flag. -/
theorem exec_fast {i : Instr} {t : State} (hinit : i ≠ .init) (hset : ∀ a, i ≠ .setfast a) (h : exec i s = .next t) :
    t.fast = s.fast := by
  have outside := footprint_not_ident hinit hset s
  cases i with
  | init => exact absurd rfl hinit
  | setfast a => exact absurd rfl (hset a)
  | wrsr1 _ | wrsr2 _ | wrsr3 _ | wrdi | wren | ce | se3 _ | se4 _ | be3 _ | be4 _ => exact sendFrame_fast hf hq (by decide) h
  | pp3 _ _ | pp4 _ _ => exact frameProgram_fast hf hq (by decide) h
  | read3 _ _ | read4 _ _ | fr3 _ _ | fr4 _ _ | rduid => exact frameRead_fast hf hq (by decide) (by decide) h
  | rdsr1 | rdsr2 | rdsr3 => exact frame_fast hf hq h (rdsr_done trivial)
  | rdid => exact frame_fast hf hq h rdid_done
  | select =>
    rw [exec_select_of_idle hf hq] at h
    cases h
    exact select_fast _
  | deselect =>
    rw [exec_deselect_of_idle hf hq] at h
    cases h
    exact deselect_fast _
  | capacity | blockmax | sectormax | pagemax => exact (query_keeps (F := .most) hf hq h).fast Footprint.most_ident
  | waitbusy _ => exact (execWaitbusy_keeps hf hq h).fast outside
  | read _ _ => exact (execRead_keeps hf hq h).fast outside
  | readpage _ _ _ => exact (execReadpage_keeps hf hq h).fast outside
  | readsector _ _ _ => exact (execReadsector_keeps hf hq h).fast outside
  | readblock _ _ _ => exact (execReadblock_keeps hf hq h).fast outside
  | readstatus _ => exact (execReadstatus_keeps hf hq h).fast outside
  | readuid => exact (execReaduid_keeps hf hq h).fast outside
  | writepage _ _ _ _ => exact (execWritepage_keeps hf hq h).fast outside
  | write _ _ _ => exact (execWrite_keeps hf hq h).fast outside
  | writeuntil _ _ _ _ => exact (execWriteuntil_keeps hf hq h).fast outside
  | writestatus _ _ => exact (execWritestatus_keeps hf hq h).fast outside
  | erasesector _ => exact (execErasesector_keeps hf hq h).fast outside
  | eraseblock _ => exact (execEraseblock_keeps hf hq h).fast outside
  | erasechip => exact (execErasechip_keeps hf hq h).fast outside

theorem exec_setfast_ne_unset {a : Word} {t : State} (hset : s.fast ≠ .unset) (h : exec (.setfast a) s = .next t) :
    t.fast ≠ .unset := by
  by_cases refused : s.blockcount = 0#16 ∨ s.cfg.fastCfg ≠ .enabled
  · rw [exec_setfast_refused hf hq a refused] at h
    cases h
    exact hset
  · obtain ⟨hb, hc⟩ := not_or.mp refused
    rw [exec_setfast_set hf hq a hb (not_not.mp hc)] at h
    cases h
    exact requestedMode_ne_unset a

theorem exec_fast_ne_unset {i : Instr} {t : State} (hinit : i ≠ .init) (hset : s.fast ≠ .unset) (h : exec i s = .next t) :
    t.fast ≠ .unset := by
  by_cases hi : ∃ a, i = .setfast a
  · obtain ⟨a, rfl⟩ := hi
    exact exec_setfast_ne_unset hf hq hset h
  · rw [exec_fast hf hq hinit (not_exists.mp hi) h]
    exact hset

end

/-- Settles O46: SETFAST by its whole next state, the effective mode read off it, and the flag after every other instruction. -/
theorem setfastSets : Obligations.SetfastSets := by
  unfold Obligations.SetfastSets
  refine fun s a hf hq => ⟨exec_setfast_refused hf hq a, fun hb hc ha => ?fast, fun hb hc ha => ?standard, fun t hb hc h => ?mode,
    fun _ => exec_init_fast hf hq, fun _ _ => exec_fast_ne_unset hf hq⟩
  case fast => rw [exec_setfast_set hf hq a hb hc, requestedMode_of_ne_zero ha]
  case standard => rw [exec_setfast_set hf hq a hb hc, requestedMode_of_zero ha]
  case mode =>
    rw [exec_setfast_set hf hq a hb hc] at h
    cases h
    exact (fastEffective_of_enabled hc _).trans (requestedMode_eq_fast_iff a)

end Sys2Proof.Machine
end

section
/-!
Decoding what was encoded (R90, R91, R94, R96, R98, R120, R121): the address bytes and the address give each other back, and each
part of a frame's format reads what `encode` puts there. The opcode or the code picks the format by computation.
-/
namespace Sys2Proof.Machine

theorem bytesOfAddr3_append (b2 b1 b0 : Byte) : bytesOfAddr3 (b2 ++ b1 ++ b0) = [b2, b1, b0] := by
  simp only [bytesOfAddr3, List.cons.injEq, and_true]
  refine ⟨?_, ?_, ?_⟩
  all_goals
    ext i hi
    rw [BitVec.getElem_extractLsb', BitVec.getLsbD_append, BitVec.getLsbD_append]
    grind

theorem bytesOfAddr4_append (b3 b2 b1 b0 : Byte) : bytesOfAddr4 (b3 ++ b2 ++ b1 ++ b0) = [b3, b2, b1, b0] := by
  simp only [bytesOfAddr4, List.cons.injEq, and_true]
  refine ⟨?_, ?_, ?_, ?_⟩
  all_goals
    ext i hi
    rw [BitVec.getElem_extractLsb', BitVec.getLsbD_append, BitVec.getLsbD_append, BitVec.getLsbD_append]
    grind

theorem addrOfBytes3_extract (a : BitVec 24) :
    addrOfBytes3 (a.extractLsb' 16 8) (a.extractLsb' 8 8) (a.extractLsb' 0 8) = a := by
  ext i hi
  rw [addrOfBytes3]
  grind

theorem addrOfBytes4_extract (a : Word) :
    addrOfBytes4 (a.extractLsb' 24 8) (a.extractLsb' 16 8) (a.extractLsb' 8 8) (a.extractLsb' 0 8) = a := by
  ext i hi
  rw [addrOfBytes4]
  grind

theorem withAddr3_bytesOfAddr3 (k : BitVec 24 → List Byte → Except DecodeError Instr) (a : BitVec 24) (rest : List Byte) :
    withAddr3 k (bytesOfAddr3 a ++ rest) = k a rest := by
  rw [bytesOfAddr3, List.cons_append, List.cons_append, List.cons_append, withAddr3, addrOfBytes3_extract, List.nil_append]

theorem withAddr4_bytesOfAddr4 (k : Word → List Byte → Except DecodeError Instr) (a : Word) (rest : List Byte) :
    withAddr4 k (bytesOfAddr4 a ++ rest) = k a rest := by
  rw [bytesOfAddr4, List.cons_append, List.cons_append, List.cons_append, List.cons_append, withAddr4, addrOfBytes4_extract,
    List.nil_append]

theorem withReceived_replicate (n : Nat) (i : Instr) (b : Byte) : withReceived n i (List.replicate n b) = .ok i := by
  rw [withReceived, List.length_replicate, if_neg (Nat.lt_irrefl n), if_pos rfl]

theorem withData_of_length_pos (mk : List Byte → Instr) {data : List Byte} (h : 1 ≤ data.length) :
    withData mk data = .ok (mk data) :=
  match data, h with
  | _ :: _, _ => rfl

theorem withData_replicate (mk : Nat → Instr) {n : Nat} (h : 1 ≤ n) (b : Byte) :
    withData (fun d => mk d.length) (List.replicate n b) = .ok (mk n) := by
  rw [withData_of_length_pos _ (by rwa [List.length_replicate]), List.length_replicate]

theorem one_le_of_programFits {a n : Nat} (h : programFits a n = true) : 1 ≤ n := by
  simp only [programFits, Bool.and_eq_true, decide_eq_true_eq] at h
  exact h.1

/-- Settles O1: a frame is read part by part along its format, its data part by its length, which well-formedness makes positive; the
code of a request picks the operation, whose operands are the request's. -/
theorem decodeEncodeAgree : Obligations.DecodeEncodeAgree := by
  unfold Obligations.DecodeEncodeAgree
  intro p i wf
  cases i with
  | pp3 addr data =>
    show withAddr3 (fun a => withData (.pp3 a)) (bytesOfAddr3 addr ++ data) = _
    rw [withAddr3_bytesOfAddr3, withData_of_length_pos _ (one_le_of_programFits wf)]
  | pp4 addr data =>
    show withAddr4 (fun a => withData (.pp4 a)) (bytesOfAddr4 addr ++ data) = _
    rw [withAddr4_bytesOfAddr4, withData_of_length_pos _ (one_le_of_programFits wf)]
  | read3 addr n =>
    show withAddr3 (fun a => withData (fun d => .read3 a d.length)) (bytesOfAddr3 addr ++ List.replicate n p.dummy) = _
    rw [withAddr3_bytesOfAddr3, withData_replicate _ (of_decide_eq_true wf)]
  | read4 addr n =>
    show withAddr4 (fun a => withData (fun d => .read4 a d.length)) (bytesOfAddr4 addr ++ List.replicate n p.dummy) = _
    rw [withAddr4_bytesOfAddr4, withData_replicate _ (of_decide_eq_true wf)]
  | fr3 addr n =>
    show withAddr3 (fun a => withDummy (withData (fun d => .fr3 a d.length)))
      (bytesOfAddr3 addr ++ p.dummy :: List.replicate n p.dummy) = _
    rw [withAddr3_bytesOfAddr3, withDummy, withData_replicate _ (of_decide_eq_true wf)]
  | fr4 addr n =>
    show withAddr4 (fun a => withDummy (withData (fun d => .fr4 a d.length)))
      (bytesOfAddr4 addr ++ p.dummy :: List.replicate n p.dummy) = _
    rw [withAddr4_bytesOfAddr4, withDummy, withData_replicate _ (of_decide_eq_true wf)]
  | se3 addr => exact withAddr3_bytesOfAddr3 (fun a => endOfFrame (.se3 a)) addr []
  | be3 addr => exact withAddr3_bytesOfAddr3 (fun a => endOfFrame (.be3 a)) addr []
  | se4 addr => exact withAddr4_bytesOfAddr4 (fun a => endOfFrame (.se4 a)) addr []
  | be4 addr => exact withAddr4_bytesOfAddr4 (fun a => endOfFrame (.be4 a)) addr []
  | rduid => exact withReceived_replicate (4 + p.uidLen) .rduid p.dummy
  | _ => rfl

/-- Settles O2: the decoders compute. -/
theorem sampleWords : Obligations.SampleWords := by
  unfold Obligations.SampleWords
  decide

end Sys2Proof.Machine
end

section
/-!
One step of the machine, by what becomes of it (R75, R255, R260, R290): the block goes on, an instruction runs, a fault is raised, or
reset. Apart from SELECT's acquisition, DESELECT's release and reset, each of them is an `OpOk`.
-/
namespace Sys2Proof.Machine

/-- `u` is `s` but for the host's acts and the operand latches, which the host writes (R31, R75). -/
def HostWrote (s u : State) : Prop :=
  u = { s with hostQ := u.hostQ, op := u.op, a := u.a, b := u.b, len := u.len, tmo := u.tmo, wdata := u.wdata }

theorem HostWrote.refl (s : State) : HostWrote s s := rfl
theorem hostWrote_popHost (s : State) : HostWrote s (popHost s) := rfl
theorem hostWrote_latch_popHost (r : Request) (s : State) : HostWrote s (latch r (popHost s)) := rfl

/-- What one step comes to, from a state that differs from `s` in what the host wrote. -/
inductive StepsTo (s : State) : State → Prop
  | proceeds {u t : State} (hu : HostWrote s u) (h : proceed u = .next t) : StepsTo s t
  | runs {u t : State} {i : Instr} (hu : HostWrote s u) (h : exec i u = .next t) : StepsTo s t
  | faults {u : State} {c : FaultCause} (hu : HostWrote s u) (hc : c ≠ .none) : StepsTo s (raiseFault c u)
  | resets {u : State} (hu : HostWrote s u) : StepsTo s (applyReset u)

theorem proceed_of_fault {s : State} (h : s.fault = true) : proceed s = .next s := if_pos h

/-- What comes before an operation is a step of its own: ignored, or the fault `Reentry` (R255, R260). -/
theorem StepsTo.of_guarded {s u t : State} {run : State → Result} (hu : HostWrote s u) (h : guarded u run = .next t)
    (hrun : run u = .next t → StepsTo s t) : StepsTo s t := by
  unfold guarded at h
  split at h
  case isTrue fault =>
    cases h
    exact .proceeds hu (proceed_of_fault fault)
  case isFalse =>
    split at h
    case isTrue => exact hrun h
    case isFalse =>
      cases h
      exact .faults hu (by decide)

theorem stepsTo_of_present {s t : State} {r : Request} (h : present r (popHost s) = .next t) : StepsTo s t := by
  refine .of_guarded (hostWrote_popHost s) h fun h => ?_
  split at h
  · exact .runs (hostWrote_latch_popHost r s) h
  · cases h
    exact .faults (hostWrote_popHost s) (by decide)

theorem stepsTo_of_presentFrame {s t : State} {bytes : List Byte} (h : presentFrame bytes (popHost s) = .next t) :
    StepsTo s t := by
  refine .of_guarded (hostWrote_popHost s) h fun h => ?_
  split at h
  · exact .runs (hostWrote_popHost s) h
  · cases h

theorem stepsTo_of_step {s t : State} (h : step s = .next t) : StepsTo s t := by
  rw [step, hostStep] at h
  split at h
  · exact .proceeds (.refl s) h
  · exact .proceeds (hostWrote_popHost s) h
  · cases h
    exact .resets (hostWrote_popHost s)
  · exact stepsTo_of_present h
  · split at h
    · exact stepsTo_of_present h
    · exact .proceeds (.refl s) h
  · split at h
    · exact stepsTo_of_presentFrame h
    · exact .proceeds (.refl s) h

/-! An instruction. -/

/-- What an instruction does: SELECT acquires, DESELECT releases, and everything else, their faults included, is an `OpOk`. -/
inductive ExecsTo (s : State) : State → Prop
  | ok {t : State} (h : OpOk s t) : ExecsTo s t
  | acquires (room : s.depth < s.cfg.depthMax) (idle : s.seq = .idle) : ExecsTo s (opened (accept 0x10#8 s))
  | releases (held : s.depth ≠ 0) (idle : s.seq = .idle) : ExecsTo s (closed (accept 0x11#8 s))

theorem opOk_accept_raiseFault {c : FaultCause} (hc : c ≠ .none) (code : Byte) (s : State) :
    OpOk s (raiseFault c (accept code s)) :=
  (OpOk.raiseFault (s := accept code s) hc).latched rfl

/-- A guarded operation, ignored and faulted alike, is what its body is (R255, R260). -/
theorem ExecsTo.of_guarded {s t : State} {run : State → Result} (h : guarded s run = .next t)
    (hrun : s.fault = false → s.seq = .idle → ExecsTo s t) : ExecsTo s t := by
  unfold guarded at h
  split at h
  case isTrue fault =>
    cases h
    exact .ok (.refl fun noFault => absurd (fault.symm.trans noFault) (by decide))
  case isFalse noFault =>
    split at h
    case isTrue idle => exact hrun (Bool.not_eq_true _ ▸ noFault) idle
    case isFalse =>
      cases h
      exact .ok (.raiseFault (by decide))

theorem execsTo_of_select {s t : State} (h : exec .select s = .next t) : ExecsTo s t := by
  refine .of_guarded (run := fun s => .next ((select (accept 0x10#8 s)).settle id)) h fun hf hq => ?_
  rw [exec_select_of_idle hf hq, select_eq] at h
  split at h
  case isTrue =>
    cases h
    exact .ok (opOk_accept_raiseFault (by decide) _ s)
  case isFalse room =>
    cases h
    exact .acquires (Nat.not_le.mp room) hq

theorem execsTo_of_deselect {s t : State} (h : exec .deselect s = .next t) : ExecsTo s t := by
  refine .of_guarded (run := fun s => .next ((deselect (accept 0x11#8 s)).settle id)) h fun hf hq => ?_
  rw [exec_deselect_of_idle hf hq, deselect_eq] at h
  split at h
  case isTrue =>
    cases h
    exact .ok (opOk_accept_raiseFault (by decide) _ s)
  case isFalse held =>
    cases h
    exact .releases held hq

theorem execsTo_of_exec {i : Instr} {s t : State} (h : exec i s = .next t) : ExecsTo s t := by
  by_cases hs : i = .select
  · exact execsTo_of_select (hs ▸ h)
  by_cases hd : i = .deselect
  · exact execsTo_of_deselect (hd ▸ h)
  exact .ok (exec_ok hs hd h)

end Sys2Proof.Machine
end

section
/-!
What every step keeps: the legal states (R9, R22, R25 to R27, R36), the depth and the line through everything but SELECT, DESELECT and
reset (R165), the parameters (R8), and that a session begins with an opcode (R90, R99).
-/
namespace Sys2Proof.Machine

theorem inStep_of_legal {s : State} (h : Legal s) : InStep s := by
  obtain ⟨-, ⟨-, guard⟩, -, ⟨device, -⟩, -⟩ := h
  exact ⟨guard, device⟩

theorem memWf_of_legal {s : State} (h : Legal s) : MemWf s.dev.mem := by
  obtain ⟨-, -, -, ⟨-, cells⟩, -⟩ := h
  exact cells

/-- Settles O15: the depth and the line are what an `OpOk` keeps. -/
theorem everyOperationReleases : Obligations.EveryOperationReleases := by
  unfold Obligations.EveryOperationReleases
  refine ⟨fun i s t hs hd legal h => ?_, fun s t legal h => ?_⟩
  · have ok := exec_ok hs hd h
    exact ⟨ok.depth, (ok.inStep (inStep_of_legal legal)).2⟩
  · have ok := proceed_ok h
    exact ⟨ok.depth, (ok.inStep (inStep_of_legal legal)).2⟩

/-! Legal states. -/

theorem HostWrote.legal {s u : State} (hu : HostWrote s u) (h : Legal s) : Legal u := by
  rw [hu]
  exact h

theorem OpOk.legal {s t : State} (ok : OpOk s t) (h : Legal s) : Legal t := by
  have inStep := ok.inStep (inStep_of_legal h)
  obtain ⟨wf, ⟨range, -⟩, identity, ⟨-, cells⟩, faults, -⟩ := h
  have table : TableOk s := by
    obtain ⟨-, -, -, nonzero, -⟩ := wf
    exact nonzero
  refine ⟨?_, ⟨?_, inStep.1.1⟩, ok.identity table identity, ⟨inStep.1.2, ok.memWf cells⟩, ok.faultOk faults, ok.boundary⟩
  · rw [ok.cfg]
    exact wf
  · rw [ok.depth, ok.cfg]
    exact range

theorem legal_accept {s : State} (code : Byte) (h : Legal s) : Legal (accept code s) := h

theorem legal_opened {s : State} (h : Legal s) (room : s.depth < s.cfg.depthMax) : Legal (opened s) := by
  obtain ⟨wf, guard, identity, ⟨device, cells⟩, faults, boundary⟩ := h
  have guard' := guardOk_opened guard room
  unfold opened at guard' ⊢
  split
  case isTrue outermost =>
    rw [if_pos outermost] at guard'
    exact ⟨wf, guard', identity, ⟨iff_of_true rfl rfl, cells⟩, faults, boundary⟩
  case isFalse nested =>
    rw [if_neg nested] at guard'
    exact ⟨wf, guard', identity, ⟨device, cells⟩, faults, boundary⟩

theorem legal_csDrive_true {s : State} (h : Legal s) : Legal (csDrive true { s with depth := 0 }) := by
  obtain ⟨wf, -, identity, ⟨-, cells⟩, faults, boundary⟩ := h
  exact ⟨wf, ⟨Nat.zero_le _, by simp⟩, identity, ⟨by simp, Flash.csHigh_memWf cells⟩, faults, boundary⟩

theorem legal_closed {s : State} (h : Legal s) (held : s.depth ≠ 0) : Legal (closed s) := by
  by_cases outermost : s.depth = 1
  · rw [closed_of_outermost outermost]
    exact legal_csDrive_true h
  · have guard' := guardOk_closed h.2.1 held
    obtain ⟨wf, -, identity, device, faults, boundary⟩ := h
    rw [closed_of_nested (by omega)] at guard' ⊢
    exact ⟨wf, guard', identity, device, faults, boundary⟩

theorem ExecsTo.legal {s t : State} (e : ExecsTo s t) (h : Legal s) : Legal t := by
  cases e with
  | ok ok => exact ok.legal h
  | acquires room => exact legal_opened (legal_accept _ h) room
  | releases held => exact legal_closed (legal_accept _ h) held

/-- Reset leaves what the line's rise leaves of the device, and the reset values (R290). -/
theorem legal_applyReset {s : State} (h : Legal s) : Legal (applyReset s) := by
  have device : (applyReset s).dev.selected = false ∧ MemWf (applyReset s).dev.mem := by
    obtain ⟨-, -, -, ⟨device, cells⟩, -⟩ := h
    unfold applyReset
    cases line : s.cs with
    | true => exact ⟨by simpa [line] using device, cells⟩
    | false => exact ⟨Flash.csHigh_selected _, Flash.csHigh_memWf cells⟩
  have cfg : (applyReset s).cfg = s.cfg := by
    unfold applyReset
    cases s.cs <;> rfl
  obtain ⟨selected, cells⟩ := device
  refine ⟨?_, ⟨Nat.zero_le _, by simp [applyReset, State.reset]⟩, ⟨.inl rfl, fun _ => ⟨rfl, rfl, rfl⟩⟩, ⟨?_, cells⟩,
    iff_of_true rfl rfl, fun _ => .inl rfl⟩
  · rw [cfg]
    exact h.1
  · rw [selected]
    simp [applyReset, State.reset]

/-- Settles O54: whatever a step comes to keeps the legal states. -/
theorem stepKeepsLegal : Obligations.StepKeepsLegal := by
  unfold Obligations.StepKeepsLegal
  intro s t legal h
  cases stepsTo_of_step h with
  | proceeds hu h => exact (proceed_ok h).legal (hu.legal legal)
  | runs hu h => exact (execsTo_of_exec h).legal (hu.legal legal)
  | faults hu hc => exact (OpOk.raiseFault hc).legal (hu.legal legal)
  | resets hu => exact legal_applyReset (hu.legal legal)

/-! The parameters, and the events. -/

@[simp] theorem closed_cfg (s : State) : (closed s).cfg = s.cfg := by unfold closed; split <;> rfl
@[simp] theorem applyReset_cfg (s : State) : (applyReset s).cfg = s.cfg := by unfold applyReset; cases s.cs <;> rfl

theorem HostWrote.cfg {s u : State} (hu : HostWrote s u) : u.cfg = s.cfg := by rw [hu]

theorem ExecsTo.cfg {s t : State} (e : ExecsTo s t) : t.cfg = s.cfg := by
  cases e with
  | ok ok => exact ok.cfg
  | acquires => exact opened_cfg _
  | releases => exact closed_cfg _

/-- Settles O55: whatever a step comes to leaves the parameters. -/
theorem parametersFixed : Obligations.ParametersFixed := by
  unfold Obligations.ParametersFixed
  intro s t h
  cases stepsTo_of_step h with
  | proceeds hu h => exact (proceed_ok h).cfg.trans hu.cfg
  | runs hu h => exact (execsTo_of_exec h).cfg.trans hu.cfg
  | faults hu => exact hu.cfg
  | resets hu => exact (applyReset_cfg _).trans hu.cfg

/-- The trace grows by events that are right whatever came before. -/
def GrowsRight (s t : State) : Prop := ∃ es, t.trace = s.trace ++ es ∧ RightEvents es

theorem GrowsRight.of_trace_eq {s t : State} (h : t.trace = s.trace) : GrowsRight s t :=
  ⟨[], h.trans (List.append_nil _).symm, fun _ => rfl⟩

theorem growsRight_csDrive (level : Bool) (s : State) : GrowsRight s (csDrive level s) :=
  ⟨_, csDrive_trace level s, fun _ => by cases level <;> rfl⟩

theorem growsRight_opened (s : State) : GrowsRight s (opened s) := by
  unfold opened
  split
  · exact growsRight_csDrive false { s with depth := s.depth + 1 }
  · exact .of_trace_eq rfl

theorem growsRight_closed (s : State) : GrowsRight s (closed s) := by
  unfold closed
  split
  · exact growsRight_csDrive true { s with depth := s.depth - 1 }
  · exact .of_trace_eq rfl

theorem growsRight_applyReset (s : State) : GrowsRight s (applyReset s) := by
  unfold applyReset
  cases s.cs with
  | true => exact .of_trace_eq rfl
  | false => exact growsRight_csDrive true s

theorem HostWrote.trace {s u : State} (hu : HostWrote s u) : u.trace = s.trace := by rw [hu]

theorem ExecsTo.growsRight {s t : State} (e : ExecsTo s t) : GrowsRight s t := by
  cases e with
  | ok ok => exact ok.events
  | acquires => exact growsRight_opened (accept 0x10#8 s)
  | releases => exact growsRight_closed (accept 0x11#8 s)

theorem GrowsRight.opcodesOnly {s u t : State} (hu : HostWrote s u) (h : GrowsRight u t) (hs : OpcodesOnly s) :
    OpcodesOnly t := by
  obtain ⟨es, trace, right⟩ := h
  show opensRight false t.trace = true
  rw [trace, hu.trace, opens_append, hs, right, Bool.and_self]

/-- Settles O56: whatever a step comes to, the trace grows by events that are right after any other. -/
theorem opcodesOnlyKept : Obligations.OpcodesOnlyKept := by
  unfold Obligations.OpcodesOnlyKept
  intro s t _ only h
  cases stepsTo_of_step h with
  | proceeds hu h => exact GrowsRight.opcodesOnly hu (proceed_ok h).events only
  | runs hu h => exact GrowsRight.opcodesOnly hu (execsTo_of_exec h).growsRight only
  | faults hu => exact GrowsRight.opcodesOnly hu (.of_trace_eq rfl) only
  | resets hu => exact GrowsRight.opcodesOnly hu (growsRight_applyReset _) only

end Sys2Proof.Machine
end

section
/-!
Clamping of a linear range (R57), and that nothing the translator computes leaves 32 bits (R58): the device has at most `65535 * 65536`
bytes, and every range the translator answers ends inside it.
-/
namespace Sys2Proof.Machine

theorem clampLinear_eq_some {bc : BitVec 16} {addr : Nat} (h : addr < capacityOf bc) (len : Nat) :
    clampLinear bc addr len = some (min len (capacityOf bc - addr)) := if_neg (Nat.not_le.mpr h)

/-- Settles O8: the two branches of the check; the clamped length is at most what is left. -/
theorem clampToCapacity : Obligations.ClampToCapacity := by
  unfold Obligations.ClampToCapacity
  exact fun bc addr len => ⟨fun h => clampLinear_eq_none h len, fun h => ⟨_, clampLinear_eq_some h len, rfl, by omega⟩⟩

theorem xlate_spec {bc : BitVec 16} {g : Gran} {idx off len linear n : Nat} (h : xlate bc g idx off len = some (linear, n)) :
    linear = idx * unitSize g + off ∧ n = min len (unitSize g - off) ∧ linear + n ≤ capacityOf bc := by
  unfold xlate at h
  split at h
  case isTrue => cases h
  case isFalse inside =>
    rw [not_or, Nat.not_le, Nat.not_le] at inside
    cases h
    exact ⟨rfl, rfl, unitEnd_le_capacityOf inside.1 (by omega)⟩

theorem capacityOf_lt_word (bc : BitVec 16) : capacityOf bc < 2 ^ 32 := blocks_mul_lt_word bc (Nat.le_refl _)

theorem toNat_ofNat_of_lt_word {n : Nat} (h : n < 2 ^ 32) : (BitVec.ofNat 32 n).toNat = n :=
  BitVec.toNat_ofNat n 32 ▸ Nat.mod_eq_of_lt h

/-- Settles O9: each number is at most the capacity. -/
theorem nothingWraps : Obligations.NothingWraps := by
  unfold Obligations.NothingWraps
  intro bc
  have capacity := capacityOf_lt_word bc
  refine ⟨toNat_ofNat_of_lt_word capacity, toNat_ofNat_of_lt_word (blocks_mul_lt_word bc (by decide)),
    fun g idx off len linear n h => ?_, fun addr len n h => ?_⟩
  · obtain ⟨rfl, rfl, inside⟩ := xlate_spec h
    refine ⟨toNat_ofNat_of_lt_word (by omega), toNat_ofNat_of_lt_word (by omega), ?_⟩
    rw [BitVec.ofNat_add, BitVec.ofNat_mul, BitVec.ofNat_toNat, BitVec.ofNat_toNat, BitVec.setWidth_eq, BitVec.setWidth_eq]
  · obtain ⟨-, rfl⟩ := clampLinear_spec h
    exact toNat_ofNat_of_lt_word (by omega)

end Sys2Proof.Machine
end

section
/-!
Before an operation runs (R255, R260), and reset (R290): what a step does to a faulted block, to a block in the middle of an operation,
and to one that takes the host's next act.
-/
namespace Sys2Proof.Machine

theorem exec_of_fault {s : State} (h : s.fault = true) (i : Instr) : exec i s = .next s := by
  obtain ⟨run, hrun⟩ := exec_guarded i s
  rw [hrun, guarded_fault h]

theorem present_of_fault {s : State} (h : s.fault = true) (r : Request) : present r s = .next s := guarded_fault h _

/-- Settles O16: every operation is guarded, and so is a presentation. -/
theorem faultIgnores : Obligations.FaultIgnores := by
  unfold Obligations.FaultIgnores
  exact fun s h => ⟨exec_of_fault h, present_of_fault h, proceed_of_fault h⟩

theorem guarded_busy {s : State} (hf : s.fault = false) (hq : s.seq ≠ .idle) (run : State → Result) :
    guarded s run = .next (raiseFault .reentry s) := by
  rw [guarded, if_neg (Bool.eq_false_iff.mp hf), if_neg hq]

/-- Settles O17: a presentation is guarded, whatever the code. -/
theorem reentryFaults : Obligations.ReentryFaults := by
  unfold Obligations.ReentryFaults
  exact fun s r hf hq => guarded_busy hf hq _

/-- Settles O18: the block ignores every act but reset, and does nothing by itself. -/
theorem faultUntilReset : Obligations.FaultUntilReset := by
  unfold Obligations.FaultUntilReset
  intro s t fault noReset h
  have fault' : (popHost s).fault = true := fault
  have accepts : accepting s = true := by rw [accepting, fault, Bool.true_or]
  rw [step, hostStep] at h
  split at h
  case h_1 => rw [proceed_of_fault fault] at h; cases h; rfl
  case h_2 => rw [proceed_of_fault fault'] at h; cases h; rfl
  case h_3 q hq => exact absurd hq (noReset q)
  case h_4 => rw [present_of_fault fault'] at h; cases h; rfl
  case h_5 => rw [if_pos accepts, present_of_fault fault'] at h; cases h; rfl
  case h_6 => rw [if_pos accepts, presentFrame, guarded_fault fault'] at h; cases h; rfl

/-! The host's next act (R75; logs 3, 4). -/

theorem popHost_of_cons {s : State} {a : HostAct} {q : List HostAct} (h : s.hostQ = a :: q) : popHost s = { s with hostQ := q } := by
  rw [popHost, h, List.tail_cons]

theorem accepting_of_idle {s : State} (h : s.seq = .idle) : accepting s = true := by
  rw [accepting, h, decide_eq_true rfl, Bool.or_true]

theorem accepting_of_busy {s : State} (hf : s.fault = false) (hq : s.seq ≠ .idle) : accepting s = false := by
  rw [accepting, hf, decide_eq_false hq, Bool.false_or]

theorem step_of_nothing {s : State} (h : s.hostQ = []) : step s = proceed s := by rw [step, hostStep, h]

theorem step_op_of_idle {s : State} {r : Request} {q : List HostAct} (h : s.hostQ = .op r :: q) (hq : s.seq = .idle) :
    step s = present r { s with hostQ := q } := by
  rw [step, hostStep, h]
  simp only [accepting_of_idle hq, if_true, popHost_of_cons h]

theorem step_probe_of_idle {s : State} {bytes : List Byte} {q : List HostAct} (h : s.hostQ = .probe bytes :: q)
    (hq : s.seq = .idle) : step s = presentFrame bytes { s with hostQ := q } := by
  rw [step, hostStep, h]
  simp only [accepting_of_idle hq, if_true, popHost_of_cons h]

/-- An act that needs an idle block is not taken while an operation is in progress. -/
theorem step_of_busy {s : State} {a : HostAct} {q : List HostAct} (h : s.hostQ = a :: q) (hf : s.fault = false)
    (hq : s.seq ≠ .idle) (ha : (∃ r, a = .op r) ∨ ∃ bytes, a = .probe bytes) : step s = proceed s := by
  rw [step, hostStep, h]
  rcases ha with ⟨r, rfl⟩ | ⟨bytes, rfl⟩
  · simp only [accepting_of_busy hf hq, Bool.false_eq_true, if_false]
  · simp only [accepting_of_busy hf hq, Bool.false_eq_true, if_false]

theorem step_barge {s : State} {r : Request} {q : List HostAct} (h : s.hostQ = .barge r :: q) :
    step s = present r { s with hostQ := q } := by
  rw [step, hostStep, h, popHost_of_cons h]

theorem step_idle {s : State} {q : List HostAct} (h : s.hostQ = .idle :: q) : step s = proceed { s with hostQ := q } := by
  rw [step, hostStep, h, popHost_of_cons h]

theorem step_reset {s : State} {q : List HostAct} (h : s.hostQ = .reset :: q) :
    step s = .next (applyReset { s with hostQ := q }) := by
  rw [step, hostStep, h, popHost_of_cons h]

theorem present_of_decode {r : Request} {i : Instr} (hr : decodeRequest r = .ok i) {s : State} (hf : s.fault = false)
    (hq : s.seq = .idle) : present r s = exec i (latch r s) := by
  rw [present, guarded_run hf hq, hr]

theorem presentFrame_of_decode {bytes : List Byte} {i : Instr} {s : State} (hb : decodeFrame s.cfg.uidLen bytes = .ok i)
    (hf : s.fault = false) (hq : s.seq = .idle) : presentFrame bytes s = exec i s := by
  rw [presentFrame, guarded_run hf hq, hb]

theorem presentFrame_of_no_frame {bytes : List Byte} {s : State} (hb : ∀ i, decodeFrame s.cfg.uidLen bytes ≠ .ok i)
    (hf : s.fault = false) (hq : s.seq = .idle) : presentFrame bytes s = .refused .notAFrame := by
  rw [presentFrame, guarded_run hf hq]
  cases hd : decodeFrame s.cfg.uidLen bytes with
  | ok i => exact absurd hd (hb i)
  | error e => rfl

/-- Settles O51: a step by the host's next act. -/
theorem stepRunsTheInstruction : Obligations.StepRunsTheInstruction := by
  unfold Obligations.StepRunsTheInstruction
  refine ⟨fun s r q i h hf hq hr => ?_, fun s bytes q i h hf hq hb => ?_, fun s a q => step_of_busy, fun s r q => step_barge,
    fun s q => step_idle, fun s => step_of_nothing⟩
  · exact (step_op_of_idle h hq).trans (present_of_decode (s := { s with hostQ := q }) hr hf hq)
  · exact (step_probe_of_idle h hq).trans (presentFrame_of_decode (s := { s with hostQ := q }) hb hf hq)

/-- Settles O38: the length of the data, the length of the data part, and the decoder's answer are tested where the operation, the
frame and the host's act begin. -/
theorem stopsByName : Obligations.StopsByName := by
  unfold Obligations.StopsByName
  refine ⟨fun s a b len tmo data hf hq hl => ?_, fun s a3 a4 hf hq => ?_, fun s bytes q hf hq h hb => ?_⟩
  · refine ⟨?_, ?_, ?_⟩
    · rw [exec, execWritepage, guarded_run hf hq, if_neg hl]
    · rw [exec, execWrite, guarded_run hf hq, if_neg hl]
    · rw [exec, execWriteuntil, guarded_run hf hq, if_neg hl]
  · have noRead : ∀ op addr dummies, frameRead op addr dummies 0 s = .refused .emptyBulk := fun op addr dummies => by
      rw [frameRead, guarded_run hf hq, if_pos rfl]
    have noProgram : ∀ op addr, frameProgram op addr [] s = .refused .emptyBulk := fun op addr => by
      rw [frameProgram, guarded_run hf hq, if_pos rfl]
    exact ⟨noRead _ _ _, noRead _ _ _, noRead _ _ _, noRead _ _ _, noProgram _ _, noProgram _ _⟩
  · exact (step_probe_of_idle h hq).trans (presentFrame_of_no_frame (s := { s with hostQ := q }) hb hf hq)

/-! Reset. -/

/-- Settles O52: reset writes the reset values, and drives the line high if it is low. -/
theorem resetStep : Obligations.ResetStep := by
  unfold Obligations.ResetStep
  intro s q h
  refine ⟨_, step_reset h, rfl, rfl, rfl, rfl, rfl, rfl, rfl, rfl, rfl, rfl, applyReset_cfg _, ?_⟩
  unfold applyReset
  cases s.cs with
  | true => exact ⟨(List.append_nil _).symm, fun _ => rfl, rfl⟩
  | false => exact ⟨rfl, nofun, rfl⟩

theorem wf_default : Params.default.wf :=
  ⟨rfl, by decide, rfl, by simp [Params.default], by decide, by decide, by decide, by decide, by decide, by decide⟩

theorem legal_reset : Legal State.reset :=
  ⟨wf_default, ⟨Nat.zero_le _, by decide⟩, ⟨.inl rfl, fun _ => ⟨rfl, rfl, rfl⟩⟩, ⟨by decide, memWf_nil⟩, iff_of_true rfl rfl,
    fun _ => .inl rfl⟩

/-- Settles O53: the invariant part by part, and the values as the state after reset has them. -/
theorem resetLegal : Obligations.ResetLegal := by
  unfold Obligations.ResetLegal
  exact ⟨legal_reset, rfl, rfl, rfl, rfl, rfl, rfl, rfl, rfl, rfl, rfl, rfl⟩

end Sys2Proof.Machine
end

section
/-!
The footprint of every instruction (Safety's `mayWrite` and `storesTo`), said once for all of them but SELECT and DESELECT: a host
operation keeps what is outside it from the state in which it was accepted, a frame by itself from where it began. Of a frame that is not
well formed the cells are left open (log 24).
-/
namespace Sys2Proof.Machine

/-- The footprint of an instruction, with the cells of an ill-formed one left open. -/
def looseFootprint (i : Instr) (s : State) : Footprint :=
  { footprint i s with mem := fun x => i.wellFormed = true → storesTo i s x }

/-- `u` is the state in which an idle block has accepted host operation `i`: its latches and `LASTERR` are written. -/
structure Accepted (i : Instr) (s u : State) : Prop where
  same : u = { s with op := u.op, a := u.a, b := u.b, len := u.len, tmo := u.tmo, wdata := u.wdata, lasterr := u.lasterr } := by rfl
  op : .op ∈ mayWrite i := by simp [mayWrite]
  lasterr : .lasterr ∈ mayWrite i := by simp [mayWrite]
  a : .a ∉ mayWrite i → u.a = s.a := by simp [mayWrite]
  b : .b ∉ mayWrite i → u.b = s.b := by simp [mayWrite]
  len : .len ∉ mayWrite i → u.len = s.len := by simp [mayWrite]
  tmo : .tmo ∉ mayWrite i → u.tmo = s.tmo := by simp [mayWrite]
  wdata : .wdata ∉ mayWrite i → u.wdata = s.wdata := by simp [mayWrite]

/-- What an instruction that an idle block takes keeps. -/
inductive ExecKeeps (i : Instr) (s t : State) : Prop
  | host {u : State} (isHost : i.isFrame = false) (accepted : Accepted i s u) (keeps : Keeps (footprint i s) u t)
  | frame (isFrame : i.isFrame = true) (done : FrameDone (looseFootprint i s) s t)

/-! The cells of the frames by themselves, at the address that their bytes are (R84, R85, R96). -/

theorem addrBytes_false_setWidth (a : BitVec 24) : addrBytes false (a.setWidth 32) = bytesOfAddr3 a := by
  have low : (a.setWidth 32).extractLsb' 0 24 = a := by
    apply BitVec.eq_of_toNat_eq
    have := a.isLt
    simp only [BitVec.extractLsb'_toNat, BitVec.toNat_setWidth, Nat.shiftRight_zero]
    omega
  show bytesOfAddr3 _ = _
  rw [low]

theorem natOfBytes_bytesOfAddr3 (a : BitVec 24) : natOfBytes (bytesOfAddr3 a) = a.toNat := by
  have := a.isLt
  rw [← addrBytes_false_setWidth, natOfBytes_three, BitVec.toNat_setWidth]
  omega

theorem natOfBytes_bytesOfAddr4 (a : Word) : natOfBytes (bytesOfAddr4 a) = a.toNat := natOfBytes_four a

theorem Flash.size_congr {d e : Flash} (h : d.refBlocks = e.refBlocks) : d.size = e.size := by
  rw [Flash.size, Flash.size, h]

theorem unitCells_of_erase {lop : LogOp} {n : Nat} (hl : lop = .eraseSec ∧ n = 4096 ∨ lop = .eraseBlk ∧ n = 65536) {four : Bool}
    {addr : Word} {d e : Flash} (hd : d.refBlocks = e.refBlocks)
    (hs : ∃ k, d.session = (opc lop four :: addrBytes four addr).take k) {x : Nat}
    (hx : ¬unitCells (natOfBytes (addrBytes four addr) % e.size) n x) : memRead d.effect.mem x = memRead d.mem x := by
  rw [← Flash.size_congr hd, unitCells] at hx
  exact erase_outside hl hs (by omega)

/-- A page is a part of the device, so its offset is that of the address as given. -/
theorem mod_size_mod_page (a : Nat) (d : Flash) : a % d.size % 256 = a % 256 :=
  Nat.mod_mod_of_dvd a ((show 256 ∣ 65536 by decide).trans (Nat.dvd_mul_left 65536 d.refBlocks))

theorem dataCells_of_program {four : Bool} {addr : Word} {data : List Byte} {d e : Flash} (hd : d.refBlocks = e.refBlocks)
    (hwf : MemWf d.mem) (hs : ∃ k, d.session = (opc .program four :: (addrBytes four addr ++ data)).take k)
    (fits : programFits (natOfBytes (addrBytes four addr)) data.length = true) {x : Nat}
    (hx : ¬dataCells (natOfBytes (addrBytes four addr) % e.size) data.length x) : memRead d.effect.mem x = memRead d.mem x := by
  rw [← Flash.size_congr hd, dataCells] at hx
  simp only [programFits, Bool.and_eq_true, decide_eq_true_eq] at fits
  refine program_outside hwf hs ?_ (by omega)
  rw [mod_size_mod_page]
  omega

section
variable {s t : State} (hf : s.fault = false) (hq : s.seq = .idle)
include hf hq

theorem frame_done {F : Footprint} {run : State → State} (h : guarded s (fun s => .next (run s)) = .next t)
    (hd : FrameDone F s (run s)) : FrameDone F s t := by
  rw [guarded_run hf hq] at h
  cases h
  exact hd

theorem frameRead_done {F : Footprint} {op : Byte} {addr dummies : List Byte} {n : Nat} (hop : opcodes.contains op = true)
    (hst : storing op = false) (h : frameRead op addr dummies n s = .next t) : FrameDone F s t := by
  rw [frameRead, guarded_run hf hq] at h
  split at h
  · cases h
  · cases h
    exact readFrame_done hop hst

/-- A frame whose command stores nothing. -/
theorem quietFrame_done {F : Footprint} {q : Seq} {op : Byte} {rest : List Byte} (hop : opcodes.contains op = true)
    (hst : storing op = false)
    (h : guarded s (fun s => .next (runFrame q (fun s => sentOnly (session (sendFrame (op :: rest)) s)) s)) = .next t) :
    FrameDone F s t :=
  frame_done hf hq h (sendFrame_done hop fun _ _ _ hs x _ => not_storing hst _ hs x)

theorem eraseFrame_done {i : Instr} {lop : LogOp} {n : Nat} (hl : lop = .eraseSec ∧ n = 4096 ∨ lop = .eraseBlk ∧ n = 65536)
    {four : Bool} {addr : Word}
    (hcells : ∀ x, unitCells (natOfBytes (addrBytes four addr) % s.dev.size) n x → storesTo i s x)
    (h : frameAddr (opc lop four) (addrBytes four addr) s = .next t) : FrameDone (looseFootprint i s) s t :=
  frame_done hf hq h (sendFrame_done (opc_mem lop four) fun _ hd _ hs x hx =>
    unitCells_of_erase hl hd hs fun inside => hx fun _ => hcells x inside)

theorem programFrame_done_of_fits {i : Instr} {four : Bool} {addr : Word} {data : List Byte}
    (hfits : i.wellFormed = true → programFits (natOfBytes (addrBytes four addr)) data.length = true)
    (hcells : ∀ x, dataCells (natOfBytes (addrBytes four addr) % s.dev.size) data.length x → storesTo i s x)
    (h : frameProgram (opc .program four) (addrBytes four addr) data s = .next t) : FrameDone (looseFootprint i s) s t := by
  rw [frameProgram, guarded_run hf hq] at h
  split at h
  · cases h
  · cases h
    refine programFrame_done (opc_mem .program four) fun d hd hwf hs x hx => ?_
    obtain ⟨wf, outside⟩ := Classical.not_imp.mp hx
    exact dataCells_of_program hd hwf hs (hfits wf) fun inside => outside (hcells x inside)

/-- Every instruction but SELECT and DESELECT, from an idle block without a fault. -/
theorem exec_keeps {i : Instr} (hsel : i ≠ .select) (hdes : i ≠ .deselect) (h : exec i s = .next t) : ExecKeeps i s t := by
  cases i with
  | select => exact absurd rfl hsel
  | deselect => exact absurd rfl hdes
  | wrsr1 _ | wrsr2 _ | wrsr3 _ | wrdi | wren => exact .frame rfl (quietFrame_done hf hq (by decide) (by decide) h)
  | ce => exact .frame rfl (frame_done hf hq h (sendFrame_done (by decide) fun _ _ _ _ _ hx => absurd (fun _ => trivial) hx))
  | se3 addr =>
    rw [exec, execSe3, ← addrBytes_false_setWidth] at h
    refine .frame rfl (eraseFrame_done hf hq (lop := .eraseSec) (four := false) (.inl ⟨rfl, rfl⟩) ?_ h)
    rw [addrBytes_false_setWidth, natOfBytes_bytesOfAddr3]
    exact fun _ => id
  | be3 addr =>
    rw [exec, execBe3, ← addrBytes_false_setWidth] at h
    refine .frame rfl (eraseFrame_done hf hq (lop := .eraseBlk) (four := false) (.inr ⟨rfl, rfl⟩) ?_ h)
    rw [addrBytes_false_setWidth, natOfBytes_bytesOfAddr3]
    exact fun _ => id
  | se4 addr =>
    refine .frame rfl (eraseFrame_done hf hq (lop := .eraseSec) (four := true) (addr := addr) (.inl ⟨rfl, rfl⟩) ?_ h)
    rw [natOfBytes_four]
    exact fun _ => id
  | be4 addr =>
    refine .frame rfl (eraseFrame_done hf hq (lop := .eraseBlk) (four := true) (addr := addr) (.inr ⟨rfl, rfl⟩) ?_ h)
    rw [natOfBytes_four]
    exact fun _ => id
  | pp3 addr data =>
    rw [exec, execPp3, ← addrBytes_false_setWidth] at h
    refine .frame rfl (programFrame_done_of_fits hf hq (four := false) ?_ ?_ h)
    all_goals rw [addrBytes_false_setWidth, natOfBytes_bytesOfAddr3]
    exacts [id, fun _ => id]
  | pp4 addr data =>
    refine .frame rfl (programFrame_done_of_fits hf hq (four := true) (addr := addr) (data := data) ?_ ?_ h)
    all_goals rw [natOfBytes_four]
    exacts [id, fun _ => id]
  | read3 _ _ | read4 _ _ | fr3 _ _ | fr4 _ _ | rduid => exact .frame rfl (frameRead_done hf hq (by decide) (by decide) h)
  | rdsr1 | rdsr2 | rdsr3 =>
    exact .frame rfl (frame_done hf hq h (rdsr_done (by simp [looseFootprint, footprint, mayWrite, statusRegister])))
  | rdid => exact .frame rfl (frame_done hf hq h rdid_done)
  | init => exact .host rfl {} (execInit_keeps hf hq h)
  | capacity | blockmax | sectormax | pagemax => exact .host rfl {} (query_keeps hf hq h)
  | waitbusy _ => exact .host rfl {} (execWaitbusy_keeps hf hq h)
  | read _ _ => exact .host rfl {} (execRead_keeps hf hq h)
  | readpage _ _ _ => exact .host rfl {} (execReadpage_keeps hf hq h)
  | readsector _ _ _ => exact .host rfl {} (execReadsector_keeps hf hq h)
  | readblock _ _ _ => exact .host rfl {} (execReadblock_keeps hf hq h)
  | readstatus _ => exact .host rfl {} (execReadstatus_keeps hf hq h)
  | readuid => exact .host rfl {} (execReaduid_keeps hf hq h)
  | writepage _ _ _ _ => exact .host rfl {} (execWritepage_keeps hf hq h)
  | write _ _ _ => exact .host rfl {} (execWrite_keeps hf hq h)
  | writeuntil _ _ _ _ => exact .host rfl {} (execWriteuntil_keeps hf hq h)
  | writestatus _ _ => exact .host rfl {} (execWritestatus_keeps hf hq h)
  | erasesector _ => exact .host rfl {} (execErasesector_keeps hf hq h)
  | eraseblock _ => exact .host rfl {} (execEraseblock_keeps hf hq h)
  | erasechip => exact .host rfl {} (execErasechip_keeps hf hq h)
  | setfast _ => exact .host rfl {} (execSetfast_keeps hf hq h)

end

end Sys2Proof.Machine
end

section
/-!
Registers and cells that an instruction and a later step leave unchanged, and the fault an instruction can raise, read off the
footprints: a register is kept unless the footprint allows it.
-/
namespace Sys2Proof.Machine

theorem kept_trans {r : Reg} {s t u : State} (h : kept r s t) (k : kept r t u) : kept r s u := by
  cases r <;> exact Eq.trans k h

/-- Whether a footprint lets a register change; those that every footprint leaves open are allowed by all. -/
def Footprint.allows (F : Footprint) : Reg → Prop
  | .blockcount | .vendor | .capcode | .fast => F.ident
  | .sr1 => F.st .sr1
  | .sr2 => F.st .sr2
  | .sr3 => F.st .sr3
  | .cur => F.cur
  | .rdata => F.rdata
  | .start => F.start
  | .rem | .total | .page | .off => F.loop
  | .seq | .lasterr | .result | .fault | .faultcause => True
  | .depth | .cs | .op | .a | .b | .len | .tmo | .wdata | .frameOk | .frameRx => False

theorem Keeps.kept {F : Footprint} {s t : State} (h : Keeps F s t) {r : Reg} (hs : r = .cs → InStep s) (hr : ¬F.allows r) : kept r s t := by
  cases r with
  | blockcount => exact (h.ident hr).1
  | vendor => exact (h.ident hr).2.1
  | capcode => exact (h.ident hr).2.2.1
  | fast => exact (h.ident hr).2.2.2
  | sr1 => exact h.st .sr1 hr
  | sr2 => exact h.st .sr2 hr
  | sr3 => exact h.st .sr3 hr
  | cur => exact h.cur hr
  | rdata => exact h.rdata hr
  | start => exact h.start hr
  | rem => exact (h.loop hr).1
  | total => exact (h.loop hr).2.1
  | page => exact (h.loop hr).2.2.1
  | off => exact (h.loop hr).2.2.2
  | seq | lasterr | result | fault | faultcause => exact absurd trivial hr
  | depth => exact h.depth
  | cs => exact (h.inStep (hs rfl)).2
  | op => exact h.op
  | a => exact h.a
  | b => exact h.b
  | len => exact h.len
  | tmo => exact h.tmo
  | wdata => exact h.wdata
  | frameOk => exact h.frameOk
  | frameRx => exact h.frameRx

theorem Accepted.kept {i : Instr} {s u : State} (h : Accepted i s u) {r : Reg} (hr : r ∉ mayWrite i) : kept r s u := by
  cases r with
  | op => exact absurd h.op hr
  | lasterr => exact absurd h.lasterr hr
  | a => exact h.a hr
  | b => exact h.b hr
  | len => exact h.len hr
  | tmo => exact h.tmo hr
  | wdata => exact h.wdata hr
  | _ => rw [h.same]; rfl

/-- The registers that every operation with a session may write (R256, R261). -/
def sessionRegs : List Reg := [.seq, .lasterr, .result, .fault, .faultcause]

/-- The locals of the page loop stand in a table together (R192). -/
theorem loopRegs_mem_mayWrite (i : Instr) :
    (.total ∈ mayWrite i ↔ .rem ∈ mayWrite i) ∧ (.page ∈ mayWrite i ↔ .rem ∈ mayWrite i) ∧
      (.off ∈ mayWrite i ↔ .rem ∈ mayWrite i) := by
  cases i with
  | readstatus a =>
    simp only [mayWrite]
    split_ifs <;> decide
  | _ => simp [mayWrite]

theorem not_footprint_ident {i : Instr} (hset : ∀ a, i ≠ .setfast a) {r : Reg} (hi : r ∈ [.blockcount, .vendor, .capcode, .fast])
    (hr : r ∉ mayWrite i) (s : State) : ¬(footprint i s).ident := by
  by_cases hinit : i = .init
  · subst hinit
    fin_cases hi <;> exact absurd (by decide) hr
  · exact footprint_not_ident hinit hset s

theorem not_footprint_allows {i : Instr} (hset : ∀ a, i ≠ .setfast a) {s : State} {r : Reg} (hr : r ∉ mayWrite i)
    (hsession : r ∉ sessionRegs) : ¬(footprint i s).allows r := by
  obtain ⟨total, page, off⟩ := loopRegs_mem_mayWrite i
  cases r with
  | blockcount | vendor | capcode | fast => exact not_footprint_ident hset (by decide) hr s
  | total => exact mt total.mpr hr
  | page => exact mt page.mpr hr
  | off => exact mt off.mpr hr
  | sr1 | sr2 | sr3 | cur | rdata | start | rem => exact hr
  | seq | lasterr | result | fault | faultcause => exact absurd (by decide) hsession
  | _ => exact id

/-! The frames by themselves. -/

/-- A frame by itself may write these and, if it reads a status, that register's cache. -/
theorem frameRegs_mem_mayWrite {i : Instr} (hi : i.isFrame = true) :
    .seq ∈ mayWrite i ∧ .fault ∈ mayWrite i ∧ .faultcause ∈ mayWrite i ∧ .frameOk ∈ mayWrite i ∧ .frameRx ∈ mayWrite i := by
  cases i <;> simp [mayWrite] <;> cases hi

theorem not_setfast_of_isFrame {i : Instr} (hi : i.isFrame = true) (a : Word) : i ≠ .setfast a := by
  rintro rfl
  cases hi

theorem kept_of_frameDone {i : Instr} {s t : State} (hi : i.isFrame = true)
    (done : FrameDone (looseFootprint i s) s t) {r : Reg} (hs : r = .cs → InStep s) (hr : r ∉ mayWrite i) :
    kept r s t := by
  obtain ⟨u, ok, rx, q, keeps, lasterr, result, rfl⟩ := done
  obtain ⟨seqW, faultW, causeW, okW, rxW⟩ := frameRegs_mem_mayWrite hi
  have outside (hsession : r ∉ sessionRegs) : kept r s u :=
    keeps.kept hs (not_footprint_allows (s := s) (not_setfast_of_isFrame hi) hr hsession)
  cases r with
  | seq => exact absurd seqW hr
  | fault => exact absurd faultW hr
  | faultcause => exact absurd causeW hr
  | frameOk => exact absurd okW hr
  | frameRx => exact absurd rxW hr
  | lasterr => exact lasterr
  | result => exact result
  | _ => exact outside (by decide)

/-! The host operations. -/

/-- Apart from SELECT, DESELECT, the queries and SETFAST, each host operation may write the registers of its sessions. -/
theorem sessionRegs_mem_mayWrite {i : Instr} (hi : i.isFrame = false) (hsel : i ≠ .select) (hdes : i ≠ .deselect)
    (hquery : i ∉ [.capacity, .blockmax, .sectormax, .pagemax]) (hset : ∀ a, i ≠ .setfast a) {r : Reg} (hr : r ∈ sessionRegs) :
    r ∈ mayWrite i := by
  have all : sessionRegs ⊆ mayWrite i := by
    cases i with
    | select => exact absurd rfl hsel
    | deselect => exact absurd rfl hdes
    | capacity | blockmax | sectormax | pagemax => exact absurd (by decide) hquery
    | setfast a => exact absurd rfl (hset a)
    | _ => simp [sessionRegs, mayWrite] <;> cases hi
  exact all hr

/-! SELECT and DESELECT. -/

/-- What SELECT and DESELECT write (R162, R163). -/
def guardRegs : List Reg := [.op, .lasterr, .depth, .cs, .fault, .faultcause]

theorem kept_accept (code : Byte) (s : State) {r : Reg} (hr : r ∉ guardRegs) : kept r s (accept code s) := by
  cases r with
  | op | lasterr => exact absurd (by decide) hr
  | _ => rfl

theorem kept_raiseFault (c : FaultCause) (s : State) {r : Reg} (hr : r ∉ guardRegs) : kept r s (raiseFault c s) := by
  cases r with
  | fault | faultcause => exact absurd (by decide) hr
  | _ => rfl

theorem kept_opened (s : State) {r : Reg} (hr : r ∉ guardRegs) : kept r s (opened s) := by
  unfold opened
  split <;> cases r with
  | depth | cs => exact absurd (by decide) hr
  | _ => rfl

theorem kept_closed (s : State) {r : Reg} (hr : r ∉ guardRegs) : kept r s (closed s) := by
  unfold closed
  split <;> cases r with
  | depth | cs => exact absurd (by decide) hr
  | _ => rfl

theorem opened_fault (s : State) : (opened s).fault = s.fault := by
  unfold opened
  split <;> rfl

section
variable {s t : State} (hf : s.fault = false) (hq : s.seq = .idle)
include hf hq

theorem query_kept {code : Byte} {value : BitVec 16 → Nat} (h : query code value s = .next t) {r : Reg}
    (hr : r ∉ [.op, .seq, .lasterr, .result]) : kept r s t := by
  rw [query_of_idle hf hq] at h
  cases h
  cases r with
  | op | lasterr | result => exact absurd (by decide) hr
  | _ => rfl

theorem exec_setfast_kept {a : Word} (h : exec (.setfast a) s = .next t) {r : Reg}
    (hr : r ∉ [.op, .a, .seq, .lasterr, .result, .fast]) : kept r s t := by
  by_cases refused : s.blockcount = 0#16 ∨ s.cfg.fastCfg ≠ .enabled
  · rw [exec_setfast_refused hf hq a refused] at h
    cases h
    cases r with
    | op | a | lasterr | result => exact absurd (by decide) hr
    | _ => rfl
  · obtain ⟨hb, hc⟩ := not_or.mp refused
    rw [exec_setfast_set hf hq a hb (not_not.mp hc)] at h
    cases h
    cases r with
    | op | a | lasterr | result | fast => exact absurd (by decide) hr
    | _ => rfl

theorem exec_select_cases (h : exec .select s = .next t) :
    t = raiseFault .selectOverflow (accept 0x10#8 s) ∧ s.cfg.depthMax ≤ s.depth ∨ t = opened (accept 0x10#8 s) := by
  rw [exec_select_of_idle hf hq, select_eq] at h
  split at h
  case isTrue full => cases h; exact .inl ⟨rfl, full⟩
  case isFalse => cases h; exact .inr rfl

theorem exec_deselect_cases (h : exec .deselect s = .next t) :
    t = raiseFault .selectUnderflow (accept 0x11#8 s) ∨ t = closed (accept 0x11#8 s) := by
  rw [exec_deselect_of_idle hf hq, deselect_eq] at h
  split at h
  case isTrue => cases h; exact .inl rfl
  case isFalse => cases h; exact .inr rfl

/-- An idle block: no instruction writes a register outside its table. -/
theorem exec_kept {i : Instr} (h : exec i s = .next t) {r : Reg} (hs : r = .cs → InStep s) (hr : r ∉ mayWrite i) : kept r s t := by
  by_cases hsel : i = .select
  · subst hsel
    obtain ⟨rfl, -⟩ | rfl := exec_select_cases hf hq h
    · exact kept_trans (kept_accept _ s hr) (kept_raiseFault _ _ hr)
    · exact kept_trans (kept_accept _ s hr) (kept_opened _ hr)
  by_cases hdes : i = .deselect
  · subst hdes
    obtain rfl | rfl := exec_deselect_cases hf hq h
    · exact kept_trans (kept_accept _ s hr) (kept_raiseFault _ _ hr)
    · exact kept_trans (kept_accept _ s hr) (kept_closed _ hr)
  by_cases hquery : i ∈ [.capacity, .blockmax, .sectormax, .pagemax]
  · fin_cases hquery <;> exact query_kept hf hq h hr
  by_cases hset : ∃ a, i = .setfast a
  · obtain ⟨a, rfl⟩ := hset
    exact exec_setfast_kept hf hq h hr
  replace hset := not_exists.mp hset
  cases exec_keeps hf hq hsel hdes h with
  | frame isFrame done => exact kept_of_frameDone isFrame done hs hr
  | host isHost accepted keeps =>
    have session : r ∉ sessionRegs := mt (sessionRegs_mem_mayWrite isHost hsel hdes hquery hset) hr
    refine kept_trans (accepted.kept hr) (keeps.kept (fun cs => ?_) (not_footprint_allows hset hr session))
    rw [accepted.same]
    exact hs cs

/-- R261: the fault of an instruction in its middle. -/
theorem exec_faults {i : Instr} (hdes : i ≠ .deselect) (h : exec i s = .next t) (fault : t.fault = true) :
    t.faultcause = .selectOverflow ∧ s.cfg.depthMax ≤ s.depth := by
  by_cases hsel : i = .select
  · subst hsel
    obtain ⟨rfl, full⟩ | rfl := exec_select_cases hf hq h
    · exact ⟨rfl, full⟩
    · exact absurd (fault.symm.trans ((opened_fault _).trans hf)) (by decide)
  cases exec_keeps hf hq hsel hdes h with
  | frame isFrame done =>
    obtain ⟨u, ok, rx, q, keeps, -, -, rfl⟩ := done
    obtain ⟨same, -⟩ | ⟨-, cause, full⟩ := keeps.faults
    · exact absurd (fault.symm.trans (same.trans hf)) (by decide)
    · exact ⟨cause, full⟩
  | host isHost accepted keeps =>
    have same := accepted.same
    obtain ⟨unfaulted, -⟩ | ⟨-, cause, full⟩ := keeps.faults
    · rw [same] at unfaulted
      exact absurd (fault.symm.trans (unfaulted.trans hf)) (by decide)
    · rw [same] at full
      exact ⟨cause, full⟩

/-- Every cell that an instruction does not store to reads as before (R84, R85). -/
theorem exec_cells {i : Instr} (wf : i.wellFormed = true) (hdes : i ≠ .deselect) (hs : InStep s) (hm : MemWf s.dev.mem)
    (h : exec i s = .next t) {x : Nat} (hx : ¬storesTo i s x) : memRead t.dev.mem x = memRead s.dev.mem x := by
  by_cases hsel : i = .select
  · subst hsel
    obtain ⟨rfl, -⟩ | rfl := exec_select_cases hf hq h
    · rfl
    · unfold opened
      split <;> rfl
  cases exec_keeps hf hq hsel hdes h with
  | frame isFrame done =>
    obtain ⟨u, ok, rx, q, keeps, -, -, rfl⟩ := done
    exact keeps.mem hs hm x fun stores => hx (stores wf)
  | host isHost accepted keeps =>
    have same := accepted.same
    rw [same] at keeps
    exact keeps.mem hs hm x hx

end

/-- An instruction that an idle block does not take is ignored, or is the fault `Reentry` (R260). -/
theorem exec_idle_or {P : State → Prop} {i : Instr} {s t : State} (h : exec i s = .next t) (ignored : P s)
    (reentry : P (raiseFault .reentry s)) (taken : s.fault = false → s.seq = .idle → P t) : P t := by
  by_cases hf : s.fault = true
  · rw [exec_of_fault hf] at h
    cases h
    exact ignored
  replace hf := Bool.not_eq_true _ ▸ hf
  by_cases hq : s.seq = .idle
  · exact taken hf hq
  · obtain ⟨run, hrun⟩ := exec_guarded i s
    rw [hrun, guarded_busy hf hq] at h
    cases h
    exact reentry

/-- Settles O19: the faults that a footprint leaves open. -/
theorem onlyOverflowInside : Obligations.OnlyOverflowInside := by
  unfold Obligations.OnlyOverflowInside
  exact fun i s t hf hq hdes h fault => exec_faults hf hq hdes h fault

/-- Only INIT's table holds the identity. -/
theorem identity_not_mem_mayWrite {i : Instr} (hinit : i ≠ .init) :
    .blockcount ∉ mayWrite i ∧ .vendor ∉ mayWrite i ∧ .capcode ∉ mayWrite i := by
  cases i with
  | init => exact absurd rfl hinit
  | readstatus a =>
    simp only [mayWrite]
    split_ifs <;> decide
  | _ => simp [mayWrite]

/-- Settles O23: the identity and the flag stand in no other instruction's table, and in no later step's. -/
theorem identityOnlyByInit : Obligations.IdentityOnlyByInit := by
  unfold Obligations.IdentityOnlyByInit
  refine ⟨fun i s t hinit h => ?_, fun s t h => (proceed_keeps h).ident id⟩
  refine exec_idle_or (P := fun t => t.blockcount = s.blockcount ∧ t.vendor = s.vendor ∧ t.capcode = s.capcode ∧
    ((∀ a, i ≠ .setfast a) → t.fast = s.fast)) h ⟨rfl, rfl, rfl, fun _ => rfl⟩ ⟨rfl, rfl, rfl, fun _ => rfl⟩ fun hf hq => ?_
  obtain ⟨bc, vendor, capcode⟩ := identity_not_mem_mayWrite hinit
  exact ⟨exec_kept hf hq h (r := .blockcount) nofun bc, exec_kept hf hq h (r := .vendor) nofun vendor,
    exec_kept hf hq h (r := .capcode) nofun capcode, fun hset => exec_fast hf hq hinit hset h⟩

/-- Settles O58: the cells outside the footprints. -/
theorem cellsKept : Obligations.CellsKept := by
  unfold Obligations.CellsKept
  refine ⟨fun i s t legal wf hdes h x hx => ?_, fun s t legal h x hx => ?_⟩
  · exact exec_idle_or (P := fun t => memRead t.dev.mem x = memRead s.dev.mem x) h rfl rfl fun hf hq =>
      exec_cells hf hq wf hdes (inStep_of_legal legal) (memWf_of_legal legal) h hx
  · exact (proceed_keeps h).mem (inStep_of_legal legal) (memWf_of_legal legal) x hx

end Sys2Proof.Machine
end

section
/-!
Which operation a later step continues, by the operation code (R33, R120), and the error kind of a WRITESTATUS in its wait, which no
session writes: the one register that the footprint of a later step leaves open and the table `laterWrites` does not.
-/
namespace Sys2Proof.Machine

section
variable {s : State}

theorem resumeWait_of_waitbusy (h : s.op = 0x18#8) : resumeWait s = .next (resumeWaitbusy s) := by
  have decodes : decodeRequest (latched s) = .ok (.waitbusy s.tmo) := by simp [decodeRequest, latched, h]
  rw [resumeWait, decodes]

theorem resumeWait_of_writestatus (h : s.op = 0x38#8) : resumeWait s = .next (resumeWritestatus s) := by
  have decodes : decodeRequest (latched s) = .ok (.writestatus s.a s.b) := by simp [decodeRequest, latched, h]
  rw [resumeWait, decodes]

theorem resumeWait_of_writepage (h : s.op = 0x30#8) : resumeWait s = .next (resumeWritepage s) := by
  have decodes : decodeRequest (latched s) = .ok (.writepage s.a s.b s.len s.wdata) := by simp [decodeRequest, latched, h]
  rw [resumeWait, decodes]

theorem decode_latched_write (h : s.op = 0x31#8) : decodeRequest (latched s) = .ok (.write s.a s.len s.wdata) := by
  simp [decodeRequest, latched, h]

theorem decode_latched_writeuntil (h : s.op = 0x32#8) :
    decodeRequest (latched s) = .ok (.writeuntil s.a s.len s.tmo s.wdata) := by
  simp [decodeRequest, latched, h]

theorem resumeWait_of_write (h : s.op = 0x31#8) : resumeWait s = .next (resumeWritePoll s) := by
  rw [resumeWait, decode_latched_write h]

theorem resumeWait_of_writeuntil (h : s.op = 0x32#8) : resumeWait s = .next (resumeWriteuntilPoll s) := by
  rw [resumeWait, decode_latched_writeuntil h]

theorem resumeCheck_of_write (h : s.op = 0x31#8) : resumeCheck s = .next (resumeWrite s) := by
  rw [resumeCheck, decode_latched_write h]

theorem resumeCheck_of_writeuntil (h : s.op = 0x32#8) : resumeCheck s = .next (resumeWriteuntil s) := by
  rw [resumeCheck, decode_latched_writeuntil h]

theorem resumeWait_of_erase (h : s.op ∈ [0x40#8, 0x41#8, 0x42#8]) : resumeWait s = .next (resumeErase s) := by
  simp only [List.mem_cons, List.not_mem_nil, or_false] at h
  rcases h with h | h | h
  · have decodes : decodeRequest (latched s) = .ok (.erasesector s.a) := by simp [decodeRequest, latched, h]
    rw [resumeWait, decodes]
  · have decodes : decodeRequest (latched s) = .ok (.eraseblock s.a) := by simp [decodeRequest, latched, h]
    rw [resumeWait, decodes]
  · have decodes : decodeRequest (latched s) = .ok .erasechip := by simp [decodeRequest, latched, h]
    rw [resumeWait, decodes]

theorem proceed_of_wait (hf : s.fault = false) (hq : s.seq = .wait) : proceed s = resumeWait s := by
  rw [proceed, if_neg (Bool.eq_false_iff.mp hf), hq]

theorem proceed_of_check (hf : s.fault = false) (hq : s.seq = .check) : proceed s = resumeCheck s := by
  rw [proceed, if_neg (Bool.eq_false_iff.mp hf), hq]

end

/-- Across two procedures. -/
theorem Run.bind_lasterr {α β : Type} {s : State} {r : Run α} {f : α → State → Run β} (h : r.final.lasterr = s.lasterr)
    (hf : ∀ a t, (f a t).final.lasterr = t.lasterr) : (r.bind f).final.lasterr = s.lasterr :=
  Run.bind_final (R := fun s t => t.lasterr = s.lasterr) (fun h k => k.trans h) h fun a t _ => hf a t

theorem sendSession_lasterr (op : Byte) (rest : List Byte) (s : State) :
    (session (sendFrame (op :: rest)) s).final.lasterr = s.lasterr := (session_result (sendFrame_spec op rest _).1).1

theorem cacheStatus_lasterr (n : StatusReg) (r : Option (List Byte)) (s : State) : (cacheStatus n r s).lasterr = s.lasterr := by
  unfold cacheStatus
  split
  · exact setStatus_lasterr n _ s
  · rfl
  · rfl

theorem uRDSR_lasterr (n : StatusReg) (s : State) : (uRDSR n s).final.lasterr = s.lasterr :=
  Run.bind_lasterr (session_result (recvFrame_spec (rdsrOpc n) [] 1 _).1).1 fun r t => cacheStatus_lasterr n r t

theorem waitForever_lasterr (s : State) : (waitForever s).final.lasterr = s.lasterr :=
  Run.bind_lasterr (uRDSR_lasterr .sr1 (setSeq .wait s)) fun r t => by split <;> rfl

theorem waitThenDisable_lasterr (s : State) : (waitThenDisable s).final.lasterr = s.lasterr :=
  Run.bind_lasterr (waitForever_lasterr s) fun _ t =>
    Run.bind_lasterr (sendSession_lasterr 0x04#8 [] (setSeq .wrdi t)) fun _ _ => rfl

theorem resumeWritestatus_lasterr (s : State) : (resumeWritestatus s).lasterr = s.lasterr := by
  have h : (finishWritestatus s).final.lasterr = s.lasterr := Run.bind_lasterr (waitThenDisable_lasterr s) fun _ _ => rfl
  unfold resumeWritestatus
  cases hr : finishWritestatus s <;> rw [hr] at h <;> exact h

theorem resumeCheck_of_writestatus {s : State} (h : s.op = 0x38#8) : resumeCheck s = .fault .offBoundary := by
  have decodes : decodeRequest (latched s) = .ok (.writestatus s.a s.b) := by simp [decodeRequest, latched, h]
  rw [resumeCheck, decodes]

theorem proceed_writestatus_lasterr {s t : State} (hop : s.op = 0x38#8) (h : proceed s = .next t) : t.lasterr = s.lasterr := by
  unfold proceed at h
  split at h
  · cases h; rfl
  · split at h
    · cases h; rfl
    · rw [resumeWait_of_writestatus hop] at h
      cases h
      exact resumeWritestatus_lasterr s
    · rw [resumeCheck_of_writestatus hop] at h
      cases h
    all_goals cases h

/-- The registers of a later step's table: those a footprint leaves open but for the error kind, which a WRITESTATUS does not write. -/
theorem proceed_kept {s t : State} (h : proceed s = .next t) (hs : InStep s) {r : Reg} (hr : r ∉ laterWrites s) : kept r s t := by
  have outside : ¬(laterFootprint s).allows r → kept r s t := (proceed_keeps h).kept fun _ => hs
  have common (hc : r ∈ [.seq, .fault, .faultcause, .result, .sr1]) : r ∈ laterWrites s := by
    unfold laterWrites
    exact List.mem_append_left _ (List.mem_append_left _ hc)
  cases r with
  | seq | fault | faultcause | result => exact absurd (common (by decide)) hr
  | lasterr =>
    refine proceed_writestatus_lasterr ?_ h
    by_contra other
    exact hr (by simp [laterWrites, other])
  | total | page | off =>
    refine outside fun loop => hr ?_
    simpa [laterWrites] using (show .rem ∈ laterWrites s from loop)
  | sr1 | sr2 | sr3 | cur | rem => exact outside hr
  | _ => exact outside id

theorem ExecsTo.hostQ {s t : State} (e : ExecsTo s t) : t.hostQ = s.hostQ := by
  cases e with
  | ok ok => exact ok.hostQ
  | acquires => unfold opened; split <;> rfl
  | releases => unfold closed; split <;> rfl

/-- Settles O57: the registers outside the tables. -/
theorem registersKept : Obligations.RegistersKept := by
  unfold Obligations.RegistersKept
  refine ⟨fun i s t legal hf hq h => ?_, fun s t legal h => ?_⟩
  · exact ⟨fun r hr => exec_kept hf hq h (fun _ => inStep_of_legal legal) hr, (execsTo_of_exec h).cfg, (execsTo_of_exec h).hostQ⟩
  · exact ⟨fun r hr => proceed_kept h (inStep_of_legal legal) hr, (proceed_ok h).cfg, (proceed_ok h).hostQ⟩

end Sys2Proof.Machine
end

section
/-!
Sequences of frames under explicit answers (log 1): what a procedure leaves when each of its frames meets one of Safety's relations to
its answers and its events. A procedure's frames are followed one by one; what they leave of the state is said once, in `Ported`.
-/
namespace Sys2Proof.Machine

/-- `t` is `s` after frames with the events `es` that leave the answers `rest`. Nothing is said of the phase, the current address, the
line, the device and the count. -/
def Ported (es : List Event) (rest : List (Option Answer)) (s t : State) : Prop :=
  ∃ line dev count phase cur,
    t = { s with cs := line, dev := dev, count := count, seq := phase, cur := cur, trace := s.trace ++ es, script := rest }

/-! What comes after earlier frames meets the relations as it did before them: they speak of the depth, the parameters and the block
count alone. -/

section
variable {fs : List Event} {q : List (Option Answer)} {s t : State} (h : Ported fs q s t)
include h

theorem Ported.script : t.script = q := by
  obtain ⟨_, _, _, _, _, rfl⟩ := h
  rfl

theorem Ported.cfg : t.cfg = s.cfg := by
  obtain ⟨_, _, _, _, _, rfl⟩ := h
  rfl

theorem Ported.room (hd : s.depth < s.cfg.depthMax) : t.depth < t.cfg.depthMax := by
  obtain ⟨_, _, _, _, _, rfl⟩ := h
  exact hd

theorem Ported.trans {es : List Event} {rest : List (Option Answer)} {u : State} (k : Ported es rest t u) :
    Ported (fs ++ es) rest s u := by
  obtain ⟨_, _, _, _, _, rfl⟩ := h
  obtain ⟨line, dev, count, phase, cur, rfl⟩ := k
  refine ⟨line, dev, count, phase, cur, ?_⟩
  rw [← List.append_assoc]

theorem Ported.setStatus (n : StatusReg) (v : Byte) : Ported fs q (setStatus n v s) (setStatus n v t) := by
  obtain ⟨line, dev, count, phase, cur, rfl⟩ := h
  exact ⟨line, dev, count, phase, cur, by cases n <;> rfl⟩

theorem Ported.cmdAddr {lop : LogOp} {addr : Nat} : cmdAddr lop addr t = Machine.cmdAddr lop addr s := by
  obtain ⟨_, _, _, _, _, rfl⟩ := h
  rfl

theorem Ported.inSession (es : List Event) : inSession t es = Machine.inSession s es := by
  obtain ⟨_, _, _, _, _, rfl⟩ := h
  rfl

variable {tx : List Byte} {as : List (Option Answer)} {es : List Event}

theorem Ported.frameRuns (k : FrameRuns s tx as es) : FrameRuns t tx as es := by
  obtain ⟨_, _, _, _, _, rfl⟩ := h
  exact k

theorem Ported.pollIdle {v : Byte} (k : PollIdle s v as es) : PollIdle t v as es := by
  obtain ⟨_, _, _, _, _, rfl⟩ := h
  exact k

theorem Ported.pollBusy (k : PollBusy s as es) : PollBusy t as es := by
  obtain ⟨_, _, _, _, _, rfl⟩ := h
  exact k

variable {linear : Nat} {data : List Byte}

theorem Ported.programSent (k : ProgramSent s linear data as es) : ProgramSent t linear data as es := by
  obtain ⟨_, _, _, _, _, rfl⟩ := h
  exact k

theorem Ported.programCut (k : ProgramCut s linear data as es) : ProgramCut t linear data as es := by
  obtain ⟨_, _, _, _, _, rfl⟩ := h
  exact k

end

/-! Sessions. -/

theorem shortDone_of_lt {k n : Nat} (h : k < n) : shortDone k n = k := Nat.min_eq_left (Nat.le_sub_one_of_lt h)

section
variable {s : State} {as wa fa pa da : List (Option Answer)} {es we fe pe de : List Event} {rest : List (Option Answer)}
variable (hd : s.depth < s.cfg.depthMax)
include hd

/-- From what a frame does inside its session. -/
theorem session_ported {α : Type} {frame : State → α × State} {a : α} {bytes : List Byte} {n : Nat} {q : Seq}
    (h : frame (opened s) = (a, { moved es bytes n rest (opened s) with seq := q })) :
    ∃ t, session frame s = .done a t ∧ Ported (inSession s es) rest s t :=
  ⟨_, session_moved hd h, _, _, _, _, _, rfl⟩

theorem sendSession_ported_of_sent {tx : List Byte} (h : FrameSent s tx as es) (hs : s.script = as ++ rest) :
    ∃ t, session (sendFrame tx) s = .done true t ∧ Ported es rest s t := by
  obtain ⟨n, run⟩ := sendSession_sent hd h hs
  exact ⟨_, run, _, _, _, _, _, rfl⟩

theorem sendSession_ported_of_cut {tx : List Byte} (h : FrameCut s tx as es) (hs : s.script = as ++ rest) :
    ∃ t, session (sendFrame tx) s = .done false t ∧ Ported es rest s t := by
  obtain ⟨bytes, n, run⟩ := sendSession_cut hd h hs
  exact ⟨_, run, _, _, _, _, _, rfl⟩

theorem sendSession_ported {tx : List Byte} (h : FrameRuns s tx as es) (hs : s.script = as ++ rest) :
    ∃ ok t, session (sendFrame tx) s = .done ok t ∧ Ported es rest s t := by
  obtain ⟨ok, bytes, n, run⟩ := sendSession_runs hd h hs
  exact ⟨ok, _, run, _, _, _, _, _, rfl⟩

theorem programSession_ported_of_sent {tx data ra bs : List Byte} (ha : ra.length = tx.length)
    (hs : s.script = oks ra ++ some (.ok bs) :: rest) :
    ∃ t, session (programFrame tx data) s = .done true t ∧
      Ported (inSession s (exchanged tx ra ++ [.bulkTx data data.length])) rest s t :=
  ⟨_, programSession_ok hd hs ha, _, _, _, _, _, rfl⟩

/-- A program frame that stops at an exchange of its command (R97, R190). -/
theorem programSession_ported_of_cut {tx : List Byte} (data : List Byte) (h : FrameCut s tx as es) (hs : s.script = as ++ rest) :
    ∃ t, session (programFrame tx data) s = .done false t ∧ Ported es rest s t := by
  obtain ⟨pre, c, post, rx, k, l, rfl, hl, rfl, rfl⟩ := h
  refine session_ported hd (bytes := pre) (n := pre.length + 1) (q := s.seq) ?_
  rw [programFrame, sendAll_fail (s := opened s) (by rw [opened_script, hs, List.append_assoc]; rfl) hl, ← opened_seq]
  rfl

/-- A program frame that stops in its bulk transfer (R72, R190). -/
theorem programSession_ported_of_bulkFail {tx data ra l : List Byte} {k : Nat} (ha : ra.length = tx.length)
    (hs : s.script = oks ra ++ some (.fail k l) :: rest) :
    ∃ t, session (programFrame tx data) s = .done false t ∧
      Ported (inSession s (exchanged tx ra ++ [.bulkTx data (shortDone k data.length)])) rest s t := by
  refine session_ported hd (bytes := tx ++ data.take (shortDone k data.length)) (n := tx.length + 1) (q := .data) ?_
  rw [programFrame, sendAll_ok (s := opened s) (by rw [opened_script, hs]) ha]
  simp only
  rw [bulkTx_fail (s := setSeq .data _) rfl]
  simp [moved, setSeq, Flash.exchangeAll_append, Nat.add_assoc]

theorem programSession_ported_of_programCut {linear : Nat} {data : List Byte} (h : ProgramCut s linear data as es)
    (hs : s.script = as ++ rest) :
    ∃ t, session (programFrame (cmdAddr .program linear s) data) s = .done false t ∧ Ported es rest s t := by
  obtain cut | ⟨rx, k, l, hk, hl, rfl, rfl⟩ := h
  · exact programSession_ported_of_cut hd data cut hs
  · have run := programSession_ported_of_bulkFail (data := data) hd hl (hs.trans (List.append_assoc ..))
    rwa [shortDone_of_lt hk] at run

/-! The busy wait and the write disable after it. -/

theorem waitThenDisable_of_idle {q : Byte} (idle : PollIdle s q pa pe) (disable : FrameRuns s [0x04#8] da de)
    (hs : s.script = pa ++ da ++ rest) :
    ∃ t, waitThenDisable s = .done () t ∧ Ported (pe ++ de) rest (setStatus .sr1 q s) t := by
  obtain ⟨bytes, n, polled⟩ := waitForever_idle hd idle (hs.trans (List.append_assoc ..))
  rw [waitThenDisable, polled, Run.bind_done]
  obtain ⟨ok, t, sent, ported⟩ := sendSession_ported
    (s := setSeq .wrdi { sessioned [] bytes n (da ++ rest) .wait s with trace := s.trace ++ pe, sr1 := q }) hd disable rfl
  rw [uWRDI, sent, Run.bind_done]
  exact ⟨t, rfl, Ported.trans ⟨_, _, _, _, _, rfl⟩ ported⟩

theorem waitThenDisable_of_busy (busy : PollBusy s pa pe) (hs : s.script = pa ++ rest) :
    ∃ v t, waitThenDisable s = .wait t ∧ Ported pe rest (setStatus .sr1 v s) t ∧ t.seq = .wait := by
  obtain ⟨bytes, n, v, polled⟩ := waitForever_busy hd busy hs
  rw [waitThenDisable, polled, Run.bind_wait]
  exact ⟨v, _, rfl, ⟨_, _, _, _, _, rfl⟩, rfl⟩

/-! The program sequence (R190). -/

theorem programTail_of_idle {q : Byte} (n len : Nat) (idle : PollIdle s q pa pe) (disable : FrameRuns s [0x04#8] da de)
    (hs : s.script = pa ++ da ++ rest) :
    ∃ t, programTail n len s = .done (n, writeKind n len) t ∧ Ported (pe ++ de) rest (setStatus .sr1 q s) t := by
  obtain ⟨t, run, ported⟩ := waitThenDisable_of_idle hd idle disable hs
  exact ⟨t, by rw [programTail, run, Run.bind_done], ported⟩

theorem programTail_of_busy (n len : Nat) (busy : PollBusy s pa pe) (hs : s.script = pa ++ rest) :
    ∃ v t, programTail n len s = .wait t ∧ Ported pe rest (setStatus .sr1 v s) t ∧ t.seq = .wait := by
  obtain ⟨v, t, run, ported⟩ := waitThenDisable_of_busy hd busy hs
  exact ⟨v, t, by rw [programTail, run, Run.bind_wait], ported⟩

variable {linear n : Nat} {data : List Byte} (len : Nat)

/-- Past a complete write enable the program session decides. -/
theorem programPage_of_enabled (enable : FrameSent s [0x06#8] wa we) (hs : s.script = wa ++ rest) :
    ∃ t, Ported we rest s t ∧ ∀ ok u,
      session (programFrame (cmdAddr .program linear t) (data.take n)) (setCur linear (setSeq .cmd t)) = .done ok u →
      programPage linear n len data s = if ok then programTail n len u else .done (0, .transferFailure) u := by
  obtain ⟨t, enabled, ported⟩ := sendSession_ported_of_sent (s := setSeq .wren s) hd enable hs
  refine ⟨t, ported, fun ok u run => ?_⟩
  rw [programPage, uWREN, enabled, Run.bind_done, if_pos rfl, run, Run.bind_done]

/-- Write enable and program session, both complete: the wait comes next. -/
theorem programPage_of_sent (enable : FrameSent s [0x06#8] wa we) (program : ProgramSent s linear (data.take n) fa fe)
    (hs : s.script = wa ++ fa ++ rest) :
    ∃ t, programPage linear n len data s = programTail n len t ∧ Ported (we ++ fe) rest s t := by
  obtain ⟨t, ported, next⟩ := programPage_of_enabled (linear := linear) (n := n) (data := data) hd len enable
    (hs.trans (List.append_assoc ..))
  obtain ⟨ra, bs, ha, rfl, rfl⟩ := ported.programSent program
  obtain ⟨u, programmed, after⟩ := programSession_ported_of_sent (s := setCur linear (setSeq .cmd t)) (data := data.take n)
    (ported.room hd) ha (ported.script.trans (List.append_assoc ..))
  exact ⟨u, next true u programmed, ported.trans after⟩

theorem programPage_of_bulkFail {ra l : List Byte} {k : Nat} (enable : FrameSent s [0x06#8] wa we)
    (ha : ra.length = (cmdAddr .program linear s).length) (hs : s.script = wa ++ (oks ra ++ some (.fail k l) :: rest)) :
    ∃ t, programPage linear n len data s = .done (0, .transferFailure) t ∧ Ported (we ++ inSession s
      (exchanged (cmdAddr .program linear s) ra ++ [.bulkTx (data.take n) (shortDone k (data.take n).length)])) rest s t := by
  obtain ⟨t, ported, next⟩ := programPage_of_enabled (linear := linear) (n := n) (data := data) hd len enable hs
  rw [← ported.cmdAddr] at ha ⊢
  obtain ⟨u, stopped, after⟩ := programSession_ported_of_bulkFail (s := setCur linear (setSeq .cmd t)) (data := data.take n)
    (ported.room hd) ha ported.script
  exact ⟨u, next false u stopped, ported.trans (ported.inSession _ ▸ after)⟩

theorem programPage_of_stops (stops : ProgramStops s linear (data.take n) as es) (hs : s.script = as ++ rest) :
    ∃ t, programPage linear n len data s = .done (0, .transferFailure) t ∧ Ported es rest s t := by
  obtain cut | ⟨wa, we, ca, ce, enable, cut, rfl, rfl⟩ := stops
  · obtain ⟨t, run, ported⟩ := sendSession_ported_of_cut (s := setSeq .wren s) hd cut hs
    exact ⟨t, by rw [programPage, uWREN, run, Run.bind_done]; rfl, ported⟩
  · obtain ⟨t, ported, next⟩ := programPage_of_enabled (linear := linear) (n := n) (data := data) hd len enable
      (hs.trans (List.append_assoc ..))
    obtain ⟨u, stopped, after⟩ := programSession_ported_of_programCut (s := setCur linear (setSeq .cmd t)) (ported.room hd)
      (ported.programCut cut) ported.script
    exact ⟨u, next false u stopped, ported.trans after⟩

end
end Sys2Proof.Machine
end

section
/-!
The sub-write `DoWritePage` (R190) under explicit answers, and WRITEPAGE (R191).
-/
namespace Sys2Proof.Machine

section
variable {s : State} {as wa fa pa da : List (Option Answer)} {es we fe pe de : List Event} {rest : List (Option Answer)}
variable {page off len linear n : Nat} {data : List Byte}
variable (hp : page < s.blockcount.toNat * 256) (ho : off < 256)
include hp ho

theorem xlate_page_eq : xlate s.blockcount .page page off len = some (page * 256 + off, min len (256 - off)) :=
  xlate_eq_some hp ho len

theorem resumeWritePage_eq (hn : n = min len (256 - off)) : resumeWritePage page off len s = programTail n len s := by
  rw [resumeWritePage, xlate_page_eq hp ho, hn]

theorem doWritePage_of_zero : doWritePage page off data 0 s = .done (0, .none) (setSeq .check s) := by
  rw [doWritePage, xlate_page_eq hp ho]
  simp

variable (hl : 1 ≤ len) (hlinear : linear = page * 256 + off) (hn : n = min len (256 - off))
include hl hlinear hn

theorem doWritePage_eq : doWritePage page off data len s = programPage linear n len data (setSeq .check s) := by
  subst hlinear hn
  rw [doWritePage, xlate_page_eq hp ho]
  exact if_neg (by omega)

variable (hd : s.depth < s.cfg.depthMax)
include hd

theorem doWritePage_of_stops (stops : ProgramStops s linear (data.take n) as es) (hs : s.script = as ++ rest) :
    ∃ t, doWritePage page off data len s = .done (0, .transferFailure) t ∧ Ported es rest s t := by
  obtain ⟨t, run, ported⟩ := programPage_of_stops (s := setSeq .check s) hd len stops hs
  exact ⟨t, (doWritePage_eq hp ho hl hlinear hn).trans run, ported⟩

theorem doWritePage_of_bulkFail {ra l : List Byte} {k : Nat} (enable : FrameSent s [0x06#8] wa we)
    (ha : ra.length = (cmdAddr .program linear s).length) (hs : s.script = wa ++ (oks ra ++ some (.fail k l) :: rest)) :
    ∃ t, doWritePage page off data len s = .done (0, .transferFailure) t ∧ Ported (we ++ inSession s
      (exchanged (cmdAddr .program linear s) ra ++ [.bulkTx (data.take n) (shortDone k (data.take n).length)])) rest s t := by
  obtain ⟨t, run, ported⟩ := programPage_of_bulkFail (s := setSeq .check s) (data := data) (n := n) hd len enable ha hs
  exact ⟨t, (doWritePage_eq hp ho hl hlinear hn).trans run, ported⟩

variable (enable : FrameSent s [0x06#8] wa we) (program : ProgramSent s linear (data.take n) fa fe)
include enable program

theorem doWritePage_of_idle {q : Byte} (idle : PollIdle s q pa pe) (disable : FrameRuns s [0x04#8] da de)
    (hs : s.script = wa ++ fa ++ pa ++ da ++ rest) :
    ∃ t, doWritePage page off data len s = .done (n, writeKind n len) t ∧
      Ported (we ++ fe ++ (pe ++ de)) rest (setStatus .sr1 q s) t := by
  obtain ⟨t, run, ported⟩ := programPage_of_sent (s := setSeq .check s) (rest := pa ++ da ++ rest) hd len enable program
    (hs.trans (by simp))
  obtain ⟨u, tail, after⟩ := programTail_of_idle (ported.room hd) n len (ported.pollIdle (s := setSeq .check s) idle)
    (ported.frameRuns (s := setSeq .check s) disable) ported.script
  exact ⟨u, (doWritePage_eq hp ho hl hlinear hn).trans (run.trans tail), (ported.setStatus .sr1 q).trans after⟩

theorem doWritePage_of_busy (busy : PollBusy s pa pe) (hs : s.script = wa ++ fa ++ pa ++ rest) :
    ∃ v t, doWritePage page off data len s = .wait t ∧ Ported (we ++ fe ++ pe) rest (setStatus .sr1 v s) t ∧ t.seq = .wait := by
  obtain ⟨t, run, ported⟩ := programPage_of_sent (s := setSeq .check s) (rest := pa ++ rest) hd len enable program
    (hs.trans (List.append_assoc ..))
  obtain ⟨v, u, tail, after, wait⟩ := programTail_of_busy (ported.room hd) n len (ported.pollBusy (s := setSeq .check s) busy)
    ported.script
  exact ⟨v, u, (doWritePage_eq hp ho hl hlinear hn).trans (run.trans tail), (ported.setStatus .sr1 v).trans after, wait⟩

end

/-- A count of at most a page is the word that `RESULT` takes. -/
theorem toNat_ofNat_of_le_page {n : Nat} (h : n ≤ 256) : (BitVec.ofNat 32 n).toNat = n := toNat_ofNat_of_lt_word (by omega)

/-- WRITEPAGE accepted, its latches written. -/
def writepageAt (a b len : Word) (data : List Byte) (s : State) : State :=
  { accept 0x30#8 s with a := a, b := b, len := len, wdata := data }

section
variable {s : State} {a b len : Word} {data : List Byte} {u : State}

theorem runWritepage_of_done {w : SubWrite} (h : doWritePage a.toNat b.toNat data len.toNat s = .done w u) :
    runWritepage a b len data s = complete (BitVec.ofNat 32 w.1) (noteErr w.2 u) := by
  rw [runWritepage, h]
  rfl

theorem runWritepage_of_wait (h : doWritePage a.toNat b.toNat data len.toNat s = .wait u) : runWritepage a b len data s = u := by
  rw [runWritepage, h]
  rfl

theorem exec_writepage_eq (hr : Ready s) (hl : data.length = len.toNat) :
    exec (.writepage a b len data) s = .next (runWritepage a b len data (writepageAt a b len data s)) := by
  obtain ⟨hf, hq, -⟩ := hr
  exact exec_writepage_of_idle hf hq a b hl

theorem exec_writepage_of_failed {es : List Event} {rest : List (Option Answer)} (hr : Ready s) (hl : data.length = len.toNat)
    (run : doWritePage a.toNat b.toNat data len.toNat (writepageAt a b len data s) = .done (0, .transferFailure) u)
    (ported : Ported es rest (writepageAt a b len data s) u) :
    NextWith (exec (.writepage a b len data) s) fun t =>
      t.result = 0#32 ∧ t.lasterr = .transferFailure ∧ t.seq = .idle ∧ t.trace = s.trace ++ es := by
  obtain ⟨_, _, _, _, _, rfl⟩ := ported
  rw [exec_writepage_eq hr hl, runWritepage_of_done run]
  exact ⟨_, rfl, rfl, rfl, rfl, rfl⟩

end

/-- Settles O31: the sub-write of the one page, idle or busy at its first poll. -/
theorem writepageCompletes : Obligations.WritepageCompletes := by
  unfold Obligations.WritepageCompletes
  intro s a b len data n wa fa pa we fe pe rest hr hl hp ho h1 hn enable program
  refine ⟨fun q da de idle disable hs => ?_, fun busy hs => ?_⟩
  · obtain ⟨u, run, _, _, _, _, _, rfl⟩ :=
      doWritePage_of_idle (s := writepageAt a b len data s) hp ho h1 rfl hn hr.2.2 enable program idle disable hs
    rw [exec_writepage_eq hr hl, runWritepage_of_done run]
    refine ⟨_, rfl, toNat_ofNat_of_le_page (by omega), rfl, rfl, rfl, rfl, ?_⟩
    show s.trace ++ _ = _
    simp
  · obtain ⟨v, u, run, ⟨_, _, _, _, _, rfl⟩, wait⟩ :=
      doWritePage_of_busy (s := writepageAt a b len data s) hp ho h1 rfl hn hr.2.2 enable program busy hs
    rw [exec_writepage_eq hr hl, runWritepage_of_wait run]
    refine ⟨_, rfl, wait, hr.1, rfl, rfl, rfl, rfl, rfl, rfl, rfl, rfl, ?_⟩
    show s.trace ++ _ = _
    simp

/-- A write enable that goes through with the byte `w` received. -/
theorem frameSent_wren (s : State) (w : Byte) :
    FrameSent s [0x06#8] (oks [w]) (inSession s (exchanged [0x06#8] [w])) := ⟨[w], rfl, rfl, rfl⟩

/-- A frame that fails at its first exchange. -/
theorem frameCut_first (s : State) (c : Byte) (post : List Byte) (k : Nat) (l : List Byte) :
    FrameCut s (c :: post) [some (.fail k l)] (inSession s [.xferFail c]) := ⟨[], c, post, [], k, l, rfl, rfl, rfl, rfl⟩

theorem shortDone_lt (k : Nat) {n : Nat} (h : 1 ≤ n) : shortDone k n < n :=
  (Nat.min_le_right k (n - 1)).trans_lt (Nat.sub_lt h Nat.one_pos)

/-- Settles O32: the failures are the ways in which a sub-write stops. -/
theorem writepageStops : Obligations.WritepageStops := by
  unfold Obligations.WritepageStops
  intro s a b len data rest hr hl hp ho
  have ⟨hf, hq, hd⟩ := hr
  refine ⟨fun h0 => ?none, fun k l h1 hs => ?enable, fun w c ra pre post l k h1 hc ha hs => ?command,
    fun w ra l k h1 ha hs => ?bulk⟩
  case none =>
    have run : doWritePage a.toNat b.toNat data len.toNat (writepageAt a b len data s) =
        .done (0, .none) (setSeq .check (writepageAt a b len data s)) := by
      rw [h0]
      exact doWritePage_of_zero (s := writepageAt a b len data s) hp ho
    rw [exec_writepage_eq hr hl, runWritepage_of_done run, hq]
    rfl
  case enable =>
    obtain ⟨u, run, ported⟩ := doWritePage_of_stops (s := writepageAt a b len data s) (data := data) hp ho h1 rfl rfl hd
      (.inl (frameCut_first s _ _ k l)) hs
    exact exec_writepage_of_failed hr hl run ported
  case command =>
    have cut : FrameCut s (cmdAddr .program (a.toNat * 256 + b.toNat) s) (oks ra ++ [some (.fail k l)])
        (inSession s (exchanged pre ra ++ [.xferFail c])) := ⟨pre, c, post, ra, k, l, hc, ha, rfl, rfl⟩
    obtain ⟨u, run, ported⟩ := doWritePage_of_stops (s := writepageAt a b len data s) (data := data) (rest := rest) hp ho h1 rfl
      rfl hd (.inr ⟨_, _, _, _, frameSent_wren s w, .inl cut, rfl, rfl⟩) (hs.trans (by simp))
    rw [List.append_assoc]
    exact exec_writepage_of_failed hr hl run ported
  case bulk =>
    obtain ⟨u, run, ported⟩ := doWritePage_of_bulkFail (s := writepageAt a b len data s) (data := data) (rest := rest) hp ho h1
      rfl rfl hd (frameSent_wren s w) (ha.trans (cmdAddr_length ..).symm) hs
    have pos : 1 ≤ (data.take (min len.toNat (256 - b.toNat))).length := by
      rw [List.length_take, hl]
      omega
    obtain ⟨t, ht, result, lasterr, seq, trace⟩ := exec_writepage_of_failed hr hl run ported
    refine ⟨t, ht, result, lasterr, seq, _, (shortDone_lt k pos).trans_le (List.length_take_le ..), ?_⟩
    exact trace.trans (List.append_assoc ..).symm

end Sys2Proof.Machine
end

section
/-!
The page loop of WRITE and WRITEUNTIL (R192, R193) under explicit answers: one iteration from its head or from one more poll, what
progress by a page leaves, and what WRITEUNTIL makes of a failed sub-write.
-/
namespace Sys2Proof.Machine

/-! The clock. -/

theorem now_of_ticks {s : State} {t : Word} {ts : List Word} (h : s.ticks = t :: ts) :
    now s = (tickValue s.cfg t, { s with ticks := ts, trace := s.trace ++ [.tick (tickValue s.cfg t)] }) := by
  rw [now, h]
  rfl

/-- The modular difference of words is that of numbers (R74): the width of a tick divides a word. -/
theorem elapsed_tickValue {s : State} (hw : s.cfg.tickW ≤ 32) (start t : Word) :
    elapsed s.cfg start (tickValue s.cfg t) = sinceStart s start t := by
  have divides : 2 ^ s.cfg.tickW ∣ 4294967296 := Nat.pow_dvd_pow 2 hw
  have bound := start.isLt
  rw [elapsed, sinceStart, BitVec.toNat_sub, Nat.mod_mod_of_dvd _ divides]
  congr 1
  omega

/-! The loop of either operation, by its code. -/

/-- What a linear write does after a sub-write. -/
def afterOf (op : Byte) : SubWrite → State → Run Unit := if op = 0x32#8 then afterWriteuntil else afterWrite

/-- One iteration of the page loop from its head. -/
def loopOf (op : Byte) (s : State) : Run Unit :=
  if s.rem = 0#32 then .done () (finishWrite (loopFinal s) s) else (loopWrite s).bind (afterOf op)

/-- One iteration from one more poll. -/
def pollOf (op : Byte) (s : State) : Run Unit := (resumeLoopWrite s).bind (afterOf op)

theorem writeLoop_eq_loopOf : writeLoop = loopOf 0x31#8 := rfl
theorem writeuntilLoop_eq_loopOf : writeuntilLoop = loopOf 0x32#8 := rfl

theorem afterOf_of_moved (op : Byte) {n : Nat} (hn : 1 ≤ n) (k : ErrKind) (s : State) : afterOf op (n, k) s = nextPage (advance n s) := by
  have moved : ¬(n, k).1 = 0 := by simp; omega
  unfold afterOf
  split
  · exact if_neg moved
  · exact if_neg moved

theorem afterWrite_of_failed (k : ErrKind) (s : State) : afterWrite (0, k) s = .done () (finishWrite k s) := rfl

section
variable {s : State} {t : Word} {ts : List Word} (h : s.ticks = t :: ts) (hw : s.cfg.tickW ≤ 32)
include h hw

theorem afterWriteuntil_gives_up (k : ErrKind) (expired : s.tmo.toNat < sinceStart s s.start t) :
    afterWriteuntil (0, k) s =
      .done () (finishWrite k { setSeq .retry s with ticks := ts, trace := s.trace ++ [.tick (tickValue s.cfg t)] }) := by
  have reached : retryExpired s.cfg s.start (tickValue s.cfg t) s.tmo = true := by
    rw [retryExpired, elapsed_tickValue hw, decide_eq_true_iff]
    exact expired
  rw [afterWriteuntil, if_pos rfl, retryWrite, now_of_ticks (s := setSeq .retry s) h]
  exact if_pos reached

theorem afterWriteuntil_retries (k : ErrKind) (early : sinceStart s s.start t ≤ s.tmo.toNat) :
    afterWriteuntil (0, k) s =
      .wait { s with seq := .check, ticks := ts, trace := s.trace ++ [.tick (tickValue s.cfg t)] } := by
  have waits : ¬retryExpired s.cfg s.start (tickValue s.cfg t) s.tmo = true := by
    rw [retryExpired, elapsed_tickValue hw, decide_eq_true_iff]
    exact Nat.not_lt.mpr early
  rw [afterWriteuntil, if_pos rfl, retryWrite, now_of_ticks (s := setSeq .retry s) h]
  exact if_neg waits

end

/-! Progress by the bytes of one page. -/

/-- `m` more bytes committed, and either the end or the head of the loop at the next page. -/
structure Progressed (m : Nat) (s t : State) : Prop where
  same : t = { s with
    total := t.total, rem := t.rem, page := t.page, off := t.off, result := t.result, lasterr := t.lasterr, seq := t.seq }
  total : t.total.toNat = s.total.toNat + m
  rem : t.rem.toNat = s.rem.toNat - m
  ends : m = s.rem.toNat → t.seq = .idle ∧ t.result = t.total ∧
    t.lasterr = if s.total.toNat + s.rem.toNat < s.len.toNat then .partialWrite else .none
  goesOn : m < s.rem.toNat → t.seq = .check ∧ t.page = s.page + 1#32 ∧ t.off = 0#32 ∧ t.result = s.result

theorem progressed_nextPage {m : Nat} {s : State} (hm : m ≤ s.rem.toNat) (fits : s.total.toNat + s.rem.toNat ≤ s.len.toNat) :
    Progressed m s ((nextPage (advance m s)).settle freeResult) := by
  have len := s.len.isLt
  have count : (BitVec.ofNat 32 m).toNat = m := toNat_ofNat_of_lt_word (by omega)
  have total : (s.total + BitVec.ofNat 32 m).toNat = s.total.toNat + m := by
    rw [BitVec.toNat_add, count, Nat.mod_eq_of_lt (by omega)]
  have rem : (s.rem - BitVec.ofNat 32 m).toNat = s.rem.toNat - m := by
    rw [BitVec.toNat_sub_of_le (by rw [BitVec.le_def, count]; exact hm), count]
  have final : loopFinal (advance m s) = if s.total.toNat + s.rem.toNat < s.len.toNat then .partialWrite else .none := by
    change writeKind ((s.total + BitVec.ofNat 32 m).toNat + (s.rem - BitVec.ofNat 32 m).toNat) s.len.toNat = _
    rw [total, rem, show s.total.toNat + m + (s.rem.toNat - m) = s.total.toNat + s.rem.toNat by omega, writeKind]
  by_cases left : (advance m s).rem = 0#32
  · have all : m = s.rem.toNat := by
      have := congrArg BitVec.toNat left
      change (s.rem - BitVec.ofNat 32 m).toNat = 0 at this
      omega
    rw [nextPage, if_pos left, final]
    exact ⟨rfl, total, rem, fun _ => ⟨rfl, rfl, rfl⟩, fun h => absurd all h.ne⟩
  · have more : m ≠ s.rem.toNat := by
      intro all
      exact left (BitVec.eq_of_toNat_eq (rem.trans (by rw [all]; simp)))
    rw [nextPage, if_neg left]
    exact ⟨rfl, total, rem, fun h => absurd h more, fun _ => ⟨rfl, rfl, rfl, rfl⟩⟩

/-- One page of the loop, seen idle at its poll with status `q`, from `s` to `t`. -/
def PageDone (es : List Event) (rest : List (Option Answer)) (q : Byte) (m : Nat) (s t : State) : Prop :=
  ∃ u, Ported es rest (setStatus .sr1 q s) u ∧ Progressed m u t

section
variable {es : List Event} {rest : List (Option Answer)} {q : Byte} {m : Nat} {s t : State} (h : PageDone es rest q m s t)
include h

/-- The registers that the pages of the loop leave as they are. -/
theorem PageDone.same : t.trace = s.trace ++ es ∧ t.script = rest ∧ t.sr1 = q ∧ t.ticks = s.ticks ∧ t.fault = s.fault ∧ t.op = s.op ∧
    t.wdata = s.wdata ∧ t.len = s.len := by
  obtain ⟨u, ⟨_, _, _, _, _, rfl⟩, progress⟩ := h
  rw [progress.same]
  exact ⟨rfl, rfl, rfl, rfl, rfl, rfl, rfl, rfl⟩

theorem PageDone.progress : t.total.toNat = s.total.toNat + m ∧ t.rem.toNat = s.rem.toNat - m := by
  obtain ⟨u, ⟨_, _, _, _, _, rfl⟩, progress⟩ := h
  exact ⟨progress.total, progress.rem⟩

theorem PageDone.ends (all : m = s.rem.toNat) : t.seq = .idle ∧ t.result = t.total ∧
    t.lasterr = if s.total.toNat + s.rem.toNat < s.len.toNat then .partialWrite else .none := by
  obtain ⟨u, ⟨_, _, _, _, _, rfl⟩, progress⟩ := h
  exact progress.ends all

theorem PageDone.goesOn (more : m < s.rem.toNat) :
    t.seq = .check ∧ t.page = s.page + 1#32 ∧ t.off = 0#32 ∧ t.result = s.result := by
  obtain ⟨u, ⟨_, _, _, _, _, rfl⟩, progress⟩ := h
  exact progress.goesOn more

end

/-! One iteration. -/

/-- The loop's locals at a page and offset of the device, with `m` bytes of the rest to go to that page, at `linear`. -/
structure AtPage (s : State) (linear m : Nat) : Prop where
  page : s.page.toNat < s.blockcount.toNat * 256
  off : s.off.toNat < 256
  rem : 1 ≤ s.rem.toNat
  fits : s.total.toNat + s.rem.toNat ≤ s.len.toNat
  linear : linear = s.page.toNat * 256 + s.off.toNat
  count : m = min s.rem.toNat (256 - s.off.toNat)

section
variable {s : State} {as wa fa pa da : List (Option Answer)} {es we fe pe de : List Event} {rest : List (Option Answer)}
variable {linear m : Nat} (h : AtPage s linear m) (op : Byte)
include h

theorem AtPage.pos : 1 ≤ m := by
  obtain ⟨-, off, rem, -, -, count⟩ := h
  omega

theorem loopOf_eq : loopOf op s = (loopWrite s).bind (afterOf op) := by
  refine if_neg fun none => ?_
  have := h.rem
  rw [none] at this
  exact absurd this (by decide)

theorem pageDone_of_subwrite {q : Byte} {u : State} (ported : Ported es rest (setStatus .sr1 q s) u) :
    PageDone es rest q m s ((nextPage (advance m u)).settle freeResult) := by
  have rem : m ≤ s.rem.toNat := h.count.trans_le (Nat.min_le_left ..)
  refine ⟨u, ported, ?_⟩
  obtain ⟨_, _, _, _, _, rfl⟩ := ported
  exact progressed_nextPage rem h.fits

theorem resumeLoopWrite_eq : resumeLoopWrite s = programTail m s.rem.toNat s := resumeWritePage_eq h.page h.off h.count

variable (hd : s.depth < s.cfg.depthMax)
include hd

theorem pollOf_of_idle {q : Byte} (idle : PollIdle s q pa pe) (disable : FrameRuns s [0x04#8] da de)
    (hs : s.script = pa ++ da ++ rest) : PageDone (pe ++ de) rest q m s ((pollOf op s).settle freeResult) := by
  obtain ⟨u, run, ported⟩ := programTail_of_idle hd m s.rem.toNat idle disable hs
  rw [pollOf, resumeLoopWrite_eq h, run, Run.bind_done, afterOf_of_moved op h.pos]
  exact pageDone_of_subwrite h ported

theorem pollOf_of_busy (busy : PollBusy s pa pe) (hs : s.script = pa ++ rest) :
    ∃ v t, pollOf op s = .wait t ∧ Ported pe rest (setStatus .sr1 v s) t ∧ t.seq = .wait := by
  obtain ⟨v, t, run, ported⟩ := programTail_of_busy hd m s.rem.toNat busy hs
  exact ⟨v, t, by rw [pollOf, resumeLoopWrite_eq h, run, Run.bind_wait], ported⟩

theorem loopOf_of_stops (stops : ProgramStops s linear ((s.wdata.drop s.total.toNat).take m) as es) (hs : s.script = as ++ rest) :
    ∃ t, loopOf op s = afterOf op (0, .transferFailure) t ∧ Ported es rest s t := by
  obtain ⟨t, run, ported⟩ := doWritePage_of_stops h.page h.off h.rem h.linear h.count hd stops hs
  exact ⟨t, by rw [loopOf_eq h, loopWrite, run, Run.bind_done], ported⟩

variable (enable : FrameSent s [0x06#8] wa we) (program : ProgramSent s linear ((s.wdata.drop s.total.toNat).take m) fa fe)
include enable program

theorem loopOf_of_idle {q : Byte} (idle : PollIdle s q pa pe) (disable : FrameRuns s [0x04#8] da de)
    (hs : s.script = wa ++ fa ++ pa ++ da ++ rest) :
    PageDone (we ++ fe ++ (pe ++ de)) rest q m s ((loopOf op s).settle freeResult) := by
  obtain ⟨u, run, ported⟩ := doWritePage_of_idle h.page h.off h.rem h.linear h.count hd enable program idle disable hs
  rw [loopOf_eq h, loopWrite, run, Run.bind_done, afterOf_of_moved op h.pos]
  exact pageDone_of_subwrite h ported

theorem loopOf_of_busy (busy : PollBusy s pa pe) (hs : s.script = wa ++ fa ++ pa ++ rest) :
    ∃ v t, loopOf op s = .wait t ∧ Ported (we ++ fe ++ pe) rest (setStatus .sr1 v s) t ∧ t.seq = .wait := by
  obtain ⟨v, t, run, ported⟩ := doWritePage_of_busy h.page h.off h.rem h.linear h.count hd enable program busy hs
  exact ⟨v, t, by rw [loopOf_eq h, loopWrite, run, Run.bind_wait], ported⟩

end
/-- WRITEUNTIL after a sub-write that failed with the events `es`, and the tick `now` read after it (R193). -/
structure Retried (es : List Event) (rest : List (Option Answer)) (now : Word) (ts : List Word) (s t : State) : Prop where
  same : t = { s with
    cs := t.cs, dev := t.dev, count := t.count, cur := t.cur, seq := t.seq, result := t.result, lasterr := t.lasterr,
    trace := s.trace ++ es ++ [.tick (tickValue s.cfg now)], ticks := ts, script := rest }
  givesUp : s.tmo.toNat < sinceStart s s.start now → t.seq = .idle ∧ t.result = s.total ∧ t.lasterr = .transferFailure
  retries : sinceStart s s.start now ≤ s.tmo.toNat → t.seq = .check ∧ t.result = s.result

theorem retried_of_stops {s : State} {linear m : Nat} {as rest : List (Option Answer)} {es : List Event} {now : Word} {ts : List Word}
    (h : AtPage s linear m) (hd : s.depth < s.cfg.depthMax) (hw : s.cfg.tickW ≤ 32) (ht : s.ticks = now :: ts)
    (stops : ProgramStops s linear ((s.wdata.drop s.total.toNat).take m) as es) (hs : s.script = as ++ rest) :
    Retried es rest now ts s ((loopOf 0x32#8 s).settle freeResult) := by
  obtain ⟨t, run, ported⟩ := loopOf_of_stops h 0x32#8 hd stops hs
  obtain ⟨ticks, width, tmo, since⟩ : t.ticks = now :: ts ∧ t.cfg.tickW ≤ 32 ∧ t.tmo = s.tmo ∧
      sinceStart t t.start now = sinceStart s s.start now := by
    obtain ⟨_, _, _, _, _, rfl⟩ := ported
    exact ⟨ht, hw, rfl, rfl⟩
  rw [run, show afterOf 0x32#8 = afterWriteuntil from rfl]
  obtain expired | early := Nat.lt_or_ge s.tmo.toNat (sinceStart s s.start now)
  · rw [afterWriteuntil_gives_up ticks width _ (by rw [tmo, since]; exact expired)]
    obtain ⟨_, _, _, _, _, rfl⟩ := ported
    exact ⟨rfl, fun _ => ⟨rfl, rfl, rfl⟩, fun h => absurd expired (Nat.not_lt.mpr h)⟩
  · rw [afterWriteuntil_retries ticks width _ (by rw [tmo, since]; exact early)]
    obtain ⟨_, _, _, _, _, rfl⟩ := ported
    exact ⟨rfl, fun h => absurd h (Nat.not_lt.mpr early), fun _ => ⟨rfl, rfl⟩⟩

end Sys2Proof.Machine
end

section
/-!
WRITE and WRITEUNTIL (R192, R193) from the step that accepts them: the head of the page loop, then its first iteration.
-/
namespace Sys2Proof.Machine

/-- WRITE at the head of its loop, `n` bytes to write. -/
def writeHead (a len : Word) (data : List Byte) (n : Nat) (s : State) : State :=
  { s with
    op := 0x31#8, lasterr := .none, a := a, len := len, wdata := data, seq := .check,
    page := BitVec.ofNat 32 (a.toNat / 256), off := BitVec.ofNat 32 (a.toNat % 256), rem := BitVec.ofNat 32 n, total := 0#32 }

/-- WRITEUNTIL at the head of its loop, its clock started at `t0`. -/
def writeuntilHead (a len tmo : Word) (data : List Byte) (n : Nat) (t0 : Word) (ts : List Word) (s : State) : State :=
  { s with
    op := 0x32#8, lasterr := .none, a := a, len := len, tmo := tmo, wdata := data, seq := .check,
    page := BitVec.ofNat 32 (a.toNat / 256), off := BitVec.ofNat 32 (a.toNat % 256), rem := BitVec.ofNat 32 n, total := 0#32,
    start := tickValue s.cfg t0, ticks := ts, trace := s.trace ++ [.tick (tickValue s.cfg t0)] }

theorem runWrite_of_clamp {a len : Word} {n : Nat} {u : State} (h : clampLinear u.blockcount a.toNat len.toNat = some n) :
    runWrite a len u = loopOf 0x31#8 (enterLoop a.toNat n (setSeq .check u)) := by
  rw [runWrite, h]
  rfl

theorem runWriteuntil_of_clamp {a len : Word} {n : Nat} {u : State} (h : clampLinear u.blockcount a.toNat len.toNat = some n) :
    runWriteuntil a len u = loopOf 0x32#8 (startClock (enterLoop a.toNat n (setSeq .check u))) := by
  rw [runWriteuntil, h]
  rfl

theorem startClock_of_ticks {u : State} {t : Word} {ts : List Word} (h : u.ticks = t :: ts) :
    startClock u = { u with start := tickValue u.cfg t, ticks := ts, trace := u.trace ++ [.tick (tickValue u.cfg t)] } := by
  rw [startClock, now_of_ticks h]

section
variable {s : State} {a len : Word} {data : List Byte} {n : Nat} (hr : Ready s) (hl : data.length = len.toNat)
variable (ha : a.toNat < s.blockcount.toNat * 65536) (hn : n = min len.toNat (s.blockcount.toNat * 65536 - a.toNat))
include hr hl ha hn

theorem exec_write_eq : exec (.write a len data) s = .next ((loopOf 0x31#8 (writeHead a len data n s)).settle freeResult) := by
  obtain ⟨hf, hq, -⟩ := hr
  have clamp : clampLinear s.blockcount a.toNat len.toNat = some n := hn ▸ clampLinear_eq_some ha len.toNat
  exact (exec_write_of_idle hf hq a hl).trans
    (congrArg (fun r => Host.Outcome.next (Run.settle r freeResult)) (runWrite_of_clamp clamp))

theorem exec_writeuntil_eq (tmo : Word) {t0 : Word} {ts : List Word} (ht : s.ticks = t0 :: ts) :
    exec (.writeuntil a len tmo data) s =
      .next ((loopOf 0x32#8 (writeuntilHead a len tmo data n t0 ts s)).settle freeResult) := by
  obtain ⟨hf, hq, -⟩ := hr
  have clamp : clampLinear s.blockcount a.toNat len.toNat = some n := hn ▸ clampLinear_eq_some ha len.toNat
  have run := (runWriteuntil_of_clamp (u := { accept 0x32#8 s with a := a, len := len, tmo := tmo, wdata := data }) clamp).trans
    (congrArg (loopOf 0x32#8) (startClock_of_ticks ht))
  exact (exec_writeuntil_of_idle hf hq a tmo hl).trans (congrArg (fun r => Host.Outcome.next (Run.settle r freeResult)) run)

end

/-! The loop's locals at its head. -/

theorem toNat_page (a : Word) : (BitVec.ofNat 32 (a.toNat / 256)).toNat = a.toNat / 256 :=
  toNat_ofNat_of_lt_word ((Nat.div_le_self ..).trans_lt a.isLt)

theorem toNat_off (a : Word) : (BitVec.ofNat 32 (a.toNat % 256)).toNat = a.toNat % 256 :=
  toNat_ofNat_of_lt_word ((Nat.mod_le ..).trans_lt a.isLt)

theorem toNat_clamped {len : Word} {n k : Nat} (hn : n = min len.toNat k) : (BitVec.ofNat 32 n).toNat = n :=
  toNat_ofNat_of_lt_word ((hn.trans_le (Nat.min_le_left ..)).trans_lt len.isLt)

/-- Any state whose loop's locals are those of a write of `n` bytes from `a`. -/
theorem atPage_of_locals {u : State} {a : Word} {n : Nat} (ha : a.toNat < u.blockcount.toNat * 65536)
    (hn : n = min u.len.toNat (u.blockcount.toNat * 65536 - a.toNat)) (h1 : 1 ≤ u.len.toNat)
    (page : u.page = BitVec.ofNat 32 (a.toNat / 256)) (off : u.off = BitVec.ofNat 32 (a.toNat % 256))
    (rem : u.rem = BitVec.ofNat 32 n) (total : u.total = 0#32) : AtPage u a.toNat (min n (256 - a.toNat % 256)) := by
  have hpage : u.page.toNat = a.toNat / 256 := by rw [page, toNat_page]
  have hoff : u.off.toNat = a.toNat % 256 := by rw [off, toNat_off]
  have hrem : u.rem.toNat = n := by rw [rem, toNat_clamped hn]
  have htotal : u.total.toNat = 0 := by rw [total]; rfl
  constructor <;> omega

section
variable {s : State} {a len : Word} {data : List Byte} {n : Nat}
variable (ha : a.toNat < s.blockcount.toNat * 65536) (hn : n = min len.toNat (s.blockcount.toNat * 65536 - a.toNat))
include ha hn

theorem atPage_writeHead (h1 : 1 ≤ len.toNat) : AtPage (writeHead a len data n s) a.toNat (min n (256 - a.toNat % 256)) :=
  atPage_of_locals ha hn h1 rfl rfl rfl rfl

theorem atPage_writeuntilHead (h1 : 1 ≤ len.toNat) (tmo t0 : Word) (ts : List Word) :
    AtPage (writeuntilHead a len tmo data n t0 ts s) a.toNat (min n (256 - a.toNat % 256)) :=
  atPage_of_locals ha hn h1 rfl rfl rfl rfl

end

/-- A write of no bytes ends at the head of its loop. -/
theorem loopOf_of_zero {op : Byte} {s : State} (rem : s.rem = 0#32) (total : s.total = 0#32) (len : s.len.toNat = 0) :
    (loopOf op s).settle freeResult = complete 0#32 (noteErr .none s) := by
  have final : loopFinal s = .none := by
    rw [loopFinal, len]
    rfl
  rw [loopOf, if_pos rem, final, Run.settle_done, finishWrite, total]

/-- Settles O33: the first iteration of the loop, from its head. -/
theorem writeCompletesInPage : Obligations.WriteCompletesInPage := by
  unfold Obligations.WriteCompletesInPage
  intro s a len data n m rest hr hl ha hn hm
  have ⟨hf, hq, hd⟩ := hr
  subst hm
  rw [exec_write_eq hr hl ha hn]
  have remains : (writeHead a len data n s).rem.toNat = n := toNat_clamped hn
  refine ⟨fun h1 wa fa pa we fe pe enable program => ⟨fun q da de idle disable hs all => ?idle, fun busy hs => ?busy⟩,
    fun h1 fa fe stops hs => ?stops, fun h0 => ?none⟩
  case idle =>
    have done := loopOf_of_idle (atPage_writeHead ha hn h1) 0x31#8 hd enable program idle disable hs
    obtain ⟨trace, script, sr1, -⟩ := done.same
    obtain ⟨seq, result, lasterr⟩ := done.ends (all.trans remains.symm)
    refine ⟨_, rfl, ?_, lasterr.trans ?_, seq, sr1, script, trace.trans ?_⟩
    · rw [result, done.progress.1, all]
      exact Nat.zero_add n
    · rw [remains]
      simp [writeHead]
    · simp [writeHead]
  case busy =>
    obtain ⟨v, t, run, ⟨_, _, _, _, _, rfl⟩, wait⟩ := loopOf_of_busy (atPage_writeHead ha hn h1) 0x31#8 hd enable program busy hs
    rw [run]
    refine ⟨_, rfl, wait, hf, rfl, toNat_page a, toNat_off a, remains, rfl, rfl, rfl, rfl, rfl, rfl, ?_⟩
    show s.trace ++ _ = _
    simp
  case stops =>
    obtain ⟨t, run, _, _, _, _, _, rfl⟩ := loopOf_of_stops (atPage_writeHead ha hn h1) 0x31#8 hd stops hs
    rw [run]
    exact ⟨_, rfl, rfl, rfl, rfl, rfl, rfl⟩
  case none =>
    have zero : n = 0 := by omega
    subst zero
    rw [loopOf_of_zero (s := writeHead a len data 0 s) rfl rfl h0]
    exact ⟨_, rfl, rfl, rfl, rfl, rfl⟩

/-- Settles O36: as WRITE, after the start tick. -/
theorem writeuntilCompletesInPage : Obligations.WriteuntilCompletesInPage := by
  unfold Obligations.WriteuntilCompletesInPage
  intro s a len tmo t0 ts data n m rest hr hl ha ht hn hm
  have ⟨hf, hq, hd⟩ := hr
  subst hm
  rw [exec_writeuntil_eq hr hl ha hn tmo ht]
  have remains : (writeuntilHead a len tmo data n t0 ts s).rem.toNat = n := toNat_clamped hn
  refine ⟨fun h1 wa fa pa we fe pe enable program => ⟨fun q da de idle disable hs all => ?idle, fun busy hs => ?busy⟩,
    fun h0 => ?none⟩
  case idle =>
    have done := loopOf_of_idle (atPage_writeuntilHead ha hn h1 tmo t0 ts) 0x32#8 hd enable program idle disable hs
    obtain ⟨trace, script, sr1, ticks, -⟩ := done.same
    obtain ⟨seq, result, lasterr⟩ := done.ends (all.trans remains.symm)
    refine ⟨_, rfl, ?_, lasterr.trans ?_, seq, sr1, ticks, script, trace.trans ?_⟩
    · rw [result, done.progress.1, all]
      exact Nat.zero_add n
    · rw [remains]
      simp [writeuntilHead]
    · simp [writeuntilHead]
  case busy =>
    obtain ⟨v, t, run, ⟨_, _, _, _, _, rfl⟩, wait⟩ :=
      loopOf_of_busy (atPage_writeuntilHead ha hn h1 tmo t0 ts) 0x32#8 hd enable program busy hs
    rw [run]
    refine ⟨_, rfl, wait, hf, rfl, toNat_page a, toNat_off a, remains, rfl, rfl, rfl, rfl, rfl, rfl, rfl, rfl, rfl, ?_⟩
    show s.trace ++ _ ++ _ = _
    simp
  case none =>
    have zero : n = 0 := by omega
    subst zero
    rw [loopOf_of_zero (s := writeuntilHead a len tmo data 0 t0 ts s) rfl rfl h0]
    exact ⟨_, rfl, rfl, rfl, rfl, rfl, rfl⟩

/-- Settles O37: the failed sub-write, then the comparison of the elapsed time. -/
theorem writeuntilRetries : Obligations.WriteuntilRetries := by
  unfold Obligations.WriteuntilRetries
  intro s a len tmo t0 now ts data n fa fe rest hr hl h1 ha hw ht hn stops hs
  have page := atPage_writeuntilHead (s := s) (data := data) ha hn h1 tmo t0 (now :: ts)
  have retried := retried_of_stops page hr.2.2 hw rfl stops hs
  rw [exec_writeuntil_eq hr hl ha hn tmo ht]
  generalize (loopOf 0x32#8 (writeuntilHead a len tmo data n t0 (now :: ts) s)).settle freeResult = t at retried
  obtain ⟨same, givesUp, retries⟩ := retried
  refine ⟨t, rfl, by rw [same]; rfl, by rw [same]; rfl, by rw [same], by rw [same], givesUp, fun early => ?_⟩
  obtain ⟨seq, result⟩ := retries early
  rw [same] at result
  refine ⟨seq, by rw [same]; rfl, ?_, ?_, by rw [same]; rfl, ?_, by rw [same]; rfl, result⟩
  · rw [same]; exact toNat_page a
  · rw [same]; exact toNat_off a
  · rw [same]; exact toNat_clamped hn

end Sys2Proof.Machine
end

section
/-!
The page loop beyond its first page (R192, R193, R195): where a linear write stands after its first sub-write, and what one more
iteration does.
-/
namespace Sys2Proof.Machine

/-- A write from `a` that its first page, of which it takes `m` bytes, does not hold: the loop stands where a write of the rest begins. -/
theorem PageDone.next_page {es : List Event} {rest : List (Option Answer)} {q : Byte} {m n : Nat} {a : Word} {u t : State}
    (h : PageDone es rest q m u t) (hm : m = 256 - a.toNat % 256) (more : m < n) (page : u.page = BitVec.ofNat 32 (a.toNat / 256))
    (rem : u.rem.toNat = n) (total : u.total = 0#32) :
    t.seq = .check ∧ t.total.toNat = m ∧ t.rem.toNat = n - m ∧ t.off = 0#32 ∧ t.page.toNat * 256 = a.toNat + m ∧
      t.result = u.result := by
  obtain ⟨htotal, hrem⟩ := h.progress
  obtain ⟨seq, hpage, off, result⟩ := h.goesOn (more.trans_eq rem.symm)
  rw [rem] at hrem
  rw [total] at htotal
  refine ⟨seq, htotal.trans (Nat.zero_add m), hrem, off, ?_, result⟩
  have bound := a.isLt
  rw [hpage, page, BitVec.toNat_add, toNat_page, BitVec.toNat_ofNat]
  omega

/-- Settles O34: both writes reach the head of the same loop, and their first page is done. -/
theorem writeGoesOn : Obligations.WriteGoesOn := by
  unfold Obligations.WriteGoesOn
  intro s i a len data op q n m wa fa pa da te we fe pe de rest hr hi hl ha hn hm more enable program idle disable hs
  have ⟨hf, hq, hd⟩ := hr
  have first : min n (256 - a.toNat % 256) = m := by omega
  have h1 : 1 ≤ len.toNat := by omega
  obtain ⟨rfl, rfl, rfl⟩ | ⟨tmo, t0, ts, rfl, rfl, ht, rfl⟩ := hi
  · have atPage := atPage_writeHead (s := s) (data := data) ha hn h1
    rw [first] at atPage
    have done := loopOf_of_idle atPage 0x31#8 hd enable program idle disable hs
    obtain ⟨trace, script, -, -, fault, op, wdata, len'⟩ := done.same
    obtain ⟨seq, total, rem, off, page, result⟩ := done.next_page hm more rfl (toNat_clamped hn) rfl
    rw [exec_write_eq hr hl ha hn]
    refine ⟨_, rfl, seq, fault.trans hf, op, total, rem, off, page, wdata, len', result, script, trace.trans ?_⟩
    simp [writeHead]
  · have atPage := atPage_writeuntilHead (s := s) (data := data) ha hn h1 tmo t0 ts
    rw [first] at atPage
    have done := loopOf_of_idle atPage 0x32#8 hd enable program idle disable hs
    obtain ⟨trace, script, -, -, fault, op, wdata, len'⟩ := done.same
    obtain ⟨seq, total, rem, off, page, result⟩ := done.next_page hm more rfl (toNat_clamped hn) rfl
    rw [exec_writeuntil_eq hr hl ha hn tmo ht]
    refine ⟨_, rfl, seq, fault.trans hf, op, total, rem, off, page, wdata, len', result, script, trace.trans ?_⟩
    simp [writeuntilHead]

/-! The later steps. -/

section
variable {s : State} (hh : s.hostQ = []) (hf : s.fault = false)
include hh hf

theorem step_of_wait (hq : s.seq = .wait) : step s = resumeWait s := (step_of_nothing hh).trans (proceed_of_wait hf hq)

theorem step_of_check (hq : s.seq = .check) : step s = resumeCheck s := (step_of_nothing hh).trans (proceed_of_check hf hq)

theorem step_loop (hq : s.seq = .check) (hop : s.op ∈ [0x31#8, 0x32#8]) : step s = .next ((loopOf s.op s).settle freeResult) := by
  rw [step_of_check hh hf hq]
  simp only [List.mem_cons, List.not_mem_nil, or_false] at hop
  rcases hop with hop | hop
  · rw [resumeCheck_of_write hop, hop]
    rfl
  · rw [resumeCheck_of_writeuntil hop, hop]
    rfl

theorem step_poll (hq : s.seq = .wait) (hop : s.op ∈ [0x31#8, 0x32#8]) : step s = .next ((pollOf s.op s).settle freeResult) := by
  rw [step_of_wait hh hf hq]
  simp only [List.mem_cons, List.not_mem_nil, or_false] at hop
  rcases hop with hop | hop
  · rw [resumeWait_of_write hop, hop]
    rfl
  · rw [resumeWait_of_writeuntil hop, hop]
    rfl

end

/-- Settles O35: one iteration of the loop from its head. -/
theorem writeLoopIterates : Obligations.WriteLoopIterates := by
  unfold Obligations.WriteLoopIterates
  intro s linear m rest hh hf hq hop hd hw hp ho h1 fits hl hlinear hm
  have atPage : AtPage s linear m := ⟨hp, ho, h1, fits, hlinear, hm⟩
  rw [step_loop hh hf hq hop]
  refine ⟨fun wa fa pa we fe pe enable program => ⟨fun q da de idle disable hs => ?idle, fun busy hs => ?busy⟩,
    fun fa fe stops hs => ⟨fun write => ?failed, fun writeuntil now ts ht => ?retry⟩⟩
  case idle =>
    have done := loopOf_of_idle atPage s.op hd enable program idle disable hs
    obtain ⟨trace, script, -, ticks, -, op, -⟩ := done.same
    obtain ⟨total, rem⟩ := done.progress
    refine ⟨_, rfl, trace.trans (by simp), script, ticks, total, rem, done.ends, fun more => ?_⟩
    obtain ⟨seq, page, off, result⟩ := done.goesOn more
    exact ⟨seq, op, page, off, result⟩
  case busy =>
    obtain ⟨v, t, run, ⟨_, _, _, _, _, rfl⟩, wait⟩ := loopOf_of_busy atPage s.op hd enable program busy hs
    rw [run]
    refine ⟨_, rfl, wait, hf, rfl, rfl, rfl, rfl, rfl, rfl, rfl, ?_⟩
    show s.trace ++ _ = _
    simp
  case failed =>
    obtain ⟨t, run, _, _, _, _, _, rfl⟩ := loopOf_of_stops atPage s.op hd stops hs
    rw [run, write]
    exact ⟨_, rfl, rfl, rfl, rfl, rfl, rfl⟩
  case retry =>
    obtain ⟨same, givesUp, retries⟩ := retried_of_stops atPage hd hw ht stops hs
    rw [writeuntil]
    generalize (loopOf 0x32#8 s).settle freeResult = t at same givesUp retries
    refine ⟨t, rfl, by rw [same], by rw [same], by rw [same], givesUp, fun early => ?_⟩
    obtain ⟨seq, result⟩ := retries early
    exact ⟨seq, by rw [same, writeuntil], by rw [same], by rw [same], by rw [same], by rw [same], by rw [same], result⟩

end Sys2Proof.Machine
end

section
/-!
Procedures whose frames are not examined (R252): from any state with room for a session they end or wait, whatever is answered. Then the
erase sequence (R210) and WRITESTATUS (R176), under explicit answers and under any.
-/
namespace Sys2Proof.Machine

/-! Whatever is answered. -/

section
variable {s : State} (hd : s.depth < s.cfg.depthMax)
include hd

/-- With room for its acquisition a session is done. -/
theorem session_runs {α : Type} {frame : State → α × State} {op : Byte} {rest : List Byte}
    (h : FrameMoves op rest (opened s) (frame (opened s)).2) : ∃ a t, session frame s = .done a t :=
  ⟨_, _, (session_eq (by rw [h.moves.depth, opened_depth])).trans (if_neg (Nat.not_le.mpr hd))⟩

/-- With room for an acquisition no fault is raised. -/
theorem Keeps.fault_of_room {F : Footprint} {t : State} (h : Keeps F s t) : t.fault = s.fault := by
  obtain ⟨same, -⟩ | ⟨-, -, full⟩ := h.faults
  · exact same
  · exact absurd hd (Nat.not_lt.mpr full)

theorem Keeps.room {F : Footprint} {t : State} (h : Keeps F s t) : t.depth < t.cfg.depthMax := by
  rw [h.depth, h.cfg]
  exact hd

theorem sendSession_runs_any {op : Byte} (rest : List Byte) (hop : opcodes.contains op = true) :
    ∃ ok t, session (sendFrame (op :: rest)) s = .done ok t ∧ Keeps .most s t ∧ t.lasterr = s.lasterr := by
  have keeps : Keeps .most s (session (sendFrame (op :: rest)) s).final :=
    session_keeps (fun s1 _ => (sendFrame_spec op rest s1).1) hop fun _ _ _ _ _ hx => absurd trivial hx
  have lasterr := sendSession_lasterr op rest s
  obtain ⟨ok, t, run⟩ := session_runs hd (sendFrame_spec op rest (opened s)).1
  rw [run] at keeps lasterr
  exact ⟨ok, t, run, keeps, lasterr⟩

theorem waitForever_ends_or_waits : ∃ t, waitForever s = .done () t ∨ waitForever s = .wait t ∧ t.seq = .wait := by
  obtain ⟨r, u, run⟩ := session_runs (s := setSeq .wait s) hd (recvFrame_spec (rdsrOpc .sr1) [] 1 (opened (setSeq .wait s))).1
  have polled : uRDSR .sr1 (setSeq .wait s) = .done (r.bind List.head?) (cacheStatus .sr1 r u) := by
    rw [uRDSR, run, Run.bind_done]
  rw [waitForever, polled, Run.bind_done]
  split
  · exact ⟨_, .inl rfl⟩
  · exact ⟨_, .inr ⟨rfl, uRDSR_seq polled⟩⟩

theorem waitThenDisable_ends_or_waits (hf : s.fault = false) :
    ∃ t, (waitThenDisable s = .done () t ∨ waitThenDisable s = .wait t ∧ t.seq = .wait) ∧
      t.fault = false ∧ t.op = s.op ∧ t.lasterr = s.lasterr := by
  have keeps : Keeps .most s (waitThenDisable s).final := waitThenDisable_keeps trivial s
  have lasterr := waitThenDisable_lasterr s
  have outcome : ∃ t, waitThenDisable s = .done () t ∨ waitThenDisable s = .wait t ∧ t.seq = .wait := by
    have polled := waitForever_keeps (F := .most) trivial s
    obtain ⟨t, run | ⟨run, wait⟩⟩ := waitForever_ends_or_waits hd
    · rw [run] at polled
      obtain ⟨ok, u, sent, -⟩ := sendSession_runs_any (s := setSeq .wrdi t) (polled.room hd) [] (op := 0x04#8) (by decide)
      exact ⟨u, .inl (by rw [waitThenDisable, run, Run.bind_done, uWRDI, sent, Run.bind_done])⟩
    · exact ⟨t, .inr ⟨by rw [waitThenDisable, run, Run.bind_wait], wait⟩⟩
  obtain ⟨t, run | ⟨run, wait⟩⟩ := outcome
  · rw [run] at keeps lasterr
    exact ⟨t, .inl run, (keeps.fault_of_room hd).trans hf, keeps.op, lasterr⟩
  · rw [run] at keeps lasterr
    exact ⟨t, .inr ⟨run, wait⟩, (keeps.fault_of_room hd).trans hf, keeps.op, lasterr⟩

end

/-! The erase sequence. -/

theorem eraseTail_eq (s : State) : eraseTail s = (waitThenDisable s).bind fun _ t => .done () (finishErase true t) := rfl

section
variable {s : State} {wa fa pa da : List (Option Answer)} {we fe pe de : List Event} {rest : List (Option Answer)}
variable (hd : s.depth < s.cfg.depthMax)
include hd

theorem eraseTail_of_idle {q : Byte} (idle : PollIdle s q pa pe) (disable : FrameRuns s [0x04#8] da de)
    (hs : s.script = pa ++ da ++ rest) :
    ∃ t, eraseTail s = .done () (finishErase true t) ∧ Ported (pe ++ de) rest (setStatus .sr1 q s) t := by
  obtain ⟨t, run, ported⟩ := waitThenDisable_of_idle hd idle disable hs
  exact ⟨t, by rw [eraseTail, run, Run.bind_done], ported⟩

theorem eraseTail_of_busy (busy : PollBusy s pa pe) (hs : s.script = pa ++ rest) :
    ∃ v t, eraseTail s = .wait t ∧ Ported pe rest (setStatus .sr1 v s) t ∧ t.seq = .wait := by
  obtain ⟨v, t, run, ported⟩ := waitThenDisable_of_busy hd busy hs
  exact ⟨v, t, by rw [eraseTail, run, Run.bind_wait], ported⟩

/-- Whatever is answered, the end of an erase is true, or it waits. -/
theorem eraseTail_settles_any (hf : s.fault = false) :
    ((eraseTail s).settle freeResult).fault = false ∧ ((eraseTail s).settle freeResult).op = s.op ∧
      (((eraseTail s).settle freeResult).seq = .idle ∧ ((eraseTail s).settle freeResult).result = 1#32 ∧
          ((eraseTail s).settle freeResult).lasterr = .none ∨
        ((eraseTail s).settle freeResult).seq = .wait ∧ ((eraseTail s).settle freeResult).lasterr = s.lasterr) := by
  obtain ⟨t, run | ⟨run, wait⟩, fault, op, lasterr⟩ := waitThenDisable_ends_or_waits hd hf
  · rw [eraseTail, run]
    exact ⟨fault, op, .inl ⟨rfl, rfl, rfl⟩⟩
  · rw [eraseTail, run]
    exact ⟨fault, op, .inr ⟨wait, lasterr⟩⟩

variable (cmd : EraseCmd)

/-- Past a complete write enable the erase goes on to its wait, whatever becomes of its erase frame. -/
theorem doErase_of_enabled (enable : FrameSent s [0x06#8] wa we) (hs : s.script = wa ++ rest) :
    ∃ t, Ported we rest s t ∧ ∀ ok u, session (sendFrame (eraseBytes cmd t)) (eraseCur cmd (setSeq .cmd t)) = .done ok u →
      doErase cmd s = eraseTail u := by
  obtain ⟨t, enabled, ported⟩ := sendSession_ported_of_sent (s := setSeq .wren s) hd enable hs
  refine ⟨t, ported, fun ok u run => ?_⟩
  rw [doErase, uWREN, enabled, Run.bind_done, if_pos rfl, run, Run.bind_done]

omit hd in
theorem Ported.eraseBytes {fs : List Event} {q : List (Option Answer)} {t : State} (h : Ported fs q s t) :
    eraseBytes cmd t = Machine.eraseBytes cmd s := by
  obtain ⟨_, _, _, _, _, rfl⟩ := h
  cases cmd <;> rfl

omit hd in
theorem Ported.eraseCur {fs : List Event} {q : List (Option Answer)} {t : State} (h : Ported fs q s t) (phase : Seq) :
    Ported fs q s (eraseCur cmd (setSeq phase t)) := by
  obtain ⟨line, dev, count, _, cur, rfl⟩ := h
  cases cmd with
  | sector addr => exact ⟨line, dev, count, phase, _, rfl⟩
  | block addr => exact ⟨line, dev, count, phase, _, rfl⟩
  | chip => exact ⟨line, dev, count, phase, cur, rfl⟩

theorem doErase_of_frame (enable : FrameSent s [0x06#8] wa we) (frame : FrameRuns s (eraseBytes cmd s) fa fe)
    (hs : s.script = wa ++ fa ++ rest) : ∃ t, doErase cmd s = eraseTail t ∧ Ported (we ++ fe) rest s t := by
  obtain ⟨t, ported, next⟩ := doErase_of_enabled hd cmd enable (hs.trans (List.append_assoc ..))
  have before := ported.eraseCur cmd .cmd
  obtain ⟨ok, u, sent, after⟩ := sendSession_ported (before.room hd) (before.frameRuns frame) before.script
  rw [← ported.eraseBytes cmd] at sent
  exact ⟨u, next ok u sent, before.trans after⟩

theorem doErase_of_idle {q : Byte} (enable : FrameSent s [0x06#8] wa we) (frame : FrameRuns s (eraseBytes cmd s) fa fe)
    (idle : PollIdle s q pa pe) (disable : FrameRuns s [0x04#8] da de) (hs : s.script = wa ++ fa ++ pa ++ da ++ rest) :
    ∃ t, doErase cmd s = .done () (finishErase true t) ∧ Ported (we ++ fe ++ (pe ++ de)) rest (setStatus .sr1 q s) t := by
  obtain ⟨t, run, ported⟩ := doErase_of_frame (rest := pa ++ da ++ rest) hd cmd enable frame (hs.trans (by simp))
  obtain ⟨u, tail, after⟩ := eraseTail_of_idle (ported.room hd) (ported.pollIdle idle) (ported.frameRuns disable) ported.script
  exact ⟨u, run.trans tail, (ported.setStatus .sr1 q).trans after⟩

theorem doErase_of_busy (enable : FrameSent s [0x06#8] wa we) (frame : FrameRuns s (eraseBytes cmd s) fa fe)
    (busy : PollBusy s pa pe) (hs : s.script = wa ++ fa ++ pa ++ rest) :
    ∃ v t, doErase cmd s = .wait t ∧ Ported (we ++ fe ++ pe) rest (setStatus .sr1 v s) t ∧ t.seq = .wait := by
  obtain ⟨t, run, ported⟩ := doErase_of_frame (rest := pa ++ rest) hd cmd enable frame (hs.trans (List.append_assoc ..))
  obtain ⟨v, u, tail, after, wait⟩ := eraseTail_of_busy (ported.room hd) (ported.pollBusy busy) ported.script
  exact ⟨v, u, run.trans tail, (ported.setStatus .sr1 v).trans after, wait⟩

theorem doErase_of_cut (enable : FrameCut s [0x06#8] wa we) (hs : s.script = wa ++ rest) :
    ∃ t, doErase cmd s = .done () (finishErase false t) ∧ Ported we rest s t := by
  obtain ⟨t, run, ported⟩ := sendSession_ported_of_cut (s := setSeq .wren s) hd enable hs
  exact ⟨t, by rw [doErase, uWREN, run, Run.bind_done]; rfl, ported⟩

omit hd in
/-- The erase frame begins with an opcode of the table. -/
theorem eraseBytes_eq_cons (s : State) :
    ∃ op more, eraseBytes cmd s = op :: more ∧ opcodes.contains op = true := by
  cases cmd with
  | sector addr => exact ⟨_, _, rfl, by cases a4 s.cfg s.blockcount <;> decide⟩
  | block addr => exact ⟨_, _, rfl, by cases a4 s.cfg s.blockcount <;> decide⟩
  | chip => exact ⟨_, _, rfl, by decide⟩

/-- Past a complete write enable an erase is true, or it waits, whatever is answered. -/
theorem doErase_settles_any (hf : s.fault = false) (enable : FrameSent s [0x06#8] wa we) (hs : s.script = wa ++ rest) :
    ∃ u, doErase cmd s = eraseTail u ∧ u.depth < u.cfg.depthMax ∧ u.fault = false ∧ u.op = s.op ∧ u.lasterr = s.lasterr := by
  obtain ⟨t, ported, next⟩ := doErase_of_enabled hd cmd enable hs
  have before := ported.eraseCur cmd .cmd
  obtain ⟨op, more, bytes, hop⟩ := eraseBytes_eq_cons cmd t
  obtain ⟨ok, u, sent, keeps, lasterr⟩ := sendSession_runs_any (before.room hd) more hop
  rw [← bytes] at sent
  refine ⟨u, next ok u sent, keeps.room (before.room hd), ?_, ?_, ?_⟩
  · rw [keeps.fault_of_room (before.room hd)]
    obtain ⟨_, _, _, _, _, same⟩ := before
    rw [same]
    exact hf
  · rw [keeps.op]
    obtain ⟨_, _, _, _, _, same⟩ := before
    rw [same]
  · rw [lasterr]
    obtain ⟨_, _, _, _, _, same⟩ := before
    rw [same]

end

/-! The three operations. -/

/-- An erase accepted with operand `a`, past its bounds check. -/
def eraseHead (op : Byte) (a : Word) (s : State) : State := { s with op := op, lasterr := .none, a := a, seq := .check }

theorem eraseUnit_of_lt {g : Gran} {idx : Nat} {u : State} (h : idx < unitMax u.blockcount g) (mk : Nat → EraseCmd) :
    eraseUnit g mk idx u = doErase (mk (idx * unitSize g)) (setSeq .check u) := if_neg (Nat.not_le.mpr h)

theorem settle_eraseUnit {g : Gran} {mk : Nat → EraseCmd} {op : Byte} {a : Word} {s : State}
    (h : a.toNat < unitMax s.blockcount g) :
    (eraseUnit g mk a.toNat { accept op s with a := a }).settle freeResult =
      (doErase (mk (a.toNat * unitSize g)) (eraseHead op a s)).settle freeResult :=
  congrArg (Run.settle · freeResult) (eraseUnit_of_lt (u := { accept op s with a := a }) h mk)

theorem exec_erasechip_of_idle {s : State} (hf : s.fault = false) (hq : s.seq = .idle) :
    exec .erasechip s = .next ((doErase .chip (setSeq .check (accept 0x42#8 s))).settle freeResult) := by
  rw [exec, execErasechip, guarded_run hf hq]

/-- The three erases are one sequence with their own command (R211 to R213). -/
theorem exec_erase_eq {s : State} {i : Instr} {op : Byte} {tx : List Byte} (hr : Ready s) (h : EraseOf s i op tx) :
    ∃ cmd a, exec i s = .next ((doErase cmd (eraseHead op a s)).settle freeResult) ∧ eraseBytes cmd (eraseHead op a s) = tx := by
  obtain ⟨hf, hq, -⟩ := hr
  obtain ⟨a, rfl, rfl, ha, rfl⟩ | ⟨a, rfl, rfl, ha, rfl⟩ | ⟨rfl, rfl, rfl⟩ := h
  · exact ⟨.sector (a.toNat * 4096), a, (exec_erasesector_of_idle hf hq a).trans
      (congrArg Host.Outcome.next (settle_eraseUnit (g := .sector) ha)), rfl⟩
  · exact ⟨.block (a.toNat * 65536), a, (exec_eraseblock_of_idle hf hq a).trans
      (congrArg Host.Outcome.next (settle_eraseUnit (g := .block) ha)), rfl⟩
  · exact ⟨.chip, s.a, exec_erasechip_of_idle hf hq, rfl⟩

/-- Settles O39: the erase frame sent whole. -/
theorem eraseCompletes : Obligations.EraseCompletes := by
  unfold Obligations.EraseCompletes
  intro s i op tx wa fa pa we fe pe rest hr hi enable frame
  obtain ⟨cmd, a, run, rfl⟩ := exec_erase_eq hr hi
  have ⟨hf, hq, hd⟩ := hr
  rw [run]
  refine ⟨fun q da de idle disable hs => ?_, fun busy hs => ?_⟩
  · obtain ⟨t, done, _, _, _, _, _, rfl⟩ :=
      doErase_of_idle (s := eraseHead op a s) hd cmd enable (.inl frame) idle disable hs
    rw [done]
    refine ⟨_, rfl, rfl, rfl, rfl, rfl, rfl, ?_⟩
    show s.trace ++ _ = _
    simp
  · obtain ⟨v, t, waits, ⟨_, _, _, _, _, rfl⟩, wait⟩ := doErase_of_busy (s := eraseHead op a s) hd cmd enable (.inl frame) busy hs
    rw [waits]
    refine ⟨_, rfl, wait, hf, rfl, rfl, rfl, rfl, ?_⟩
    show s.trace ++ _ = _
    simp

theorem settles_any_exec {t : State} {op : Byte} (h : t.fault = false ∧ t.op = op ∧
    (t.seq = .idle ∧ t.result = 1#32 ∧ t.lasterr = .none ∨ t.seq = .wait ∧ t.lasterr = .none)) :
    t.fault = false ∧ t.lasterr = .none ∧ t.op = op ∧ (t.seq = .idle ∧ t.result = 1#32 ∨ t.seq = .wait) := by
  obtain ⟨fault, hop, ⟨seq, result, lasterr⟩ | ⟨seq, lasterr⟩⟩ := h
  · exact ⟨fault, lasterr, hop, .inl ⟨seq, result⟩⟩
  · exact ⟨fault, lasterr, hop, .inr seq⟩

/-- Settles O40: the erase frame cut short goes the way of one sent whole; any answers end or wait. -/
theorem eraseExaminesWriteEnableOnly : Obligations.EraseExaminesWriteEnableOnly := by
  unfold Obligations.EraseExaminesWriteEnableOnly
  refine ⟨fun s i op tx wa we rest hr hi => ?_, fun s hf hq hop hd => ?later⟩
  · obtain ⟨cmd, a, run, rfl⟩ := exec_erase_eq hr hi
    have ⟨hf, hq, hd⟩ := hr
    rw [run]
    refine ⟨fun enable => ⟨fun fa pa fe pe frame => ⟨fun q da de idle disable hs => ?idle, fun busy hs => ?busy⟩,
      fun hs => ?any⟩, fun enable hs => ?cut⟩
    case idle =>
      obtain ⟨t, done, _, _, _, _, _, rfl⟩ :=
        doErase_of_idle (s := eraseHead op a s) hd cmd enable (.inr frame) idle disable hs
      rw [done]
      refine ⟨_, rfl, rfl, rfl, rfl, rfl, ?_⟩
      show s.trace ++ _ = _
      simp
    case busy =>
      obtain ⟨v, t, waits, ⟨_, _, _, _, _, rfl⟩, wait⟩ :=
        doErase_of_busy (s := eraseHead op a s) hd cmd enable (.inr frame) busy hs
      rw [waits]
      refine ⟨_, rfl, wait, hf, rfl, rfl, ?_⟩
      show s.trace ++ _ = _
      simp
    case any =>
      obtain ⟨u, tail, room, fault, op', lasterr⟩ := doErase_settles_any (s := eraseHead op a s) hd cmd hf enable hs
      have settled := eraseTail_settles_any room fault
      rw [op', lasterr] at settled
      rw [tail]
      exact ⟨_, rfl, settles_any_exec settled⟩
    case cut =>
      obtain ⟨t, done, _, _, _, _, _, rfl⟩ := doErase_of_cut (s := eraseHead op a s) hd cmd enable hs
      rw [done]
      exact ⟨_, rfl, rfl, rfl, rfl, rfl, rfl⟩
  case later =>
    rw [proceed_of_wait hf hq, resumeWait_of_erase hop]
    exact ⟨_, rfl, eraseTail_settles_any hd hf⟩

/-! WRITESTATUS. -/

section
variable {s : State} {wa fa pa da : List (Option Answer)} {we fe pe de : List Event} {rest : List (Option Answer)}
variable (hd : s.depth < s.cfg.depthMax)
include hd

theorem finishWritestatus_of_idle {q : Byte} (idle : PollIdle s q pa pe) (disable : FrameRuns s [0x04#8] da de)
    (hs : s.script = pa ++ da ++ rest) :
    ∃ t, finishWritestatus s = .done () (complete 1#32 t) ∧ Ported (pe ++ de) rest (setStatus .sr1 q s) t := by
  obtain ⟨t, run, ported⟩ := waitThenDisable_of_idle hd idle disable hs
  exact ⟨t, by rw [finishWritestatus, run, Run.bind_done], ported⟩

theorem finishWritestatus_of_busy (busy : PollBusy s pa pe) (hs : s.script = pa ++ rest) :
    ∃ v t, finishWritestatus s = .wait t ∧ Ported pe rest (setStatus .sr1 v s) t ∧ t.seq = .wait := by
  obtain ⟨v, t, run, ported⟩ := waitThenDisable_of_busy hd busy hs
  exact ⟨v, t, by rw [finishWritestatus, run, Run.bind_wait], ported⟩

theorem finishWritestatus_settles_any (hf : s.fault = false) :
    ((finishWritestatus s).settle freeResult).fault = false ∧ ((finishWritestatus s).settle freeResult).lasterr = s.lasterr ∧
      (((finishWritestatus s).settle freeResult).seq = .idle ∧ ((finishWritestatus s).settle freeResult).result = 1#32 ∨
        ((finishWritestatus s).settle freeResult).seq = .wait) := by
  obtain ⟨t, run | ⟨run, wait⟩, fault, op, lasterr⟩ := waitThenDisable_ends_or_waits hd hf
  · rw [finishWritestatus, run]
    exact ⟨fault, lasterr, .inl ⟨rfl, rfl⟩⟩
  · rw [finishWritestatus, run]
    exact ⟨fault, lasterr, .inr wait⟩

variable {a : Word} {n : StatusReg} (hn : statusReg a = some n) (b : Word)
include hn

/-- Past a complete write enable the operation goes on to its wait, whatever becomes of the status-write frame. -/
theorem runWritestatus_of_enabled (enable : FrameSent s [0x06#8] wa we) (hs : s.script = wa ++ rest) :
    ∃ t, Ported we rest s t ∧ ∀ ok u,
      session (sendFrame [wrsrOpc n, b.setWidth 8]) (setSeq .status t) = .done ok u → runWritestatus a b s = finishWritestatus u := by
  obtain ⟨t, enabled, ported⟩ := sendSession_ported_of_sent (s := setSeq .wren s) hd enable hs
  refine ⟨t, ported, fun ok u run => ?_⟩
  rw [runWritestatus, hn]
  simp only
  rw [uWREN, enabled, Run.bind_done, if_pos rfl, run, Run.bind_done]

theorem runWritestatus_of_frame (enable : FrameSent s [0x06#8] wa we) (frame : FrameRuns s [wrsrOpc n, b.setWidth 8] fa fe)
    (hs : s.script = wa ++ fa ++ rest) : ∃ t, runWritestatus a b s = finishWritestatus t ∧ Ported (we ++ fe) rest s t := by
  obtain ⟨t, ported, next⟩ := runWritestatus_of_enabled hd hn b enable (hs.trans (List.append_assoc ..))
  obtain ⟨ok, u, sent, after⟩ := sendSession_ported (s := setSeq .status t) (ported.room hd) (ported.frameRuns frame) ported.script
  exact ⟨u, next ok u sent, ported.trans after⟩

theorem runWritestatus_of_cut (enable : FrameCut s [0x06#8] wa we) (hs : s.script = wa ++ rest) :
    ∃ t, runWritestatus a b s = .done () (raiseErr .transferFailure t) ∧ Ported we rest s t := by
  obtain ⟨t, run, ported⟩ := sendSession_ported_of_cut (s := setSeq .wren s) hd enable hs
  refine ⟨t, ?_, ported⟩
  rw [runWritestatus, hn]
  simp only
  rw [uWREN, run, Run.bind_done]
  rfl

theorem runWritestatus_any (hf : s.fault = false) (enable : FrameSent s [0x06#8] wa we) (hs : s.script = wa ++ rest) :
    ∃ u, runWritestatus a b s = finishWritestatus u ∧ u.depth < u.cfg.depthMax ∧ u.fault = false ∧ u.lasterr = s.lasterr := by
  obtain ⟨t, ported, next⟩ := runWritestatus_of_enabled hd hn b enable hs
  have room := ported.room hd
  obtain ⟨ok, u, sent, keeps, lasterr⟩ := sendSession_runs_any (s := setSeq .status t) (op := wrsrOpc n) room [b.setWidth 8]
    (by cases n <;> decide)
  obtain ⟨_, _, _, _, _, same⟩ := ported
  refine ⟨u, next ok u sent, Keeps.room (s := setSeq .status t) room keeps,
    (Keeps.fault_of_room (s := setSeq .status t) room keeps).trans ?_, lasterr.trans ?_⟩
  · rw [same]; exact hf
  · rw [same]; rfl

end

/-- WRITESTATUS accepted. -/
def writestatusHead (a b : Word) (s : State) : State := { s with op := 0x38#8, lasterr := .none, a := a, b := b }

theorem exec_writestatus_eq {s : State} (hf : s.fault = false) (hq : s.seq = .idle) (a b : Word) :
    exec (.writestatus a b) s = .next ((runWritestatus a b (writestatusHead a b s)).settle freeResult) := by
  rw [exec, execWritestatus, guarded_run hf hq]
  rfl

theorem statusReg_and_writeOpcode {a : Word} {opcode : Byte}
    (h : a = 1#32 ∧ opcode = 0x01#8 ∨ a = 2#32 ∧ opcode = 0x31#8 ∨ a = 3#32 ∧ opcode = 0x11#8) :
    ∃ n, statusReg a = some n ∧ opcode = wrsrOpc n := by
  rcases h with ⟨rfl, rfl⟩ | ⟨rfl, rfl⟩ | ⟨rfl, rfl⟩
  · exact ⟨.sr1, rfl, rfl⟩
  · exact ⟨.sr2, rfl, rfl⟩
  · exact ⟨.sr3, rfl, rfl⟩

/-- Settles O26: the write enable decides; after it nothing is examined but the polls. -/
theorem writestatusCompletes : Obligations.WritestatusCompletes := by
  unfold Obligations.WritestatusCompletes
  intro s a b opcode rest hr
  have ⟨hf, hq, hd⟩ := hr
  rw [exec_writestatus_eq hf hq]
  refine ⟨fun h => ?_, fun h => ?range⟩
  · obtain ⟨n, hn, rfl⟩ := statusReg_and_writeOpcode h
    refine ⟨fun wa fa pa we fe pe enable frame => ⟨fun q da de idle disable hs => ?idle, fun busy hs => ?busy⟩,
      fun wa we enable hs => ?any, fun wa we enable hs => ?cut⟩
    case idle =>
      obtain ⟨t, run, ported⟩ := runWritestatus_of_frame (s := writestatusHead a b s) (rest := pa ++ da ++ rest) hd hn b enable frame
        (hs.trans (by simp))
      obtain ⟨u, tail, after⟩ := finishWritestatus_of_idle (ported.room hd) (ported.pollIdle (s := writestatusHead a b s) idle)
        (ported.frameRuns (s := writestatusHead a b s) disable) ported.script
      obtain ⟨_, _, _, _, _, rfl⟩ := (ported.setStatus .sr1 q).trans after
      rw [run, tail]
      refine ⟨_, rfl, rfl, rfl, rfl, rfl, rfl, ?_⟩
      show s.trace ++ _ = _
      simp
    case busy =>
      obtain ⟨t, run, ported⟩ := runWritestatus_of_frame (s := writestatusHead a b s) (rest := pa ++ rest) hd hn b enable frame
        (hs.trans (List.append_assoc ..))
      obtain ⟨v, u, tail, after, wait⟩ := finishWritestatus_of_busy (ported.room hd)
        (ported.pollBusy (s := writestatusHead a b s) busy) ported.script
      obtain ⟨_, _, _, _, _, rfl⟩ := (ported.setStatus .sr1 v).trans after
      rw [run, tail]
      refine ⟨_, rfl, wait, hf, rfl, rfl, rfl, rfl, ?_⟩
      show s.trace ++ _ = _
      simp
    case any =>
      obtain ⟨u, run, room, fault, lasterr⟩ := runWritestatus_any (s := writestatusHead a b s) hd hn b hf enable hs
      obtain ⟨fault, kind, ends⟩ := finishWritestatus_settles_any room fault
      rw [run]
      exact ⟨_, rfl, fault, kind.trans lasterr, ends⟩
    case cut =>
      obtain ⟨t, run, _, _, _, _, _, rfl⟩ := runWritestatus_of_cut (s := writestatusHead a b s) hd hn b enable hs
      rw [run]
      exact ⟨_, rfl, rfl, rfl, rfl, rfl⟩
  case range =>
    rw [runWritestatus, statusReg_eq_none h, hq]
    rfl

end Sys2Proof.Machine
end

section
/-!
The two busy waits (R173, R174): WAITBUSY, how an unbounded wait goes on, and how it ends.
-/
namespace Sys2Proof.Machine

/-! WAITBUSY. -/

section
variable {s : State} {pa : List (Option Answer)} {pe : List Event} {rest : List (Option Answer)}
variable (hd : s.depth < s.cfg.depthMax)
include hd

theorem uRDSR_of_busy (busy : PollBusy s pa pe) (hs : s.script = pa ++ rest) :
    ∃ r v t, uRDSR .sr1 s = .done r t ∧ sawIdle r = false ∧ Ported pe rest (setStatus .sr1 v s) t ∧ t.seq = s.seq := by
  obtain ⟨p, q, hq, rfl, rfl⟩ | cut := busy
  · refine ⟨some q, q, _, uRDSR_ok hd hs, ?_, ⟨_, _, _, _, _, rfl⟩, rfl⟩
    rw [sawIdle, idleStatus, hq]
    rfl
  · obtain ⟨bytes, n, run⟩ := uRDSR_cut (k := .sr1) hd cut hs
    exact ⟨none, s.sr1, _, run, rfl, ⟨_, _, _, _, _, rfl⟩, rfl⟩

theorem uRDSR_of_idle {q : Byte} (idle : PollIdle s q pa pe) (hs : s.script = pa ++ rest) :
    ∃ t, uRDSR .sr1 s = .done (some q) t ∧ sawIdle (some q) = true ∧ Ported pe rest (setStatus .sr1 q s) t := by
  obtain ⟨p, hq, rfl, rfl⟩ := idle
  refine ⟨_, uRDSR_ok hd hs, ?_, ⟨_, _, _, _, _, rfl⟩⟩
  rw [sawIdle, idleStatus, hq]
  rfl

theorem pollUntil_of_idle {q : Byte} (idle : PollIdle s q pa pe) (hs : s.script = pa ++ rest) :
    ∃ t, pollUntil s = .done () (complete 1#32 t) ∧ Ported pe rest (setStatus .sr1 q s) t := by
  obtain ⟨t, run, seen, ported⟩ := uRDSR_of_idle (s := setSeq .wait s) hd idle hs
  exact ⟨t, by rw [pollUntil, run, Run.bind_done, if_pos seen], ported⟩

/-- One iteration of WAITBUSY whose poll counted as busy and whose tick was `now` (R174). -/
structure Polled (es : List Event) (rest : List (Option Answer)) (now : Word) (ts : List Word) (s t : State) : Prop where
  same : t = { s with
    cs := t.cs, dev := t.dev, count := t.count, cur := t.cur, seq := t.seq, sr1 := t.sr1, result := t.result, lasterr := t.lasterr,
    trace := s.trace ++ es ++ [.tick (tickValue s.cfg now)], ticks := ts, script := rest }
  expires : s.tmo.toNat ≤ sinceStart s s.start now → t.result = 0#32 ∧ t.lasterr = .busyTimeout ∧ t.seq = .idle
  goesOn : sinceStart s s.start now < s.tmo.toNat → t.result = s.result ∧ t.lasterr = s.lasterr ∧ t.seq = .wait

theorem polled_of_busy {now : Word} {ts : List Word} (hw : s.cfg.tickW ≤ 32) (ht : s.ticks = now :: ts)
    (busy : PollBusy s pa pe) (hs : s.script = pa ++ rest) :
    Polled pe rest now ts s ((pollUntil s).settle freeResult) := by
  obtain ⟨r, v, t, run, notIdle, ported, wait⟩ := uRDSR_of_busy (s := setSeq .wait s) hd busy hs
  obtain ⟨ticks, width, expired⟩ : t.ticks = now :: ts ∧ t.cfg = s.cfg ∧
      waitExpired t.cfg t.start (tickValue t.cfg now) t.tmo = decide (s.tmo.toNat ≤ sinceStart s s.start now) := by
    obtain ⟨_, _, _, _, _, rfl⟩ := ported
    refine ⟨ht, rfl, ?_⟩
    rw [← elapsed_tickValue hw]
    rfl
  rw [pollUntil, run, Run.bind_done, notIdle, if_neg Bool.false_ne_true, now_of_ticks ticks, expired]
  obtain ⟨_, _, _, _, _, rfl⟩ := ported
  by_cases reached : s.tmo.toNat ≤ sinceStart s s.start now
  · rw [if_pos (decide_eq_true reached)]
    exact ⟨rfl, fun _ => ⟨rfl, rfl, rfl⟩, fun early => absurd early (Nat.not_lt.mpr reached)⟩
  · rw [if_neg (by rw [decide_eq_true_iff]; exact reached)]
    exact ⟨rfl, fun late => absurd late reached, fun _ => ⟨rfl, rfl, wait⟩⟩

end

/-- WAITBUSY accepted, its clock started at `t0`. -/
def waitbusyHead (tmo t0 : Word) (ts : List Word) (s : State) : State :=
  { s with
    op := 0x18#8, lasterr := .none, tmo := tmo, start := tickValue s.cfg t0, ticks := ts,
    trace := s.trace ++ [.tick (tickValue s.cfg t0)] }

theorem exec_waitbusy_eq {s : State} (hr : Ready s) (tmo : Word) {t0 : Word} {ts : List Word} (ht : s.ticks = t0 :: ts) :
    exec (.waitbusy tmo) s = .next ((pollUntil (waitbusyHead tmo t0 ts s)).settle freeResult) := by
  obtain ⟨hf, hq, -⟩ := hr
  rw [exec, execWaitbusy, guarded_run hf hq]
  exact congrArg (fun u => Host.Outcome.next (Run.settle (pollUntil u) freeResult))
    (startClock_of_ticks (u := { accept 0x18#8 s with tmo := tmo }) ht)

/-- Settles O27: the first poll sees the device idle. -/
theorem waitbusySeesIdle : Obligations.WaitbusySeesIdle := by
  unfold Obligations.WaitbusySeesIdle
  intro s tmo t0 ts r b rest hr ht hs hb
  have idle : PollIdle s b (oks [r, b]) (pollEvents s r b) := ⟨r, hb, rfl, rfl⟩
  obtain ⟨t, run, _, _, _, _, _, rfl⟩ := pollUntil_of_idle (s := waitbusyHead tmo t0 ts s) hr.2.2 idle hs
  rw [exec_waitbusy_eq hr tmo ht, run]
  exact ⟨_, rfl, rfl, rfl, rfl, rfl, rfl, rfl, rfl⟩

/-- Settles O28: one iteration of the loop, in progress and from its start. -/
theorem waitbusyPolls : Obligations.WaitbusyPolls := by
  unfold Obligations.WaitbusyPolls
  refine ⟨fun s pa pe rest hh hf hq hop hd hw hs => ?_, fun s tmo t0 now ts pa pe rest hr hw ht busy hs => ?starts⟩
  · rw [step_of_wait hh hf hq, resumeWait_of_waitbusy hop, resumeWaitbusy]
    refine ⟨fun q idle => ?idle, fun now ts busy ht => ?busy⟩
    case idle =>
      obtain ⟨t, run, _, _, _, _, _, rfl⟩ := pollUntil_of_idle hd idle hs
      rw [run]
      exact ⟨_, rfl, rfl, rfl, rfl, rfl, rfl, rfl, rfl⟩
    case busy =>
      obtain ⟨same, expires, goesOn⟩ := polled_of_busy hd hw ht busy hs
      generalize (pollUntil s).settle freeResult = t at same expires goesOn
      refine ⟨t, rfl, by rw [same], by rw [same], by rw [same], expires, fun early => ?_⟩
      obtain ⟨result, lasterr, seq⟩ := goesOn early
      exact ⟨result, lasterr, seq, by rw [same], by rw [same], by rw [same], by rw [same]; exact hf⟩
  case starts =>
    obtain ⟨same, expires, goesOn⟩ := polled_of_busy (s := waitbusyHead tmo t0 (now :: ts) s) hr.2.2 hw rfl busy hs
    rw [exec_waitbusy_eq hr tmo ht]
    generalize (pollUntil (waitbusyHead tmo t0 (now :: ts) s)).settle freeResult = t at same expires goesOn
    refine ⟨t, rfl, by rw [same], by rw [same], by rw [same]; rfl, by rw [same]; rfl, expires, fun early => ?_⟩
    obtain ⟨result, lasterr, seq⟩ := goesOn early
    exact ⟨result, lasterr, seq, by rw [same]; rfl, by rw [same]; rfl, by rw [same]; exact hr.1⟩

/-! Waits without a bound. -/

/-- WRITESTATUS, the erases and the writes, these at a page of the device: the operations that wait without a bound. -/
def WaitsUnbounded (s : State) : Prop :=
  s.op ∈ [0x38#8, 0x40#8, 0x41#8, 0x42#8] ∨ s.op = 0x30#8 ∧ s.a.toNat < pageMaxOf s.blockcount ∧ s.b.toNat < 256 ∨
    s.op ∈ [0x31#8, 0x32#8] ∧ s.page.toNat < pageMaxOf s.blockcount ∧ s.off.toNat < 256

section
variable {s : State} (hh : s.hostQ = []) (hf : s.fault = false) (hq : s.seq = .wait)
include hh hf hq

theorem step_writestatus (hop : s.op = 0x38#8) : step s = .next ((finishWritestatus s).settle freeResult) :=
  (step_of_wait hh hf hq).trans (resumeWait_of_writestatus hop)

theorem step_erase (hop : s.op ∈ [0x40#8, 0x41#8, 0x42#8]) : step s = .next ((eraseTail s).settle freeResult) :=
  (step_of_wait hh hf hq).trans (resumeWait_of_erase hop)

theorem step_writepage (hop : s.op = 0x30#8) (hp : s.a.toNat < s.blockcount.toNat * 256) (ho : s.b.toNat < 256) {n : Nat}
    (hn : n = min s.len.toNat (256 - s.b.toNat)) :
    step s = .next (((programTail n s.len.toNat s).bind finishWritepage).settle freeResult) := by
  rw [step_of_wait hh hf hq, resumeWait_of_writepage hop, resumeWritepage, resumeWritePage_eq hp ho hn]

/-- A poll that counts as busy leaves any of them waiting (R173). -/
theorem step_of_busy_poll {pa : List (Option Answer)} {pe : List Event} {rest : List (Option Answer)}
    (hd : s.depth < s.cfg.depthMax) (waits : WaitsUnbounded s) (busy : PollBusy s pa pe) (hs : s.script = pa ++ rest) :
    ∃ v t, step s = .next t ∧ Ported pe rest (setStatus .sr1 v s) t ∧ t.seq = .wait := by
  obtain hop | ⟨hop, hp, ho⟩ | ⟨hop, hp, ho⟩ := waits
  · obtain hop | hop : s.op = 0x38#8 ∨ s.op ∈ [0x40#8, 0x41#8, 0x42#8] := List.mem_cons.mp hop
    · obtain ⟨v, t, run, after⟩ := finishWritestatus_of_busy hd busy hs
      exact ⟨v, t, by rw [step_writestatus hh hf hq hop, run, Run.settle_wait], after⟩
    · obtain ⟨v, t, run, after⟩ := eraseTail_of_busy hd busy hs
      exact ⟨v, t, by rw [step_erase hh hf hq hop, run, Run.settle_wait], after⟩
  · obtain ⟨v, t, run, after⟩ := programTail_of_busy hd _ s.len.toNat busy hs
    exact ⟨v, t, by rw [step_writepage hh hf hq hop hp ho rfl, run, Run.bind_wait, Run.settle_wait], after⟩
  · obtain ⟨v, t, run, after⟩ := programTail_of_busy hd _ s.rem.toNat busy hs
    refine ⟨v, t, ?_, after⟩
    rw [step_poll hh hf hq hop, pollOf, resumeLoopWrite, resumeWritePage_eq hp ho rfl, run, Run.bind_wait, Run.settle_wait]

end

theorem run_succ {M : Host.Core} {s t : M.State} (h : M.step s = .next t) (k : Nat) : M.run (k + 1) s = M.run k t := by
  rw [Host.Core.run, h]

/-- What a poll leaves of a wait. -/
theorem Ported.wait_kept {es : List Event} {q : List (Option Answer)} {v : Byte} {s t : State} (h : Ported es q (Machine.setStatus .sr1 v s) t) :
    t.hostQ = s.hostQ ∧ t.fault = s.fault ∧ t.op = s.op ∧ t.result = s.result ∧ t.lasterr = s.lasterr ∧ t.trace = s.trace ++ es ∧
      (WaitsUnbounded s → WaitsUnbounded t) := by
  obtain ⟨_, _, _, _, _, rfl⟩ := h
  exact ⟨rfl, rfl, rfl, rfl, rfl, rfl, id⟩

/-- Settles O29, by induction on the polls. -/
theorem unboundedWaitGoesOn : Obligations.UnboundedWaitGoesOn := by
  unfold Obligations.UnboundedWaitGoesOn
  intro polls
  induction polls with
  | nil => exact fun s rest hh hf hq hd waits busy hs => ⟨s, rfl, hq, hf, rfl, rfl, rfl, hs, (List.append_nil _).symm⟩
  | cons p polls ih =>
    intro s rest hh hf hq hd waits busy hs
    obtain ⟨first, others⟩ := List.forall_mem_cons.mp busy
    obtain ⟨v, t, run, ported, wait⟩ := step_of_busy_poll (rest := polls.flatMap Prod.fst ++ rest) hh hf hq hd waits first
      (hs.trans (by rw [List.flatMap_cons, List.append_assoc]))
    obtain ⟨hostQ, fault, op, result, lasterr, trace, waits'⟩ := ported.wait_kept
    obtain ⟨u, more, seq, fault', op', result', lasterr', script, trace'⟩ := ih t rest (hostQ.trans hh) (fault.trans hf) wait
      (ported.room hd) (waits' waits) (fun p hp => ported.pollBusy (others p hp)) ported.script
    refine ⟨u, (run_succ (M := core) run _).trans more, seq, fault', op'.trans op, result'.trans result, lasterr'.trans lasterr, script, ?_⟩
    rw [trace', trace, List.flatMap_cons, List.append_assoc]

/-- Settles O30: the poll that sees the device idle, by the operation that waits. -/
theorem waitsEnd : Obligations.WaitsEnd := by
  unfold Obligations.WaitsEnd
  intro s q pa da pe de rest hh hf hq hd waits idle disable hs
  have notWrite : ∀ op ∈ [0x30#8, 0x38#8, 0x40#8, 0x41#8, 0x42#8], op ∉ [0x31#8, 0x32#8] := by decide
  have notErase : ∀ op ∈ [0x30#8, 0x31#8, 0x32#8, 0x38#8], op ∉ [0x40#8, 0x41#8, 0x42#8] := by decide
  obtain hop | ⟨hop, hp, ho⟩ | ⟨hop, hp, ho, h1, fits⟩ := waits
  · obtain hop | hop : s.op = 0x38#8 ∨ s.op ∈ [0x40#8, 0x41#8, 0x42#8] := List.mem_cons.mp hop
    · obtain ⟨t, run, _, _, _, _, _, rfl⟩ := finishWritestatus_of_idle hd idle disable hs
      rw [step_writestatus hh hf hq hop, run]
      exact ⟨_, rfl, hf, rfl, rfl, rfl, (List.append_assoc ..).symm, fun _ => ⟨rfl, rfl, rfl⟩,
        fun h => absurd h (notErase _ (by simp [hop])), fun h => absurd (hop.symm.trans h) (by decide),
        fun h => absurd h (notWrite _ (by simp [hop]))⟩
    · obtain ⟨t, run, _, _, _, _, _, rfl⟩ := eraseTail_of_idle hd idle disable hs
      rw [step_erase hh hf hq hop, run]
      exact ⟨_, rfl, hf, rfl, rfl, rfl, (List.append_assoc ..).symm, fun h => absurd hop (notErase _ (by simp [h])),
        fun _ => ⟨rfl, rfl, rfl⟩, fun h => absurd hop (notErase _ (by simp [h])),
        fun h => absurd h (notWrite _ (List.mem_cons_of_mem _ (List.mem_cons_of_mem _ hop)))⟩
  · obtain ⟨t, run, _, _, _, _, _, rfl⟩ := programTail_of_idle hd _ s.len.toNat idle disable hs
    rw [step_writepage hh hf hq hop hp ho rfl, run]
    exact ⟨_, rfl, hf, rfl, rfl, rfl, (List.append_assoc ..).symm, fun h => absurd (hop.symm.trans h) (by decide),
      fun h => absurd h (notErase _ (by simp [hop])),
      fun _ => ⟨rfl, toNat_ofNat_of_le_page (by omega), ite_congr (by simp) (fun _ => rfl) (fun _ => rfl)⟩,
      fun h => absurd h (notWrite _ (by simp [hop]))⟩
  · have atPage : AtPage s _ _ := ⟨hp, ho, h1, fits, rfl, rfl⟩
    have done := pollOf_of_idle atPage s.op hd idle disable hs
    obtain ⟨trace, script, sr1, ticks, fault, op, -⟩ := done.same
    obtain ⟨total, rem⟩ := done.progress
    rw [step_poll hh hf hq hop]
    refine ⟨_, rfl, fault.trans hf, sr1, script, ticks, trace.trans (List.append_assoc ..).symm,
      fun h => absurd hop (notWrite _ (by simp [h])), fun h => absurd h (notErase _ (by simp at hop ⊢; tauto)),
      fun h => absurd hop (notWrite _ (by simp [h])), fun _ m hm => ?_⟩
    subst hm
    refine ⟨total, rem, done.ends, fun more => ?_⟩
    obtain ⟨seq, page, off, result⟩ := done.goesOn more
    exact ⟨seq, op, page, off, result⟩

end Sys2Proof.Machine
end

section
/-!
Frames that receive (R91, R97), cut at any exchange, under explicit answers; and the reads (R220 to R225).
-/
namespace Sys2Proof.Machine

/-- Where a frame of two parts is cut: in the first, or in the second with the first sent whole. -/
theorem cut_of_append {α : Type} {as bs pre post : List α} {c : α} (h : as ++ bs = pre ++ c :: post) :
    (∃ more, as = pre ++ c :: more) ∨ ∃ mid, pre = as ++ mid ∧ bs = mid ++ c :: post := by
  obtain ⟨mid, rfl, rfl⟩ | ⟨mid, rfl, hmid⟩ := List.append_eq_append_iff.mp h
  · exact .inr ⟨mid, rfl, rfl⟩
  · cases mid with
    | nil => exact .inr ⟨[], by simp, hmid.symm⟩
    | cons x more =>
      obtain ⟨rfl, -⟩ := List.cons.inj hmid
      exact .inl ⟨more, rfl⟩

/-- The answers of a list sent whole and of what follows. -/
theorem exchanged_append {as ra : List Byte} (h : ra.length = as.length) (bs rb : List Byte) :
    exchanged (as ++ bs) (ra ++ rb) = exchanged as ra ++ exchanged bs rb := List.zipWith_append h.symm

/-- Answers to two parts, split where the first ends. -/
theorem exists_answers_append {as mid rx : List Byte} (h : rx.length = (as ++ mid).length) :
    ∃ ra rm, rx = ra ++ rm ∧ ra.length = as.length ∧ rm.length = mid.length := by
  rw [List.length_append] at h
  exact ⟨rx.take as.length, rx.drop as.length, (List.take_append_drop ..).symm, by rw [List.length_take]; omega,
    by rw [List.length_drop]; omega⟩

theorem fillTo_of_length {n : Nat} {bytes : List Byte} (h : bytes.length = n) : fillTo n bytes = bytes := by
  subst h
  simp [fillTo]

theorem fillTo_take {k n : Nat} {bytes : List Byte} (h : bytes.length = k) (hk : k ≤ n) : (fillTo n bytes).take k = bytes := by
  subst h
  rw [fillTo, List.take_of_length_le hk, List.take_left]

/-! Receiving by single exchanges. -/

theorem recvAll_fail {n : Nat} {rx l : List Byte} {k : Nat} {s : State} {rest : List (Option Answer)}
    (h : s.script = oks rx ++ some (.fail k l) :: rest) (hl : rx.length < n) :
    recvAll n s = (none, moved (exchanged (List.replicate rx.length s.cfg.dummy) rx ++ [.xferFail s.cfg.dummy])
      (List.replicate rx.length s.cfg.dummy) (rx.length + 1) rest s) := by
  induction n generalizing rx s with
  | zero => exact absurd hl (Nat.not_lt_zero _)
  | succ n ih =>
    cases rx with
    | nil => simp [recvAll, xfer_fail (tx := s.cfg.dummy) (rest := rest) h, exchanged]
    | cons r rs =>
      have h1 : s.script = some (.ok [r]) :: (oks rs ++ some (.fail k l) :: rest) := h
      simp only [recvAll, xfer_ok h1]
      rw [ih (s := moved [.xfer s.cfg.dummy r] [s.cfg.dummy] 1 (oks rs ++ some (.fail k l) :: rest) s) rfl
        (Nat.lt_of_succ_lt_succ hl)]
      simp only [moved_cfg]
      rw [moved_moved, Nat.add_comm 1, List.length_cons, List.replicate_succ]
      rfl

section
variable {s : State} {as : List (Option Answer)} {es : List Event} {rest : List (Option Answer)} {tx : List Byte} {n : Nat}
variable (hd : s.depth < s.cfg.depthMax)
include hd

theorem recvSession_ported_of_sent {ra rb : List Byte} (hs : s.script = oks (ra ++ rb) ++ rest) (ha : ra.length = tx.length)
    (hb : rb.length = n) : ∃ t, session (recvFrame tx n) s = .done (some rb) t ∧
      Ported (inSession s (exchanged (tx ++ List.replicate n s.cfg.dummy) (ra ++ rb))) rest s t :=
  ⟨_, recvSession_ok hd hs ha hb, _, _, _, _, _, rfl⟩

theorem recvSession_ported_of_cut (cut : FrameCut s (tx ++ List.replicate n s.cfg.dummy) as es) (hs : s.script = as ++ rest) :
    ∃ t, session (recvFrame tx n) s = .done none t ∧ Ported es rest s t := by
  obtain ⟨pre, c, post, rx, k, l, split, hl, rfl, rfl⟩ := cut
  obtain ⟨more, rfl⟩ | ⟨mid, rfl, received⟩ := cut_of_append split
  · refine session_ported hd (bytes := pre) (n := pre.length + 1) (q := s.seq) ?_
    rw [recvFrame, sendAll_fail (s := opened s) (by rw [opened_script, hs, List.append_assoc]; rfl) hl, ← opened_seq]
    rfl
  · obtain ⟨ra, rm, rfl, ha, hm⟩ := exists_answers_append hl
    obtain ⟨count, mids, tail⟩ := List.append_eq_replicate_iff.mp received.symm
    obtain ⟨rfl, -⟩ := List.cons.inj (tail.trans (List.replicate_succ (n := post.length)))
    have short : rm.length < n := by rw [hm, ← count, List.length_cons]; omega
    refine session_ported hd (bytes := tx ++ mid) (n := tx.length + (rm.length + 1)) (q := s.seq) ?_
    rw [recvFrame, sendAll_ok (s := opened s) (rest := oks rm ++ some (.fail k l) :: rest)
      (by rw [opened_script, hs, oks_append]; simp) ha]
    simp only
    rw [recvAll_fail (s := moved _ _ _ _ _) rfl short, moved_moved, ← opened_seq, moved_cfg, opened_cfg,
      exchanged_append ha, hm, ← mids, List.append_assoc]
    rfl

/-! Receiving in bulk. -/

variable {ds : List Byte}

theorem readSession_ported_of_sent {ra rd bytes : List Byte} (hs : s.script = oks (ra ++ rd) ++ some (.ok bytes) :: rest)
    (ha : ra.length = tx.length) (hb : rd.length = ds.length) (hn : bytes.length = n) :
    ∃ t, session (readFrame tx ds n) s = .done (some bytes) t ∧
      Ported (inSession s (exchanged (tx ++ ds) (ra ++ rd) ++ [.bulkRx n n bytes])) rest s t := by
  have run := readSession_ok (tx := tx) (ds := ds) (n := n) hd hs ha hb
  rw [fillTo_of_length hn] at run
  exact ⟨_, run, _, _, _, _, _, rfl⟩

omit hd in
theorem dummyPhase_eq (ds : List Byte) (u : State) :
    ∃ q, (if ds = [] then u else setSeq .dummy u) = { u with seq := q } := by
  split
  · exact ⟨u.seq, rfl⟩
  · exact ⟨.dummy, rfl⟩

omit hd in
/-- A read frame past its command: its dummy bytes decide (R97). -/
theorem readFrame_of_sent {ra : List Byte} (hs : s.script = oks ra ++ rest) (ha : ra.length = tx.length) (ds : List Byte) (n : Nat) :
    ∃ q, (∀ t, sendAll ds { moved (exchanged tx ra) tx tx.length rest s with seq := q } = (false, t) →
        readFrame tx ds n s = (none, t)) ∧
      ∀ t, sendAll ds { moved (exchanged tx ra) tx tx.length rest s with seq := q } = (true, t) →
        readFrame tx ds n s = bulkRx n (setSeq .data t) := by
  obtain ⟨q, phase⟩ := dummyPhase_eq ds (moved (exchanged tx ra) tx tx.length rest s)
  refine ⟨q, fun t run => ?_, fun t run => ?_⟩
  · rw [readFrame, sendAll_ok hs ha]
    simp only
    rw [phase, run]
  · rw [readFrame, sendAll_ok hs ha]
    simp only
    rw [phase, run]

theorem readSession_ported_of_frameCut (cut : FrameCut s (tx ++ ds) as es) (hs : s.script = as ++ rest) :
    ∃ t, session (readFrame tx ds n) s = .done none t ∧ Ported es rest s t := by
  obtain ⟨pre, c, post, rx, k, l, split, hl, rfl, rfl⟩ := cut
  obtain ⟨more, rfl⟩ | ⟨mid, rfl, rfl⟩ := cut_of_append split
  · refine session_ported hd (bytes := pre) (n := pre.length + 1) (q := s.seq) ?_
    rw [readFrame, sendAll_fail (s := opened s) (by rw [opened_script, hs, List.append_assoc]; rfl) hl, ← opened_seq]
    rfl
  · obtain ⟨ra, rm, rfl, ha, hm⟩ := exists_answers_append hl
    obtain ⟨q, stops, -⟩ := readFrame_of_sent (s := opened s) (tx := tx) (rest := oks rm ++ some (.fail k l) :: rest)
      (by rw [opened_script, hs, oks_append]; simp) ha (mid ++ c :: post) n
    refine session_ported hd (bytes := tx ++ mid) (n := tx.length + (mid.length + 1)) (q := q) ?_
    rw [stops _ (sendAll_fail rfl hm), exchanged_append ha, List.append_assoc]
    simp [moved, Flash.exchangeAll_append, Nat.add_assoc]

theorem readSession_ported_of_bulkFail {ra rd l : List Byte} {k : Nat} (hs : s.script = oks (ra ++ rd) ++ some (.fail k l) :: rest)
    (ha : ra.length = tx.length) (hb : rd.length = ds.length) :
    ∃ t, session (readFrame tx ds n) s = .done none t ∧ Ported (inSession s (exchanged (tx ++ ds) (ra ++ rd) ++
      [.bulkRx n (shortDone k n) ((fillTo n l).take (shortDone k n))])) rest s t := by
  obtain ⟨q, -, received⟩ := readFrame_of_sent (s := opened s) (tx := tx) (rest := oks rd ++ some (.fail k l) :: rest)
    (by rw [opened_script, hs, oks_append, List.append_assoc]) ha ds n
  refine session_ported hd (bytes := tx ++ ds ++ List.replicate (shortDone k n) s.cfg.dummy) (n := tx.length + (ds.length + 1))
    (q := .data) ?_
  rw [received _ (sendAll_ok rfl hb), bulkRx_fail (s := setSeq .data _) rfl, exchanged_append ha]
  simp [moved, setSeq, Flash.exchangeAll_append, Nat.add_assoc]

/-- A read frame that the transport stops anywhere (R220, R225). -/
theorem readSession_ported_of_cut (cut : ReadCut s (tx ++ ds) n as es) (hs : s.script = as ++ rest) :
    ∃ t, session (readFrame tx ds n) s = .done none t ∧ Ported es rest s t := by
  obtain cut | ⟨rx, k, l, hk, hl, hrx, rfl, rfl⟩ := cut
  · exact readSession_ported_of_frameCut hd cut hs
  · obtain ⟨ra, rd, rfl, ha, hb⟩ := exists_answers_append hrx
    have run := readSession_ported_of_bulkFail (n := n) hd (hs.trans (List.append_assoc ..)) ha hb
    rwa [shortDone_of_lt hk, fillTo_take hl hk.le] at run

end

/-! The four reads. -/

theorem doRead_eq (addr n : Nat) (s : State) :
    doRead addr n s = session (readFrame (readHead s addr) (readDummies s) n) (setCur addr (setSeq .cmd s)) := by
  unfold doRead readHead readDummies
  split <;> rfl

theorem runRead_of_lt {a : Word} {u : State} (h : a.toNat < capacityOf u.blockcount) (len : Word) :
    runRead a len u = readRange a.toNat (min len.toNat (capacityOf u.blockcount - a.toNat)) len.toNat (setSeq .check u) := by
  rw [runRead, clampLinear_eq_some h]

theorem readUnit_of_lt {g : Gran} {a b : Word} {u : State} (ha : a.toNat < unitMax u.blockcount g) (hb : b.toNat < unitSize g)
    (len : Word) : readUnit g a b len u =
      readRange (a.toNat * unitSize g + b.toNat) (min len.toNat (unitSize g - b.toNat)) len.toNat (setSeq .check u) := by
  rw [readUnit, xlate_eq_some ha hb]

/-- A read accepted: its code and its latches. -/
def readAccepted (op : Byte) (a b len : Word) (s : State) : State :=
  { s with op := op, lasterr := .none, a := a, b := b, len := len, seq := .check }

/-- The four reads are one range read (R221 to R224). -/
theorem exec_read_eq {s : State} {i : Instr} {linear n len : Nat} (hr : Ready s) (h : ReadOf s i linear n len) :
    ∃ op a b l, exec i s = .next ((readRange linear n len (readAccepted op a b l s)).settle haltRead) := by
  obtain ⟨hf, hq, -⟩ := hr
  have settled {r r' : Run Unit} (h : r = r') : Host.Outcome.next (r.settle haltRead) = (.next (r'.settle haltRead) : Result) := by
    rw [h]
  obtain ⟨a, l, rfl, rfl, rfl, ha, rfl⟩ | ⟨a, b, l, rfl, rfl, ha, hb, rfl, rfl⟩ | ⟨a, b, l, rfl, rfl, ha, hb, rfl, rfl⟩ |
    ⟨a, b, l, rfl, rfl, ha, hb, rfl, rfl⟩ := h
  · exact ⟨0x20#8, a, s.b, l, (exec_read_of_idle hf hq a l).trans
      (settled (runRead_of_lt (u := { accept 0x20#8 s with a := a, len := l }) ha l))⟩
  · exact ⟨0x21#8, a, b, l, (exec_readpage_of_idle hf hq a b l).trans
      (settled (readUnit_of_lt (g := .page) (u := { accept 0x21#8 s with a := a, b := b, len := l }) ha hb l))⟩
  · exact ⟨0x22#8, a, b, l, (exec_readsector_of_idle hf hq a b l).trans
      (settled (readUnit_of_lt (g := .sector) (u := { accept 0x22#8 s with a := a, b := b, len := l }) ha hb l))⟩
  · exact ⟨0x23#8, a, b, l, (exec_readblock_of_idle hf hq a b l).trans
      (settled (readUnit_of_lt (g := .block) (u := { accept 0x23#8 s with a := a, b := b, len := l }) ha hb l))⟩

/-- The clamped length of a read is a word, and it is 0 only if nothing is asked. -/
theorem ReadOf.clamped {s : State} {i : Instr} {linear n len : Nat} (h : ReadOf s i linear n len) :
    n ≤ len ∧ len < 2 ^ 32 ∧ (1 ≤ len → 1 ≤ n) := by
  obtain ⟨a, l, -, rfl, -, ha, rfl⟩ | ⟨a, b, l, -, rfl, -, hb, -, rfl⟩ | ⟨a, b, l, -, rfl, -, hb, -, rfl⟩ |
    ⟨a, b, l, -, rfl, -, hb, -, rfl⟩ := h
  all_goals
    have := l.isLt
    omega

section
variable {s : State} {linear n len : Nat} {rest : List (Option Answer)} (hd : s.depth < s.cfg.depthMax) (hn : 1 ≤ n)
include hd hn

theorem readRange_of_sent {ra rd bytes : List Byte} (ha : ra.length = (readHead s linear).length)
    (hb : rd.length = (readDummies s).length) (hl : bytes.length = n) (hs : s.script = oks (ra ++ rd) ++ some (.ok bytes) :: rest) :
    ∃ t, readRange linear n len s = .done () (finishRead n len (some bytes) t) ∧ Ported (inSession s
      (exchanged (readHead s linear ++ readDummies s) (ra ++ rd) ++ [.bulkRx n n bytes])) rest s t := by
  obtain ⟨t, run, ported⟩ := readSession_ported_of_sent (s := setCur linear (setSeq .cmd s)) hd hs ha hb hl
  refine ⟨t, ?_, ported⟩
  rw [readRange, if_neg (Nat.ne_of_gt hn), doRead_eq, run, Run.bind_done]

theorem readRange_of_cut {as : List (Option Answer)} {es : List Event}
    (cut : ReadCut s (readHead s linear ++ readDummies s) n as es) (hs : s.script = as ++ rest) :
    ∃ t, readRange linear n len s = .done () (failRead .transferFailure t) ∧ Ported es rest s t := by
  obtain ⟨t, run, ported⟩ := readSession_ported_of_cut (s := setCur linear (setSeq .cmd s)) hd cut hs
  refine ⟨t, ?_, ported⟩
  rw [readRange, if_neg (Nat.ne_of_gt hn), doRead_eq, run, Run.bind_done, finishRead]

end

/-- Settles O43: the one frame of a range read. -/
theorem readCompletes : Obligations.ReadCompletes := by
  unfold Obligations.ReadCompletes
  intro s i linear n len ra rd bytes rest hr hi hn ha hb hl hs
  obtain ⟨fits, word, -⟩ := ReadOf.clamped hi
  obtain ⟨op, a, b, l, run⟩ := exec_read_eq hr hi
  obtain ⟨t, done, _, _, _, _, _, rfl⟩ := readRange_of_sent (s := readAccepted op a b l s) (len := len) hr.2.2 hn ha hb hl hs
  rw [run, done]
  exact ⟨_, rfl, rfl, toNat_ofNat_of_lt_word (by omega), rfl, rfl, rfl⟩

/-- Settles O44: the frame cut anywhere, and no frame. -/
theorem readStops : Obligations.ReadStops := by
  unfold Obligations.ReadStops
  intro s i linear n len hr hi
  obtain ⟨fits, word, pos⟩ := ReadOf.clamped hi
  obtain ⟨op, a, b, l, run⟩ := exec_read_eq hr hi
  rw [run]
  refine ⟨fun h0 => ?_, fun fa fe rest h1 cut hs => ?_⟩
  · rw [readRange, if_pos (by omega)]
    exact ⟨_, rfl, rfl, rfl, rfl, rfl⟩
  · obtain ⟨t, done, _, _, _, _, _, rfl⟩ :=
      readRange_of_cut (s := readAccepted op a b l s) (len := len) hr.2.2 (pos h1) cut hs
    rw [done]
    exact ⟨_, rfl, rfl, rfl, rfl, rfl, rfl⟩

/-! READUID. -/

section
variable {s : State} {rest : List (Option Answer)} (hd : s.depth < s.cfg.depthMax)
include hd

theorem runReaduid_of_sent {rx bytes : List Byte} (ha : rx.length = 5) (hl : bytes.length = s.cfg.uidLen)
    (hs : s.script = oks rx ++ some (.ok bytes) :: rest) :
    ∃ t, runReaduid s = .done () (complete (BitVec.ofNat 32 t.cfg.uidLen) { t with rdata := bytes }) ∧
      Ported (inSession s (exchanged ([0x4B#8] ++ List.replicate 4 s.cfg.dummy) rx ++
        [.bulkRx s.cfg.uidLen s.cfg.uidLen bytes])) rest s t := by
  obtain ⟨ra, rd, rfl, hra, hrd⟩ := exists_answers_append (as := [0x4B#8]) (mid := List.replicate 4 s.cfg.dummy) (rx := rx) ha
  obtain ⟨t, run, ported⟩ := readSession_ported_of_sent (s := setSeq .cmd s) hd hs hra hrd hl
  exact ⟨t, by rw [runReaduid, run, Run.bind_done], ported⟩

theorem runReaduid_of_cut {as : List (Option Answer)} {es : List Event}
    (cut : ReadCut s ([0x4B#8] ++ List.replicate 4 s.cfg.dummy) s.cfg.uidLen as es) (hs : s.script = as ++ rest) :
    ∃ t, runReaduid s = .done () (failRead .transferFailure t) ∧ Ported es rest s t := by
  obtain ⟨t, run, ported⟩ := readSession_ported_of_cut (s := setSeq .cmd s) hd cut hs
  exact ⟨t, by rw [runReaduid, run, Run.bind_done], ported⟩

end

/-- Settles O45: the one frame, whole or cut anywhere. -/
theorem readuidReturns : Obligations.ReaduidReturns := by
  unfold Obligations.ReaduidReturns
  rintro s tx ⟨hf, hq, hd⟩ ⟨-, -, -, -, -, short, -⟩ rfl
  have run : exec .readuid s = .next ((runReaduid (accept 0x29#8 s)).settle haltRead) := by
    rw [exec, execReaduid, guarded_run hf hq]
  rw [run]
  refine ⟨fun rx bytes rest hl hn hs => ?_, fun fa fe rest cut hs => ?_⟩
  · obtain ⟨t, done, _, _, _, _, _, rfl⟩ := runReaduid_of_sent (s := accept 0x29#8 s) hd hl hn hs
    rw [done]
    exact ⟨_, rfl, rfl, toNat_ofNat_of_lt_word short, rfl, rfl, rfl⟩
  · obtain ⟨t, done, _, _, _, _, _, rfl⟩ := runReaduid_of_cut (s := accept 0x29#8 s) hd cut hs
    rw [done]
    exact ⟨_, rfl, rfl, rfl, rfl, rfl, rfl⟩

end Sys2Proof.Machine
end

section
/-!
The SPI frames by themselves (log 4): the frame that each instruction runs, and what it leaves under explicit answers.
-/
namespace Sys2Proof.Machine

theorem runFrame_of_done {q : Seq} {frame : State → Run (Option (List Byte))} {s t : State} {r : Option (List Byte)}
    (h : frame (setSeq q s) = .done r t) :
    runFrame q frame s = { t with seq := .idle, frameOk := r.isSome, frameRx := r.getD [] } := by
  rw [runFrame, h]

/-- The result of a frame that only sends. -/
def sentResult (ok : Bool) : Option (List Byte) := if ok then some [] else none

theorem sentOnly_done (ok : Bool) (t : State) : sentOnly (.done ok t) = .done (sentResult ok) t := rfl

/-! The frame of each instruction. -/

/-- The instructions whose frame only sends, with its bytes (R103 to R107, R109). -/
def SendFrameOf (i : Instr) (tx : List Byte) : Prop :=
  i = .wren ∧ tx = [0x06#8] ∨ i = .wrdi ∧ tx = [0x04#8] ∨ i = .ce ∧ tx = [0xC7#8] ∨
    (∃ v, i = .wrsr1 v ∧ tx = [0x01#8, v] ∨ i = .wrsr2 v ∧ tx = [0x31#8, v] ∨ i = .wrsr3 v ∧ tx = [0x11#8, v]) ∨
    (∃ b2 b1 b0 : Byte, i = .se3 (b2 ++ b1 ++ b0) ∧ tx = [0x20#8, b2, b1, b0] ∨
      i = .be3 (b2 ++ b1 ++ b0) ∧ tx = [0xD8#8, b2, b1, b0]) ∨
    (∃ b3 b2 b1 b0 : Byte, i = .se4 (b3 ++ b2 ++ b1 ++ b0) ∧ tx = [0x21#8, b3, b2, b1, b0] ∨
      i = .be4 (b3 ++ b2 ++ b1 ++ b0) ∧ tx = [0xDC#8, b3, b2, b1, b0])

/-- The instructions whose frame reads in bulk, with the bytes before the data (R100, R101, R111). -/
def ReadFrameOf (s : State) (i : Instr) (tx : List Byte) (n : Nat) : Prop :=
  (∃ b2 b1 b0 : Byte, i = .read3 (b2 ++ b1 ++ b0) n ∧ tx = [0x03#8, b2, b1, b0] ∨
      i = .fr3 (b2 ++ b1 ++ b0) n ∧ tx = [0x0B#8, b2, b1, b0, s.cfg.dummy]) ∨
    (∃ b3 b2 b1 b0 : Byte, i = .read4 (b3 ++ b2 ++ b1 ++ b0) n ∧ tx = [0x13#8, b3, b2, b1, b0] ∨
      i = .fr4 (b3 ++ b2 ++ b1 ++ b0) n ∧ tx = [0x0C#8, b3, b2, b1, b0, s.cfg.dummy]) ∨
    i = .rduid ∧ n = s.cfg.uidLen ∧ tx = [0x4B#8, s.cfg.dummy, s.cfg.dummy, s.cfg.dummy, s.cfg.dummy]

section
variable {s : State} (hf : s.fault = false) (hq : s.seq = .idle)
include hf hq

theorem exec_frame_eq {run : State → State} {i : Instr} (h : exec i s = guarded s fun s => .next (run s)) :
    exec i s = .next (run s) := h.trans (guarded_run hf hq _)

theorem exec_sendFrame_eq {i : Instr} {tx : List Byte} (h : SendFrameOf i tx) :
    ∃ q, exec i s = .next (runFrame q (fun s => sentOnly (session (sendFrame tx) s)) s) := by
  obtain ⟨rfl, rfl⟩ | ⟨rfl, rfl⟩ | ⟨rfl, rfl⟩ | ⟨v, ⟨rfl, rfl⟩ | ⟨rfl, rfl⟩ | ⟨rfl, rfl⟩⟩ |
    ⟨b2, b1, b0, ⟨rfl, rfl⟩ | ⟨rfl, rfl⟩⟩ | ⟨b3, b2, b1, b0, ⟨rfl, rfl⟩ | ⟨rfl, rfl⟩⟩ := h
  case inl | inr.inl | inr.inr.inl | inr.inr.inr.inl.inl | inr.inr.inr.inl.inr.inl | inr.inr.inr.inl.inr.inr =>
    exact ⟨_, exec_frame_eq hf hq rfl⟩
  case inr.inr.inr.inr.inl.inl | inr.inr.inr.inr.inl.inr =>
    rw [← bytesOfAddr3_append b2 b1 b0]
    exact ⟨_, exec_frame_eq hf hq rfl⟩
  case inr.inr.inr.inr.inr.inl | inr.inr.inr.inr.inr.inr =>
    rw [← bytesOfAddr4_append b3 b2 b1 b0]
    exact ⟨_, exec_frame_eq hf hq rfl⟩

theorem frameRead_eq {op : Byte} {addr dummies : List Byte} {n : Nat} (hn : 1 ≤ n) :
    frameRead op addr dummies n s = .next (runFrame .cmd (session (readFrame (op :: addr) dummies n)) s) := by
  rw [frameRead, guarded_run hf hq, if_neg (Nat.ne_of_gt hn)]

theorem exec_readFrame_eq {i : Instr} {tx : List Byte} {n : Nat} (hn : 1 ≤ n) (h : ReadFrameOf s i tx n) :
    ∃ head dummies, tx = head ++ dummies ∧ exec i s = .next (runFrame .cmd (session (readFrame head dummies n)) s) := by
  obtain ⟨b2, b1, b0, ⟨rfl, rfl⟩ | ⟨rfl, rfl⟩⟩ | ⟨b3, b2, b1, b0, ⟨rfl, rfl⟩ | ⟨rfl, rfl⟩⟩ | ⟨rfl, rfl, rfl⟩ := h
  · exact ⟨_, [], by rw [bytesOfAddr3_append]; rfl, frameRead_eq hf hq hn⟩
  · exact ⟨_, [s.cfg.dummy], by rw [bytesOfAddr3_append]; rfl, frameRead_eq hf hq hn⟩
  · exact ⟨_, [], by rw [bytesOfAddr4_append]; rfl, frameRead_eq hf hq hn⟩
  · exact ⟨_, [s.cfg.dummy], by rw [bytesOfAddr4_append]; rfl, frameRead_eq hf hq hn⟩
  · exact ⟨[0x4B#8], List.replicate 4 s.cfg.dummy, rfl, frameRead_eq hf hq hn⟩

theorem frameProgram_eq {op : Byte} {addr data : List Byte} (hn : data ≠ []) :
    frameProgram op addr data s =
      .next (runFrame .cmd (fun s => sentOnly (session (programFrame (op :: addr) data) s)) s) := by
  rw [frameProgram, guarded_run hf hq, if_neg hn]

theorem exec_programFrame_eq {i : Instr} {tx data : List Byte} (hn : data ≠ [])
    (h : (∃ b2 b1 b0 : Byte, i = .pp3 (b2 ++ b1 ++ b0) data ∧ tx = [0x02#8, b2, b1, b0]) ∨
      ∃ b3 b2 b1 b0 : Byte, i = .pp4 (b3 ++ b2 ++ b1 ++ b0) data ∧ tx = [0x12#8, b3, b2, b1, b0]) :
    exec i s = .next (runFrame .cmd (fun s => sentOnly (session (programFrame tx data) s)) s) := by
  obtain ⟨b2, b1, b0, rfl, rfl⟩ | ⟨b3, b2, b1, b0, rfl, rfl⟩ := h
  · rw [← bytesOfAddr3_append b2 b1 b0]
    exact frameProgram_eq hf hq hn
  · rw [← bytesOfAddr4_append b3 b2 b1 b0]
    exact frameProgram_eq hf hq hn

theorem exec_rdsr_eq {i : Instr} {n : StatusReg} (h : i = .rdsr1 ∧ n = .sr1 ∨ i = .rdsr2 ∧ n = .sr2 ∨ i = .rdsr3 ∧ n = .sr3) :
    exec i s = .next (runFrame .status (fun s => (uRDSR n s).bind fun r s1 => .done (r.map fun b => [b]) s1) s) := by
  obtain ⟨rfl, rfl⟩ | ⟨rfl, rfl⟩ | ⟨rfl, rfl⟩ := h
  · exact exec_frame_eq hf hq rfl
  · exact exec_frame_eq hf hq rfl
  · exact exec_frame_eq hf hq rfl

theorem exec_rdid_eq : exec .rdid s = .next (runFrame .ident uRDID s) := exec_frame_eq hf hq rfl

end

/-- Settles O47: the one session of the frame. -/
theorem sendFramesComplete : Obligations.SendFramesComplete := by
  unfold Obligations.SendFramesComplete
  rintro s i tx rx rest ⟨hf, hq, hd⟩ hi hl hs
  obtain ⟨q, run⟩ := exec_sendFrame_eq hf hq hi
  obtain ⟨t, sent, _, _, _, _, _, rfl⟩ := sendSession_ported_of_sent (s := setSeq q s) hd ⟨rx, hl, rfl, rfl⟩ hs
  rw [run, runFrame_of_done (by rw [sent, sentOnly_done])]
  exact ⟨_, rfl, rfl, rfl, rfl, rfl, hf, rfl⟩

/-- Settles O48: the session cut at the failed exchange. -/
theorem sendFramesStop : Obligations.SendFramesStop := by
  unfold Obligations.SendFramesStop
  rintro s i tx pre post rx l c k rest ⟨hf, hq, hd⟩ hi htx hl hs
  obtain ⟨q, run⟩ := exec_sendFrame_eq hf hq hi
  obtain ⟨t, cut, _, _, _, _, _, rfl⟩ := sendSession_ported_of_cut (s := setSeq q s) (rest := rest) hd
    ⟨pre, c, post, rx, k, l, htx, hl, rfl, rfl⟩ (hs.trans (by rw [List.append_assoc]; rfl))
  rw [run, runFrame_of_done (by rw [cut, sentOnly_done])]
  exact ⟨_, rfl, rfl, rfl, rfl, hf⟩

/-- Settles O49: the status byte and its cache, and the three ID bytes. -/
theorem receiveFramesComplete : Obligations.ReceiveFramesComplete := by
  unfold Obligations.ReceiveFramesComplete
  rintro s rest ⟨hf, hq, hd⟩
  refine ⟨fun i n opcode r b hi hs => ?_, fun r id0 id1 id2 hs => ?_⟩
  · obtain ⟨kind, rfl⟩ : (i = .rdsr1 ∧ n = .sr1 ∨ i = .rdsr2 ∧ n = .sr2 ∨ i = .rdsr3 ∧ n = .sr3) ∧ opcode = rdsrOpc n := by
      obtain ⟨rfl, rfl, rfl⟩ | ⟨rfl, rfl, rfl⟩ | ⟨rfl, rfl, rfl⟩ := hi <;> simp [rdsrOpc]
    rw [exec_rdsr_eq hf hq kind, runFrame_of_done (by rw [uRDSR_ok (s := setSeq .status s) hd hs, Run.bind_done])]
    refine ⟨_, rfl, ?_, rfl, rfl, ?_, fun m hm => ?_, rfl⟩
    · cases n <;> rfl
    · exact getStatus_setStatus_same n b _
    · exact getStatus_setStatus_of_ne hm b _
  · obtain ⟨t, run, _, _, _, _, _, rfl⟩ := recvSession_ported_of_sent (s := setSeq .ident s) (tx := [0x9F#8]) (n := 3) (ra := [r])
      (rb := [id0, id1, id2]) hd hs rfl rfl
    rw [exec_rdid_eq hf hq, runFrame_of_done (by rw [uRDID, run])]
    exact ⟨_, rfl, rfl, rfl, rfl, rfl⟩

/-- Settles O50: the session of the read or of the program. -/
theorem dataFramesComplete : Obligations.DataFramesComplete := by
  unfold Obligations.DataFramesComplete
  rintro s rx rest ⟨hf, hq, hd⟩ wf
  refine ⟨fun i tx bytes n hi hn hb hl hs => ?_, fun i tx data bs hi hn hl hs => ?_⟩
  · obtain ⟨head, dummies, rfl, run⟩ := exec_readFrame_eq hf hq hn hi
    obtain ⟨ra, rd, rfl, ha, hd'⟩ := exists_answers_append hl
    obtain ⟨t, sent, _, _, _, _, _, rfl⟩ := readSession_ported_of_sent (s := setSeq .cmd s) hd hs ha hd' hb
    rw [run, runFrame_of_done sent]
    exact ⟨_, rfl, rfl, rfl, rfl, rfl⟩
  · obtain ⟨t, sent, _, _, _, _, _, rfl⟩ := programSession_ported_of_sent (s := setSeq .cmd s) (data := data) hd hl hs
    rw [exec_programFrame_eq hf hq hn hi, runFrame_of_done (by rw [sent, sentOnly_done])]
    exact ⟨_, rfl, rfl, rfl, rfl, rfl⟩

end Sys2Proof.Machine
end

section
/-!
The first byte of each frame, whatever is answered (R90, R92, R94), and the opcode of a read under each configuration (R241).
-/
namespace Sys2Proof.Machine

/-- A procedure from `s` is done, and its first event past the acquisition sends `op` by a single exchange. -/
def Opens {α : Type} (op : Byte) (s : State) (r : Run α) : Prop :=
  ∃ a t e es, r = .done a t ∧ t.trace = s.trace ++ (if s.depth = 0 then [.cs0] else []) ++ e :: es ∧ e.sentByte = some op

theorem Opens.bind {α β : Type} {op : Byte} {s : State} {r : Run α} {f : α → State → Run β} (h : Opens op s r)
    (hf : ∀ a t, ∃ b u, f a t = .done b u ∧ u.trace = t.trace) : Opens op s (r.bind f) := by
  obtain ⟨a, t, e, es, rfl, trace, sent⟩ := h
  obtain ⟨b, u, next, same⟩ := hf a t
  exact ⟨b, u, e, es, next, same.trans trace, sent⟩

theorem opened_trace (s : State) : (opened s).trace = s.trace ++ if s.depth = 0 then [.cs0] else [] := by
  unfold opened
  split
  · rfl
  · exact (List.append_nil _).symm

theorem closed_trace (s : State) : ∃ es, (closed s).trace = s.trace ++ es := by
  unfold closed
  split
  · exact ⟨[.cs1], rfl⟩
  · exact ⟨[], (List.append_nil _).symm⟩

theorem session_opens {α : Type} {frame : State → α × State} {op : Byte} {rest : List Byte} {s : State}
    (hd : s.depth < s.cfg.depthMax) (h : FrameMoves op rest (opened s) (frame (opened s)).2) : Opens op s (session frame s) := by
  obtain ⟨e, es, trace, sent⟩ := h.opens
  obtain ⟨fs, released⟩ := closed_trace (frame (opened s)).2
  refine ⟨_, _, e, es ++ fs, (session_eq (by rw [h.moves.depth, opened_depth])).trans (if_neg (Nat.not_le.mpr hd)), ?_, sent⟩
  rw [released, trace, opened_trace]
  simp

theorem cacheStatus_trace (n : StatusReg) (r : Option (List Byte)) (s : State) : (cacheStatus n r s).trace = s.trace := by
  unfold cacheStatus
  split
  · cases n <;> rfl
  · rfl
  · rfl

theorem uRDSR_opens (n : StatusReg) {s : State} (hd : s.depth < s.cfg.depthMax) : Opens (rdsrOpc n) s (uRDSR n s) :=
  (session_opens hd (recvFrame_spec (rdsrOpc n) [] 1 _).1).bind fun r t => ⟨_, _, rfl, cacheStatus_trace n r t⟩

/-- An event that sends a byte by a single exchange. -/
theorem exchange_of_sentByte {e : Event} {op : Byte} (h : e.sentByte = some op) : (∃ rx, e = .xfer op rx) ∨ e = .xferFail op := by
  cases e with
  | xfer tx rx => exact .inl ⟨rx, by rw [Option.some.inj h]⟩
  | xferFail tx => exact .inr (by rw [Option.some.inj h])
  | cs0 | cs1 | bulkTx | bulkRx | tick => cases h

/-- A frame by itself that opens with `op`, to a next state. -/
def FrameOpens (op : Byte) (i : Instr) (s : State) : Prop :=
  NextWith (exec i s) fun t => ∃ e es,
    t.trace = s.trace ++ (if s.depth = 0 then [.cs0] else []) ++ e :: es ∧ ((∃ rx, e = .xfer op rx) ∨ e = .xferFail op)

theorem FrameOpens.of_opens {op : Byte} {i : Instr} {s : State} {q : Seq} {frame : State → Run (Option (List Byte))}
    (run : exec i s = .next (runFrame q frame s)) (h : Opens op (setSeq q s) (frame (setSeq q s))) : FrameOpens op i s := by
  obtain ⟨r, t, e, es, done, trace, sent⟩ := h
  exact ⟨_, run.trans (congrArg Host.Outcome.next (runFrame_of_done done)), e, es, trace, exchange_of_sentByte sent⟩

section
variable {s : State} {i : Instr} (hr : Ready s)
include hr

theorem sendFrame_opens {op : Byte} {rest : List Byte} (h : SendFrameOf i (op :: rest)) : FrameOpens op i s := by
  obtain ⟨hf, hq, hd⟩ := hr
  obtain ⟨q, run⟩ := exec_sendFrame_eq hf hq h
  refine .of_opens run (Opens.bind (session_opens hd (sendFrame_spec op rest _).1) fun ok t => ⟨_, _, rfl, rfl⟩)

theorem rdsr_opens {n : StatusReg} (h : i = .rdsr1 ∧ n = .sr1 ∨ i = .rdsr2 ∧ n = .sr2 ∨ i = .rdsr3 ∧ n = .sr3) :
    FrameOpens (rdsrOpc n) i s := by
  obtain ⟨hf, hq, hd⟩ := hr
  exact .of_opens (exec_rdsr_eq hf hq h) ((uRDSR_opens n (s := setSeq .status s) hd).bind fun r t => ⟨_, _, rfl, rfl⟩)

theorem rdid_opens : FrameOpens 0x9F#8 .rdid s := by
  obtain ⟨hf, hq, hd⟩ := hr
  exact .of_opens (exec_rdid_eq hf hq) (session_opens hd (recvFrame_spec 0x9F#8 [] 3 _).1)

theorem rduid_opens (wf : s.cfg.wf) : FrameOpens 0x4B#8 .rduid s := by
  obtain ⟨hf, hq, hd⟩ := hr
  obtain ⟨-, -, -, -, pos, -⟩ := wf
  exact .of_opens (frameRead_eq hf hq pos) (session_opens hd (readFrame_spec 0x4B#8 [] _ _ _))

end

theorem readHead_and_dummies {s : State} {fast : Bool} (h : fastEffective s.cfg s.fast = fast) (addr : Nat) :
    (readHead s addr).head? = some (opc (if fast then .fastRead else .read) (a4 s.cfg s.blockcount)) ∧
      readDummies s = if fast then [s.cfg.dummy] else [] := by
  rw [readHead, readDummies, h]
  exact ⟨rfl, rfl⟩

theorem fastEffective_eq_false {p : Params} {f : FastFlag}
    (h : p.fastCfg = .disabled ∨ p.fastCfg = .fixed false ∨ p.fastCfg = .enabled ∧ f ≠ .fast) : fastEffective p f = false := by
  obtain h | h | ⟨h, hf⟩ := h
  · rw [fastEffective, h]
  · rw [fastEffective, h]
  · rw [fastEffective, h]
    exact decide_eq_false hf

theorem fastEffective_eq_true {p : Params} {f : FastFlag} (h : p.fastCfg = .fixed true ∨ p.fastCfg = .enabled ∧ f = .fast) :
    fastEffective p f = true := by
  obtain h | ⟨h, hf⟩ := h
  · rw [fastEffective, h]
  · exact (fastEffective_of_enabled h f).mpr hf

/-- Settles O4: the table of pairs by computation, the first byte of each frame, and the read opcode by the configuration. -/
theorem opcodeSelection : Obligations.OpcodeSelection := by
  unfold Obligations.OpcodeSelection
  refine ⟨by decide, fun s i op hr wf h => ?_, fun s addr => ⟨fun h => ?standard, fun h => ?fast⟩⟩
  · obtain ⟨rfl, rfl⟩ | ⟨rfl, rfl⟩ | ⟨rfl, rfl⟩ | ⟨rfl, rfl⟩ | ⟨rfl, rfl⟩ | ⟨⟨v, rfl⟩, rfl⟩ | ⟨⟨v, rfl⟩, rfl⟩ | ⟨⟨v, rfl⟩, rfl⟩ |
      ⟨rfl, rfl⟩ | ⟨rfl, rfl⟩ | ⟨rfl, rfl⟩ := h
    · exact sendFrame_opens hr (.inl ⟨rfl, rfl⟩)
    · exact sendFrame_opens hr (.inr (.inl ⟨rfl, rfl⟩))
    · exact rdsr_opens hr (.inl ⟨rfl, rfl⟩)
    · exact rdsr_opens hr (.inr (.inl ⟨rfl, rfl⟩))
    · exact rdsr_opens hr (.inr (.inr ⟨rfl, rfl⟩))
    · exact sendFrame_opens hr (.inr (.inr (.inr (.inl ⟨v, .inl ⟨rfl, rfl⟩⟩))))
    · exact sendFrame_opens hr (.inr (.inr (.inr (.inl ⟨v, .inr (.inl ⟨rfl, rfl⟩)⟩))))
    · exact sendFrame_opens hr (.inr (.inr (.inr (.inl ⟨v, .inr (.inr ⟨rfl, rfl⟩)⟩))))
    · exact rdid_opens hr
    · exact rduid_opens hr wf
    · exact sendFrame_opens hr (.inr (.inr (.inl ⟨rfl, rfl⟩)))
  case standard =>
    obtain ⟨head, dummies⟩ := readHead_and_dummies (fastEffective_eq_false h) addr
    refine ⟨head.trans ?_, dummies⟩
    cases a4 s.cfg s.blockcount <;> rfl
  case fast =>
    obtain ⟨head, dummies⟩ := readHead_and_dummies (fastEffective_eq_true h) addr
    refine ⟨head.trans ?_, dummies⟩
    cases a4 s.cfg s.blockcount <;> rfl

/-! The gate of identification. -/

/-- Settles O42: with no block every range is out of range, SETFAST is refused and the geometry is 0. -/
theorem unidentifiedGate : Obligations.UnidentifiedGate := by
  unfold Obligations.UnidentifiedGate
  intro s i hf hq hb wf
  have zero : s.blockcount.toNat = 0 := by rw [hb]; rfl
  refine ⟨fun h => ?addressed, ?setfast, ?query⟩
  case addressed =>
    obtain ⟨t, run, result, lasterr, seq, -, trace, -⟩ := outOfRangeRefused s i hf hq wf (by
      obtain ⟨a, len, rfl⟩ | ⟨a, b, len, rfl⟩ | ⟨a, b, len, rfl⟩ | ⟨a, b, len, rfl⟩ | ⟨a, b, len, data, rfl⟩ | ⟨a, len, data, rfl⟩ |
        ⟨a, len, tmo, data, rfl⟩ | ⟨a, rfl⟩ | ⟨a, rfl⟩ := h <;> simp [zero])
    exact ⟨t, run, result, lasterr, trace, seq⟩
  case setfast =>
    rintro ⟨a, rfl⟩
    exact ⟨_, exec_setfast_refused hf hq a (.inl hb), rfl, rfl, rfl, rfl, hq⟩
  case query =>
    have answer (code : Byte) {value : BitVec 16 → Nat} (h0 : value 0#16 = 0) : NextWith (query code value s) fun t =>
        t.result = 0#32 ∧ t.lasterr = .none ∧ t.trace = s.trace := by
      rw [query_of_idle hf hq, hb, h0]
      exact ⟨_, rfl, rfl, rfl, rfl⟩
    rintro (rfl | rfl | rfl | rfl)
    · exact answer 0x02#8 rfl
    · exact answer 0x03#8 rfl
    · exact answer 0x04#8 rfl
    · exact answer 0x05#8 rfl

end Sys2Proof.Machine
end

section
/-!
INIT (R140, R141) under explicit answers.
-/
namespace Sys2Proof.Machine

/-- INIT accepted, the identity forgotten. -/
def initHead (s : State) : State :=
  { s with op := 0x01#8, lasterr := .none, blockcount := 0#16, vendor := 0#8, capcode := 0#8, fast := .unset }

theorem exec_init_eq {s : State} (hr : Ready s) : exec .init s = .next ((runInit (accept 0x01#8 s)).settle freeResult) := by
  obtain ⟨hf, hq, -⟩ := hr
  rw [exec, execInit, guarded_run hf hq]

/-- INIT that has identified nothing. -/
def NotIdentified (k : ErrKind) (es : List Event) (s t : State) : Prop :=
  t.blockcount = 0#16 ∧ t.vendor = 0#8 ∧ t.capcode = 0#8 ∧ t.fast = .unset ∧ t.result = 0#32 ∧ t.lasterr = k ∧ t.seq = .idle ∧
    t.fault = s.fault ∧ t.trace = s.trace ++ es

theorem notIdentified_of_ported {es : List Event} {rest : List (Option Answer)} {s t : State} (h : Ported es rest (initHead s) t)
    (k : ErrKind) : NotIdentified k es s (raiseErr k t) := by
  obtain ⟨_, _, _, _, _, rfl⟩ := h
  exact ⟨rfl, rfl, rfl, rfl, rfl, rfl, rfl, rfl, rfl⟩

theorem identify_of_rejected {id0 id1 id2 : Byte} {u : State} (h : id0 ≠ u.cfg.vendorMarker ∨ lookup u.cfg id2 = none) :
    identify [id0, id1, id2] u = .done () (raiseErr .unsupportedDevice u) := by
  by_cases marker : id0 = u.cfg.vendorMarker
  · have unknown := h.resolve_left (not_not.mpr marker)
    rw [identify, if_pos marker, unknown]
  · rw [identify, if_neg marker]

theorem identify_of_known {id0 id1 id2 : Byte} {blocks : BitVec 16} {u : State} (marker : id0 = u.cfg.vendorMarker)
    (known : lookup u.cfg id2 = some blocks) :
    identify [id0, id1, id2] u =
      (readAllStatus (setIdentity blocks id0 id2 u)).bind fun _ t => .done () (complete 1#32 t) := by
  rw [identify, if_pos marker, known]

section
variable {s : State} (hd : s.depth < s.cfg.depthMax)
include hd

theorem runInit_of_disableCut {as rest : List (Option Answer)} {es : List Event} (cut : FrameCut s [0x04#8] as es)
    (hs : s.script = as ++ rest) : NotIdentified .deviceAbsent es s ((runInit (accept 0x01#8 s)).settle freeResult) := by
  obtain ⟨t, run, ported⟩ := sendSession_ported_of_cut (s := setSeq .wrdi (initHead s)) hd cut hs
  have done : runInit (accept 0x01#8 s) = .done () (raiseErr .deviceAbsent t) := by
    rw [runInit, uWRDI]
    exact (congrArg (Run.bind · _) run).trans rfl
  rw [done]
  exact notIdentified_of_ported ported _

/-- Past a complete write disable the ID frame decides. -/
theorem runInit_of_disabled {wa rest : List (Option Answer)} {we : List Event} (disable : FrameSent s [0x04#8] wa we)
    (hs : s.script = wa ++ rest) :
    ∃ t, Ported we rest (initHead s) t ∧
      (∀ id u, uRDID (setSeq .ident t) = .done (some id) u → runInit (accept 0x01#8 s) = identify id u) ∧
      ∀ u, uRDID (setSeq .ident t) = .done none u → runInit (accept 0x01#8 s) = .done () (raiseErr .deviceAbsent u) := by
  obtain ⟨t, run, ported⟩ := sendSession_ported_of_sent (s := setSeq .wrdi (initHead s)) hd disable hs
  have next : runInit (accept 0x01#8 s) = (uRDID (setSeq .ident t)).bind fun r u =>
      match r with
      | some id => identify id u
      | none => .done () (raiseErr .deviceAbsent u) := by
    rw [runInit, uWRDI]
    exact (congrArg (Run.bind · _) run).trans rfl
  exact ⟨t, ported, fun id u h => by rw [next, h, Run.bind_done], fun u h => by rw [next, h, Run.bind_done]⟩

theorem runInit_of_idCut {wa ia rest : List (Option Answer)} {we ie : List Event} (disable : FrameSent s [0x04#8] wa we)
    (cut : FrameCut s [0x9F#8, s.cfg.dummy, s.cfg.dummy, s.cfg.dummy] ia ie) (hs : s.script = wa ++ ia ++ rest) :
    NotIdentified .deviceAbsent (we ++ ie) s ((runInit (accept 0x01#8 s)).settle freeResult) := by
  obtain ⟨t, ported, -, absent⟩ := runInit_of_disabled hd disable (hs.trans (List.append_assoc ..))
  have cut' : FrameCut t ([0x9F#8] ++ List.replicate 3 t.cfg.dummy) ia ie := by
    obtain ⟨_, _, _, _, _, rfl⟩ := ported
    exact cut
  obtain ⟨u, run, after⟩ := recvSession_ported_of_cut (s := setSeq .ident t) (ported.room hd) cut' ported.script
  rw [absent u run]
  exact notIdentified_of_ported (ported.trans after) _

variable {r0 r1 id0 id1 id2 : Byte} {rest : List (Option Answer)}

/-- The events of the write disable and of the ID frame, both complete. -/
def identEvents (s : State) (r0 r1 id0 id1 id2 : Byte) : List Event :=
  inSession s (exchanged [0x04#8] [r0]) ++
    inSession s (exchanged [0x9F#8, s.cfg.dummy, s.cfg.dummy, s.cfg.dummy] [r1, id0, id1, id2])

theorem runInit_of_id (hs : s.script = oks [r0, r1, id0, id1, id2] ++ rest) :
    ∃ t, runInit (accept 0x01#8 s) = identify [id0, id1, id2] t ∧ Ported (identEvents s r0 r1 id0 id1 id2) rest (initHead s) t := by
  obtain ⟨t, ported, identified, -⟩ := runInit_of_disabled (wa := oks [r0]) (rest := oks [r1, id0, id1, id2] ++ rest) hd
    ⟨[r0], rfl, rfl, rfl⟩ hs
  obtain ⟨u, run, after⟩ := recvSession_ported_of_sent (s := setSeq .ident t) (tx := [0x9F#8]) (n := 3) (ra := [r1])
    (rb := [id0, id1, id2]) (ported.room hd) ported.script rfl rfl
  refine ⟨u, identified _ u run, ported.trans ?_⟩
  obtain ⟨_, _, _, _, _, rfl⟩ := ported
  exact after

end

/-- Settles O22: the write-disable frame cut, and the ID frame cut at any of its exchanges. -/
theorem initAbsent : Obligations.InitAbsent := by
  unfold Obligations.InitAbsent
  refine ⟨fun s n l rest hr hs => ?_, fun s r0 rs n l rest hr hs hlen => ?_⟩
  · obtain ⟨blocks, vendor, capcode, fast, result, lasterr, seq, -, trace⟩ :=
      runInit_of_disableCut hr.2.2 (frameCut_first s 0x04#8 [] n l) hs
    exact ⟨_, exec_init_eq hr, blocks, vendor, capcode, fast, result, lasterr, seq, trace⟩
  · have cut : FrameCut s [0x9F#8, s.cfg.dummy, s.cfg.dummy, s.cfg.dummy] (oks rs ++ [some (.fail n l)])
        (inSession s (exchanged [0x9F#8, s.cfg.dummy, s.cfg.dummy, s.cfg.dummy] rs ++
          [.xferFail (if rs = [] then 0x9F#8 else s.cfg.dummy)])) := by
      match rs, hlen with
      | [], _ => exact ⟨[], _, _, [], n, l, rfl, rfl, rfl, rfl⟩
      | [a], _ => exact ⟨[_], _, _, [a], n, l, rfl, rfl, rfl, rfl⟩
      | [a, b], _ => exact ⟨[_, _], _, _, [a, b], n, l, rfl, rfl, rfl, rfl⟩
      | [a, b, c], _ => exact ⟨[_, _, _], _, _, [a, b, c], n, l, rfl, rfl, rfl, rfl⟩
    obtain ⟨blocks, vendor, capcode, fast, result, lasterr, seq, -, trace⟩ :=
      runInit_of_idCut (wa := oks [r0]) (rest := rest) hr.2.2 ⟨[r0], rfl, rfl, rfl⟩ cut (hs.trans (by simp))
    exact ⟨_, exec_init_eq hr, blocks, vendor, capcode, fast, result, lasterr, seq, trace.trans (List.append_assoc ..).symm⟩

/-- Settles O21: the ID bytes of another vendor or of an unknown capacity. -/
theorem initRejects : Obligations.InitRejects := by
  unfold Obligations.InitRejects
  intro s r0 r1 id0 id1 id2 rest hr hs rejected
  obtain ⟨t, run, ported⟩ := runInit_of_id hr.2.2 hs
  have same : t.cfg = s.cfg := ported.cfg
  obtain ⟨blocks, vendor, capcode, fast, result, lasterr, seq, fault, trace⟩ := notIdentified_of_ported ported .unsupportedDevice
  rw [exec_init_eq hr, run, identify_of_rejected (by rw [same]; exact rejected)]
  exact ⟨_, rfl, blocks, vendor, capcode, fast, result, lasterr, seq, fault.trans hr.1, trace.trans (List.append_assoc ..).symm⟩

/-! The three status reads. -/

/-- The events of the three status reads, all complete. -/
def statusEvents (s : State) (x1 b1 x2 b2 x3 b3 : Byte) : List Event :=
  inSession s (exchanged [0x05#8, s.cfg.dummy] [x1, b1]) ++ inSession s (exchanged [0x35#8, s.cfg.dummy] [x2, b2]) ++
    inSession s (exchanged [0x15#8, s.cfg.dummy] [x3, b3])

section
variable {s : State} (hd : s.depth < s.cfg.depthMax)
include hd

theorem uRDSR_ported_of_sent (n : StatusReg) {x b : Byte} {rest : List (Option Answer)} (hs : s.script = oks [x, b] ++ rest) :
    ∃ t, uRDSR n s = .done (some b) t ∧
      Ported (inSession s (exchanged [rdsrOpc n, s.cfg.dummy] [x, b])) rest (setStatus n b s) t := by
  refine ⟨_, uRDSR_ok hd hs, ?_⟩
  cases n <;> exact ⟨_, _, _, _, _, rfl⟩

theorem uRDSR_ported_of_fail (n : StatusReg) {k : Nat} {l : List Byte} {rest : List (Option Answer)}
    (hs : s.script = some (.fail k l) :: rest) :
    ∃ t, uRDSR n s = .done none t ∧ Ported (inSession s [.xferFail (rdsrOpc n)]) rest s t := by
  obtain ⟨bytes, m, run⟩ := uRDSR_cut (k := n) hd (frameCut_first s _ _ k l) hs
  exact ⟨_, run, _, _, _, _, _, rfl⟩

theorem readAllStatus_of_sent {x1 b1 x2 b2 x3 b3 : Byte} {rest : List (Option Answer)}
    (hs : s.script = oks [x1, b1, x2, b2, x3, b3] ++ rest) :
    ∃ t, readAllStatus s = .done () t ∧
      Ported (statusEvents s x1 b1 x2 b2 x3 b3) rest
        (setStatus .sr3 b3 (setStatus .sr2 b2 (setStatus .sr1 b1 s))) t := by
  obtain ⟨t1, run1, ported1⟩ := uRDSR_ported_of_sent (s := setSeq .status s) hd .sr1 (rest := oks [x2, b2, x3, b3] ++ rest) hs
  obtain ⟨t2, run2, ported2⟩ := uRDSR_ported_of_sent (ported1.room hd) .sr2 (rest := oks [x3, b3] ++ rest) ported1.script
  have two := (ported1.setStatus .sr2 b2).trans ported2
  obtain ⟨t3, run3, ported3⟩ := uRDSR_ported_of_sent (two.room hd) .sr3 (rest := rest) ported2.script
  refine ⟨t3, by rw [readAllStatus, run1, Run.bind_done, run2, Run.bind_done, run3, Run.bind_done], ?_⟩
  have all := (two.setStatus .sr3 b3).trans ported3
  obtain ⟨_, _, _, _, _, rfl⟩ := ported1
  obtain ⟨_, _, _, _, _, rfl⟩ := ported2
  exact all

theorem readAllStatus_of_fails {k1 k2 k3 : Nat} {l1 l2 l3 : List Byte} {rest : List (Option Answer)}
    (hs : s.script = some (.fail k1 l1) :: some (.fail k2 l2) :: some (.fail k3 l3) :: rest) :
    ∃ t es, readAllStatus s = .done () t ∧ Ported es rest s t := by
  obtain ⟨t1, run1, ported1⟩ := uRDSR_ported_of_fail (s := setSeq .status s) hd .sr1 hs
  obtain ⟨t2, run2, ported2⟩ := uRDSR_ported_of_fail (ported1.room hd) .sr2 ported1.script
  obtain ⟨t3, run3, ported3⟩ := uRDSR_ported_of_fail ((ported1.trans ported2).room hd) .sr3 ported2.script
  exact ⟨t3, _, by rw [readAllStatus, run1, Run.bind_done, run2, Run.bind_done, run3, Run.bind_done],
    (ported1.trans ported2).trans ported3⟩

end

/-- Settles O20: the three status reads after the identity, whole or failed. -/
theorem initIdentifies : Obligations.InitIdentifies := by
  unfold Obligations.InitIdentifies
  refine ⟨fun s r0 r1 id0 id1 id2 x1 b1 x2 b2 x3 b3 blocks rest hr hs marker known => ?_,
    fun s r0 r1 id0 id1 id2 n1 n2 n3 l1 l2 l3 blocks rest hr hs marker known => ?_⟩
  · obtain ⟨t, run, ported⟩ := runInit_of_id (rest := oks [x1, b1, x2, b2, x3, b3] ++ rest) hr.2.2 hs
    obtain ⟨v, status, after⟩ := readAllStatus_of_sent (s := setIdentity blocks id0 id2 t) (ported.room hr.2.2) ported.script
    have same : t.cfg = s.cfg := ported.cfg
    rw [exec_init_eq hr, run, identify_of_known (by rw [same]; exact marker) (by rw [same]; exact known), status]
    obtain ⟨_, _, _, _, _, rfl⟩ := ported
    obtain ⟨_, _, _, _, _, rfl⟩ := after
    refine ⟨_, rfl, rfl, rfl, rfl, rfl, rfl, rfl, rfl, rfl, rfl, rfl, hr.1, rfl, ?_⟩
    show s.trace ++ identEvents s r0 r1 id0 id1 id2 ++ statusEvents s x1 b1 x2 b2 x3 b3 = _
    simp only [identEvents, statusEvents, List.append_assoc]
  · obtain ⟨t, run, ported⟩ := runInit_of_id (rest := some (.fail n1 l1) :: some (.fail n2 l2) :: some (.fail n3 l3) :: rest) hr.2.2 hs
    obtain ⟨v, es, status, after⟩ := readAllStatus_of_fails (s := setIdentity blocks id0 id2 t) (ported.room hr.2.2) ported.script
    have same : t.cfg = s.cfg := ported.cfg
    rw [exec_init_eq hr, run, identify_of_known (by rw [same]; exact marker) (by rw [same]; exact known), status]
    obtain ⟨_, _, _, _, _, rfl⟩ := ported
    obtain ⟨_, _, _, _, _, rfl⟩ := after
    exact ⟨_, rfl, rfl, rfl, rfl, rfl, rfl, rfl, rfl⟩

end Sys2Proof.Machine
end

section
/-!
The reference device (R82, R84, R85): what a collected program or erase command does to each cell.
-/
namespace Sys2Proof.Machine

/-! Programming with wrap-around inside the page. -/

/-- The place of cell `x` in a program of the page from `a`: its distance from `a`, round the page (R84). -/
def pageIndex (a x : Nat) : Nat := (x + 256 - a % 256) % 256

theorem eq_programTarget_iff {a i x : Nat} (hi : i < 256) :
    x = a - a % 256 + (a + i) % 256 ↔ x / 256 = a / 256 ∧ pageIndex a x = i := by
  unfold pageIndex
  omega

/-- Each byte of the page is the AND of what was there and its data byte; every other address is unchanged. -/
theorem memRead_programCells_wrapping {m : List Host.Cell} (hm : MemWf m) (a i : Nat) (data : List Byte) (hfit : i + data.length ≤ 256)
    (x : Nat) : memRead (programCells m a i data) x =
      if x / 256 = a / 256 ∧ i ≤ pageIndex a x ∧ pageIndex a x < i + data.length then
        memRead m x &&& data.getD (pageIndex a x - i) 0#8
      else memRead m x := by
  induction data generalizing m i with
  | nil => exact (if_neg (by rw [List.length_nil]; omega)).symm
  | cons b data ih =>
    rw [List.length_cons] at hfit ⊢
    rw [programCells, ih (memWrite_wf hm _ _) (i + 1) (by omega), memRead_memWrite hm]
    have target := eq_programTarget_iff (a := a) (x := x) (i := i) (by omega)
    by_cases first : x = a - a % 256 + (a + i) % 256
    · obtain ⟨page, index⟩ := target.mp first
      rw [if_pos first, ← first, if_neg (by omega), if_pos (by omega), index, Nat.sub_self, List.getD_cons_zero]
    · rw [if_neg first]
      by_cases later : x / 256 = a / 256 ∧ i + 1 ≤ pageIndex a x ∧ pageIndex a x < i + 1 + data.length
      · rw [if_pos later, if_pos (by omega), show pageIndex a x - i = pageIndex a x - (i + 1) + 1 by omega, List.getD_cons_succ]
      · rw [if_neg later, if_neg (by have := mt target.mpr first; omega)]

/-! The command that takes effect. -/

section
variable {d : Flash} {op : Byte} {rest : List Byte} (hs : d.session = op :: rest) (hidle : d.busyLeft = 0)
include hs

theorem Flash.effect_of_busy (busy : d.busyLeft ≠ 0) : d.effect = d := by
  rw [Flash.effect, hs]
  exact if_pos busy

include hidle

theorem Flash.effect_of_program {w : Nat} (h : op = 0x02#8 ∧ w = 3 ∨ op = 0x12#8 ∧ w = 4) : d.effect = d.program w rest := by
  rw [Flash.effect, hs]
  obtain ⟨rfl, rfl⟩ | ⟨rfl, rfl⟩ := h <;> simp [hidle]

theorem Flash.effect_of_erase {w n : Nat} (h : op = 0x20#8 ∧ w = 3 ∧ n = 4096 ∨ op = 0x21#8 ∧ w = 4 ∧ n = 4096 ∨
    op = 0xD8#8 ∧ w = 3 ∧ n = 65536 ∨ op = 0xDC#8 ∧ w = 4 ∧ n = 65536) : d.effect = d.erase w n rest := by
  rw [Flash.effect, hs]
  obtain ⟨rfl, rfl, rfl⟩ | ⟨rfl, rfl, rfl⟩ | ⟨rfl, rfl, rfl⟩ | ⟨rfl, rfl, rfl⟩ := h <;> simp [hidle]

theorem Flash.effect_of_eraseAll (h : op = 0xC7#8) : d.effect = d.eraseAll := by
  rw [Flash.effect, hs]
  subst h
  simp [hidle]

end

theorem Flash.program_of_latch {d : Flash} {w : Nat} {rest : List Byte} (hw : d.wel = true) (hl : w < rest.length) :
    d.program w rest = { d with mem := programCells d.mem (d.addrIn w rest) 0 (rest.drop w), wel := false, busyLeft := d.refBusy } :=
  if_pos ⟨hw, hl⟩

theorem Flash.erase_of_latch {d : Flash} {w : Nat} (n : Nat) {rest : List Byte} (hw : d.wel = true) (hl : w ≤ rest.length) :
    d.erase w n rest =
      { d with mem := memErase d.mem (d.addrIn w rest - d.addrIn w rest % n) n, wel := false, busyLeft := d.refBusy } :=
  if_pos ⟨hw, hl⟩

/-- Without the latch no program or erase command takes effect. -/
theorem Flash.effect_of_no_latch {d : Flash} {op : Byte} {rest : List Byte} (hs : d.session = op :: rest)
    (hop : op ∈ [0x02#8, 0x12#8, 0x20#8, 0x21#8, 0xD8#8, 0xDC#8, 0xC7#8]) (hw : d.wel = false) : d.effect = d := by
  by_cases busy : d.busyLeft ≠ 0
  · exact Flash.effect_of_busy hs busy
  · have idle := not_not.mp busy
    have unlatched {p : Prop} : ¬(d.wel = true ∧ p) := fun h => absurd (hw.symm.trans h.1) (by decide)
    have erased {w n : Nat} : d.erase w n rest = d := if_neg unlatched
    have programmed {w : Nat} : d.program w rest = d := if_neg unlatched
    simp only [List.mem_cons, List.not_mem_nil, or_false] at hop
    obtain h | h | h | h | h | h | h := hop
    · rw [Flash.effect_of_program hs idle (.inl ⟨h, rfl⟩), programmed]
    · rw [Flash.effect_of_program hs idle (.inr ⟨h, rfl⟩), programmed]
    · rw [Flash.effect_of_erase hs idle (.inl ⟨h, rfl, rfl⟩), erased]
    · rw [Flash.effect_of_erase hs idle (.inr (.inl ⟨h, rfl, rfl⟩)), erased]
    · rw [Flash.effect_of_erase hs idle (.inr (.inr (.inl ⟨h, rfl, rfl⟩))), erased]
    · rw [Flash.effect_of_erase hs idle (.inr (.inr (.inr ⟨h, rfl, rfl⟩))), erased]
    · rw [Flash.effect_of_eraseAll hs idle h]
      exact if_neg (Bool.eq_false_iff.mp hw)

/-- The address bytes of either width, as the device reads them. -/
theorem natOfBytes_sent {sent : List Byte} {a w : Nat}
    (h : (∃ b2 b1 b0 : Byte, w = 3 ∧ sent = [b2, b1, b0] ∧ a = b2.toNat * 65536 + b1.toNat * 256 + b0.toNat) ∨
      ∃ b3 b2 b1 b0 : Byte, w = 4 ∧ sent = [b3, b2, b1, b0] ∧
        a = b3.toNat * 16777216 + b2.toNat * 65536 + b1.toNat * 256 + b0.toNat) :
    sent.length = w ∧ natOfBytes sent = a ∧ (w = 3 ∨ w = 4) := by
  obtain ⟨b2, b1, b0, rfl, rfl, rfl⟩ | ⟨b3, b2, b1, b0, rfl, rfl, rfl⟩ := h
  · refine ⟨rfl, ?_, .inl rfl⟩
    simp only [natOfBytes, List.foldl]
    omega
  · refine ⟨rfl, ?_, .inr rfl⟩
    simp only [natOfBytes, List.foldl]
    omega

section
variable {d : Flash} {sent : List Byte} {a w : Nat} (hl : sent.length = w) (ha : natOfBytes sent = a) (hsize : a < d.size)
include hl ha hsize

theorem Flash.addrIn_of_sent (data : List Byte) : d.addrIn w (sent ++ data) = a := by
  rw [Flash.addrIn, List.take_left' hl, ha, Nat.mod_eq_of_lt hsize]

variable (hm : MemWf d.mem) (hw : d.wel = true) (hidle : d.busyLeft = 0)
include hw hidle

include hm in
theorem Flash.effect_stores_program {op : Byte} (hop : op = 0x02#8 ∧ w = 3 ∨ op = 0x12#8 ∧ w = 4) {data : List Byte} (hd : data ≠ [])
    (hfit : data.length ≤ 256) (hs : d.session = op :: (sent ++ data)) :
    d.effect.wel = false ∧ d.effect.busyLeft = d.refBusy ∧ ∀ x, memRead d.effect.mem x =
      if x / 256 = a / 256 ∧ pageIndex a x < data.length then memRead d.mem x &&& data.getD (pageIndex a x) 0#8
      else memRead d.mem x := by
  have pos := List.length_pos_iff.mpr hd
  rw [Flash.effect_of_program hs hidle hop, Flash.program_of_latch hw (by rw [List.length_append]; omega),
    Flash.addrIn_of_sent hl ha hsize, List.drop_left' hl]
  refine ⟨rfl, rfl, fun x => (memRead_programCells_wrapping hm a 0 data (by omega) x).trans ?_⟩
  simp

theorem Flash.effect_stores_erase {op : Byte} {n : Nat} (hn : 0 < n)
    (hop : op = 0x20#8 ∧ w = 3 ∧ n = 4096 ∨ op = 0x21#8 ∧ w = 4 ∧ n = 4096 ∨ op = 0xD8#8 ∧ w = 3 ∧ n = 65536 ∨
      op = 0xDC#8 ∧ w = 4 ∧ n = 65536) (hs : d.session = op :: sent) :
    d.effect.wel = false ∧ d.effect.busyLeft = d.refBusy ∧
      ∀ x, memRead d.effect.mem x = if x / n = a / n then erasedByte else memRead d.mem x := by
  have addr := Flash.addrIn_of_sent hl ha hsize []
  rw [List.append_nil] at addr
  rw [Flash.effect_of_erase hs hidle hop, Flash.erase_of_latch n hw hl.ge, addr]
  refine ⟨rfl, rfl, fun x => (memRead_memErase ..).trans (if_congr ?_ rfl rfl)⟩
  have unit : a - a % n = a / n * n := by
    have := Nat.div_add_mod' a n
    omega
  rw [unit, Nat.div_eq_iff hn]
  omega

end

/-- Settles O59: program, erase of a unit and erase of the device, each by its own command. -/
theorem refFlashStores : Obligations.RefFlashStores := by
  unfold Obligations.RefFlashStores
  refine ⟨fun d sent a w hm hw hidle hsize h => ?units, fun d hw hidle hs => ?chip, fun d op more hs hop h => ?ignored⟩
  case units =>
    obtain ⟨hl, ha, width⟩ := natOfBytes_sent h
    refine ⟨fun data hd hfit hs => ?_, fun hs => ?_, fun hs => ?_⟩
    · refine Flash.effect_stores_program hl ha hsize hm hw hidle ?_ hd hfit hs
      rcases width with rfl | rfl <;> simp
    · refine Flash.effect_stores_erase hl ha hsize hw hidle (n := 4096) (by decide) ?_ hs
      rcases width with rfl | rfl <;> simp
    · refine Flash.effect_stores_erase hl ha hsize hw hidle (n := 65536) (by decide) ?_ hs
      rcases width with rfl | rfl <;> simp
  case chip =>
    rw [Flash.effect_of_eraseAll hs hidle rfl, Flash.eraseAll, if_pos hw]
    exact ⟨rfl, rfl, fun x => rfl⟩
  case ignored =>
    obtain h | busy := h
    · exact Flash.effect_of_no_latch hs hop h
    · exact Flash.effect_of_busy hs busy

end Sys2Proof.Machine
end

section
/-!
Transfers, frames and procedures when the reference device answers (log 1) and is not busy: every transfer succeeds, and the device has
collected what was sent.
-/
namespace Sys2Proof.Machine

/-! The device. -/

/-- The device is not busy, nor will it be; its size, its cells and its latch. -/
def Holding (blocks : Nat) (m : List Host.Cell) (wel : Bool) (d : Flash) : Prop :=
  d.busyLeft = 0 ∧ d.refBusy = 0 ∧ d.refBlocks = blocks ∧ d.mem = m ∧ d.wel = wel

section
variable {blocks : Nat} {m : List Host.Cell} {wel : Bool} {d : Flash} (h : Holding blocks m wel d)
include h

theorem Holding.exchange (tx : Byte) : Holding blocks m wel (d.exchange tx).2 := by
  obtain ⟨busy, refBusy, size, mem, latch⟩ := h
  unfold Flash.exchange
  split
  · refine ⟨?_, refBusy, size, mem, latch⟩
    show (if d.answersStatus1 then d.busyLeft - 1 else d.busyLeft) = 0
    rw [busy, ite_self]
  · exact ⟨busy, refBusy, size, mem, latch⟩

theorem Holding.exchangeAll (bytes : List Byte) : Holding blocks m wel (d.exchangeAll bytes).2 := by
  induction bytes generalizing d with
  | nil => exact h
  | cons b bytes ih => exact ih (h.exchange b)

/-- The device at the end of a session of `bytes`, before the line goes high. -/
theorem Holding.collected (bytes : List Byte) :
    Holding blocks m wel (d.csLow.exchangeAll bytes).2 ∧ (d.csLow.exchangeAll bytes).2.session = bytes :=
  ⟨Holding.exchangeAll (d := d.csLow) h bytes, (Flash.exchangeAll_session d.csLow bytes rfl).trans (List.nil_append _)⟩

theorem Holding.status1_idle : d.status1.getLsbD 0 = false := by
  obtain ⟨busy, -⟩ := h
  rw [Flash.status1, if_pos busy]
  cases d.wel <;> decide

end

/-- The device after a session of `bytes` (R82). -/
def afterSession (bytes : List Byte) (d : Flash) : Flash := (d.csLow.exchangeAll bytes).2.csHigh

theorem afterSession_eq (bytes : List Byte) (d : Flash) :
    afterSession bytes d = { (d.csLow.exchangeAll bytes).2.effect with selected := false, session := [] } :=
  if_pos ((Flash.exchangeAll_selected d.csLow bytes).trans rfl)

section
variable {blocks : Nat} {m : List Host.Cell} {wel : Bool} {d : Flash} (h : Holding blocks m wel d)
include h

theorem holding_after_wren : Holding blocks m true (afterSession [0x06#8] d) := by
  obtain ⟨⟨busy, refBusy, size, mem, -⟩, session⟩ := h.collected [0x06#8]
  have latched : (d.csLow.exchangeAll [0x06#8]).2.effect = { (d.csLow.exchangeAll [0x06#8]).2 with wel := true } := by
    rw [Flash.effect, session]
    exact if_neg (not_not.mpr busy)
  rw [afterSession_eq, latched]
  exact ⟨busy, refBusy, size, mem, rfl⟩

theorem holding_after_wrdi : Holding blocks m false (afterSession [0x04#8] d) := by
  obtain ⟨⟨busy, refBusy, size, mem, -⟩, session⟩ := h.collected [0x04#8]
  have cleared : (d.csLow.exchangeAll [0x04#8]).2.effect = { (d.csLow.exchangeAll [0x04#8]).2 with wel := false } := by
    rw [Flash.effect, session]
    exact if_neg (not_not.mpr busy)
  rw [afterSession_eq, cleared]
  exact ⟨busy, refBusy, size, mem, rfl⟩

/-- A status read and the four data reads change nothing. -/
theorem holding_after_read {op : Byte} (hop : op ∈ [0x05#8, 0x03#8, 0x13#8, 0x0B#8, 0x0C#8]) (rest : List Byte) :
    Holding blocks m wel (afterSession (op :: rest) d) := by
  obtain ⟨⟨busy, refBusy, size, mem, latch⟩, session⟩ := h.collected (op :: rest)
  have nothing : (d.csLow.exchangeAll (op :: rest)).2.effect = (d.csLow.exchangeAll (op :: rest)).2 := by
    rw [Flash.effect, session]
    simp only [List.mem_cons, List.not_mem_nil, or_false] at hop
    obtain rfl | rfl | rfl | rfl | rfl := hop <;> simp
  rw [afterSession_eq, nothing]
  exact ⟨busy, refBusy, size, mem, latch⟩

end

theorem holding_after_program {blocks : Nat} {m : List Host.Cell} {d : Flash} (h : Holding blocks m true d) {op : Byte} {w a : Nat}
    (hop : op = 0x02#8 ∧ w = 3 ∨ op = 0x12#8 ∧ w = 4) {addr data : List Byte} (hl : addr.length = w) (ha : natOfBytes addr = a)
    (hsize : a < blocks * 65536) (hd : data ≠ []) :
    Holding blocks (programCells m a 0 data) false (afterSession (op :: (addr ++ data)) d) := by
  obtain ⟨⟨busy, refBusy, size, mem, latch⟩, session⟩ := h.collected (op :: (addr ++ data))
  have pos := List.length_pos_iff.mpr hd
  rw [afterSession_eq, Flash.effect_of_program session busy hop, Flash.program_of_latch latch (by rw [List.length_append]; omega),
    Flash.addrIn_of_sent hl ha (by rw [Flash.size, size]; exact hsize), List.drop_left' hl]
  exact ⟨refBusy, refBusy, size, by rw [mem], rfl⟩

/-- The data of a read command: one byte of the cells for each exchange (R83). -/
theorem Flash.exchangeAll_answers {d : Flash} {op : Byte} {w y : Nat} {addr dummies more : List Byte} (hsel : d.selected = true)
    (hbusy : d.busyLeft = 0) (hs : d.session = op :: (addr ++ dummies ++ more)) (hl : addr.length = w) (hy : dummies.length = y)
    (hop : op = 0x03#8 ∧ w = 3 ∧ y = 0 ∨ op = 0x13#8 ∧ w = 4 ∧ y = 0 ∨ op = 0x0B#8 ∧ w = 3 ∧ y = 1 ∨ op = 0x0C#8 ∧ w = 4 ∧ y = 1)
    (x : Byte) (n : Nat) : (d.exchangeAll (List.replicate n x)).1 =
      (List.range n).map fun i => some (d.dataByte (natOfBytes addr) (more.length + i)) := by
  induction n generalizing d more with
  | zero => rfl
  | succ n ih =>
    have answer : d.answer = some (d.dataByte (natOfBytes addr) more.length) := by
      have read : d.answer = d.readAnswer w y (addr ++ dummies ++ more) := by
        rw [Flash.answer, hs]
        obtain ⟨rfl, rfl, rfl⟩ | ⟨rfl, rfl, rfl⟩ | ⟨rfl, rfl, rfl⟩ | ⟨rfl, rfl, rfl⟩ := hop <;> simp [hbusy]
      have length : (addr ++ dummies ++ more).length = w + y + more.length := by
        rw [List.length_append, List.length_append, hl, hy]
      rw [read, Flash.readAnswer, if_neg (by omega), length, List.append_assoc, List.take_left' hl, Nat.add_sub_cancel_left]
    have session : (d.exchange x).2.session = op :: (addr ++ dummies ++ (more ++ [x])) := by
      rw [Flash.exchange, if_pos hsel, hs]
      simp
    have busy : (d.exchange x).2.busyLeft = 0 := by
      rw [Flash.exchange, if_pos hsel, hbusy]
      exact ite_self _
    have data (i : Nat) : (d.exchange x).2.dataByte (natOfBytes addr) i = d.dataByte (natOfBytes addr) i := by
      rw [Flash.dataByte, Flash.dataByte, (d.exchange_same x).mem, Flash.size_congr (d.exchange_same x).refBlocks]
    have first : (d.exchange x).1 = some (d.dataByte (natOfBytes addr) more.length) := by
      rw [Flash.exchange, if_pos hsel, answer]
    rw [List.replicate_succ, Flash.exchangeAll, List.range_succ_eq_map, List.map_cons, List.map_map]
    simp only
    rw [ih ((d.exchange_same x).selected.trans hsel) busy session, first]
    refine congrArg (List.cons _) (List.map_congr_left fun i _ => ?_)
    rw [data, List.length_append, List.length_singleton, Nat.add_assoc, Nat.add_comm 1 i]
    rfl

end Sys2Proof.Machine
end

section
/-!
The round trip on the reference device (R65, R309): a WRITEPAGE of erased cells and the READ of the same range, both answered by the
device.
-/
namespace Sys2Proof.Machine

/-! Transfers. -/

/-- The reference device answers every transfer to come. -/
def DeviceAnswers (s : State) : Prop := s.script = [] ∧ s.refDevice = true

/-- `t` is `s` after transfers in which the device has collected `bytes`. -/
def Seen (bytes : List Byte) (s t : State) : Prop :=
  ∃ count trace phase, t = { s with dev := (s.dev.exchangeAll bytes).2, count := count, trace := trace, seq := phase }

theorem Seen.trans {as bs : List Byte} {s t u : State} (h : Seen as s t) (k : Seen bs t u) : Seen (as ++ bs) s u := by
  obtain ⟨_, _, _, rfl⟩ := h
  obtain ⟨count, trace, phase, rfl⟩ := k
  refine ⟨count, trace, phase, ?_⟩
  rw [Flash.exchangeAll_append]

theorem Seen.answers {bytes : List Byte} {s t : State} (h : Seen bytes s t) (k : DeviceAnswers s) : DeviceAnswers t := by
  obtain ⟨_, _, _, rfl⟩ := h
  exact k

theorem Seen.dev {bytes : List Byte} {s t : State} (h : Seen bytes s t) : t.dev = (s.dev.exchangeAll bytes).2 := by
  obtain ⟨_, _, _, rfl⟩ := h
  rfl

section
variable {s : State} (h : DeviceAnswers s)
include h

theorem nextAnswer_of_device : nextAnswer s = none := by
  obtain ⟨script, device⟩ := h
  rw [nextAnswer, script, device]
  rfl

/-- A transfer that uses up an answer of the device. -/
theorem seen_useAnswer (e : Event) (bytes : List Byte) : Seen bytes s (emit e (useAnswer (deviceSees bytes s))) := by
  refine ⟨s.count + 1, s.trace ++ [e], s.seq, ?_⟩
  simp [emit, useAnswer, deviceSees, h.1]

theorem xfer_of_device (tx : Byte) :
    ∃ t, xfer tx s = (some ((s.dev.exchange tx).1.getD (Config.freeByte s.count 0)), t) ∧ Seen [tx] s t := by
  refine ⟨_, ?_, seen_useAnswer h (.xfer tx ((s.dev.exchange tx).1.getD (Config.freeByte s.count 0))) [tx]⟩
  rw [xfer, nextAnswer_of_device h]

theorem sendAll_of_device (tx : List Byte) : ∃ t, sendAll tx s = (true, t) ∧ Seen tx s t := by
  induction tx generalizing s with
  | nil => exact ⟨s, rfl, s.count, s.trace, s.seq, rfl⟩
  | cons b tx ih =>
    obtain ⟨t, run, seen⟩ := xfer_of_device h b
    obtain ⟨u, more, later⟩ := ih (seen.answers h)
    refine ⟨u, ?_, seen.trans later⟩
    rw [sendAll, run]
    exact more

theorem bulkTx_of_device (data : List Byte) : ∃ t, bulkTx data s = (true, t) ∧ Seen data s t := by
  refine ⟨_, ?_, seen_useAnswer h (.bulkTx data data.length) data⟩
  rw [bulkTx, nextAnswer_of_device h]

theorem bulkRx_of_device (n : Nat) :
    ∃ t, bulkRx n s = (some (deviceBytes n s), t) ∧ Seen (List.replicate n s.cfg.dummy) s t := by
  refine ⟨_, ?_, seen_useAnswer h (.bulkRx n n (deviceBytes n s)) (List.replicate n s.cfg.dummy)⟩
  rw [bulkRx, nextAnswer_of_device h]

end

theorem readFrame_of_device {s : State} (h : DeviceAnswers s) (tx ds : List Byte) (n : Nat) :
    ∃ u v, readFrame tx ds n s = (some (deviceBytes n u), v) ∧ Seen (tx ++ ds) s u ∧
      Seen (tx ++ ds ++ List.replicate n u.cfg.dummy) s v := by
  obtain ⟨t, sent, seen⟩ := sendAll_of_device h tx
  obtain ⟨q, phase⟩ := dummyPhase_eq ds t
  obtain ⟨u, dummies, later⟩ := sendAll_of_device (s := { t with seq := q }) (seen.answers h) ds
  have both : Seen (tx ++ ds) s u := Seen.trans (t := { t with seq := q })
    (by obtain ⟨count, trace, _, rfl⟩ := seen; exact ⟨count, trace, q, rfl⟩) later
  obtain ⟨v, received, last⟩ := bulkRx_of_device (s := setSeq .data u) (both.answers h) n
  have data : Seen (tx ++ ds) s (setSeq .data u) := by
    obtain ⟨count, trace, _, rfl⟩ := both
    exact ⟨count, trace, .data, rfl⟩
  refine ⟨setSeq .data u, v, ?_, data, data.trans last⟩
  rw [readFrame, sent]
  simp only
  rw [phase, dummies]
  exact received

/-- The bytes of a bulk receive of a read command are the cells from its address on. -/
theorem deviceBytes_of_answers {s : State} {a n : Nat}
    (answers : (s.dev.exchangeAll (List.replicate n s.cfg.dummy)).1 = (List.range n).map fun i => some (s.dev.dataByte a i))
    (fits : a + n ≤ s.dev.size) : deviceBytes n s = memReadRange s.dev.mem a n := by
  rw [deviceBytes, answers, memReadRange]
  refine List.ext_getElem (by simp) fun i hi _ => ?_
  have inside : i < n := by simpa using hi
  simp only [List.getElem_mapIdx, List.getElem_map, List.getElem_range, Option.getD_some, Flash.dataByte]
  rw [Nat.mod_eq_of_lt (by omega)]

/-! Sessions. -/

/-- The device answers, the line is free, and the device holds the cells `m` and the latch `wel`. -/
def OnDevice (m : List Host.Cell) (wel : Bool) (s : State) : Prop :=
  DeviceAnswers s ∧ s.depth = 0 ∧ 0 < s.cfg.depthMax ∧ Holding s.blockcount.toNat m wel s.dev

/-- `t` is `s` but for what frames, polls and phases change. -/
def After (s t : State) : Prop :=
  ∃ line dev count phase cur trace sr1,
    t = { s with cs := line, dev := dev, count := count, seq := phase, cur := cur, trace := trace, sr1 := sr1 }

theorem After.trans {s t u : State} (h : After s t) (k : After t u) : After s u := by
  obtain ⟨_, _, _, _, _, _, _, rfl⟩ := h
  obtain ⟨line, dev, count, phase, cur, trace, sr1, rfl⟩ := k
  exact ⟨line, dev, count, phase, cur, trace, sr1, rfl⟩

section
variable {m : List Host.Cell} {wel : Bool} {s : State} (h : OnDevice m wel s)
include h

theorem opened_of_onDevice : DeviceAnswers (opened s) ∧ (opened s).dev = s.dev.csLow := by
  obtain ⟨answers, depth, -⟩ := h
  rw [opened_of_outermost depth]
  exact ⟨answers, rfl⟩

theorem session_of_seen {α : Type} {frame : State → α × State} {a : α} {t : State} {bytes : List Byte} {m' : List Host.Cell}
    {wel' : Bool} (run : frame (opened s) = (a, t)) (seen : Seen bytes (opened s) t)
    (holds : Holding s.blockcount.toNat m' wel' (afterSession bytes s.dev)) :
    ∃ u, session frame s = .done a u ∧ After s u ∧ OnDevice m' wel' u := by
  obtain ⟨answers, depth, room, -⟩ := h
  obtain ⟨count, trace, phase, rfl⟩ := seen
  have inside : (frame (opened s)).2.depth = s.depth + 1 := by rw [run]; exact opened_depth s
  refine ⟨closed (frame (opened s)).2, ?_, ?_⟩
  · rw [session_eq inside, if_neg (by omega), run]
  · rw [run, closed_of_outermost (by show (opened s).depth = 1; rw [opened_depth, depth]), opened_of_outermost depth]
    exact ⟨⟨_, _, _, _, _, _, s.sr1, by rw [← depth]; rfl⟩, answers, rfl, room, holds⟩

theorem uWREN_of_device : ∃ t, uWREN s = .done true t ∧ After s t ∧ OnDevice m true t := by
  obtain ⟨t, run, seen⟩ := sendAll_of_device (opened_of_onDevice h).1 [0x06#8]
  exact session_of_seen h run seen (holding_after_wren h.2.2.2)

theorem uWRDI_of_device : ∃ ok t, uWRDI s = .done ok t ∧ After s t ∧ OnDevice m false t := by
  obtain ⟨t, run, seen⟩ := sendAll_of_device (opened_of_onDevice h).1 [0x04#8]
  exact ⟨true, session_of_seen h run seen (holding_after_wrdi h.2.2.2)⟩

/-- A poll of the device, which is not busy. -/
theorem uRDSR_of_device : ∃ r t, uRDSR .sr1 s = .done r t ∧ sawIdle r = true ∧ After s t ∧ OnDevice m wel t := by
  obtain ⟨answers, low⟩ := opened_of_onDevice h
  obtain ⟨t, sent, seen⟩ := sendAll_of_device answers [0x05#8]
  obtain ⟨u, received, later⟩ := xfer_of_device (seen.answers answers) t.cfg.dummy
  have dev : t.dev = (s.dev.csLow.exchangeAll [0x05#8]).2 := by rw [seen.dev, low]
  obtain ⟨holds, session⟩ := h.2.2.2.collected [0x05#8]
  rw [← dev] at holds session
  have answer : (t.dev.exchange t.cfg.dummy).1 = some t.dev.status1 := by
    have selected : t.dev.selected = true := by rw [dev, Flash.exchangeAll_selected]; rfl
    rw [Flash.exchange, if_pos selected, Flash.answer, session]
    rfl
  rw [answer, Option.getD_some] at received
  have run : recvFrame [rdsrOpc .sr1] 1 (opened s) = (some [t.dev.status1], u) := by
    rw [recvFrame, rdsrOpc, sent]
    simp only [recvAll, received]
  obtain ⟨v, done, after, onDevice⟩ := session_of_seen h run (seen.trans later) (holding_after_read h.2.2.2 (by decide) _)
  refine ⟨some t.dev.status1, setStatus .sr1 t.dev.status1 v, by rw [uRDSR, done, Run.bind_done]; rfl, ?_, ?_, onDevice⟩
  · rw [sawIdle, idleStatus, holds.status1_idle]
    rfl
  · obtain ⟨line, dev, count, phase, cur, trace, sr1, rfl⟩ := after
    exact ⟨line, dev, count, phase, cur, trace, t.dev.status1, rfl⟩

theorem waitThenDisable_of_device : ∃ t, waitThenDisable s = .done () t ∧ After s t ∧ OnDevice m false t := by
  obtain ⟨r, t, polled, idle, after, onDevice⟩ := uRDSR_of_device (s := setSeq .wait s) h
  obtain ⟨ok, u, disabled, later, onDevice'⟩ := uWRDI_of_device (s := setSeq .wrdi t) onDevice
  refine ⟨u, ?_, After.trans after later, onDevice'⟩
  rw [waitThenDisable, waitForever, polled, Run.bind_done, if_pos idle, Run.bind_done, disabled, Run.bind_done]

/-! The program sequence and the read. -/

omit h in
/-- With the automatic mode the bytes of an address inside the device are that address (R24, R96). -/
theorem natOfBytes_addrBytes_of_auto {p : Params} {bc : BitVec 16} (auto : p.addrMode = .auto) {addr : Nat} (h : addr < capacityOf bc) :
    natOfBytes (addrBytes (a4 p bc) (BitVec.ofNat 32 addr)) = addr := by
  have word : (BitVec.ofNat 32 addr).toNat = addr := toNat_ofNat_of_lt_word (h.trans (capacityOf_lt_word bc))
  cases width : a4 p bc with
  | true => rw [natOfBytes_four, word]
  | false =>
    have := capacityOf_le_of_auto_three auto width
    rw [natOfBytes_three, word, Nat.mod_eq_of_lt (by omega)]

variable (auto : s.cfg.addrMode = .auto) {addr : Nat} (haddr : addr < capacityOf s.blockcount)
include auto haddr

theorem programSession_of_device (latch : wel = true) {data : List Byte} (hd : data ≠ []) :
    ∃ t, session (programFrame (cmdAddr .program addr s) data) s = .done true t ∧ After s t ∧
      OnDevice (programCells m addr 0 data) false t := by
  subst latch
  obtain ⟨answers, -⟩ := opened_of_onDevice h
  obtain ⟨t, sent, seen⟩ := sendAll_of_device answers (cmdAddr .program addr s)
  obtain ⟨u, moved, later⟩ := bulkTx_of_device (s := setSeq .data t) (seen.answers answers) data
  have run : programFrame (cmdAddr .program addr s) data (opened s) = (true, u) := by
    rw [programFrame, sent]
    exact moved
  have holds := holding_after_program h.2.2.2 (op := opc .program (a4 s.cfg s.blockcount)) (data := data)
    (by cases a4 s.cfg s.blockcount <;> simp [opc]) (addrBytes_length (a4 s.cfg s.blockcount) (BitVec.ofNat 32 addr))
    (natOfBytes_addrBytes_of_auto auto haddr) haddr hd
  exact session_of_seen h run (seen.trans later) holds

theorem programPage_of_device {n : Nat} (len : Nat) {data : List Byte} (hd : data.take n ≠ []) :
    ∃ t, programPage addr n len data s = .done (n, writeKind n len) t ∧ After s t ∧
      OnDevice (programCells m addr 0 (data.take n)) false t := by
  obtain ⟨t, enabled, after, onDevice⟩ := uWREN_of_device (s := setSeq .wren s) h
  have same : t.cfg = s.cfg ∧ t.blockcount = s.blockcount := by
    obtain ⟨_, _, _, _, _, _, _, rfl⟩ := after
    exact ⟨rfl, rfl⟩
  obtain ⟨u, programmed, later, onDevice'⟩ := programSession_of_device (s := setCur addr (setSeq .cmd t)) onDevice
    (by rw [← auto, ← same.1]; rfl) (haddr.trans_eq (congrArg capacityOf same.2.symm)) rfl hd
  obtain ⟨v, ended, last, onDevice''⟩ := waitThenDisable_of_device onDevice'
  refine ⟨v, ?_, (After.trans after later).trans last, onDevice''⟩
  rw [programPage, enabled, Run.bind_done, if_pos rfl]
  refine (congrArg (Run.bind · _) programmed).trans ?_
  rw [Run.bind_done, if_pos rfl, programTail, ended, Run.bind_done]

/-- A read frame on the device: the cells from the address on, standard or fast, in either width. -/
theorem doRead_of_device {n : Nat} (fits : addr + n ≤ capacityOf s.blockcount) :
    ∃ t, doRead addr n s = .done (some (memReadRange m addr n)) t ∧ After s t ∧ OnDevice m wel t := by
  obtain ⟨answers, low⟩ := opened_of_onDevice (s := setCur addr (setSeq .cmd s)) h
  obtain ⟨u, v, run, collected, seen⟩ := readFrame_of_device answers (readHead s addr) (readDummies s) n
  obtain ⟨holds, session⟩ := Holding.collected (d := s.dev) h.2.2.2 (readHead s addr ++ readDummies s)
  have dev : u.dev = (s.dev.csLow.exchangeAll (readHead s addr ++ readDummies s)).2 := by rw [collected.dev, low]; rfl
  rw [← dev] at holds session
  obtain ⟨busy, -, size, mem, -⟩ := holds
  have selected : u.dev.selected = true := by rw [dev, Flash.exchangeAll_selected]; rfl
  have command : opc (if fastEffective s.cfg s.fast then .fastRead else .read) (a4 s.cfg s.blockcount) ∈
      [0x05#8, 0x03#8, 0x13#8, 0x0B#8, 0x0C#8] := by
    cases fastEffective s.cfg s.fast <;> cases a4 s.cfg s.blockcount <;> decide
  have data := Flash.exchangeAll_answers (more := []) (w := if a4 s.cfg s.blockcount then 4 else 3)
    (y := if fastEffective s.cfg s.fast then 1 else 0) (addr := addrBytes (a4 s.cfg s.blockcount) (BitVec.ofNat 32 addr))
    (dummies := readDummies s) (op := opc (if fastEffective s.cfg s.fast then .fastRead else .read) (a4 s.cfg s.blockcount))
    selected busy (by rw [session, List.append_nil]; rfl) (addrBytes_length ..)
    (by rw [readDummies]; split <;> rfl)
    (by cases fastEffective s.cfg s.fast <;> cases a4 s.cfg s.blockcount <;> simp [opc]) u.cfg.dummy n
  rw [natOfBytes_addrBytes_of_auto auto haddr] at data
  rw [deviceBytes_of_answers (a := addr) (data.trans (by simp)) (by rw [Flash.size, size]; exact fits), mem] at run
  have frame := session_of_seen (s := setCur addr (setSeq .cmd s)) h run seen (holding_after_read h.2.2.2 command _)
  obtain ⟨t, done, ⟨line, dev, count, phase, cur, trace, sr1, rfl⟩, onDevice⟩ := frame
  exact ⟨_, (doRead_eq addr n s).trans done, ⟨line, dev, count, phase, cur, trace, sr1, rfl⟩, onDevice⟩

end

/-- A READ on the device, not clamped (R221). -/
theorem exec_read_of_onDevice {m : List Host.Cell} {wel : Bool} {s : State} (hr : Ready s) (h : OnDevice m wel s)
    (auto : s.cfg.addrMode = .auto) {addr len : Word} (pos : 1 ≤ len.toNat) (fits : addr.toNat + len.toNat ≤ capacityOf s.blockcount) :
    NextWith (exec (.read addr len) s) fun u =>
      u.rdata = memReadRange m addr.toNat len.toNat ∧ u.result = len ∧ u.lasterr = .none := by
  have inside : addr.toNat < capacityOf s.blockcount := by omega
  have read : ReadOf s (.read addr len) addr.toNat len.toNat len.toNat :=
    .inl ⟨addr, len, rfl, rfl, rfl, inside, (Nat.min_eq_left (Nat.le_sub_of_add_le' fits)).symm⟩
  obtain ⟨op, a, b, l, run⟩ := exec_read_eq hr read
  obtain ⟨t, done, -⟩ := doRead_of_device (s := readAccepted op a b l s) h auto inside fits
  rw [run, readRange, if_neg (by omega), done, Run.bind_done, finishRead]
  exact ⟨_, rfl, rfl, BitVec.ofNat_toNat .., if_neg (lt_irrefl _)⟩

/-- Programmed from erased cells, the data is what is read (R65). -/
theorem memReadRange_programCells {m : List Host.Cell} (hm : MemWf m) {addr : Nat} {data : List Byte}
    (hfit : addr % 256 + data.length ≤ 256) (erased : ∀ k, k < data.length → memRead m (addr + k) = 0xFF#8) :
    memReadRange (programCells m addr 0 data) addr data.length = data := by
  refine List.ext_getElem (by simp [memReadRange]) fun i hi hd => ?_
  simp only [memReadRange, List.getElem_map, List.getElem_range]
  rw [memRead_programCells hm addr 0 data (by omega), if_pos (by omega), erased i hd, Nat.add_zero, Nat.add_sub_cancel_left,
    List.getD_eq_getElem _ _ hd]
  exact BitVec.allOnes_and

/-- A WRITEPAGE on the device, inside a page of the device (R190, R191). -/
theorem exec_writepage_of_onDevice {m : List Host.Cell} {wel : Bool} {s : State} (hr : Ready s) (h : OnDevice m wel s)
    (auto : s.cfg.addrMode = .auto) {a b len : Word} {data : List Byte} (hl : data.length = len.toNat) (pos : 1 ≤ len.toNat)
    (ha : a.toNat < unitMax s.blockcount .page) (hfit : b.toNat + len.toNat ≤ 256) :
    NextWith (exec (.writepage a b len data) s) fun t =>
      t.seq = .idle ∧ t.result = len ∧ t.lasterr = .none ∧ Ready t ∧ t.cfg = s.cfg ∧ t.blockcount = s.blockcount ∧
        OnDevice (programCells m (a.toNat * 256 + b.toNat) 0 data) false t := by
  have inside : a.toNat * 256 + b.toNat < capacityOf s.blockcount := by
    simp only [unitMax, pageMaxOf, capacityOf] at ha ⊢
    omega
  have whole : data.take len.toNat = data := List.take_of_length_le hl.le
  obtain ⟨t, written, after, onDevice⟩ := programPage_of_device (s := setSeq .check (writepageAt a b len data s)) h auto
    inside len.toNat (n := len.toNat) (data := data) (by rw [whole]; exact List.length_pos_iff.mp (by omega))
  have sub : doWritePage a.toNat b.toNat data len.toNat (writepageAt a b len data s) =
      .done (len.toNat, writeKind len.toNat len.toNat) t :=
    (doWritePage_eq (s := writepageAt a b len data s) ha (by omega) pos rfl (by omega)).trans written
  rw [exec_writepage_eq hr hl, runWritepage_of_done sub]
  rw [whole] at onDevice
  obtain ⟨hf, -, hd⟩ := hr
  obtain ⟨_, _, _, _, _, _, _, rfl⟩ := after
  exact ⟨_, rfl, rfl, BitVec.ofNat_toNat .., if_neg (lt_irrefl _), ⟨hf, rfl, hd⟩, rfl, rfl, onDevice⟩

/-- Settles O60: the program sequence on the device, then the read frame. -/
theorem readBack : Obligations.ReadBack := by
  unfold Obligations.ReadBack
  intro s a b len addr data legal hr depth script device auto busy refBusy blocks hl h1 ha hfit haddr erased
  have onDevice : OnDevice s.dev.mem s.dev.wel s :=
    ⟨⟨script, device⟩, depth, Nat.zero_lt_of_lt hr.2.2, busy, refBusy, blocks, rfl, rfl⟩
  obtain ⟨t, wrote, idle, result, kind, ready, cfg, blockcount, written⟩ :=
    exec_writepage_of_onDevice hr onDevice auto hl h1 ha hfit
  obtain ⟨u, read, rdata, rest⟩ := exec_read_of_onDevice (addr := addr) ready written (by rw [cfg, auto]) h1
    (by rw [blockcount, haddr, capacityOf]; omega)
  have back := memReadRange_programCells (memWf_of_legal legal) (addr := addr.toNat) (data := data) (by omega) (by rwa [hl])
  rw [← haddr, ← hl, back] at rdata
  exact ⟨t, wrote, idle, result, kind, u, read, rdata, rest⟩

end Sys2Proof.Machine
end
